-- ==== Sys2Proof/Word.lean ====
section
/-! DEFINITION. The word types of the block: a command word of 64 bits (30_encoding.md R80), a register of
32 bits (10_state.md R20, R40), a byte of a stream (20_memory.md R67). -/

namespace Sys2Proof

/-- A byte of the compressed stream. -/
abbrev Byte := BitVec 8

/-- A 32-bit register or immediate. -/
abbrev Word := BitVec 32

/-- A command word (R80); also the width of a response value (R88). -/
abbrev Command := BitVec 64

/-- The `ord` field of a command, two's complement (R80, R82). -/
abbrev Order := BitVec 8

/-- The `sym` field of a command: a symbol or an index, unsigned (R80, R82). -/
abbrev SymField := BitVec 16

end Sys2Proof
end

