-- ==== Sys2Proof/Syntax.lean ====
section
/-! DEFINITION. The twenty-three commands of the block (30_encoding.md R84), one constructor per row of
spec/opcode_table.json, with the operands as the fields of the command word give them (R80 to R82). -/

namespace Sys2Proof

/-- MODE (10_state.md R34), the operand of `START`: 0 = ENC, 1 = DEC. -/
inductive Mode where
  | enc
  | dec
  deriving DecidableEq, Repr, Inhabited

/-- A command with its operands. `o` is the `ord` field, `sym` a symbol, `r` or `i` an index, `v` or `c` the
`imm` field; format B has one bit. -/
inductive Instr where
  /-- `CRW r, v`: write a configuration register (45 R210). -/
  | crw (r : SymField) (v : Word)
  /-- `CRR r`: read a control register (45 R212). -/
  | crr (r : SymField)
  /-- `START m`: check the configuration and open a run (45 R214). -/
  | start (m : Mode)
  /-- `BRD`: read one bit (40 R103). -/
  | brd
  /-- `BWR b`: write one bit (40 R104). -/
  | bwr (b : Bool)
  /-- `BCLOSE`: flush and close (40 R105). -/
  | bclose
  /-- `FTOT o`: total of a table (41 R123). -/
  | ftot (o : Order)
  /-- `FGET o, s`: count of a symbol (41 R124). -/
  | fget (o : Order) (sym : SymField)
  /-- `FLOW o, s`: cumulative_low (41 R125). -/
  | flow (o : Order) (sym : SymField)
  /-- `FHIGH o, s`: cumulative_high (41 R126). -/
  | fhigh (o : Order) (sym : SymField)
  /-- `FINC o, s`: increment a count (41 R127). -/
  | finc (o : Order) (sym : SymField)
  /-- `FSET o, s, c`: set a count (41 R129). -/
  | fset (o : Order) (sym : SymField) (c : Word)
  /-- `CWALK o`: does a context exist (42 R143). -/
  | cwalk (o : Order)
  /-- `CINC s`: the statistics update (42 R144). -/
  | cinc (sym : SymField)
  /-- `HPUSH s`: the history update (42 R146). -/
  | hpush (sym : SymField)
  /-- `HRD i`: read a history entry (42 R148). -/
  | hrd (idx : SymField)
  /-- `NARROW o, s`: encode one symbol with one table (43 R170). -/
  | narrow (o : Order) (sym : SymField)
  /-- `FINISH`: the one additional bit (43 R171). -/
  | finish
  /-- `DINIT`: load the code register (43 R172). -/
  | dinit
  /-- `DECODE o`: decode one symbol with one table (43 R173). -/
  | decode (o : Order)
  /-- `RCRD r`: read a coder register (43 R176). -/
  | rcrd (r : SymField)
  /-- `ENCSYM s`: encode one symbol through the search (44 R191). -/
  | encsym (sym : SymField)
  /-- `DECSYM`: decode one symbol through the search (44 R195). -/
  | decsym
  deriving DecidableEq, Repr

end Sys2Proof
end

