-- ==== Sys2Proof/Config.lean ====
section
/-! DEFINITION. What an implementation fixes (00_scope.md R7) and the free values of the model: what the spec
leaves unspecified after a fault (60_exceptions.md R240; 93_implementation_defined.md S3). -/

namespace Sys2Proof

namespace Config

/-- The largest total, and so the largest count, a table may hold (R7, R128). -/
def totalMax : Nat := 2 ^ 32 - 1

/-- The largest value of the pending counter (R7, R166). -/
def pendMax : Nat := 2 ^ 32 - 1

/-- The open parameters of an implementation (R7; D10, D25): `none` is unbounded. They are data of the state
that nothing changes, so a claim about every state is a claim about every implementation. -/
structure Params where
  /-- NODE_MAX, the number of contexts the tree memory holds (R62). -/
  nodeMax    : Option Nat
  /-- TRUNC_LIMIT, the tail bits after which a decode step is refused (R238). -/
  truncLimit : Option Nat
  deriving DecidableEq, Repr

/-- R7: NODE_MAX is a natural number at least 1, or unbounded. -/
abbrev Params.Legal (p : Params) : Prop := p.nodeMax ≠ some 0

/-- The state that R240 says is lost at a fault, as one record of unspecified values. -/
structure Lost where
  mode      : Mode
  codeValid : Bool
  eos       : Bool
  tailbits  : BitVec 64
  nctx      : Nat
  low       : Word
  high      : Word
  code      : Word
  pending   : Word
  wbuf      : Byte
  wcnt      : BitVec 3
  rbuf      : Byte
  rcnt      : BitVec 3
  hist      : List Nat
  ctx       : List (List Nat × List (Nat × Nat))
  deriving DecidableEq, Repr, Inhabited

/-- FREE VALUE (log 6): what the lost state holds after the fault that the counter numbers. No body: nothing
can be proved of it. -/
opaque lost : Nat → Lost

/-- FREE VALUE (log 6): what a `CRR` of an unspecified register reads in phase FAULT, fresh at every read. -/
opaque freeRead : Nat → BitVec 64

end Config

end Sys2Proof
end

