-- ==== Sys2Proof/WellFormed.lean ====
section
/-! DEFINITION. Which commands are legal (30_encoding.md R82, R86): the conditions on the operands that are
properties of the word alone. Symbols and `HRD`'s index are checked against run state and are not here. -/

namespace Sys2Proof

/-- R82: an order designator is -1 (the flat table) or a context's order; below -1 it is illegal. -/
def Order.legal (o : Order) : Bool := decide (-1 ≤ o.toInt)

/-- R86: the registers `CRW` may name. -/
def configIndexLegal (r : SymField) : Bool := decide (r.toNat ≤ 3)

/-- R86, R212: the registers `CRR` may name. -/
def controlIndexLegal (r : SymField) : Bool := decide (r.toNat ≤ 3 ∨ (8 ≤ r.toNat ∧ r.toNat ≤ 12))

/-- R86, R176: the coder registers `RCRD` may name. -/
def coderIndexLegal (r : SymField) : Bool := decide (r.toNat ≤ 3)

/-- R86: the operands of the command lie in its index spaces. -/
def Instr.wellFormed : Instr → Bool
  | .crw r _    => configIndexLegal r
  | .crr r      => controlIndexLegal r
  | .start _    => true
  | .brd        => true
  | .bwr _      => true
  | .bclose     => true
  | .ftot o     => Order.legal o
  | .fget o _   => Order.legal o
  | .flow o _   => Order.legal o
  | .fhigh o _  => Order.legal o
  | .finc o _   => Order.legal o
  | .fset o _ _ => Order.legal o
  | .cwalk o    => Order.legal o
  | .cinc _     => true
  | .hpush _    => true
  | .hrd _      => true
  | .narrow o _ => Order.legal o
  | .finish     => true
  | .dinit      => true
  | .decode o   => Order.legal o
  | .rcrd r     => coderIndexLegal r
  | .encsym _   => true
  | .decsym     => true

end Sys2Proof
end

