-- ==== Sys2Proof/Decode.lean ====
section
/-! DEFINITION. The command encoding (30_encoding.md R80 to R87): the formats and their masks, the opcode map,
the decoder (total: every word is one command or is rejected by name), and the encoder written from the same
tables. -/

namespace Sys2Proof

/-- The seven formats (R81). -/
inductive Format where
  | N | B | S | T | TS | TSI | R
  deriving DecidableEq, Repr

/-- The bits of a word that a format fixes: the opcode and the bits that must be zero (R81). -/
def Format.mask : Format → Command
  | .N   => 0xFFFFFFFFFFFFFFFF
  | .B   => 0xFFFFFFFFFFFFFFFE
  | .S   => 0xFFFF0000FFFFFFFF
  | .T   => 0xFF00FFFFFFFFFFFF
  | .TS  => 0xFF000000FFFFFFFF
  | .TSI => 0xFF00000000000000
  | .R   => 0xFFFF000000000000

/-- The commands without their operands (R84). -/
inductive Opcode where
  | crw | crr | start
  | brd | bwr | bclose
  | ftot | fget | flow | fhigh | finc | fset
  | cwalk | cinc | hpush | hrd
  | narrow | finish | dinit | decode | rcrd
  | encsym | decsym
  deriving DecidableEq, Repr

/-- The opcode column of R84. -/
def Opcode.byte : Opcode → Byte
  | .crw    => 0x01
  | .crr    => 0x02
  | .start  => 0x03
  | .brd    => 0x10
  | .bwr    => 0x11
  | .bclose => 0x12
  | .ftot   => 0x20
  | .fget   => 0x21
  | .flow   => 0x22
  | .fhigh  => 0x23
  | .finc   => 0x24
  | .fset   => 0x25
  | .cwalk  => 0x30
  | .cinc   => 0x31
  | .hpush  => 0x32
  | .hrd    => 0x33
  | .narrow => 0x40
  | .finish => 0x41
  | .dinit  => 0x42
  | .decode => 0x43
  | .rcrd   => 0x44
  | .encsym => 0x50
  | .decsym => 0x51

/-- The format column of R84. -/
def Opcode.format : Opcode → Format
  | .crw    => .R
  | .crr    => .S
  | .start  => .B
  | .brd    => .N
  | .bwr    => .B
  | .bclose => .N
  | .ftot   => .T
  | .fget   => .TS
  | .flow   => .TS
  | .fhigh  => .TS
  | .finc   => .TS
  | .fset   => .TSI
  | .cwalk  => .T
  | .cinc   => .S
  | .hpush  => .S
  | .hrd    => .S
  | .narrow => .TS
  | .finish => .N
  | .dinit  => .N
  | .decode => .T
  | .rcrd   => .S
  | .encsym => .S
  | .decsym => .N

/-- Every opcode of R84, in the order of its rows. -/
def Opcode.all : List Opcode :=
  [.crw, .crr, .start, .brd, .bwr, .bclose, .ftot, .fget, .flow, .fhigh, .finc, .fset,
   .cwalk, .cinc, .hpush, .hrd, .narrow, .finish, .dinit, .decode, .rcrd, .encsym, .decsym]

/-- The command an opcode byte selects; a byte of no row of R84 selects none (R85). -/
def Opcode.ofByte (b : Byte) : Option Opcode :=
  Opcode.all.find? (fun op => op.byte == b)

/-- The opcode of a command. -/
def Instr.opcode : Instr → Opcode
  | .crw _ _    => .crw
  | .crr _      => .crr
  | .start _    => .start
  | .brd        => .brd
  | .bwr _      => .bwr
  | .bclose     => .bclose
  | .ftot _     => .ftot
  | .fget _ _   => .fget
  | .flow _ _   => .flow
  | .fhigh _ _  => .fhigh
  | .finc _ _   => .finc
  | .fset _ _ _ => .fset
  | .cwalk _    => .cwalk
  | .cinc _     => .cinc
  | .hpush _    => .hpush
  | .hrd _      => .hrd
  | .narrow _ _ => .narrow
  | .finish     => .finish
  | .dinit      => .dinit
  | .decode _   => .decode
  | .rcrd _     => .rcrd
  | .encsym _   => .encsym
  | .decsym     => .decsym

/-! ### The fields of a word (R80) -/

/-- Bits 63:56. -/
def opcodeField (w : Command) : Byte := w.extractLsb' 56 8
/-- Bits 55:48. -/
def ordField (w : Command) : Order := w.extractLsb' 48 8
/-- Bits 47:32. -/
def symField (w : Command) : SymField := w.extractLsb' 32 16
/-- Bits 31:0. -/
def immField (w : Command) : Word := w.extractLsb' 0 32
/-- Bit 0, the one operand of format B. -/
def immBit (w : Command) : Bool := w.getLsbD 0

/-- The operand of `START`: 0 is ENC, 1 is DEC (R84). -/
def modeOfBit (b : Bool) : Mode := if b then .dec else .enc

/-- The bit of a mode (R34). -/
def bitOfMode : Mode → Bool
  | .enc => false
  | .dec => true

/-- The command of an opcode with the operands the word's fields hold. -/
def Opcode.build (w : Command) : Opcode → Instr
  | .crw    => .crw (symField w) (immField w)
  | .crr    => .crr (symField w)
  | .start  => .start (modeOfBit (immBit w))
  | .brd    => .brd
  | .bwr    => .bwr (immBit w)
  | .bclose => .bclose
  | .ftot   => .ftot (ordField w)
  | .fget   => .fget (ordField w) (symField w)
  | .flow   => .flow (ordField w) (symField w)
  | .fhigh  => .fhigh (ordField w) (symField w)
  | .finc   => .finc (ordField w) (symField w)
  | .fset   => .fset (ordField w) (symField w) (immField w)
  | .cwalk  => .cwalk (ordField w)
  | .cinc   => .cinc (symField w)
  | .hpush  => .hpush (symField w)
  | .hrd    => .hrd (symField w)
  | .narrow => .narrow (ordField w) (symField w)
  | .finish => .finish
  | .dinit  => .dinit
  | .decode => .decode (ordField w)
  | .rcrd   => .rcrd (symField w)
  | .encsym => .encsym (symField w)
  | .decsym => .decsym

/-- Why a word is not a legal command; each case raises E_ILLEGAL with the opcode byte (R85, R86). -/
inductive DecodeError where
  /-- The opcode is in no row of R84 (R85). -/
  | unknownOpcode (op : Byte)
  /-- A bit the format fixes at zero is one (R86). -/
  | mustBeZero (op : Byte)
  /-- The `ord` field is below -1, or the `sym` field is outside the command's index space (R86). -/
  | operand (op : Byte)
  /-- Not eight bytes, where a command is carried byte by byte. -/
  | length (n : Nat)
  deriving DecidableEq, Repr

/-- The word has the fixed bits of the opcode's row: `w & mask = match`, `match = opcode * 2^56` (R81). -/
def Opcode.fits (op : Opcode) (w : Command) : Bool :=
  (w &&& op.format.mask) == (op.byte.zeroExtend 64 <<< 56)

/-- The decoder (R86): a word is exactly one command with its operands, or is rejected by name. -/
def decode (w : Command) : Except DecodeError Instr :=
  match Opcode.ofByte (opcodeField w) with
  | none    => .error (.unknownOpcode (opcodeField w))
  | some op =>
    if op.fits w then
      if (op.build w).wellFormed then .ok (op.build w) else .error (.operand (opcodeField w))
    else .error (.mustBeZero (opcodeField w))

/-- A command carried over a byte-wide channel: the most significant byte first (20_memory.md R65). -/
def wordOfBytes (bs : List Byte) : Command :=
  bs.foldl (fun w b => (w <<< 8) ||| b.zeroExtend 64) 0

/-- The decoder over bytes, total on any bytes (R65, R86). -/
def decodeBytes (bs : List Byte) : Except DecodeError Instr :=
  if bs.length = 8 then decode (wordOfBytes bs) else .error (.length bs.length)

/-! ### The encoder -/

/-- The four fields of a word put together (R80). -/
def packWord (op : Byte) (o : Order) (sym : SymField) (imm : Word) : Command :=
  op ++ o ++ sym ++ imm

/-- One bit in `imm[0]` (format B). -/
def immOfBit (b : Bool) : Word := if b then 1 else 0

/-- The word of a command; every field its format does not use is zero (R81, R84). -/
def encode (i : Instr) : Command :=
  let op := i.opcode.byte
  match i with
  | .crw r v      => packWord op 0 r v
  | .crr r        => packWord op 0 r 0
  | .start m      => packWord op 0 0 (immOfBit (bitOfMode m))
  | .brd          => packWord op 0 0 0
  | .bwr b        => packWord op 0 0 (immOfBit b)
  | .bclose       => packWord op 0 0 0
  | .ftot o       => packWord op o 0 0
  | .fget o sym   => packWord op o sym 0
  | .flow o sym   => packWord op o sym 0
  | .fhigh o sym  => packWord op o sym 0
  | .finc o sym   => packWord op o sym 0
  | .fset o sym c => packWord op o sym c
  | .cwalk o      => packWord op o 0 0
  | .cinc sym     => packWord op 0 sym 0
  | .hpush sym    => packWord op 0 sym 0
  | .hrd idx      => packWord op 0 idx 0
  | .narrow o sym => packWord op o sym 0
  | .finish       => packWord op 0 0 0
  | .dinit        => packWord op 0 0 0
  | .decode o     => packWord op o 0 0
  | .rcrd r       => packWord op 0 r 0
  | .encsym sym   => packWord op 0 sym 0
  | .decsym       => packWord op 0 0 0

/-- The command word of the bits `w` of a table row of `nbits` bits: bit 0 of the table is bit 0 of the one
64-bit word, and the bits above `nbits` are zero. Bits above the word make no command. -/
def tableWord (nbits w : Nat) : Option Command :=
  if w % 2 ^ nbits < 2 ^ 64 then some (BitVec.ofNat 64 (w % 2 ^ nbits)) else none

/-- The command the decoder reads from the bits of a row of spec/opcode_table.json. -/
def decodeTableWord (nbits w : Nat) : Option Instr :=
  match tableWord nbits w with
  | none   => none
  | some c =>
    match decode c with
    | .ok i    => some i
    | .error _ => none

end Sys2Proof
end

