-- ==== Sys2Proof/Machine/State.lean ====
section
/-! DEFINITION. The state of the block as plain data (10_state.md), the host's side of its ports
(20_memory.md R67 to R70), and the state after reset (10_state.md R55). -/

namespace Sys2Proof.Machine

/-- PHASE (10_state.md R33). -/
inductive Phase where
  | unconf
  | run
  | closed
  | fault
  deriving DecidableEq, Repr

/-- A byte port (20_memory.md R67, R68). -/
inductive Port where
  | input
  | output
  deriving DecidableEq, Repr

/-- The host's answer to one `InByte()` (R67); `never` is a host that does not answer. -/
inductive InAnswer where
  | byte (b : Byte)
  | eos
  | err
  | never
  deriving DecidableEq, Repr

/-- The host's answer to one `OutByte(b)` (R68); `never` is a host that does not answer. -/
inductive OutAnswer where
  | ok
  | err
  | never
  deriving DecidableEq, Repr

/-- One call the block makes on a byte port, with the host's answer (R67, R68, R71). -/
inductive PortCall where
  | inByte (a : InAnswer)
  | outByte (b : Byte) (a : OutAnswer)
  | inClose
  | outClose
  deriving DecidableEq, Repr

/-- The kind of a response (30_encoding.md R88). -/
inductive ResponseKind where
  | ok
  | absent
  | fault
  | refused
  deriving DecidableEq, Repr

/-- A response: a kind and a 64-bit value (R88). -/
structure Response where
  kind  : ResponseKind
  value : BitVec 64
  deriving DecidableEq, Repr

/-- What the host does at the block's command port and reset input (R69, R70): the next command word, reset
between two commands, or reset during a command, after `k` of the byte-port calls it makes. A reset comes with
the answers that the host's streams will give the next run. -/
inductive HostAction where
  | command (w : Command)
  | reset (input : List InAnswer) (sink : List OutAnswer)
  | resetDuring (w : Command) (k : Nat) (input : List InAnswer) (sink : List OutAnswer)
  deriving DecidableEq, Repr

/-- A path: the symbols that lead from the root to a context, the most recent first (10_state.md R48). -/
abbrev Path := List Nat

/-- The counts of a table, as (symbol, count) pairs in strictly rising order with no count of zero; an unlisted
symbol has count 0 (R48, R60). -/
abbrev Table := List (Nat × Nat)

/-- The context tree as the partial map of R48: (path, table) pairs, the paths strictly rising; an unlisted
path is an absent context. -/
abbrev Memory := List (Path × Table)

/-- The causes of the block's one exception, the fault (60_exceptions.md R231). Raising one is a next state. -/
inductive Cause where
  | config
  | symbol
  | total
  | ioRead
  | ioWrite
  | truncated
  | zeroFreq
  | illegal
  | sequence
  | flatMut
  | count
  | pending
  | nodes
  deriving DecidableEq, Repr

/-- How a step of the model can stop without a next state. The block's own faults (`Cause`) are not among
these: taking one is a next state. -/
inductive Fault where
  /-- Raised by `step` when the host presents a command while a command still waits for a byte port:
  60_exceptions.md R249 calls it not defined (93 S6). Safe: no claim holds of what follows. -/
  | commandWhileBusy
  deriving DecidableEq, Repr

/-- Why a step has no meaning in the model. -/
inductive Refusal where
  /-- Raised by `exec` for an instruction that has no meaning yet. Safe: nothing follows from it. -/
  | notModelled (mnemonic : String)
  deriving DecidableEq, Repr

/-- The state: the block's own (10_state.md), then the implementation's parameters, the host's side of the
ports, and the model's free-value counter. -/
structure State where
  /-- CR_P (R40). -/
  crP        : Word
  /-- CR_K, two's complement (R40). -/
  crK        : Word
  /-- CR_SL (R40). -/
  crSl       : Word
  /-- CR_ESC (R40). -/
  crEsc      : Word
  /-- PHASE (R33). -/
  phase      : Phase
  /-- MODE (R34). -/
  mode       : Mode
  /-- CODE_VALID (R35). -/
  codeValid  : Bool
  /-- EOS (R35). -/
  eos        : Bool
  /-- FAULT_CAUSE (R43). -/
  faultCause : BitVec 8
  /-- FAULT_INFO (R43). -/
  faultInfo  : Word
  /-- TAILBITS, saturating (R44). -/
  tailbits   : BitVec 64
  /-- NCTX (R45). -/
  nctx       : Nat
  /-- `low` (R20), below 2^P. -/
  low        : Word
  /-- `high` (R20), below 2^P. -/
  high       : Word
  /-- `code` (R20), below 2^P. -/
  code       : Word
  /-- `pending` (R20). -/
  pending    : Word
  /-- `wbuf` (R46). -/
  wbuf       : Byte
  /-- `wcnt` (R46). -/
  wcnt       : BitVec 3
  /-- `rbuf` (R46). -/
  rbuf       : Byte
  /-- `rcnt` (R46). -/
  rcnt       : BitVec 3
  /-- The history, most recent first; `hlen` is its length (R47). -/
  hist       : List Nat
  /-- The context tree with its tables (R48). -/
  ctx        : Memory
  /-- The port that a command in progress waits for, if the host has not answered it (20_memory.md R67). -/
  busy       : Option Port
  /-- NODE_MAX and TRUNC_LIMIT (00_scope.md R7); nothing changes them. -/
  params     : Config.Params
  /-- The answers the input byte source will give; after them, EOS (R67). -/
  input      : List InAnswer
  /-- The answers the output byte sink will give; after them, OK (R68). -/
  sink       : List OutAnswer
  /-- The byte-port calls made so far, oldest first (R54, R71). -/
  calls      : List PortCall
  /-- The responses given so far, oldest first (R88). -/
  responses  : List Response
  /-- What the host will do next (R54, R69). -/
  host       : List HostAction
  /-- The model's own counter: which free value comes next (log 6). -/
  freeCount  : Nat
  deriving DecidableEq, Repr

/-- The state right after reset (R55, R260), of a host that has done nothing yet. The registers that R55 leaves
unspecified hold 0 (log 5); the parameters are unbounded (log 8). -/
def State.reset : State where
  crP        := 32
  crK        := 3
  crSl       := 257
  crEsc      := 256
  phase      := .unconf
  mode       := .enc
  codeValid  := false
  eos        := false
  faultCause := 0
  faultInfo  := 0
  tailbits   := 0
  nctx       := 0
  low        := 0
  high       := 0
  code       := 0
  pending    := 0
  wbuf       := 0
  wcnt       := 0
  rbuf       := 0
  rcnt       := 0
  hist       := []
  ctx        := []
  busy       := none
  params     := { nodeMax := none, truncLimit := none }
  input      := []
  sink       := []
  calls      := []
  responses  := []
  host       := []
  freeCount  := 0

end Sys2Proof.Machine
end

