-- ==== Sys2Proof/Machine/Ops.lean ====
section
/-! DEFINITION. The named operations over the state: the configuration values, the tables and the tree memory,
the byte ports and the bit channel's two primitives, the result of a command, responses, taking a fault
(60_exceptions.md R240) and the return from one, reset (70_reset_and_hazards.md R260). -/

namespace Sys2Proof.Machine

/-! ### The configuration values and the constants derived from them -/

/-- P, the coder precision (00_scope.md R5; 10_state.md R41). -/
def State.P (s : State) : Nat := s.crP.toNat
/-- K, the model order, read as two's complement (R5, R41). -/
def State.K (s : State) : Int := s.crK.toInt
/-- SL, the alphabet size (R5, R41). -/
def State.SL (s : State) : Nat := s.crSl.toNat
/-- ESC, the reserved symbol (R5, R14, R41). -/
def State.ESC (s : State) : Nat := s.crEsc.toNat

/-- FULL = 2^P (R6). -/
def State.full (s : State) : Nat := 2 ^ s.P
/-- HALF = 2^(P-1) (R6). -/
def State.half (s : State) : Nat := 2 ^ (s.P - 1)
/-- QUARTER = 2^(P-2), which is also MAXTOTAL (R6). -/
def State.quarter (s : State) : Nat := 2 ^ (s.P - 2)
/-- MASK = FULL - 1 (R6). -/
def State.maxReg (s : State) : Nat := 2 ^ s.P - 1
/-- MINRANGE = QUARTER + 2 (R6). -/
def State.minRange (s : State) : Nat := s.quarter + 2

/-- hlen, the number of symbols the history holds (10_state.md R47). -/
def State.hlen (s : State) : Nat := s.hist.length

/-! ### Association lists in canonical form -/

/-- The value a key is listed with. -/
def lookup {κ β : Type} [DecidableEq κ] (k : κ) : List (κ × β) → Option β
  | [] => none
  | (k', v) :: rest => if k = k' then some v else lookup k rest

/-- Write the value of a key, keeping the keys in the order `lt`. -/
def insertKey {κ β : Type} [DecidableEq κ] (lt : κ → κ → Bool) (k : κ) (v : β) : List (κ × β) → List (κ × β)
  | [] => [(k, v)]
  | (k', v') :: rest =>
    if k = k' then (k, v) :: rest
    else if lt k k' then (k, v) :: (k', v') :: rest
    else (k', v') :: insertKey lt k v rest

/-- Take a key off the list. -/
def removeKey {κ β : Type} [DecidableEq κ] (k : κ) : List (κ × β) → List (κ × β)
  | [] => []
  | (k', v') :: rest => if k = k' then rest else (k', v') :: removeKey k rest

/-- The keys are strictly rising in the order `lt`. -/
def sortedKeys {κ β : Type} (lt : κ → κ → Bool) : List (κ × β) → Bool
  | [] => true
  | (k, _) :: rest => rest.all (fun e => lt k e.1) && sortedKeys lt rest

/-! ### Tables (41_frequency_table.md R122) -/

/-- The order of symbols. -/
def symbolLt (a b : Nat) : Bool := decide (a < b)

/-- A table is in canonical form: symbols strictly rising, no count of zero listed. -/
def Table.wf (t : Table) : Bool := sortedKeys symbolLt t && t.all (fun e => decide (e.2 ≠ 0))

/-- cnt(t, s); an unlisted symbol has count 0 (R122). -/
def Table.get (t : Table) (sym : Nat) : Nat := (lookup sym t).getD 0

/-- cnt(t, s) <- c (R127, R129); a count of zero is not listed. -/
def Table.set (t : Table) (sym c : Nat) : Table :=
  if c = 0 then removeKey sym t else insertKey symbolLt sym c t

/-- CumLow(t, s), the sum of cnt(t, j) for j < s (R122). -/
def Table.cumLow (t : Table) (sym : Nat) : Nat :=
  ((t.filter (fun e => decide (e.1 < sym))).map (fun e => e.2)).sum

/-- CumHigh(t, s) = CumLow(t, s) + cnt(t, s) (R122). -/
def Table.cumHigh (t : Table) (sym : Nat) : Nat := Table.cumLow t sym + Table.get t sym

/-- Total(t), the sum of cnt(t, j) for j < SL (R122). -/
def Table.total (sl : Nat) (t : Table) : Nat := Table.cumLow t sl

/-- A new table: cnt(ESC) = 1 and every other count 0 (42_context_tree.md R142). -/
def Table.fresh (esc : Nat) : Table := [(esc, 1)]

/-! ### The tree memory (10_state.md R48; 20_memory.md R60, R61) -/

/-- The order of paths: lexicographic, the shorter of two nested paths first. -/
def pathLt : Path → Path → Bool
  | [], [] => false
  | [], _ :: _ => true
  | _ :: _, [] => false
  | a :: p, b :: q => decide (a < b) || (decide (a = b) && pathLt p q)

/-- The canonical form of the tree memory: paths strictly rising, every table in canonical form. -/
def Memory.wf (m : Memory) : Bool := sortedKeys pathLt m && m.all (fun e => Table.wf e.2)

/-- ctx(p) exists (R48). -/
def Memory.has (m : Memory) (p : Path) : Bool := (lookup p m).isSome

/-- The table of ctx(p); for an absent context, the table with every count 0. -/
def Memory.table (m : Memory) (p : Path) : Table := (lookup p m).getD []

/-- ctx(p) <- t. -/
def Memory.write (m : Memory) (p : Path) (t : Table) : Memory := insertKey pathLt p t m

/-- Any list of tables, put in canonical form by the memory's own operations. -/
def Memory.ofList (entries : List (List Nat × List (Nat × Nat))) : Memory :=
  entries.foldl (fun m e => Memory.write m e.1 (e.2.foldl (fun t c => Table.set t c.1 c.2) [])) []

/-! ### The result of an operation inside a command -/

/-- Why an operation ends its command before its last line. -/
inductive Stop where
  /-- `raise <cause>(info)` (60_exceptions.md R240). -/
  | raised (cause : Cause) (info : Nat)
  /-- A byte port that the host does not answer (20_memory.md R67). -/
  | waiting (port : Port)
  deriving DecidableEq, Repr

/-- The result of an operation: a value and the state, or why the command ends here. -/
inductive Res (α : Type) where
  | done (value : α) (s : State)
  | stop (why : Stop) (s : State)
  deriving DecidableEq, Repr

/-- One operation after another (00_scope.md R10: statements execute in the order written). -/
def Res.andThen {α β : Type} (r : Res α) (f : α → State → Res β) : Res β :=
  match r with
  | .done a s => f a s
  | .stop why s => .stop why s

/-! ### Responses (30_encoding.md R88) -/

/-- Give a response. -/
def State.respond (s : State) (r : Response) : State := { s with responses := s.responses ++ [r] }

/-- OK with a value. -/
def Response.ok (v : BitVec 64) : Response := { kind := .ok, value := v }

/-- OK with a number. -/
def Response.okNat (n : Nat) : Response := Response.ok (BitVec.ofNat 64 n)

/-- ABSENT. -/
def Response.absent : Response := { kind := .absent, value := 0 }

/-- The number of a response kind (R88). -/
def ResponseKind.code : ResponseKind → Nat
  | .ok      => 0
  | .absent  => 1
  | .fault   => 2
  | .refused => 3

/-- The bytes handed to the sink and taken by it, in order: the list `out` of 10_state.md R54. -/
def State.out (s : State) : List Byte :=
  s.calls.filterMap fun c =>
    match c with
    | .outByte b .ok => some b
    | _ => none

/-! ### The fault (60_exceptions.md R231, R240, R241) -/

/-- The cause codes of R231. -/
def Cause.code : Cause → BitVec 8
  | .config    => 1
  | .symbol    => 2
  | .total     => 3
  | .ioRead    => 4
  | .ioWrite   => 5
  | .truncated => 6
  | .zeroFreq  => 7
  | .illegal   => 8
  | .sequence  => 9
  | .flatMut   => 10
  | .count     => 11
  | .pending   => 12
  | .nodes     => 13

/-- What R240 loses at a fault: every piece of the run's state takes an unspecified value (log 6). -/
def State.loseRun (s : State) : State :=
  let v := Config.lost s.freeCount
  { s with
    mode      := v.mode
    codeValid := v.codeValid
    eos       := v.eos
    tailbits  := v.tailbits
    nctx      := v.nctx
    low       := v.low
    high      := v.high
    code      := v.code
    pending   := v.pending
    wbuf      := v.wbuf
    wcnt      := v.wcnt
    rbuf      := v.rbuf
    rcnt      := v.rcnt
    hist      := v.hist
    ctx       := Memory.ofList v.ctx
    freeCount := s.freeCount + 1 }

/-- Fault entry (R240): FAULT_CAUSE and FAULT_INFO are written, PHASE becomes FAULT, the run's state is lost,
the response is FAULT with the cause code. No byte-port call is made and none is taken back. -/
def State.raise (s : State) (cause : Cause) (info : Nat) : State :=
  ({ s.loseRun with
      faultCause := cause.code
      faultInfo  := BitVec.ofNat 32 info
      phase      := .fault }).respond
    { kind := .fault, value := cause.code.zeroExtend 64 }

/-- The response in phase FAULT (R241): REFUSED with FAULT_CAUSE, and no effect at all. -/
def State.refuse (s : State) : State :=
  s.respond { kind := .refused, value := s.faultCause.zeroExtend 64 }

/-- The fault output line (20_memory.md R70): asserted exactly while PHASE = FAULT. -/
def State.faultOutput (s : State) : Bool := decide (s.phase = .fault)

/-- Reset (70_reset_and_hazards.md R260), the one way out of phase FAULT (R243): every piece of the block's
state takes its reset value; the implementation's parameters, the record of what the host has seen, and what
the host will do stay. The host's streams are those of the next run (log 13). -/
def State.resetBlock (s : State) (input : List InAnswer) (sink : List OutAnswer) : State :=
  { State.reset with
    params    := s.params
    input     := input
    sink      := sink
    calls     := s.calls
    responses := s.responses
    host      := s.host
    freeCount := s.freeCount }

/-- Reset during a command (R260): of what the command `after` did, only the first `k` byte-port calls it made
beyond those of `before` have happened; it gives no response. -/
def cutShort (before after : State) (k : Nat) (input : List InAnswer) (sink : List OutAnswer) : State :=
  { before.resetBlock input sink with
    calls     := before.calls ++ (after.calls.drop before.calls.length).take k
    freeCount := after.freeCount }

/-! ### The byte ports (20_memory.md R67, R68) -/

/-- `InByte()`: the next byte of the source, or none where it has ended. -/
def inByte (s : State) : Res (Option Byte) :=
  let a := s.input.headD .eos
  let s := { s with input := s.input.tail, calls := s.calls ++ [.inByte a] }
  match a with
  | .byte b => .done (some b) s
  | .eos    => .done none s
  | .err    => .stop (.raised .ioRead 0) s
  | .never  => .stop (.waiting .input) s

/-- `OutByte(b)`: hand a byte to the sink. -/
def outByte (b : Byte) (s : State) : Res Unit :=
  let a := s.sink.headD .ok
  let s := { s with sink := s.sink.tail, calls := s.calls ++ [.outByte b a] }
  match a with
  | .ok    => .done () s
  | .err   => .stop (.raised .ioWrite 0) s
  | .never => .stop (.waiting .output) s

/-- `InClose()`. -/
def inClose (s : State) : State := { s with calls := s.calls ++ [.inClose] }

/-- `OutClose()`. -/
def outClose (s : State) : State := { s with calls := s.calls ++ [.outClose] }

/-! ### The bit channel's primitives (40_bit_channel.md R101, R102) and `ReadCodeBit` (43 R167) -/

/-- `WriteBit(b)` (R101). -/
def writeBit (b : Bool) (s : State) : Res Unit :=
  let w : Byte := BitVec.ofNat 8 (s.wbuf.toNat * 2 + b.toNat)
  let n := s.wcnt.toNat + 1
  if n = 8 then
    (outByte w s).andThen fun _ s => .done () { s with wbuf := 0, wcnt := 0 }
  else
    .done () { s with wbuf := w, wcnt := BitVec.ofNat 3 n }

/-- `WriteBit(b)`, `n` times over. -/
def writeBits (b : Bool) : Nat → State → Res Unit
  | 0, s => .done () s
  | n + 1, s => (writeBit b s).andThen fun _ s => writeBits b n s

/-- `ReadBit()` (R102): a bit, or none for NOBITS. -/
def readBit (s : State) : Res (Option Bool) :=
  if s.rcnt = 0 then
    if s.eos then .done none s
    else
      (inByte s).andThen fun r s =>
        match r with
        | none   => .done none { s with eos := true }
        | some b => .done (some (b.getLsbD 7)) { s with rbuf := b, rcnt := 7 }
  else
    let n := s.rcnt.toNat - 1
    .done (some (s.rbuf.getLsbD n)) { s with rcnt := BitVec.ofNat 3 n }

/-- One more tail bit: TAILBITS + 1, saturating at 2^64 - 1 (10_state.md R44). -/
def State.countTailbit (s : State) : State :=
  { s with tailbits := if s.tailbits.toNat < 2 ^ 64 - 1 then s.tailbits + 1 else s.tailbits }

/-- `ReadCodeBit()` (R167): NOBITS reads as a 0, counted in TAILBITS. -/
def readCodeBit (s : State) : Res Bool :=
  (readBit s).andThen fun r s =>
    match r with
    | none   => .done false s.countTailbit
    | some b => .done b s

end Sys2Proof.Machine
end

