-- ==== Sys2Proof/Machine/Flags.lean ====
section
/-! DEFINITION. PHASE, MODE, CODE_VALID, EOS (10_state.md R33 to R36): the STATUS register made of them (R42),
which phase and mode accept which command (30_encoding.md R90), and the order of checks every command goes
through (60_exceptions.md R235). The block has no condition codes (R36). -/

namespace Sys2Proof.Machine

/-- The two bits of PHASE (R33). -/
def Phase.code : Phase → BitVec 2
  | .unconf => 0
  | .run    => 1
  | .closed => 2
  | .fault  => 3

/-- BCNT (R42): `wcnt` in mode ENC, `rcnt` in mode DEC. -/
def State.bcnt (s : State) : BitVec 3 :=
  match s.mode with
  | .enc => s.wcnt
  | .dec => s.rcnt

/-- BBUF (R42): `wbuf` in mode ENC, `rbuf` in mode DEC. -/
def State.bbuf (s : State) : Byte :=
  match s.mode with
  | .enc => s.wbuf
  | .dec => s.rbuf

/-- STATUS, assembled from the live state (R42); bits 15:12 and 7:5 read as zero. -/
def State.status (s : State) : Word :=
  s.bbuf ++ BitVec.ofNat 8 s.hlen ++ (0 : BitVec 4) ++ s.bcnt.zeroExtend 4 ++ (0 : BitVec 3) ++
    BitVec.ofBool s.eos ++ BitVec.ofBool s.codeValid ++ BitVec.ofBool (bitOfMode s.mode) ++ s.phase.code

/-- What mode ENC accepts in phase RUN beyond what both modes do (R90). -/
def acceptsEnc : Opcode → Bool
  | .bwr | .narrow | .finish | .encsym => true
  | _ => false

/-- What mode DEC accepts in phase RUN beyond what both modes do (R90). -/
def acceptsDec (codeValid : Bool) : Opcode → Bool
  | .brd => true
  | .dinit => !codeValid
  | .decode | .decsym => codeValid
  | _ => false

/-- What both modes accept in phase RUN (R90). -/
def acceptsRun : Opcode → Bool
  | .crr | .bclose | .ftot | .fget | .flow | .fhigh | .finc | .fset | .cwalk | .cinc | .hpush | .hrd | .rcrd => true
  | _ => false

/-- What phase CLOSED accepts: the commands that change nothing (R90). -/
def acceptsClosed : Opcode → Bool
  | .crr | .ftot | .fget | .flow | .fhigh | .cwalk | .hrd | .rcrd => true
  | _ => false

/-- What phase UNCONF accepts (R90). -/
def acceptsUnconf : Opcode → Bool
  | .crw | .crr | .start => true
  | _ => false

/-- The acceptance table (R90). -/
def State.accepts (s : State) (op : Opcode) : Bool :=
  match s.phase with
  | .unconf => acceptsUnconf op
  | .run =>
    acceptsRun op ||
      (match s.mode with
       | .enc => acceptsEnc op
       | .dec => acceptsDec s.codeValid op)
  | .closed => acceptsClosed op
  | .fault => decide (op = .crr)

/-- How a command ends: its response (R88), fault entry (R240), or the wait for a byte port (20 R67). -/
def finishCommand (r : Res Response) : State :=
  match r with
  | .done resp s => s.respond resp
  | .stop (.raised cause info) s => s.raise cause info
  | .stop (.waiting port) s => { s with busy := some port }

/-- The opcode as FAULT_INFO holds it (R231). -/
def Instr.info (i : Instr) : Nat := i.opcode.byte.toNat

/-- The checks that come before a command's own steps, in the order of R235: phase FAULT refuses every word but
a legal `CRR` (R241), an illegal word raises E_ILLEGAL (R86), a command not accepted raises E_SEQUENCE (R90). -/
def runCommand (i : Instr) (s : State) (body : State → Res Response) : State :=
  if s.phase = .fault ∧ ¬ (i.opcode = .crr ∧ i.wellFormed) then s.refuse
  else if ¬ i.wellFormed then s.raise .illegal (Instr.info i)
  else if ¬ s.accepts i.opcode then s.raise .sequence (Instr.info i)
  else finishCommand (body s)

/-- A word that is no command (R85, R86): E_ILLEGAL with the opcode byte, or REFUSED in phase FAULT (R241). -/
def illegalWord (w : Command) (s : State) : State :=
  if s.phase = .fault then s.refuse else s.raise .illegal (opcodeField w).toNat

end Sys2Proof.Machine
end

