-- ==== Sys2Proof/Machine/Operands.lean ====
section
/-! DEFINITION. The operands of commands: the symbol check (41_frequency_table.md R120), the table an order
designator names (42_context_tree.md R141), the table functions on it (41 R121, R122), the symbol search
(43_range_coder.md R174), and the register files by their numbers (10_state.md R20, R40). -/

namespace Sys2Proof.Machine

/-- A table a command works on (R11): the flat table, or the table of an existing context. -/
inductive TableRef where
  | flat
  | context (p : Path)
  deriving DecidableEq, Repr

/-- `Resolve(o)` (R141), for `o >= -1`; none is `absent`. -/
def State.resolve (s : State) (o : Int) : Option TableRef :=
  if o = -1 then some .flat
  else if s.hlen < o.toNat then none
  else if Memory.has s.ctx (s.hist.take o.toNat) then some (.context (s.hist.take o.toNat))
  else none

/-- Total(t) (R121, R122). -/
def State.total (s : State) : TableRef → Nat
  | .flat => s.SL
  | .context p => Table.total s.SL (Memory.table s.ctx p)

/-- Get(t, s) (R121, R122). -/
def State.get (s : State) (t : TableRef) (sym : Nat) : Nat :=
  match t with
  | .flat => 1
  | .context p => Table.get (Memory.table s.ctx p) sym

/-- CumLow(t, s) (R121, R122). -/
def State.cumLow (s : State) (t : TableRef) (sym : Nat) : Nat :=
  match t with
  | .flat => sym
  | .context p => Table.cumLow (Memory.table s.ctx p) sym

/-- CumHigh(t, s) (R121, R122). -/
def State.cumHigh (s : State) (t : TableRef) (sym : Nat) : Nat :=
  match t with
  | .flat => sym + 1
  | .context p => Table.cumHigh (Memory.table s.ctx p) sym

/-- The binary search of R174 over a table's cumulative values: halve `[start, stop)` until one symbol is left. -/
def searchSymbol (cumLow : Nat → Nat) (value : Nat) : Nat → Nat → Nat → Nat
  | 0, start, _ => start
  | fuel + 1, start, stop =>
    if 1 < stop - start then
      if value < cumLow ((start + stop) / 2) then searchSymbol cumLow value fuel start ((start + stop) / 2)
      else searchSymbol cumLow value fuel ((start + stop) / 2) stop
    else start

/-- `FindSymbol(t, value)` (R174). Thirty-two halvings leave one symbol of any SL a 32-bit register holds. -/
def State.findSymbol (s : State) (t : TableRef) (value : Nat) : Nat :=
  searchSymbol (s.cumLow t) value 32 0 s.SL

/-- R120: a symbol operand is checked before its table is resolved and before any state changes. -/
def withSymbol (sym : SymField) (s : State) (k : State → Res Response) : Res Response :=
  if s.SL ≤ sym.toNat then .stop (.raised .symbol sym.toNat) s else k s

/-- The table an `ord` operand names; where it does not resolve the response is ABSENT and nothing is done
(R88, R141). -/
def withTable (o : Order) (s : State) (k : TableRef → State → Res Response) : Res Response :=
  match s.resolve o.toInt with
  | none => .done .absent s
  | some t => k t s

/-- The coder registers by number (R20). In mode ENC `code` holds 0, in mode DEC `pending` holds 0 (R176). -/
def State.coderReg (s : State) (r : SymField) : Word :=
  if r = 0 then s.low
  else if r = 1 then s.high
  else if r = 2 then s.code
  else s.pending

/-- The control registers by number, zero-extended to 64 bits (R40, R212), outside phase FAULT. -/
def State.controlReg (s : State) (r : SymField) : BitVec 64 :=
  if r = 0 then s.crP.zeroExtend 64
  else if r = 1 then s.crK.zeroExtend 64
  else if r = 2 then s.crSl.zeroExtend 64
  else if r = 3 then s.crEsc.zeroExtend 64
  else if r = 8 then s.status.zeroExtend 64
  else if r = 9 then s.faultCause.zeroExtend 64
  else if r = 10 then s.faultInfo.zeroExtend 64
  else if r = 11 then s.tailbits
  else (BitVec.ofNat 32 s.nctx).zeroExtend 64

/-- The registers that R240 leaves unspecified in phase FAULT: STATUS but for PHASE, TAILBITS, NCTX. -/
def lostRegister (r : SymField) : Bool := decide (r = 8 ∨ r = 11 ∨ r = 12)

/-- What such a register reads in phase FAULT: a free value in the register's width, with PHASE true in STATUS. -/
def State.lostReg (s : State) (r : SymField) : BitVec 64 :=
  let v := Config.freeRead s.freeCount
  if r = 8 then (v.extractLsb' 2 30 ++ s.phase.code).zeroExtend 64
  else if r = 11 then v
  else (v.extractLsb' 0 32).zeroExtend 64

/-- CR[r] <- v (45_system_control.md R210). -/
def State.setConfig (s : State) (r : SymField) (v : Word) : State :=
  if r = 0 then { s with crP := v }
  else if r = 1 then { s with crK := v }
  else if r = 2 then { s with crSl := v }
  else { s with crEsc := v }

end Sys2Proof.Machine
end

