-- ==== Sys2Proof/Machine/BitChannel.lean ====
section
/-! DEFINITION. The bit channel's commands (40_bit_channel.md). -/

namespace Sys2Proof.Machine

/-- `BRD` (R103): 0, 1, or 2 for "no more bits". -/
def execBrd (s : State) : Host.Outcome State Fault Refusal :=
  .next (runCommand .brd s fun s =>
    (readBit s).andThen fun r s =>
      match r with
      | none   => .done (.okNat 2) s
      | some b => .done (.okNat b.toNat) s)

/-- `BWR b` (R104). -/
def execBwr (b : Bool) (s : State) : Host.Outcome State Fault Refusal :=
  .next (runCommand (.bwr b) s fun s =>
    (writeBit b s).andThen fun _ s => .done (.okNat 0) s)

/-- Flush the partial byte of mode ENC, its low bits zero (R105); with `wcnt = 0` there is none. -/
def flushBits (s : State) : Res Unit :=
  if 0 < s.wcnt.toNat then
    (outByte (BitVec.ofNat 8 (s.wbuf.toNat * 2 ^ (8 - s.wcnt.toNat))) s).andThen fun _ s =>
      .done () { s with wbuf := 0, wcnt := 0 }
  else .done () s

/-- Close the stream of the mode (R105). -/
def closeStream (s : State) : Res Unit :=
  match s.mode with
  | .enc => (flushBits s).andThen fun _ s => .done () (outClose s)
  | .dec => .done () (inClose s)

/-- `BCLOSE` (R105). -/
def execBclose (s : State) : Host.Outcome State Fault Refusal :=
  .next (runCommand .bclose s fun s =>
    (closeStream s).andThen fun _ s => .done (.okNat 0) { s with phase := .closed })

end Sys2Proof.Machine
end

