-- ==== Sys2Proof/Machine/FrequencyTable.lean ====
section
/-! DEFINITION. The frequency table's commands (41_frequency_table.md) and `Increment`, which the statistics
update shares. -/

namespace Sys2Proof.Machine

/-- cnt(ctx(p), sym) <- c. -/
def State.setCount (s : State) (p : Path) (sym c : Nat) : State :=
  { s with ctx := Memory.write s.ctx p (Table.set (Memory.table s.ctx p) sym c) }

/-- `Increment(t, s)` (R127) on the table of the context at `p`. -/
def increment (p : Path) (sym : Nat) (s : State) : Res Unit :=
  if s.total (.context p) = Config.totalMax then .stop (.raised .count sym) s
  else .done () (s.setCount p sym (s.get (.context p) sym + 1))

/-- A write of a count (R127, R129): the flat table cannot be written (R130). -/
def withWritable (i : Instr) (t : TableRef) (s : State) (k : Path → State → Res Unit) : Res Response :=
  match t with
  | .flat => .stop (.raised .flatMut (Instr.info i)) s
  | .context p => (k p s).andThen fun _ s => .done (.okNat 0) s

/-- `FTOT o` (R123). -/
def execFtot (o : Order) (s : State) : Host.Outcome State Fault Refusal :=
  .next (runCommand (.ftot o) s fun s =>
    withTable o s fun t s => .done (.okNat (s.total t)) s)

/-- `FGET o, s` (R124). -/
def execFget (o : Order) (sym : SymField) (s : State) : Host.Outcome State Fault Refusal :=
  .next (runCommand (.fget o sym) s fun s =>
    withSymbol sym s fun s =>
      withTable o s fun t s => .done (.okNat (s.get t sym.toNat)) s)

/-- `FLOW o, s` (R125). -/
def execFlow (o : Order) (sym : SymField) (s : State) : Host.Outcome State Fault Refusal :=
  .next (runCommand (.flow o sym) s fun s =>
    withSymbol sym s fun s =>
      withTable o s fun t s => .done (.okNat (s.cumLow t sym.toNat)) s)

/-- `FHIGH o, s` (R126). -/
def execFhigh (o : Order) (sym : SymField) (s : State) : Host.Outcome State Fault Refusal :=
  .next (runCommand (.fhigh o sym) s fun s =>
    withSymbol sym s fun s =>
      withTable o s fun t s => .done (.okNat (s.cumHigh t sym.toNat)) s)

/-- `FINC o, s` (R127). -/
def execFinc (o : Order) (sym : SymField) (s : State) : Host.Outcome State Fault Refusal :=
  .next (runCommand (.finc o sym) s fun s =>
    withSymbol sym s fun s =>
      withTable o s fun t s =>
        withWritable (.finc o sym) t s fun p s => increment p sym.toNat s)

/-- Set a count (R129): the new total may be neither 0 nor above TOTAL_MAX. -/
def assignCount (p : Path) (sym c : Nat) (s : State) : Res Unit :=
  let n := s.total (.context p) - s.get (.context p) sym + c
  if n = 0 ∨ Config.totalMax < n then .stop (.raised .count sym) s
  else .done () (s.setCount p sym c)

/-- `FSET o, s, c` (R129). -/
def execFset (o : Order) (sym : SymField) (c : Word) (s : State) : Host.Outcome State Fault Refusal :=
  .next (runCommand (.fset o sym c) s fun s =>
    withSymbol sym s fun s =>
      withTable o s fun t s =>
        withWritable (.fset o sym c) t s fun p s => assignCount p sym.toNat c.toNat s)

end Sys2Proof.Machine
end

