-- ==== Sys2Proof/Machine/ContextTree.lean ====
section
/-! DEFINITION. The context tree's and the history's commands (42_context_tree.md), with the statistics update
and the history update that the symbol driver shares. -/

namespace Sys2Proof.Machine

/-- `Create(p)` (R142). -/
def createContext (p : Path) (s : State) : Res Unit :=
  if s.params.nodeMax = some s.nctx then .stop (.raised .nodes s.nctx) s
  else .done () { s with ctx := Memory.write s.ctx p (Table.fresh s.ESC), nctx := s.nctx + 1 }

/-- One context of the update path: created if it does not exist, then incremented (R144). -/
def visitContext (sym : Nat) (p : Path) (s : State) : Res Unit :=
  (if Memory.has s.ctx p then .done () s else createContext p s).andThen fun _ s => increment p sym s

/-- The contexts of the update path, in order, root first (R144). -/
def visitAll (sym : Nat) : List Path → State → Res Unit
  | [], s => .done () s
  | p :: rest, s => (visitContext sym p s).andThen fun _ s => visitAll sym rest s

/-- The update path: the root, then the contexts of the 1, 2, ..., min(hlen, K) most recent symbols (R144). -/
def State.updatePaths (s : State) : List Path :=
  (List.range (min s.hlen s.K.toNat + 1)).map (fun n => s.hist.take n)

/-- `UpdateContexts(s)` (R144). -/
def updateContexts (sym : Nat) (s : State) : Res Unit :=
  if s.K = -1 then .done () s else visitAll sym s.updatePaths s

/-- `PushHistory(s)` (R146): the new history is the symbol and the K - 1 most recent of the old ones. -/
def State.pushHistory (s : State) (sym : Nat) : State :=
  if s.K ≤ 0 then s else { s with hist := (sym :: s.hist).take s.K.toNat }

/-- `CWALK o` (R143). -/
def execCwalk (o : Order) (s : State) : Host.Outcome State Fault Refusal :=
  .next (runCommand (.cwalk o) s fun s =>
    withTable o s fun _ s => .done (.okNat 0) s)

/-- `CINC s` (R144). -/
def execCinc (sym : SymField) (s : State) : Host.Outcome State Fault Refusal :=
  .next (runCommand (.cinc sym) s fun s =>
    withSymbol sym s fun s =>
      (updateContexts sym.toNat s).andThen fun _ s => .done (.okNat 0) s)

/-- `HPUSH s` (R146). -/
def execHpush (sym : SymField) (s : State) : Host.Outcome State Fault Refusal :=
  .next (runCommand (.hpush sym) s fun s =>
    withSymbol sym s fun s => .done (.okNat 0) (s.pushHistory sym.toNat))

/-- `HRD i` (R148). -/
def execHrd (idx : SymField) (s : State) : Host.Outcome State Fault Refusal :=
  .next (runCommand (.hrd idx) s fun s =>
    match s.hist[idx.toNat]? with
    | none     => .done .absent s
    | some sym => .done (.okNat sym) s)

end Sys2Proof.Machine
end

