-- ==== Sys2Proof/Machine/RangeCoder.lean ====
section
/-! DEFINITION. The range coder (43_range_coder.md): narrowing, normalisation, the coding step and the decoding
step, and the coder's commands. Arithmetic is exact on natural numbers and is narrowed to the register at the
end (R8, R163). -/

namespace Sys2Proof.Machine

/-! ### The arithmetic of the interval -/

/-- new_low of R161. -/
def narrowLow (low high total cl : Nat) : Nat := low + cl * (high - low + 1) / total

/-- new_high of R161. -/
def narrowHigh (low high total ch : Nat) : Nat := low + ch * (high - low + 1) / total - 1

/-- value of R173. -/
def decodeValue (low high code total : Nat) : Nat := ((code - low + 1) * total - 1) / (high - low + 1)

/-- The E1/E2 shift of `low` and of `code` (R168): one bit enters at the bottom, the top bit is dropped. -/
def shiftE12 (P x : Nat) (b : Bool) : Nat := (x * 2) % 2 ^ P + b.toNat

/-- The E3 shift of `low` and `high` (R169): 2 x - HALF, plus the bit that enters. -/
def shiftE3 (P x : Nat) (b : Bool) : Nat := 2 * x - 2 ^ (P - 1) + b.toNat

/-- The E3 shift of `code` (R169): the top bit stays, the rest moves up, one bit enters. -/
def shiftE3Code (P x : Nat) (b : Bool) : Nat :=
  (x.testBit (P - 1)).toNat * 2 ^ (P - 1) + (x * 2) % 2 ^ (P - 1) + b.toNat

/-- The top bits of `low` and `high` are equal: the condition of an E1/E2 step (R165). -/
def sameTop (P low high : Nat) : Bool := low.testBit (P - 1) == high.testBit (P - 1)

/-- `low[P-2] = 1` and `high[P-2] = 0`: the condition of an E3 step once the top bits differ (R165). -/
def straddles (P low high : Nat) : Bool := low.testBit (P - 2) && !high.testBit (P - 2)

/-! ### The coder's steps -/

/-- Write `low` and `high`. -/
def State.setInterval (s : State) (low high : Nat) : State :=
  { s with low := BitVec.ofNat 32 low, high := BitVec.ofNat 32 high }

/-- Write `code`. -/
def State.setCode (s : State) (code : Nat) : State := { s with code := BitVec.ofNat 32 code }

/-- `Narrow(total, cl, ch)` (R161): both bounds from the old ones. -/
def State.narrowTo (s : State) (total cl ch : Nat) : State :=
  s.setInterval (narrowLow s.low.toNat s.high.toNat total cl) (narrowHigh s.low.toNat s.high.toNat total ch)

/-- The shift of `low` and `high` at the end of `StepE12` (R168). -/
def State.shiftInterval12 (s : State) : State :=
  s.setInterval (shiftE12 s.P s.low.toNat false) (shiftE12 s.P s.high.toNat true)

/-- The shift of `low` and `high` at the end of `StepE3` (R169). -/
def State.shiftInterval3 (s : State) : State :=
  s.setInterval (shiftE3 s.P s.low.toNat false) (shiftE3 s.P s.high.toNat true)

/-- Emit a definite bit and the complementary bits owed (R168). -/
def emitBit (b : Bool) (s : State) : Res Unit :=
  (writeBit b s).andThen fun _ s =>
    (writeBits (!b) s.pending.toNat s).andThen fun _ s => .done () { s with pending := 0 }

/-- Take the next code bit in at the bottom of `code`, moving `code` as `shift` says (R168, R169, R172). -/
def takeBit (shift : Nat → Nat → Bool → Nat) (s : State) : Res Unit :=
  (readCodeBit s).andThen fun b s => .done () (s.setCode (shift s.P s.code.toNat b))

/-- `StepE12` (R168). -/
def stepE12 (s : State) : Res Unit :=
  (match s.mode with
   | .enc => emitBit (s.low.toNat.testBit (s.P - 1)) s
   | .dec => takeBit shiftE12 s).andThen fun _ s => .done () s.shiftInterval12

/-- One more bit owed (R166, R169). -/
def deferBit (s : State) : Res Unit :=
  if s.pending.toNat = Config.pendMax then .stop (.raised .pending 0) s
  else .done () { s with pending := s.pending + 1 }

/-- `StepE3` (R169). -/
def stepE3 (s : State) : Res Unit :=
  (match s.mode with
   | .enc => deferBit s
   | .dec => takeBit shiftE3Code s).andThen fun _ s => .done () s.shiftInterval3

/-- The loop of `Normalize` (R165), for at most `fuel` steps. -/
def normalizeLoop : Nat → State → Res Unit
  | 0, s => .done () s
  | fuel + 1, s =>
    if sameTop s.P s.low.toNat s.high.toNat then
      (stepE12 s).andThen fun _ s => normalizeLoop fuel s
    else if straddles s.P s.low.toNat s.high.toNat then
      (stepE3 s).andThen fun _ s => normalizeLoop fuel s
    else .done () s

/-- `Normalize` (R165). It makes at most `2 P - 1` steps (R177), so `2 P` rounds reach its exit. -/
def normalize (s : State) : Res Unit := normalizeLoop (2 * s.P) s

/-- `CodeStep(t, s)` (R160): E_TOTAL (R162), then E_ZEROFREQ (R164), then narrow and normalise. -/
def codeStep (t : TableRef) (sym : Nat) (s : State) : Res Unit :=
  let total := s.total t
  if s.quarter < total then .stop (.raised .total total) s
  else
    let cl := s.cumLow t sym
    let ch := s.cumHigh t sym
    if cl = ch then .stop (.raised .zeroFreq sym) s
    else normalize (s.narrowTo total cl ch)

/-- TAILBITS has reached TRUNC_LIMIT (60_exceptions.md R238). -/
def State.truncated (s : State) : Bool :=
  match s.params.truncLimit with
  | none => false
  | some n => decide (n ≤ s.tailbits.toNat)

/-- `DecodeWith(t)` (R173). -/
def decodeWith (t : TableRef) (s : State) : Res Nat :=
  if s.truncated then .stop (.raised .truncated (min s.tailbits.toNat (2 ^ 32 - 1))) s
  else
    let total := s.total t
    if s.quarter < total then .stop (.raised .total total) s
    else
      let sym := s.findSymbol t (decodeValue s.low.toNat s.high.toNat s.code.toNat total)
      (codeStep t sym s).andThen fun _ s => .done sym s

/-! ### The commands -/

/-- `NARROW o, s` (R170). -/
def execNarrow (o : Order) (sym : SymField) (s : State) : Host.Outcome State Fault Refusal :=
  .next (runCommand (.narrow o sym) s fun s =>
    withSymbol sym s fun s =>
      withTable o s fun t s =>
        (codeStep t sym.toNat s).andThen fun _ s => .done (.okNat 0) s)

/-- `FINISH` (R171): the bit is 1; `pending` is neither emitted nor cleared. -/
def execFinish (s : State) : Host.Outcome State Fault Refusal :=
  .next (runCommand .finish s fun s =>
    (writeBit true s).andThen fun _ s => .done (.okNat 0) s)

/-- Read `n` bits into `code` (R172). -/
def loadCode : Nat → State → Res Unit
  | 0, s => .done () s
  | n + 1, s => (takeBit shiftE12 s).andThen fun _ s => loadCode n s

/-- `DINIT` (R172). -/
def execDinit (s : State) : Host.Outcome State Fault Refusal :=
  .next (runCommand .dinit s fun s =>
    (loadCode s.P (s.setCode 0)).andThen fun _ s => .done (.okNat 0) { s with codeValid := true })

/-- `DECODE o` (R173). -/
def execDecode (o : Order) (s : State) : Host.Outcome State Fault Refusal :=
  .next (runCommand (.decode o) s fun s =>
    withTable o s fun t s =>
      (decodeWith t s).andThen fun sym s => .done (.okNat sym) s)

/-- `RCRD r` (R176). -/
def execRcrd (r : SymField) (s : State) : Host.Outcome State Fault Refusal :=
  .next (runCommand (.rcrd r) s fun s => .done (.ok ((s.coderReg r).zeroExtend 64)) s)

end Sys2Proof.Machine
end

