-- ==== Sys2Proof/Machine/SymbolDriver.lean ====
section
/-! DEFINITION. The symbol driver's two composite commands (44_symbol_driver.md): the order-descending search
with escape fallback, then the statistics update and the history update. -/

namespace Sys2Proof.Machine

/-- The encoder's search (R191): `n` candidate orders are left, `n - 1` down to 0, then the flat table. -/
def encodeSearch (sym : Nat) : Nat → State → Res Unit
  | 0, s => codeStep .flat sym s
  | n + 1, s =>
    match s.resolve n with
    | none => encodeSearch sym n s
    | some t =>
      if sym ≠ s.ESC ∧ 0 < s.get t sym then codeStep t sym s
      else (codeStep t s.ESC s).andThen fun _ s => encodeSearch sym n s

/-- The decoder's search (R195): `n` candidate orders are left, `n - 1` down to 0, then the flat table. -/
def decodeSearch : Nat → State → Res Nat
  | 0, s => decodeWith .flat s
  | n + 1, s =>
    match s.resolve n with
    | none => decodeSearch n s
    | some t =>
      (decodeWith t s).andThen fun y s =>
        if y ≠ s.ESC then .done y s else decodeSearch n s

/-- The model update after a symbol, the same on both sides, EOF included (R191, R195, R196). -/
def updateModel (sym : Nat) (s : State) : Res Unit :=
  (updateContexts sym s).andThen fun _ s => .done () (s.pushHistory sym)

/-- `ENCSYM s` (R191). -/
def execEncsym (sym : SymField) (s : State) : Host.Outcome State Fault Refusal :=
  .next (runCommand (.encsym sym) s fun s =>
    withSymbol sym s fun s =>
      (encodeSearch sym.toNat (s.hlen + 1) s).andThen fun _ s =>
        (updateModel sym.toNat s).andThen fun _ s => .done (.okNat 0) s)

/-- `DECSYM` (R195). -/
def execDecsym (s : State) : Host.Outcome State Fault Refusal :=
  .next (runCommand .decsym s fun s =>
    (decodeSearch (s.hlen + 1) s).andThen fun sym s =>
      (updateModel sym s).andThen fun _ s => .done (.okNat sym) s)

end Sys2Proof.Machine
end

