-- ==== Sys2Proof/Machine/SystemControl.lean ====
section
/-! DEFINITION. The system and control commands (45_system_control.md). -/

namespace Sys2Proof.Machine

/-- `CRW r, v` (R210): all 32 bits, as they are. -/
def execCrw (r : SymField) (v : Word) (s : State) : Host.Outcome State Fault Refusal :=
  .next (runCommand (.crw r v) s fun s => .done (.okNat 0) (s.setConfig r v))

/-- `CRR r` (R212), in every phase; in phase FAULT what R240 lost reads a free value, fresh at every read. -/
def execCrr (r : SymField) (s : State) : Host.Outcome State Fault Refusal :=
  .next (runCommand (.crr r) s fun s =>
    if s.phase = .fault ∧ lostRegister r then
      .done (.ok (s.lostReg r)) { s with freeCount := s.freeCount + 1 }
    else .done (.ok (s.controlReg r)) s)

/-- The checks of `START` (R214): the number of the first configuration register that is not legal (R5). -/
def State.configError (s : State) : Option Nat :=
  if s.P < 2 ∨ 32 < s.P then some 0
  else if s.K < -1 ∨ 127 < s.K then some 1
  else if s.SL < 1 ∨ 65536 < s.SL ∨ 2 ^ (s.P - 2) < s.SL then some 2
  else if s.SL ≤ s.ESC then some 3
  else none

/-- The run's state as `START` creates it (R214). -/
def State.openRun (s : State) (m : Mode) : State :=
  { s with
    mode      := m
    codeValid := false
    eos       := false
    tailbits  := 0
    low       := 0
    high      := BitVec.ofNat 32 (2 ^ s.P - 1)
    code      := 0
    pending   := 0
    wbuf      := 0
    wcnt      := 0
    rbuf      := 0
    rcnt      := 0
    hist      := []
    ctx       := if 0 ≤ s.K then [([], Table.fresh s.ESC)] else []
    nctx      := if 0 ≤ s.K then 1 else 0
    phase     := .run }

/-- `START m` (R214). -/
def execStart (m : Mode) (s : State) : Host.Outcome State Fault Refusal :=
  .next (runCommand (.start m) s fun s =>
    match s.configError with
    | some r => .stop (.raised .config r) s
    | none   => .done (.okNat 0) (s.openRun m))

end Sys2Proof.Machine
end

