-- ==== Sys2Proof/Machine/Dispatch.lean ====
section
/-! DEFINITION. One arm per command: each calls the command's meaning. -/

namespace Sys2Proof.Machine

def exec (i : Instr) (s : State) : Host.Outcome State Fault Refusal :=
  match i with
  | .crw r v => Sys2Proof.Machine.execCrw r v s
  | .crr r => Sys2Proof.Machine.execCrr r s
  | .start m => Sys2Proof.Machine.execStart m s
  | .brd => Sys2Proof.Machine.execBrd s
  | .bwr b => Sys2Proof.Machine.execBwr b s
  | .bclose => Sys2Proof.Machine.execBclose s
  | .ftot o => Sys2Proof.Machine.execFtot o s
  | .fget o sym => Sys2Proof.Machine.execFget o sym s
  | .flow o sym => Sys2Proof.Machine.execFlow o sym s
  | .fhigh o sym => Sys2Proof.Machine.execFhigh o sym s
  | .finc o sym => Sys2Proof.Machine.execFinc o sym s
  | .fset o sym c => Sys2Proof.Machine.execFset o sym c s
  | .cwalk o => Sys2Proof.Machine.execCwalk o s
  | .cinc sym => Sys2Proof.Machine.execCinc sym s
  | .hpush sym => Sys2Proof.Machine.execHpush sym s
  | .hrd idx => Sys2Proof.Machine.execHrd idx s
  | .narrow o sym => Sys2Proof.Machine.execNarrow o sym s
  | .finish => Sys2Proof.Machine.execFinish s
  | .dinit => Sys2Proof.Machine.execDinit s
  | .decode o => Sys2Proof.Machine.execDecode o s
  | .rcrd r => Sys2Proof.Machine.execRcrd r s
  | .encsym sym => Sys2Proof.Machine.execEncsym sym s
  | .decsym => Sys2Proof.Machine.execDecsym s

end Sys2Proof.Machine
end

