-- ==== Sys2Proof/Machine/Step.lean ====
section
/-! DEFINITION. One step of the machine: the host's next action at the command port or the reset input
(20_memory.md R69, R70). -/

namespace Sys2Proof.Machine

/-- A command word that the block has taken: it is decoded and executed, or it is illegal (30 R86). -/
def execWord (w : Command) (s : State) : Host.Outcome State Fault Refusal :=
  match decode w with
  | .ok i    => exec i s
  | .error _ => .next (illegalWord w s)

/-- One step. With no action of the host left the block idles (60 R248); while a command waits for a byte port
the host must present no other (60 R249), and may assert reset (70 R260). -/
def step (s : State) : Host.Outcome State Fault Refusal :=
  match s.host with
  | [] => .next s
  | .reset input sink :: rest => .next ({ s with host := rest }.resetBlock input sink)
  | .command w :: rest =>
    match s.busy with
    | some _ => .fault .commandWhileBusy
    | none   => execWord w { s with host := rest }
  | .resetDuring w k input sink :: rest =>
    match s.busy with
    | some _ => .fault .commandWhileBusy
    | none =>
      match execWord w { s with host := rest } with
      | .next t => .next (cutShort { s with host := rest } t k input sink)
      | other   => other

/-- The state in which the very next step runs the word of a table row: the word is what the host presents
next, and no command is in progress. A word that is no 64-bit word changes nothing. -/
def State.withFetchWord (s : State) (nbits w : Nat) : State :=
  match tableWord nbits w with
  | none   => s
  | some c => { s with host := .command c :: s.host, busy := none }

end Sys2Proof.Machine
end

