-- ==== Sys2Proof/Safety.lean ====
section
/-! DEFINITION. The terms claims about the block are stated in: the invariants of a run at rest (10_state.md R21,
R22, R45 to R48), what a safe step is, and the streams of bits behind the byte ports (40_bit_channel.md R106,
R107). -/

namespace Sys2Proof.Machine

/-! ### Phases -/

/-- A run is open or over: PHASE is RUN or CLOSED (R33). -/
def State.hasRun (s : State) : Prop := s.phase = .run ∨ s.phase = .closed

/-- The block is at rest in a run: no command waits for a byte port (R13). -/
def State.atRest (s : State) : Prop := s.hasRun ∧ s.busy = none

/-- The rows of the acceptance table (30_encoding.md R90) outside phase FAULT. -/
def State.InAcceptanceTable (s : State) (op : Opcode) : Prop :=
  (s.phase = .unconf ∧ op ∈ [.crw, .crr, .start]) ∨
  (s.phase = .run ∧
    op ∈ [.crr, .bclose, .ftot, .fget, .flow, .fhigh, .finc, .fset, .cwalk, .cinc, .hpush, .hrd, .rcrd]) ∨
  (s.phase = .run ∧ s.mode = .enc ∧ op ∈ [.bwr, .narrow, .finish, .encsym]) ∨
  (s.phase = .run ∧ s.mode = .dec ∧
    (op = .brd ∨ (op = .dinit ∧ s.codeValid = false) ∨ (op ∈ [.decode, .decsym] ∧ s.codeValid = true))) ∨
  (s.phase = .closed ∧ op ∈ [.crr, .ftot, .fget, .flow, .fhigh, .cwalk, .hrd, .rcrd])

/-- The configuration is legal (00_scope.md R5). -/
def State.LegalConfig (s : State) : Prop :=
  2 ≤ s.P ∧ s.P ≤ 32 ∧ -1 ≤ s.K ∧ s.K ≤ 127 ∧ 1 ≤ s.SL ∧ s.SL ≤ 65536 ∧ s.SL ≤ s.quarter ∧ s.ESC < s.SL

/-! ### The coder (R21, R22) -/

/-- What `low` and `high` are at rest, as numbers (R21). -/
def RestInterval (P low high : Nat) : Prop :=
  low ≤ high ∧ high ≤ 2 ^ P - 1 ∧ low.testBit (P - 1) = false ∧ high.testBit (P - 1) = true ∧
    ¬ (low.testBit (P - 2) = true ∧ high.testBit (P - 2) = false)

/-- R21 for the registers. -/
def State.IntervalAtRest (s : State) : Prop := RestInterval s.P s.low.toNat s.high.toNat

/-- R22: in mode DEC, once `code` is loaded, it lies in the interval; in mode ENC it holds 0. In mode DEC `pending`
holds 0 (R176). -/
def State.CodeAtRest (s : State) : Prop :=
  (s.mode = .enc → s.code = 0 ∧ s.codeValid = false) ∧
  (s.mode = .dec → s.codeValid = true → s.low.toNat ≤ s.code.toNat ∧ s.code.toNat ≤ s.high.toNat) ∧
  (s.mode = .dec → s.pending = 0)

/-- The invariant of the coder: canonical tables, a legal configuration once a run exists, R21 and R22 at rest,
and the whole interval before `code` is loaded. -/
structure State.CoderInv (s : State) : Prop where
  canonical : Memory.wf s.ctx = true
  config    : s.hasRun → s.LegalConfig
  interval  : s.atRest → s.IntervalAtRest
  code      : s.atRest → s.CodeAtRest
  full      : s.atRest → s.mode = .dec → s.codeValid = false → s.low = 0 ∧ s.high.toNat = 2 ^ s.P - 1

/-! ### The bit channel (R44, R46) -/

/-- The bit channel's registers at rest: `wbuf` holds nothing above its `wcnt` bits (40_bit_channel.md R101), EOS is
set only when no bit is buffered (R102), a tail bit is counted only after EOS (43_range_coder.md R167), and what
belongs to the other mode is 0 (10_state.md R35, R44, R46). -/
def State.ChannelAtRest (s : State) : Prop :=
  (s.mode = .enc → s.wbuf.toNat < 2 ^ s.wcnt.toNat ∧ s.eos = false ∧ s.tailbits = 0 ∧ s.rbuf = 0 ∧ s.rcnt = 0) ∧
  (s.mode = .dec → (s.eos = true → s.rcnt = 0) ∧ (s.tailbits ≠ 0 → s.eos = true) ∧ s.wbuf = 0 ∧ s.wcnt = 0)

/-- The invariant of the bit channel. -/
def State.ChannelInv (s : State) : Prop := s.atRest → s.ChannelAtRest

/-! ### The tree and the history (R45, R47, R48) -/

/-- A table of a run: its symbols are below SL and its total is positive and at most TOTAL_MAX (R48). -/
def TableInRange (sl : Nat) (t : Table) : Prop :=
  (∀ e ∈ t, e.1 < sl) ∧ 1 ≤ Table.total sl t ∧ Table.total sl t ≤ Config.totalMax

/-- The invariants of the context tree and the history at rest (R45, R47, R48, R62). -/
structure State.TreeAtRest (s : State) : Prop where
  /-- R47. -/
  histLen  : (s.hlen : Int) ≤ max s.K 0
  /-- R47. -/
  histSyms : ∀ x ∈ s.hist, x < s.SL
  /-- R48, R140: with K = -1 there is no context. -/
  noModel  : s.K = -1 → s.ctx = []
  /-- R48: the root exists from `START` on. -/
  root     : 0 ≤ s.K → Memory.has s.ctx [] = true
  /-- R48: a child exists only under an existing parent. -/
  parents  : ∀ p x, Memory.has s.ctx (p ++ [x]) = true → Memory.has s.ctx p = true
  /-- R48: no path is longer than K. -/
  depth    : ∀ p, Memory.has s.ctx p = true → (p.length : Int) ≤ s.K
  /-- R48. -/
  tables   : ∀ e ∈ s.ctx, TableInRange s.SL e.2
  /-- R45. -/
  counted  : s.nctx = s.ctx.length
  /-- R62. -/
  capacity : ∀ n, s.params.nodeMax = some n → s.nctx ≤ n

/-- The invariant of the tree: canonical form always, the parameters legal, a legal configuration once a run
exists, and R45 to R48 at rest. -/
structure State.TreeInv (s : State) : Prop where
  canonical : Memory.wf s.ctx = true
  params    : s.params.Legal
  config    : s.hasRun → s.LegalConfig
  tree      : s.atRest → s.TreeAtRest

/-! ### Faults and responses -/

/-- FAULT_CAUSE tells whether a fault was raised, and which of the thirteen (R43, R231). -/
def State.FaultInv (s : State) : Prop :=
  (s.phase = .fault ↔ s.faultCause ≠ 0) ∧ s.faultCause.toNat ≤ 13 ∧ (s.phase ≠ .fault → s.faultInfo = 0)

/-- A safe state: no fault was raised, and the invariants hold. -/
structure State.Safe (s : State) : Prop where
  noFault : s.phase ≠ .fault
  coder   : s.CoderInv
  tree    : s.TreeInv

/-- The state after an OK response with a number (R88, R89). -/
def State.okNat (s : State) (n : Nat) : State := s.respond (.okNat n)

/-- The state with its responses set aside, to compare what commands did but for what they answered. -/
def State.silent (s : State) : State := { s with responses := [] }

/-- The state after a list of commands, issued one by one; it stays where a step has no next state, and a host issues
no command while one waits for a byte port (60_exceptions.md R249). -/
def runCommands : List Instr → State → State
  | [], s => s
  | i :: rest, s =>
    if s.busy = none then
      match exec i s with
      | .next t => runCommands rest t
      | _ => s
    else s

/-- The commands with which a host does the search of `ENCSYM sym` itself (44_symbol_driver.md R199), read off the
state before it: `n` candidate orders are left. -/
def encodeScript (s : State) (sym : SymField) : Nat → List Instr
  | 0 => [.narrow (BitVec.ofInt 8 (-1)) sym]
  | n + 1 =>
    .fget (BitVec.ofNat 8 n) sym ::
      match s.resolve n with
      | none => encodeScript s sym n
      | some t =>
        if sym.toNat ≠ s.ESC ∧ 0 < s.get t sym.toNat then [.narrow (BitVec.ofNat 8 n) sym]
        else .narrow (BitVec.ofNat 8 n) (BitVec.ofNat 16 s.ESC) :: encodeScript s sym n

/-- The search of `DECSYM` done by the host with `DECODE` commands, each step decided by the last response
(R199): `n` candidate orders are left. -/
def decodeByHost : Nat → State → State
  | 0, s => runCommands [.decode (BitVec.ofInt 8 (-1))] s
  | n + 1, s =>
    let t := runCommands [.decode (BitVec.ofNat 8 n)] s
    match t.busy, t.responses.getLast? with
    | none, some r =>
      if r.kind = .absent ∨ (r.kind = .ok ∧ r.value.toNat = s.ESC) then decodeByHost n t else t
    | _, _ => t

/-- The symbol that the last response of a state holds. -/
def State.lastSymbol (s : State) : SymField :=
  match s.responses.getLast? with
  | none => 0
  | some r => r.value.setWidth 16

/-! ### The bits behind the byte ports -/

/-- The eight bits of a byte, the first in stream order first (R100). -/
def bitsOfByte (b : Byte) : List Bool := (List.range 8).map (fun i => b.getLsbD (7 - i))

/-- The bits in `wbuf`, the first written first (R46). -/
def State.buffered (s : State) : List Bool :=
  (List.range s.wcnt.toNat).map (fun i => s.wbuf.getLsbD (s.wcnt.toNat - 1 - i))

/-- Every bit written so far: those of the bytes in the sink, then those in `wbuf` (R46, R101). -/
def State.bitStream (s : State) : List Bool := s.out.flatMap bitsOfByte ++ s.buffered

/-- Bits packed into bytes, the first bit most significant, the last byte completed with zeros (R106). -/
def packBits (bits : List Bool) : List Byte :=
  (List.range ((bits.length + 7) / 8)).map fun j =>
    BitVec.ofNat 8 ((List.range 8).map (fun i => (bits.getD (8 * j + i) false).toNat * 2 ^ (7 - i))).sum

/-- The bytes that writing `bits` hands to the sink, in order (R101). -/
def State.bytesDue (s : State) (bits : List Bool) : List Byte :=
  packBits ((s.buffered ++ bits).take (8 * ((s.buffered ++ bits).length / 8)))

/-- `u` has the writer of `s` after writing `bits`, every byte taken by the sink (R101). -/
structure WriterAfter (s : State) (bits : List Bool) (u : State) : Prop where
  stream : u.bitStream = s.bitStream ++ bits
  wcnt   : u.wcnt = BitVec.ofNat 3 (s.wcnt.toNat + bits.length)
  wbuf   : s.wbuf.toNat < 2 ^ s.wcnt.toNat → u.wbuf.toNat < 2 ^ u.wcnt.toNat
  calls  : u.calls = s.calls ++ (s.bytesDue bits).map (fun x => .outByte x .ok)
  sink   : u.sink = s.sink.drop (s.bytesDue bits).length

/-- The bytes the source gives before its first answer that is no byte. -/
def bytesOf : List InAnswer → List Byte
  | .byte b :: rest => b :: bytesOf rest
  | _ => []

/-- Every bit the run can still read: those in `rbuf`, then those of the source's bytes (R46, R107). -/
def State.bitsLeft (s : State) : List Bool :=
  (List.range s.rcnt.toNat).map (fun i => s.rbuf.getLsbD (s.rcnt.toNat - 1 - i)) ++
    (if s.eos then [] else (bytesOf s.input).flatMap bitsOfByte)

/-- How many bytes reading `n` bits asks the source for, if it gives one each time (R102). -/
def State.bytesAsked (s : State) (n : Nat) : Nat := if s.eos then 0 else (n + 7 - s.rcnt.toNat) / 8

/-- The bytes that reading `n` bits takes from the source, in order (R102). -/
def State.bytesTaken (s : State) (n : Nat) : List Byte := (bytesOf s.input).take (s.bytesAsked n)

/-- `u` has the reader of `s` after reading `n` bits from a source that answers: `rbuf` is the byte taken last, and
EOS is set by the first request that finds no byte (R102). -/
structure ReaderAfter (s : State) (n : Nat) (u : State) : Prop where
  rbuf  : u.rbuf = (s.bytesTaken n).getLastD s.rbuf
  rcnt  : u.rcnt = BitVec.ofNat 3 (s.rcnt.toNat + 8 * (s.bytesTaken n).length - n)
  eos   : u.eos = (s.eos || decide ((s.bytesTaken n).length < s.bytesAsked n))
  input : u.input = s.input.drop (min (s.bytesAsked n) ((s.bytesTaken n).length + 1))
  calls : u.calls = s.calls ++ (s.bytesTaken n).map (fun b => .inByte (.byte b)) ++
            (if (s.bytesTaken n).length < s.bytesAsked n then [.inByte .eos] else [])

/-- The next `n` bits of the coder: what is left of the stream, then tail bits, which are 0 (R167). -/
def State.codeBits (s : State) (n : Nat) : List Bool := (s.bitsLeft ++ List.replicate n false).take n

/-- Bits as a number, the first most significant. -/
def numOfBits (bits : List Bool) : Nat := bits.foldl (fun n b => 2 * n + b.toNat) 0

/-- Reading `n` bits asks the source for another byte once it has given `k`: no end was seen, and the bits buffered with
those of `k` bytes do not reach `n` (R102). -/
def State.asks (s : State) (n k : Nat) : Prop :=
  s.eos = false ∧ s.rcnt.toNat + 8 * k < n ∧ ∀ i, i < k → ∃ x, s.input[i]? = some (.byte x)

/-- The source answers every request that reading `n` bits makes, with a byte or with EOS; what it would answer beyond
them does not matter. After its list it answers EOS (log 2). -/
def State.sourceAnswers (s : State) (n : Nat) : Prop :=
  ∀ k, s.asks n k → s.input[k]? ≠ some .err ∧ s.input[k]? ≠ some .never

/-- The sink takes the first `n` bytes handed to it; after its list it answers OK (log 2). -/
def State.sinkTakes (s : State) (n : Nat) : Prop := ∀ i, i < n → s.sink.getD i .ok = .ok

/-- The source never answers ERR and never fails to answer; after its list it answers EOS (log 2). -/
def State.sourceGood (s : State) : Prop := ∀ a ∈ s.input, a ≠ .err ∧ a ≠ .never

/-- The sink takes every byte; after its list it answers OK (log 2). -/
def State.sinkGood (s : State) : Prop := ∀ a ∈ s.sink, a = .ok

/-- `a` E1/E2 steps and then `b` E3 steps (R165), on a bound whose entering bits are all `e`: the closed form of
R168 and R169. -/
def shifted (P a b x : Nat) (e : Bool) : Nat :=
  ((x * 2 ^ a) % 2 ^ P + e.toNat * (2 ^ a - 1)) * 2 ^ b - 2 ^ (P - 1) * (2 ^ b - 1) + e.toNat * (2 ^ b - 1)

/-- The bounds straddle the middle: `low` begins 01 and `high` begins 10, which is where an E3 step is made (R165). -/
def Straddle (P low high : Nat) : Prop :=
  low.testBit (P - 1) = false ∧ high.testBit (P - 1) = true ∧ low.testBit (P - 2) = true ∧ high.testBit (P - 2) = false

/-- `Normalize` on the bounds `l` and `h` makes `a` E1/E2 steps and then `b` E3 steps (R165): the E1/E2 steps shift out
the top bits the bounds share, each E3 step is made where the bounds straddle the middle, and the steps end at rest
(R21), within P and P - 1 of them (R177). -/
structure NormSteps (P l h a b : Nat) : Prop where
  most     : a ≤ P ∧ b ≤ P - 1
  shared   : l / 2 ^ (P - a) = h / 2 ^ (P - a)
  straddle : ∀ j, j < b → Straddle P (shifted P a j l false) (shifted P a j h true)
  rest     : RestInterval P (shifted P a b l false) (shifted P a b h true)

/-- The bits `a` E1/E2 steps emit from `low` with `pending` bits owed: the top bits of `low`, the first followed
by the owed complementary bits (R168). -/
def emitted (P a low pending : Nat) : List Bool :=
  match a with
  | 0 => []
  | a + 1 =>
    low.testBit (P - 1) :: List.replicate pending (!low.testBit (P - 1)) ++
      (List.range a).map (fun i => low.testBit (P - 2 - i))

end Sys2Proof.Machine
end

