-- ==== Sys2Proof/Certificates/Slice0/Obligations.lean ====
section
/-! DEFINITION. The statements about the model, from the numbered rules of the spec. -/

open Sys2Proof
open Sys2Proof.Machine

/-! ### Encoding (30_encoding.md) -/

/-- Words of the table of 95_test_vectors.md 2.1 decode to the commands they stand for, and its illegal words to
none. -/
def Obligations.SampleWordsDecode : Prop :=
  decode 0x0300000000000001 = .ok (.start .dec) ∧
  decode 0x01000001FFFFFFFF = .ok (.crw 1 0xFFFFFFFF) ∧
  decode 0x0200000800000000 = .ok (.crr 8) ∧
  decode 0x20FF000000000000 = .ok (.ftot 0xFF) ∧
  decode 0x2101004200000000 = .ok (.fget 1 66) ∧
  decode 0x2500004200000007 = .ok (.fset 0 66 7) ∧
  decode 0x40FF004100000000 = .ok (.narrow 0xFF 65) ∧
  decode 0x4400000300000000 = .ok (.rcrd 3) ∧
  decode 0x5000010000000000 = .ok (.encsym 256) ∧
  decode 0x1300000000000000 = .error (.unknownOpcode 0x13) ∧
  decode 0x1100000000000002 = .error (.mustBeZero 0x11) ∧
  decode 0x20FE000000000000 = .error (.operand 0x20) ∧
  decode 0x0100000800000000 = .error (.operand 0x01)

/-- Decoding the word of a legal command gives the command back, with every operand (R80 to R84). -/
def Obligations.DecodeEncodeRoundTrip : Prop :=
  ∀ i : Instr, i.wellFormed = true → decode (encode i) = .ok i

/-- A word that decodes is the word of exactly one command, and that command is legal (R86: "every 64-bit word is
either exactly one command of rule R84 with its operands, or illegal"). -/
def Obligations.DecodedWordIsItsEncoding : Prop :=
  ∀ (w : Command) (i : Instr), decode w = .ok i → encode i = w ∧ i.wellFormed = true

/-- Outside phase FAULT a word raises E_ILLEGAL with its opcode byte when its opcode is in no row of R84 (R85), when
it has a one in a bit its format fixes at zero, or when an operand lies outside its index space (R86). -/
def Obligations.IllegalWordsRaiseIllegal : Prop :=
  ∀ (s : State) (w : Command) (rest : List HostAction),
    s.host = .command w :: rest → s.busy = none → s.phase ≠ .fault →
    ((∀ op ∈ Opcode.all, op.byte ≠ opcodeField w) ∨
     (∃ op ∈ Opcode.all, op.byte = opcodeField w ∧
        (w &&& op.format.mask ≠ op.byte.zeroExtend 64 <<< 56 ∨ (op.build w).wellFormed = false))) →
    step s = .next ({ s with host := rest }.raise .illegal (opcodeField w).toNat)

/-! ### The machine -/

/-- When the word the host presents decodes to a command, a step is that command's `exec`, in the state that has
taken the word. The model's choice: the words the host presents are a list in the state (log 1). -/
def Obligations.StepRunsTheDecodedCommand : Prop :=
  ∀ (s : State) (w : Command) (i : Instr) (rest : List HostAction),
    decode w = .ok i → s.host = .command w :: rest → s.busy = none →
    step s = exec i { s with host := rest }

/-- The values the spec gives for reset (10_state.md R55), and STATUS = 0 (R40). R55 leaves `wbuf` and `wcnt`, which
STATUS shows, unspecified: that STATUS reads 0 all the same, following R40, is the model's choice (log 17). -/
def Obligations.ResetHasTheSpecValues : Prop :=
  State.reset.phase = .unconf ∧ State.reset.mode = .enc ∧ State.reset.codeValid = false ∧
  State.reset.eos = false ∧ State.reset.crP = 32 ∧ State.reset.crK = 3 ∧ State.reset.crSl = 257 ∧
  State.reset.crEsc = 256 ∧ State.reset.faultCause = 0 ∧ State.reset.faultInfo = 0 ∧
  State.reset.tailbits = 0 ∧ State.reset.nctx = 0 ∧ State.reset.hlen = 0 ∧ State.reset.ctx = [] ∧
  State.reset.faultOutput = false ∧ State.reset.status = 0

/-- Reset from any state, between commands or during one (R260): the values of R55; no response; the byte-port calls
already made stand (of a command cut short, the first `k`), and none is added. The model's choice: a reset lands
between two byte-port calls (log 12) and brings the next run's streams (log 13). -/
def Obligations.ResetFromAnyState : Prop :=
  ∀ (s : State) (input : List InAnswer) (sink : List OutAnswer) (rest : List HostAction),
    let Fresh := fun t : State =>
      t.phase = .unconf ∧ t.mode = .enc ∧ t.codeValid = false ∧ t.eos = false ∧ t.crP = 32 ∧ t.crK = 3 ∧
      t.crSl = 257 ∧ t.crEsc = 256 ∧ t.faultCause = 0 ∧ t.faultInfo = 0 ∧ t.tailbits = 0 ∧ t.nctx = 0 ∧
      t.hlen = 0 ∧ t.ctx = [] ∧ t.busy = none ∧ t.params = s.params ∧ t.input = input ∧ t.sink = sink ∧
      t.host = rest ∧ t.responses = s.responses
    (s.host = .reset input sink :: rest →
      ∃ t, step s = .next t ∧ Fresh t ∧ t.calls = s.calls) ∧
    (∀ w k, s.host = .resetDuring w k input sink :: rest → s.busy = none →
      ∃ t u, step s = .next t ∧ execWord w { s with host := rest } = .next u ∧ Fresh t ∧
        ∃ l, u.calls = s.calls ++ l ∧ t.calls = s.calls ++ l.take k)

/-- Fault entry (R240): the cause code of R231 and the information, phase FAULT, the fault output, the response
FAULT with the code; the configuration registers and the byte-port calls made so far stand, and no more are made. -/
def Obligations.FaultEntryRecordsTheFault : Prop :=
  (∀ (s : State) (cause : Cause) (info : Nat),
    let t := s.raise cause info
    t.phase = .fault ∧ t.faultOutput = true ∧ t.faultCause = cause.code ∧
    t.faultInfo = BitVec.ofNat 32 info ∧
    t.crP = s.crP ∧ t.crK = s.crK ∧ t.crSl = s.crSl ∧ t.crEsc = s.crEsc ∧
    t.calls = s.calls ∧ t.input = s.input ∧ t.sink = s.sink ∧ t.host = s.host ∧ t.params = s.params ∧
    t.responses = s.responses ++ [{ kind := .fault, value := cause.code.zeroExtend 64 }]) ∧
  ([Cause.config, .symbol, .total, .ioRead, .ioWrite, .truncated, .zeroFreq, .illegal, .sequence, .flatMut,
    .count, .pending, .nodes].map Cause.code = [1, 2, 3, 4, 5, 6, 7, 8, 9, 10, 11, 12, 13])

/-- In phase FAULT every word but a legal `CRR` is REFUSED with FAULT_CAUSE and has no effect; a legal `CRR` is
executed, answers OK, and leaves FAULT_CAUSE, FAULT_INFO and the phase (R241). What a `CRR` of a lost register
reads is a free value (log 6). -/
def Obligations.FaultPhaseRefusesAllButCrr : Prop :=
  ∀ (s : State) (w : Command) (rest : List HostAction),
    s.phase = .fault → s.host = .command w :: rest → s.busy = none →
    ((∀ r, decode w ≠ .ok (.crr r)) →
      step s = .next { s with
        host := rest
        responses := s.responses ++ [{ kind := .refused, value := s.faultCause.zeroExtend 64 }] }) ∧
    (∀ r, decode w = .ok (.crr r) →
      step s = exec (.crr r) { s with host := rest } ∧
      ∃ v n, step s = .next { s with host := rest, freeCount := n, responses := s.responses ++ [.ok v] })

/-- The acceptance table (R90): outside phase FAULT, a legal command that no row of the table accepts raises
E_SEQUENCE with its opcode, and one that a row accepts does not; in phase FAULT every legal command but `CRR` is
REFUSED. -/
def Obligations.AcceptanceByPhaseAndMode : Prop :=
  ∀ (s : State) (i : Instr), i.wellFormed = true →
    (s.phase ≠ .fault → ¬ s.InAcceptanceTable i.opcode → exec i s = .next (s.raise .sequence i.opcode.byte.toNat)) ∧
    (s.phase ≠ .fault → s.InAcceptanceTable i.opcode →
      ∃ t, exec i s = .next t ∧ (t.phase = .fault → t.faultCause ≠ Cause.sequence.code)) ∧
    (s.phase = .fault → i.opcode ≠ .crr →
      exec i s = .next (s.respond { kind := .refused, value := s.faultCause.zeroExtend 64 }))

/-- The order of the checks (R235), on the two commands that meet all of them: illegal before not accepted before
symbol out of range before ABSENT before the flat table's refusal. -/
def Obligations.ChecksComeInOrder : Prop :=
  ∀ (s : State) (o : Order) (sym : SymField) (c : Word), s.phase ≠ .fault →
    ∀ i : Instr, i = .finc o sym ∨ i = .fset o sym c →
    (o.toInt < -1 → exec i s = .next (s.raise .illegal i.opcode.byte.toNat)) ∧
    (-1 ≤ o.toInt → s.phase ≠ .run → exec i s = .next (s.raise .sequence i.opcode.byte.toNat)) ∧
    (-1 ≤ o.toInt → s.phase = .run → s.SL ≤ sym.toNat → exec i s = .next (s.raise .symbol sym.toNat)) ∧
    (-1 ≤ o.toInt → s.phase = .run → sym.toNat < s.SL → s.resolve o.toInt = none →
      exec i s = .next (s.respond .absent)) ∧
    (-1 ≤ o.toInt → s.phase = .run → sym.toNat < s.SL → s.resolve o.toInt = some .flat →
      exec i s = .next (s.raise .flatMut i.opcode.byte.toNat))

/-- The symbol check (R120): each of the nine commands with a symbol operand, legal and accepted, raises E_SYMBOL with
the symbol when it is not below SL, before anything else. -/
def Obligations.SymbolOutOfRangeRaises : Prop :=
  ∀ (s : State) (o : Order) (sym : SymField) (c : Word) (i : Instr),
    i ∈ [.fget o sym, .flow o sym, .fhigh o sym, .finc o sym, .fset o sym c, .cinc sym, .hpush sym,
         .narrow o sym, .encsym sym] →
    i.wellFormed = true → s.accepts i.opcode = true → s.phase ≠ .fault → s.SL ≤ sym.toNat →
    exec i s = .next (s.raise .symbol sym.toNat)

/-! ### System control (45_system_control.md) -/

/-- `CRW r, v` (R210): in phase UNCONF it stores all 32 bits in the register and nothing else; a register above 3
makes the word illegal; in RUN and CLOSED it raises E_SEQUENCE. -/
def Obligations.CrwStoresTheValue : Prop :=
  ∀ (s : State) (r : SymField) (v : Word),
    (s.phase = .unconf →
      exec (.crw 0 v) s = .next ({ s with crP := v }.okNat 0) ∧
      exec (.crw 1 v) s = .next ({ s with crK := v }.okNat 0) ∧
      exec (.crw 2 v) s = .next ({ s with crSl := v }.okNat 0) ∧
      exec (.crw 3 v) s = .next ({ s with crEsc := v }.okNat 0)) ∧
    (s.phase ≠ .fault → 3 < r.toNat → exec (.crw r v) s = .next (s.raise .illegal 0x01)) ∧
    (s.phase = .run ∨ s.phase = .closed → r.toNat ≤ 3 → exec (.crw r v) s = .next (s.raise .sequence 0x01))

/-- `CRR r` (R212): in every phase it answers the register, zero-extended, and changes nothing (NCTX while it is a
32-bit number: what register 12 reads beyond is log 9, and not said here); in phase FAULT it answers true values of the configuration registers, FAULT_CAUSE, FAULT_INFO and PHASE, and some value (a free value,
log 6) for the rest; an unassigned number is illegal, and REFUSED in phase FAULT. -/
def Obligations.CrrReadsTheRegisters : Prop :=
  ∀ (s : State) (r : SymField),
    exec (.crr 0) s = .next (s.respond (.ok (s.crP.zeroExtend 64))) ∧
    exec (.crr 1) s = .next (s.respond (.ok (s.crK.zeroExtend 64))) ∧
    exec (.crr 2) s = .next (s.respond (.ok (s.crSl.zeroExtend 64))) ∧
    exec (.crr 3) s = .next (s.respond (.ok (s.crEsc.zeroExtend 64))) ∧
    exec (.crr 9) s = .next (s.respond (.ok (s.faultCause.zeroExtend 64))) ∧
    exec (.crr 10) s = .next (s.respond (.ok (s.faultInfo.zeroExtend 64))) ∧
    (s.phase ≠ .fault →
      exec (.crr 8) s = .next (s.respond (.ok (s.status.zeroExtend 64))) ∧
      exec (.crr 11) s = .next (s.respond (.ok s.tailbits)) ∧
      (s.nctx < 2 ^ 32 → exec (.crr 12) s = .next (s.okNat s.nctx))) ∧
    (s.phase = .fault →
      (∃ v n, exec (.crr 8) s = .next { s with freeCount := n, responses := s.responses ++ [.ok v] } ∧
        v.extractLsb' 0 2 = 3) ∧
      (∃ v n, exec (.crr 11) s = .next { s with freeCount := n, responses := s.responses ++ [.ok v] }) ∧
      (∃ v n, exec (.crr 12) s = .next { s with freeCount := n, responses := s.responses ++ [.ok v] })) ∧
    (r.toNat ∉ [0, 1, 2, 3, 8, 9, 10, 11, 12] →
      (s.phase ≠ .fault → exec (.crr r) s = .next (s.raise .illegal 0x02)) ∧
      (s.phase = .fault → exec (.crr r) s = .next (s.respond { kind := .refused, value := s.faultCause.zeroExtend 64 })))

/-- The fields of STATUS (R42): PHASE, MODE, CODE_VALID, EOS, the bit buffer of the mode with its count, HLEN, and
zeros; `CRR` reads it so, but in phase FAULT only PHASE is defined (the rest is a free value, log 6). -/
def Obligations.StatusShowsTheLiveState : Prop :=
  ∀ s : State, s.hlen < 256 →
    s.status.extractLsb' 0 2 =
      (match s.phase with
       | .unconf => 0
       | .run => 1
       | .closed => 2
       | .fault => 3) ∧
    s.status.getLsbD 2 = decide (s.mode = .dec) ∧
    s.status.getLsbD 3 = s.codeValid ∧
    s.status.getLsbD 4 = s.eos ∧
    s.status.extractLsb' 5 3 = 0 ∧
    (s.status.extractLsb' 8 4).toNat = (if s.mode = .enc then s.wcnt.toNat else s.rcnt.toNat) ∧
    s.status.extractLsb' 12 4 = 0 ∧
    (s.status.extractLsb' 16 8).toNat = s.hlen ∧
    s.status.extractLsb' 24 8 = (if s.mode = .enc then s.wbuf else s.rbuf) ∧
    (s.phase ≠ .fault → exec (.crr 8) s = .next (s.respond (.ok (s.status.zeroExtend 64)))) ∧
    (s.phase = .fault → ∃ v n,
      exec (.crr 8) s = .next { s with freeCount := n, responses := s.responses ++ [.ok v] } ∧
        v.extractLsb' 0 2 = 3)

/-- `START m` (R214): with a legal configuration in phase UNCONF it gives every register of the run its initial value,
creates the root if K >= 0, and opens the run; otherwise the first illegal register decides E_CONFIG; in RUN and
CLOSED it raises E_SEQUENCE. -/
def Obligations.StartOpensTheRun : Prop :=
  ∀ (s : State) (m : Mode),
    (s.phase = .unconf → s.LegalConfig →
      exec (.start m) s = .next ({ s with
        mode := m, codeValid := false, eos := false, tailbits := 0,
        low := 0, high := BitVec.ofNat 32 (2 ^ s.P - 1), code := 0, pending := 0,
        wbuf := 0, wcnt := 0, rbuf := 0, rcnt := 0, hist := [],
        ctx := if 0 ≤ s.K then [([], [(s.ESC, 1)])] else [],
        nctx := if 0 ≤ s.K then 1 else 0,
        phase := .run }.okNat 0)) ∧
    (s.phase = .unconf → (s.P < 2 ∨ 32 < s.P) → exec (.start m) s = .next (s.raise .config 0)) ∧
    (s.phase = .unconf → 2 ≤ s.P → s.P ≤ 32 → (s.K < -1 ∨ 127 < s.K) →
      exec (.start m) s = .next (s.raise .config 1)) ∧
    (s.phase = .unconf → 2 ≤ s.P → s.P ≤ 32 → -1 ≤ s.K → s.K ≤ 127 →
      (s.SL < 1 ∨ 65536 < s.SL ∨ 2 ^ (s.P - 2) < s.SL) → exec (.start m) s = .next (s.raise .config 2)) ∧
    (s.phase = .unconf → 2 ≤ s.P → s.P ≤ 32 → -1 ≤ s.K → s.K ≤ 127 → 1 ≤ s.SL → s.SL ≤ 65536 →
      s.SL ≤ 2 ^ (s.P - 2) → s.SL ≤ s.ESC → exec (.start m) s = .next (s.raise .config 3)) ∧
    (s.phase = .run ∨ s.phase = .closed → exec (.start m) s = .next (s.raise .sequence 0x03))

/-! ### Bit channel (40_bit_channel.md) -/

/-- `BWR b` (R104) by `WriteBit` (R101): the bit enters `wbuf` at the bottom; the eighth bit hands the byte to the
sink. Nothing else changes. A sink that does not answer leaves the command waiting (20 R67; 60 R249). The model's
choice: how the host's answers are listed, an unlisted one being OK (log 2), and how the wait is held (log 3). -/
def Obligations.BwrWritesOneBit : Prop :=
  ∀ (s : State) (b : Bool), s.phase = .run → s.mode = .enc →
    let byte : Byte := BitVec.ofNat 8 (2 * s.wbuf.toNat + b.toNat)
    let handed := fun a : OutAnswer => ({ s with sink := s.sink.tail, calls := s.calls ++ [.outByte byte a] } : State)
    (s.wcnt.toNat < 7 → exec (.bwr b) s = .next ({ s with wbuf := byte, wcnt := s.wcnt + 1 }.okNat 0)) ∧
    (s.wcnt = 7 → s.sink.headD .ok = .ok →
      exec (.bwr b) s = .next ({ handed .ok with wbuf := 0, wcnt := 0 }.okNat 0)) ∧
    (s.wcnt = 7 → s.sink.headD .ok = .err → exec (.bwr b) s = .next ((handed .err).raise .ioWrite 0)) ∧
    (s.wcnt = 7 → s.sink.headD .ok = .never →
      exec (.bwr b) s = .next { handed .never with busy := some .output })

/-- `BRD` (R103) by `ReadBit` (R102): the next bit of `rbuf`; a byte is asked for only when none is left, and never
once EOS is set; "no more bits" answers 2. Nothing else changes. The model's choice: an unlisted answer is EOS
(log 2), and how the wait is held (log 3). -/
def Obligations.BrdReadsOneBit : Prop :=
  ∀ s : State, s.phase = .run → s.mode = .dec →
    let asked := fun a : InAnswer => ({ s with input := s.input.tail, calls := s.calls ++ [.inByte a] } : State)
    (0 < s.rcnt.toNat →
      exec .brd s = .next ({ s with rcnt := s.rcnt - 1 }.okNat (s.rbuf.getLsbD (s.rcnt.toNat - 1)).toNat)) ∧
    (s.rcnt = 0 → s.eos = true → exec .brd s = .next (s.okNat 2)) ∧
    (∀ b, s.rcnt = 0 → s.eos = false → s.input.headD .eos = .byte b →
      exec .brd s = .next ({ asked (.byte b) with rbuf := b, rcnt := 7 }.okNat (b.getLsbD 7).toNat)) ∧
    (s.rcnt = 0 → s.eos = false → s.input.headD .eos = .eos →
      exec .brd s = .next ({ asked .eos with eos := true }.okNat 2)) ∧
    (s.rcnt = 0 → s.eos = false → s.input.headD .eos = .err →
      exec .brd s = .next ((asked .err).raise .ioRead 0)) ∧
    (s.rcnt = 0 → s.eos = false → s.input.headD .eos = .never →
      exec .brd s = .next { asked .never with busy := some .input })

/-- `BCLOSE` (R105): in mode ENC a partial byte is completed with zeros and handed over, then the sink is closed; in
mode DEC the source is closed; the phase becomes CLOSED and nothing else changes. The model's choice: an unlisted
answer is OK (log 2), and how the wait is held (log 3). -/
def Obligations.BcloseFlushesAndCloses : Prop :=
  ∀ s : State, s.phase = .run →
    let byte : Byte := s.wbuf <<< (8 - s.wcnt.toNat)
    let handed := fun a : OutAnswer => ({ s with sink := s.sink.tail, calls := s.calls ++ [.outByte byte a] } : State)
    (s.mode = .enc → s.wcnt = 0 →
      exec .bclose s = .next ({ s with phase := .closed, calls := s.calls ++ [PortCall.outClose] }.okNat 0)) ∧
    (s.mode = .enc → s.wcnt ≠ 0 → s.sink.headD .ok = .ok →
      exec .bclose s = .next ({ s with
        phase := .closed, wbuf := 0, wcnt := 0, sink := s.sink.tail,
        calls := s.calls ++ [PortCall.outByte byte .ok, .outClose] }.okNat 0)) ∧
    (s.mode = .enc → s.wcnt ≠ 0 → s.sink.headD .ok = .err →
      exec .bclose s = .next ((handed .err).raise .ioWrite 0)) ∧
    (s.mode = .enc → s.wcnt ≠ 0 → s.sink.headD .ok = .never →
      exec .bclose s = .next { handed .never with busy := some .output }) ∧
    (s.mode = .dec →
      exec .bclose s = .next ({ s with phase := .closed, calls := s.calls ++ [PortCall.inClose] }.okNat 0))

/-- The bit-to-byte law of writing (R106), for `BWR` commands: the bits written and then `BCLOSE` put in the sink
exactly the bytes they pack into, the first bit most significant and the last byte completed with zeros, where the sink
takes those still to come. An unlisted answer of the sink is OK (the model's choice, log 2). -/
def Obligations.WrittenBitsReachTheSinkPacked : Prop :=
  ∀ (s : State) (bits : List Bool), s.phase = .run → s.mode = .enc → s.busy = none →
    s.sinkTakes (packBits (s.buffered ++ bits)).length →
    let t := runCommands (bits.map Instr.bwr ++ [.bclose]) s
    t.out = packBits (s.bitStream ++ bits) ∧ t.phase = .closed

/-- The bit-to-byte law of reading (R107), for `BRD` commands: they answer the bits that are left, in order, and then 2
for ever, where the source answers what they ask for. An unlisted answer of the source is EOS (the model's choice, log
2). -/
def Obligations.BitsAreReadInOrder : Prop :=
  ∀ (s : State) (n : Nat), s.phase = .run → s.mode = .dec → s.busy = none → s.sourceAnswers n →
    (runCommands (List.replicate n .brd) s).responses =
      s.responses ++ (List.range n).map (fun i =>
        .okNat (match s.bitsLeft[i]? with
          | some b => b.toNat
          | none => 2))

/-! ### Frequency tables (41_frequency_table.md) -/

/-- The table functions (R121, R122): the flat variant is arithmetic; of an adaptive table, the cumulative values and
the total are the sums of its counts; a new table has count 1 for ESC and 0 otherwise. -/
def Obligations.TableFunctionsAreTheirSums : Prop :=
  ∀ s : State, Memory.wf s.ctx = true →
    (∀ sym, s.total .flat = s.SL ∧ s.get .flat sym = 1 ∧ s.cumLow .flat sym = sym ∧ s.cumHigh .flat sym = sym + 1) ∧
    (∀ p sym,
      s.get (.context p) sym = Table.get (Memory.table s.ctx p) sym ∧
      s.cumLow (.context p) sym = (Finset.range sym).sum (fun j => s.get (.context p) j) ∧
      s.cumHigh (.context p) sym = s.cumLow (.context p) sym + s.get (.context p) sym ∧
      s.cumHigh (.context p) sym = (Finset.range (sym + 1)).sum (fun j => s.get (.context p) j) ∧
      s.total (.context p) = (Finset.range s.SL).sum (fun j => s.get (.context p) j) ∧
      (1 ≤ s.SL → s.total (.context p) = s.cumHigh (.context p) (s.SL - 1))) ∧
    (∀ esc sym, Table.get (Table.fresh esc) sym = if sym = esc then 1 else 0)

/-- What holds of every table (R131): the cumulative values are monotonic, start at 0 and end at the total, and the
symbols' intervals partition [0, total), a count of 0 giving the empty interval. -/
def Obligations.TablesPartitionTheirRange : Prop :=
  ∀ (s : State) (t : TableRef), Memory.wf s.ctx = true → 1 ≤ s.SL →
    (∀ i, s.cumLow t i ≤ s.cumLow t (i + 1)) ∧
    s.cumHigh t (s.SL - 1) = s.total t ∧
    s.cumLow t 0 = 0 ∧
    (∀ sym, s.get t sym = 0 → s.cumLow t sym = s.cumHigh t sym) ∧
    (∀ v, v < s.total t → ∃! sym, sym < s.SL ∧ s.cumLow t sym ≤ v ∧ v < s.cumHigh t sym)

/-- `FTOT`, `FGET`, `FLOW`, `FHIGH` (R123 to R126): legal, accepted, with a symbol in range, they answer the total, the
count and the cumulative values of the table the designator names, or ABSENT, and change nothing; of a fresh context
`FGET` answers 1 for ESC and 0 otherwise. -/
def Obligations.TableReadsAnswer : Prop :=
  ∀ (s : State) (o : Order) (sym : SymField), s.phase = .run ∨ s.phase = .closed → -1 ≤ o.toInt →
    (∀ t, s.resolve o.toInt = some t → exec (.ftot o) s = .next (s.okNat (s.total t))) ∧
    (s.resolve o.toInt = none → exec (.ftot o) s = .next (s.respond .absent)) ∧
    (sym.toNat < s.SL →
      (∀ t, s.resolve o.toInt = some t →
        exec (.fget o sym) s = .next (s.okNat (s.get t sym.toNat)) ∧
        exec (.flow o sym) s = .next (s.okNat (s.cumLow t sym.toNat)) ∧
        exec (.fhigh o sym) s = .next (s.okNat (s.cumHigh t sym.toNat))) ∧
      (∀ p, s.resolve o.toInt = some (.context p) → Memory.table s.ctx p = Table.fresh s.ESC →
        exec (.fget o sym) s = .next (s.okNat (if sym.toNat = s.ESC then 1 else 0))) ∧
      (s.resolve o.toInt = none →
        exec (.fget o sym) s = .next (s.respond .absent) ∧
        exec (.flow o sym) s = .next (s.respond .absent) ∧
        exec (.fhigh o sym) s = .next (s.respond .absent))) ∧
    (s.SL ≤ sym.toNat →
      exec (.fget o sym) s = .next (s.raise .symbol sym.toNat) ∧
      exec (.flow o sym) s = .next (s.raise .symbol sym.toNat) ∧
      exec (.fhigh o sym) s = .next (s.raise .symbol sym.toNat))

/-- `FINC o, s` (R127): a symbol out of range raises E_SYMBOL, an absent context answers ABSENT, the flat table raises
E_FLATMUT; on a context's table the count and the total grow by 1, the cumulative values above the symbol by 1, and no
other table, count or piece of state changes; at TOTAL_MAX it raises E_COUNT. -/
def Obligations.FincAddsOne : Prop :=
  ∀ (s : State) (o : Order) (sym : SymField), s.phase = .run → -1 ≤ o.toInt → Memory.wf s.ctx = true →
    (s.SL ≤ sym.toNat → exec (.finc o sym) s = .next (s.raise .symbol sym.toNat)) ∧
    (sym.toNat < s.SL → s.resolve o.toInt = none → exec (.finc o sym) s = .next (s.respond .absent)) ∧
    (sym.toNat < s.SL → s.resolve o.toInt = some .flat → exec (.finc o sym) s = .next (s.raise .flatMut 0x24)) ∧
    (∀ p, sym.toNat < s.SL → s.resolve o.toInt = some (.context p) →
      (s.total (.context p) = 2 ^ 32 - 1 → exec (.finc o sym) s = .next (s.raise .count sym.toNat)) ∧
      (s.total (.context p) ≠ 2 ^ 32 - 1 →
        ∃ m, exec (.finc o sym) s = .next ({ s with ctx := m }.okNat 0) ∧ Memory.wf m = true ∧
          (∀ q, q ≠ p → lookup q m = lookup q s.ctx) ∧ Memory.has m p = true ∧
          (∀ j, Table.get (Memory.table m p) j = s.get (.context p) j + (if j = sym.toNat then 1 else 0)) ∧
          Table.total s.SL (Memory.table m p) = s.total (.context p) + 1 ∧
          (∀ j, Table.cumLow (Memory.table m p) j = s.cumLow (.context p) j + (if sym.toNat < j then 1 else 0)) ∧
          (∀ j, Table.cumHigh (Memory.table m p) j = s.cumHigh (.context p) j + (if sym.toNat ≤ j then 1 else 0))))

/-- `FSET o, s, c` (R129): a symbol out of range raises E_SYMBOL, an absent context answers ABSENT, the flat table
raises E_FLATMUT; on a context's table the count becomes `c`, the total follows, and no other table, count or piece of
state changes; a total of 0 or above TOTAL_MAX raises E_COUNT. -/
def Obligations.FsetReplacesTheCount : Prop :=
  ∀ (s : State) (o : Order) (sym : SymField) (c : Word), s.phase = .run → -1 ≤ o.toInt → Memory.wf s.ctx = true →
    (s.SL ≤ sym.toNat → exec (.fset o sym c) s = .next (s.raise .symbol sym.toNat)) ∧
    (sym.toNat < s.SL → s.resolve o.toInt = none → exec (.fset o sym c) s = .next (s.respond .absent)) ∧
    (sym.toNat < s.SL → s.resolve o.toInt = some .flat → exec (.fset o sym c) s = .next (s.raise .flatMut 0x25)) ∧
    (∀ p, sym.toNat < s.SL → s.resolve o.toInt = some (.context p) →
      let n := s.total (.context p) - s.get (.context p) sym.toNat + c.toNat
      (n = 0 ∨ 2 ^ 32 - 1 < n → exec (.fset o sym c) s = .next (s.raise .count sym.toNat)) ∧
      (n ≠ 0 → n ≤ 2 ^ 32 - 1 →
        ∃ m, exec (.fset o sym c) s = .next ({ s with ctx := m }.okNat 0) ∧ Memory.wf m = true ∧
          (∀ q, q ≠ p → lookup q m = lookup q s.ctx) ∧ Memory.has m p = true ∧
          (∀ j, Table.get (Memory.table m p) j = if j = sym.toNat then c.toNat else s.get (.context p) j) ∧
          Table.total s.SL (Memory.table m p) = n))

/-- The flat table cannot be written (R130): `FINC` and `FSET` with designator -1 raise E_FLATMUT with the opcode. -/
def Obligations.FlatTableCannotBeWritten : Prop :=
  ∀ (s : State) (sym : SymField) (c : Word), s.phase = .run → sym.toNat < s.SL →
    exec (.finc (BitVec.ofInt 8 (-1)) sym) s = .next (s.raise .flatMut 0x24) ∧
    exec (.fset (BitVec.ofInt 8 (-1)) sym c) s = .next (s.raise .flatMut 0x25)

/-! ### Context tree and history (42_context_tree.md) -/

/-- `CWALK o` (R143) and the traversal (R141): designator -1 is the flat table; designator n names the context of the n
most recent symbols, if the history holds n and that context exists; the answer is OK or ABSENT and nothing changes.
With the tree as a run has it at rest, `CWALK 0` answers OK iff K >= 0. -/
def Obligations.CwalkTellsWhetherAContextExists : Prop :=
  ∀ (s : State) (o : Order), s.phase = .run ∨ s.phase = .closed → -1 ≤ o.toInt →
    (o.toInt = -1 → s.resolve o.toInt = some .flat) ∧
    (∀ n : Nat, o.toInt = n → n ≤ s.hlen → Memory.has s.ctx (s.hist.take n) = true →
      s.resolve o.toInt = some (.context (s.hist.take n))) ∧
    (∀ n : Nat, o.toInt = n → (s.hlen < n ∨ Memory.has s.ctx (s.hist.take n) = false) →
      s.resolve o.toInt = none) ∧
    (s.resolve o.toInt ≠ none → exec (.cwalk o) s = .next (s.okNat 0)) ∧
    (s.resolve o.toInt = none → exec (.cwalk o) s = .next (s.respond .absent)) ∧
    (s.TreeAtRest → -1 ≤ s.K →
      (exec (.cwalk 0) s = .next (s.okNat 0) ↔ 0 ≤ s.K) ∧
      (exec (.cwalk 0) s = .next (s.respond .absent) ↔ s.K = -1))

/-- `CINC s` (R144): exactly the tables of the root and of the contexts of the 1 to min(hlen, K) most recent symbols
are incremented at the symbol, those that did not exist are created with count 1 for ESC first, NCTX counts the new
ones, and nothing else changes; with K = -1 nothing happens at all. The first context of the path whose total is
TOTAL_MAX raises E_COUNT with the symbol (41_frequency_table.md R127), if the ones before it could be visited. -/
def Obligations.CincUpdatesThePath : Prop :=
  ∀ (s : State) (sym : SymField), s.phase = .run → sym.toNat < s.SL → Memory.wf s.ctx = true →
    (s.K = -1 → exec (.cinc sym) s = .next (s.okNat 0)) ∧
    (0 ≤ s.K → Memory.has s.ctx [] = true →
      let paths := (List.range (min s.hlen s.K.toNat + 1)).map (fun n => s.hist.take n)
      let missing := (paths.filter (fun p => !Memory.has s.ctx p)).length
      (∀ p ∈ paths, Memory.has s.ctx p = true → s.total (.context p) ≠ Config.totalMax) →
      (∀ n, s.params.nodeMax = some n → s.nctx + missing ≤ n) →
      ∃ m, exec (.cinc sym) s = .next ({ s with ctx := m, nctx := s.nctx + missing }.okNat 0) ∧
        Memory.wf m = true ∧
        (∀ q, q ∉ paths → lookup q m = lookup q s.ctx) ∧
        (∀ q ∈ paths, Memory.has m q = true ∧
          ∀ j, Table.get (Memory.table m q) j =
            (if Memory.has s.ctx q then s.get (.context q) j else if j = s.ESC then 1 else 0) +
              (if j = sym.toNat then 1 else 0))) ∧
    (0 ≤ s.K → Memory.has s.ctx [] = true → ∀ k, k ≤ min s.hlen s.K.toNat →
      let before := (List.range k).map (fun n => s.hist.take n)
      let made := (before.filter (fun p => !Memory.has s.ctx p)).length
      (∀ p ∈ before, Memory.has s.ctx p = true → s.total (.context p) ≠ Config.totalMax) →
      (∀ n, s.params.nodeMax = some n → s.nctx + made ≤ n) →
      Memory.has s.ctx (s.hist.take k) = true → s.total (.context (s.hist.take k)) = Config.totalMax →
      exec (.cinc sym) s = .next (s.raise .count sym.toNat))

/-- Lockstep (R145): what `CINC` does to the tree depends on the configuration, the tree, the history and the symbol
alone: two states that agree on these, whatever their mode and coder, get the same tree or raise the same fault. -/
def Obligations.CincDependsOnTheModelAlone : Prop :=
  ∀ (s u : State) (sym : SymField), s.phase = .run → u.phase = .run →
    s.crK = u.crK → s.crSl = u.crSl → s.crEsc = u.crEsc → s.params = u.params →
    s.hist = u.hist → s.ctx = u.ctx → s.nctx = u.nctx →
    (∃ m k, exec (.cinc sym) s = .next ({ s with ctx := m, nctx := k }.okNat 0) ∧
        exec (.cinc sym) u = .next ({ u with ctx := m, nctx := k }.okNat 0)) ∨
    (∃ (cause : Cause) (info : Nat) (s' u' : State), exec (.cinc sym) s = .next (s'.raise cause info) ∧
        exec (.cinc sym) u = .next (u'.raise cause info))

/-- `CINC` with no room left (R142): the first context of its path that is missing when NCTX, counting the contexts the
command has created before it, has reached NODE_MAX raises E_NODES with that NCTX. -/
def Obligations.CincWithoutRoomRaisesNodes : Prop :=
  ∀ (s : State) (sym : SymField), s.phase = .run → sym.toNat < s.SL → 0 ≤ s.K → Memory.has s.ctx [] = true →
    ∀ k, k ≤ min s.hlen s.K.toNat →
      let before := (List.range k).map (fun n => s.hist.take n)
      let made := (before.filter (fun p => !Memory.has s.ctx p)).length
      (∀ p ∈ before, Memory.has s.ctx p = true → s.total (.context p) ≠ Config.totalMax) →
      Memory.has s.ctx (s.hist.take k) = false → s.params.nodeMax = some (s.nctx + made) →
      exec (.cinc sym) s = .next (s.raise .nodes (s.nctx + made))

/-- `HPUSH s` (R146): for K >= 1 the new history is the symbol followed by the first min(hlen, K - 1) entries of the
old one; for K <= 0 nothing happens. Nothing else changes. A symbol out of range raises E_SYMBOL. -/
def Obligations.HpushShiftsTheHistory : Prop :=
  ∀ (s : State) (sym : SymField), s.phase = .run →
    (s.SL ≤ sym.toNat → exec (.hpush sym) s = .next (s.raise .symbol sym.toNat)) ∧
    (sym.toNat < s.SL → s.K ≤ 0 → exec (.hpush sym) s = .next (s.okNat 0)) ∧
    (∀ k : Nat, sym.toNat < s.SL → s.K = k + 1 →
      exec (.hpush sym) s = .next ({ s with hist := sym.toNat :: s.hist.take (min s.hlen k) }.okNat 0))

/-- `HRD i` (R148): the history entry, or ABSENT at hlen and beyond; nothing changes. -/
def Obligations.HrdReadsTheHistory : Prop :=
  ∀ (s : State) (idx : SymField), s.phase = .run ∨ s.phase = .closed →
    (s.hlen ≤ idx.toNat → exec (.hrd idx) s = .next (s.respond .absent)) ∧
    (∀ h : idx.toNat < s.hist.length, exec (.hrd idx) s = .next (s.okNat (s.hist[idx.toNat]'h)))

/-! ### Range coder (43_range_coder.md) -/

/-- The arithmetic laws of narrowing (R163, R164): from an interval at rest and a non-empty part of a usable total, the
new interval lies inside the old one and is not empty, and the products are at most 2^(2P-2), so that 2P - 1 bits hold
them. -/
def Obligations.NarrowingStaysInside : Prop :=
  ∀ P low high total cl ch : Nat, 2 ≤ P → RestInterval P low high → cl < ch → ch ≤ total → total ≤ 2 ^ (P - 2) →
    2 ^ (P - 2) + 2 ≤ high - low + 1 ∧
    cl * (high - low + 1) ≤ ch * (high - low + 1) ∧ ch * (high - low + 1) ≤ 2 ^ (2 * P - 2) ∧
    low ≤ narrowLow low high total cl ∧
    narrowLow low high total cl ≤ narrowHigh low high total ch ∧
    narrowHigh low high total ch ≤ high

/-- `FindSymbol` (R174): for a value below the total, the symbol it finds is the unique one whose interval holds the
value. -/
def Obligations.FindSymbolIsTheUniqueOne : Prop :=
  ∀ (s : State) (t : TableRef) (value : Nat), Memory.wf s.ctx = true → value < s.total t →
    (s.findSymbol t value < s.SL ∧
      s.cumLow t (s.findSymbol t value) ≤ value ∧ value < s.cumHigh t (s.findSymbol t value)) ∧
    ∀ sym, sym < s.SL → s.cumLow t sym ≤ value → value < s.cumHigh t sym → sym = s.findSymbol t value

/-- Synchrony of the decode step (R175): the value of an interval at rest lies below the total, and narrowing by the
interval that holds the value keeps `code` inside. -/
def Obligations.DecodedValueKeepsCodeInside : Prop :=
  ∀ P low high code total cl ch : Nat, 2 ≤ P → RestInterval P low high → low ≤ code → code ≤ high →
    1 ≤ total → total ≤ 2 ^ (P - 2) →
    decodeValue low high code total < total ∧
    (cl ≤ decodeValue low high code total → decodeValue low high code total < ch →
      narrowLow low high total cl ≤ code ∧ code ≤ narrowHigh low high total ch)

/-- The encoder's E3 step (R169, R166): in mode ENC one more bit is owed and both bounds are moved with their second
bit flipped; at PEND_MAX it raises E_PENDING. -/
def Obligations.UnderflowStepOfTheEncoder : Prop :=
  ∀ s : State, s.mode = .enc → 2 ≤ s.P → s.P ≤ 32 →
    (s.pending.toNat = 2 ^ 32 - 1 → stepE3 s = .stop (.raised .pending 0) s) ∧
    (s.pending.toNat ≠ 2 ^ 32 - 1 → 2 ^ (s.P - 2) ≤ s.low.toNat → s.low.toNat < 2 ^ (s.P - 1) →
      2 ^ (s.P - 1) ≤ s.high.toNat → s.high.toNat < 3 * 2 ^ (s.P - 2) →
      stepE3 s = .done () { s with
        pending := s.pending + 1
        low := BitVec.ofNat 32 (((s.low.toNat * 2) % 2 ^ s.P) ^^^ 2 ^ (s.P - 1))
        high := BitVec.ofNat 32 ((((s.high.toNat ^^^ 2 ^ (s.P - 1)) * 2) % 2 ^ s.P) ||| 2 ^ (s.P - 1) ||| 1) })

/-- `ReadCodeBit` (R167) past the end of the stream: a 0, counted in TAILBITS, which saturates (R44). -/
def Obligations.TailBitsAreZerosAndCounted : Prop :=
  ∀ s : State, s.rcnt = 0 → s.eos = true →
    (s.tailbits.toNat < 2 ^ 64 - 1 → readCodeBit s = .done false { s with tailbits := s.tailbits + 1 }) ∧
    (s.tailbits.toNat = 2 ^ 64 - 1 → readCodeBit s = .done false s)

/-- `NARROW o, s` (R160, R161, R165, R168 to R170), at rest, with a usable table and a symbol of non-zero count: with
the `a` E1/E2 and `b` E3 steps that `Normalize` makes on the narrowed bounds, until they are at rest, it writes the top
`a` bits the bounds share, the first followed by the owed ones. Where the sink takes the bytes due, it completes: the
bounds are the narrowed ones shifted, `b` bits are owed (and those owed before, if a = 0), and nothing else changes. The
first byte the sink does not take raises E_IO_WRITE or leaves the command waiting; owed bits beyond PEND_MAX raise
E_PENDING (R166). The model's choice: an unlisted answer is OK (log 2), and how the wait is held (log 3). -/
def Obligations.NarrowEncodesTheSymbol : Prop :=
  ∀ (s : State) (o : Order) (sym : SymField) (t : TableRef),
    s.phase = .run → s.mode = .enc → -1 ≤ o.toInt → sym.toNat < s.SL → s.LegalConfig → s.IntervalAtRest →
    Memory.wf s.ctx = true → s.resolve o.toInt = some t → s.total t ≤ s.quarter → 0 < s.get t sym.toNat →
    let l := narrowLow s.low.toNat s.high.toNat (s.total t) (s.cumLow t sym.toNat)
    let h := narrowHigh s.low.toNat s.high.toNat (s.total t) (s.cumHigh t sym.toNat)
    ∃ a b, NormSteps s.P l h a b ∧
      (let bits := emitted s.P a l s.pending.toNat
       let due := s.bytesDue bits
       (s.sinkTakes due.length → (a = 0 → s.pending.toNat + b ≤ Config.pendMax) →
         ∃ u, exec (.narrow o sym) s = .next u ∧
           u = { s with
             low := BitVec.ofNat 32 (shifted s.P a b l false)
             high := BitVec.ofNat 32 (shifted s.P a b h true)
             pending := BitVec.ofNat 32 ((if a = 0 then s.pending.toNat else 0) + b)
             wbuf := u.wbuf, wcnt := u.wcnt, sink := u.sink, calls := u.calls
             responses := s.responses ++ [.okNat 0] } ∧
           WriterAfter s bits u) ∧
       (∀ k, k < due.length → s.sinkTakes k →
         let handed : State := { s with
           sink := s.sink.drop (k + 1)
           calls := s.calls ++ (due.take k).map (fun x => .outByte x .ok) ++
             [.outByte (due.getD k 0) (s.sink.getD k .ok)] }
         (s.sink.getD k .ok = .err → exec (.narrow o sym) s = .next (handed.raise .ioWrite 0)) ∧
         (s.sink.getD k .ok = .never →
           ∃ u, exec (.narrow o sym) s = .next u ∧
             u = { handed with
               busy := some .output, low := u.low, high := u.high, pending := u.pending
               wbuf := u.wbuf, wcnt := u.wcnt })) ∧
       (a = 0 → Config.pendMax < s.pending.toNat + b →
         exec (.narrow o sym) s = .next (s.raise .pending 0)))

/-- The checks of a coding step, before anything is written, emitted or consumed. On a designator that does not resolve,
`NARROW` and `DECODE` answer ABSENT and change nothing (R170, R173, 30_encoding.md R88), whatever the truncation limit
and the totals (60_exceptions.md R235). On one that does, `NARROW` raises E_TOTAL on a total above QUARTER (R162), else
E_ZEROFREQ on a count of 0 (R164); `DECODE` raises E_TRUNCATED once TAILBITS has reached TRUNC_LIMIT (R238), else
E_TOTAL. The first coding step of `ENCSYM` (44_symbol_driver.md R191, R193) and of `DECSYM` (R195), in the deepest
context there is, is checked the same way: `ENCSYM` raises E_TOTAL, or E_ZEROFREQ with ESC where it must escape and
cannot; `DECSYM` raises E_TRUNCATED, or E_TOTAL. -/
def Obligations.CodingStepChecks : Prop :=
  ∀ s : State, s.phase = .run →
    (∀ o : Order, -1 ≤ o.toInt → s.resolve o.toInt = none →
      (∀ sym : SymField, s.mode = .enc → sym.toNat < s.SL → exec (.narrow o sym) s = .next (s.respond .absent)) ∧
      (s.mode = .dec → s.codeValid = true → exec (.decode o) s = .next (s.respond .absent))) ∧
    (∀ (o : Order) (t : TableRef), -1 ≤ o.toInt → s.resolve o.toInt = some t →
      (∀ sym : SymField, s.mode = .enc → sym.toNat < s.SL →
        (s.quarter < s.total t → exec (.narrow o sym) s = .next (s.raise .total (s.total t))) ∧
        (s.total t ≤ s.quarter → s.get t sym.toNat = 0 →
          exec (.narrow o sym) s = .next (s.raise .zeroFreq sym.toNat))) ∧
      (s.mode = .dec → s.codeValid = true →
        (∀ n, s.params.truncLimit = some n → n ≤ s.tailbits.toNat →
          exec (.decode o) s = .next (s.raise .truncated (min s.tailbits.toNat (2 ^ 32 - 1)))) ∧
        ((∀ n, s.params.truncLimit = some n → s.tailbits.toNat < n) → s.quarter < s.total t →
          exec (.decode o) s = .next (s.raise .total (s.total t))))) ∧
    (∀ (n : Nat) (t : TableRef), n ≤ s.hlen → s.resolve n = some t →
      (∀ m : Nat, n < m → m ≤ s.hlen → s.resolve m = none) →
      (∀ sym : SymField, s.mode = .enc → sym.toNat < s.SL →
        (s.quarter < s.total t → exec (.encsym sym) s = .next (s.raise .total (s.total t))) ∧
        (s.total t ≤ s.quarter → sym.toNat = s.ESC ∨ s.get t sym.toNat = 0 → s.get t s.ESC = 0 →
          exec (.encsym sym) s = .next (s.raise .zeroFreq s.ESC))) ∧
      (s.mode = .dec → s.codeValid = true →
        (∀ n, s.params.truncLimit = some n → s.tailbits.toNat < n) → s.quarter < s.total t →
        exec .decsym s = .next (s.raise .total (s.total t)))) ∧
    (∀ n, s.mode = .dec → s.codeValid = true → s.params.truncLimit = some n → n ≤ s.tailbits.toNat →
      exec .decsym s = .next (s.raise .truncated (min s.tailbits.toNat (2 ^ 32 - 1))))

/-- `FINISH` (R171): exactly one bit, a 1, is written as `WriteBit` writes it; `pending`, `low` and `high` are
untouched. The model's choice: an unlisted answer is OK (log 2), and how the wait is held (log 3). -/
def Obligations.FinishWritesOneBit : Prop :=
  ∀ s : State, s.phase = .run → s.mode = .enc →
    let byte : Byte := BitVec.ofNat 8 (2 * s.wbuf.toNat + 1)
    let handed := fun a : OutAnswer => ({ s with sink := s.sink.tail, calls := s.calls ++ [.outByte byte a] } : State)
    (s.wcnt.toNat < 7 → exec .finish s = .next ({ s with wbuf := byte, wcnt := s.wcnt + 1 }.okNat 0)) ∧
    (s.wcnt = 7 → s.sink.headD .ok = .ok →
      exec .finish s = .next ({ handed .ok with wbuf := 0, wcnt := 0 }.okNat 0)) ∧
    (s.wcnt = 7 → s.sink.headD .ok = .err → exec .finish s = .next ((handed .err).raise .ioWrite 0)) ∧
    (s.wcnt = 7 → s.sink.headD .ok = .never → exec .finish s = .next { handed .never with busy := some .output })

/-- `DINIT` (R172), where the source answers every request that P bits make, whatever it would answer beyond them: `code`
becomes the next P bits of the stream, the first most significant, bits past its end being 0 and counted in TAILBITS;
CODE_VALID is set; the interval and everything else stay. A second one raises E_SEQUENCE. The first answer of the source
that is neither a byte nor its end, at the `k`-th request within these bits, raises E_IO_READ or leaves the command
waiting. The model's choice: an unlisted answer is EOS (log 2), and how the wait is held (log 3). -/
def Obligations.DinitLoadsTheCode : Prop :=
  ∀ s : State, s.phase = .run → s.mode = .dec → s.P ≤ 32 →
    (s.codeValid = true → exec .dinit s = .next (s.raise .sequence 0x42)) ∧
    (s.codeValid = false → ∀ k, s.asks s.P k →
      let asked : State := { s with
        input := s.input.drop (k + 1), calls := s.calls ++ (s.input.take (k + 1)).map .inByte }
      (s.input[k]? = some .err → exec .dinit s = .next (asked.raise .ioRead 0)) ∧
      (s.input[k]? = some .never →
        ∃ u, exec .dinit s = .next u ∧
          u = { asked with busy := some .input, code := u.code, rbuf := u.rbuf, rcnt := u.rcnt })) ∧
    (s.codeValid = false → s.sourceAnswers s.P →
      ∃ u, exec .dinit s = .next u ∧
        u = { s with
          code := BitVec.ofNat 32 (numOfBits (s.codeBits s.P)), codeValid := true
          eos := u.eos, tailbits := u.tailbits, rbuf := u.rbuf, rcnt := u.rcnt
          input := u.input, calls := u.calls, responses := s.responses ++ [.okNat 0] } ∧
        ReaderAfter s s.P u ∧
        u.bitsLeft = s.bitsLeft.drop s.P ∧
        u.tailbits.toNat = min (s.tailbits.toNat + (s.P - s.bitsLeft.length)) (2 ^ 64 - 1))

/-- `DECODE o` (R173, R174, R160, R161, R165, R168, R169): at rest, with a usable table and below the truncation limit,
there are the symbol whose interval holds the value and the `a` E1/E2 and `b` E3 steps that `Normalize` makes on the
narrowed bounds, until they are at rest. Where the source answers every request that `a + b` bits make, whatever it
would answer beyond them, it completes with that symbol, narrows and normalises as the encoder does, takes as many code
bits as it makes steps, keeps `code` inside the interval, and changes nothing else. The first answer of the source that
is neither a byte nor its end, within these bits, raises E_IO_READ or leaves the command waiting. The model's choice: an
unlisted answer is EOS (log 2), and how the wait is held (log 3). -/
def Obligations.DecodeFindsTheSymbol : Prop :=
  ∀ (s : State) (o : Order) (t : TableRef),
    s.phase = .run → s.mode = .dec → s.codeValid = true → -1 ≤ o.toInt → s.LegalConfig → s.IntervalAtRest →
    s.CodeAtRest → Memory.wf s.ctx = true → s.resolve o.toInt = some t → 1 ≤ s.total t → s.total t ≤ s.quarter →
    (∀ n, s.params.truncLimit = some n → s.tailbits.toNat < n) →
    ∃ sym a b, sym < s.SL ∧
      s.cumLow t sym ≤ decodeValue s.low.toNat s.high.toNat s.code.toNat (s.total t) ∧
      decodeValue s.low.toNat s.high.toNat s.code.toNat (s.total t) < s.cumHigh t sym ∧
      (let l := narrowLow s.low.toNat s.high.toNat (s.total t) (s.cumLow t sym)
       let h := narrowHigh s.low.toNat s.high.toNat (s.total t) (s.cumHigh t sym)
       let bits := s.codeBits (a + b)
       NormSteps s.P l h a b ∧
       (s.sourceAnswers (a + b) →
         ∃ u, exec (.decode o) s = .next u ∧
           u = { s with
             low := BitVec.ofNat 32 (shifted s.P a b l false)
             high := BitVec.ofNat 32 (shifted s.P a b h true)
             code := BitVec.ofNat 32
               (((s.code.toNat * 2 ^ a) % 2 ^ s.P + numOfBits (bits.take a)) * 2 ^ b - 2 ^ (s.P - 1) * (2 ^ b - 1) +
                 numOfBits (bits.drop a))
             eos := u.eos, tailbits := u.tailbits, rbuf := u.rbuf, rcnt := u.rcnt
             input := u.input, calls := u.calls, responses := s.responses ++ [.okNat sym] } ∧
           u.IntervalAtRest ∧ u.low.toNat ≤ u.code.toNat ∧ u.code.toNat ≤ u.high.toNat ∧
           ReaderAfter s (a + b) u ∧
           u.bitsLeft = s.bitsLeft.drop (a + b) ∧
           u.tailbits.toNat = min (s.tailbits.toNat + (a + b - s.bitsLeft.length)) (2 ^ 64 - 1)) ∧
       (∀ k, s.asks (a + b) k →
         let asked : State := { s with
           input := s.input.drop (k + 1), calls := s.calls ++ (s.input.take (k + 1)).map .inByte }
         (s.input[k]? = some .err → exec (.decode o) s = .next (asked.raise .ioRead 0)) ∧
         (s.input[k]? = some .never →
           ∃ u, exec (.decode o) s = .next u ∧
             u = { asked with
               busy := some .input, low := u.low, high := u.high, code := u.code, rbuf := u.rbuf, rcnt := u.rcnt })))

/-- `RCRD r` (R176): the coder register, zero-extended; nothing changes; an index above 3 is illegal. In a state that
meets the coder's invariant `code` reads 0 in mode ENC and `pending` reads 0 in mode DEC. -/
def Obligations.RcrdReadsTheCoder : Prop :=
  ∀ (s : State) (r : SymField), s.phase = .run ∨ s.phase = .closed →
    exec (.rcrd 0) s = .next (s.respond (.ok (s.low.zeroExtend 64))) ∧
    exec (.rcrd 1) s = .next (s.respond (.ok (s.high.zeroExtend 64))) ∧
    exec (.rcrd 2) s = .next (s.respond (.ok (s.code.zeroExtend 64))) ∧
    exec (.rcrd 3) s = .next (s.respond (.ok (s.pending.zeroExtend 64))) ∧
    (3 < r.toNat → exec (.rcrd r) s = .next (s.raise .illegal 0x44)) ∧
    (s.CodeAtRest → s.mode = .enc → exec (.rcrd 2) s = .next (s.okNat 0)) ∧
    (s.CodeAtRest → s.mode = .dec → exec (.rcrd 3) s = .next (s.okNat 0))

/-- One coding step mirrored (R175 b): an encoder and a decoder with the same configuration, interval, history and
tables; the encoder's `NARROW o, s` completes; the decoder's `code` lies in the interval it narrowed to, and its source
answers every request that the bits of the steps make. Then `DECODE o` completes with `s` and reaches the same interval.
An unlisted answer of the decoder's source is EOS (the model's choice, log 2). -/
def Obligations.DecodeMirrorsNarrow : Prop :=
  ∀ (e d te : State) (o : Order) (sym : SymField) (t : TableRef),
    e.phase = .run → e.mode = .enc → d.phase = .run → d.mode = .dec → d.codeValid = true → -1 ≤ o.toInt →
    e.crP = d.crP → e.crK = d.crK → e.crSl = d.crSl → e.crEsc = d.crEsc →
    e.low = d.low → e.high = d.high → e.hist = d.hist → e.ctx = d.ctx →
    e.LegalConfig → e.IntervalAtRest → Memory.wf e.ctx = true →
    e.resolve o.toInt = some t → exec (.narrow o sym) e = .next te → te.phase = .run → te.busy = none →
    e.busy = none →
    let l := narrowLow e.low.toNat e.high.toNat (e.total t) (e.cumLow t sym.toNat)
    let h := narrowHigh e.low.toNat e.high.toNat (e.total t) (e.cumHigh t sym.toNat)
    l ≤ d.code.toNat → d.code.toNat ≤ h →
    (∀ n, d.params.truncLimit = some n → d.tailbits.toNat < n) →
    (∀ a b, NormSteps d.P l h a b → d.sourceAnswers (a + b)) →
    ∃ td, exec (.decode o) d = .next td ∧ td.phase = .run ∧ td.busy = d.busy ∧
      td.responses = d.responses ++ [.okNat sym.toNat] ∧ td.low = te.low ∧ td.high = te.high

/-! ### Symbol driver (44_symbol_driver.md) -/

/-- `ENCSYM s` completes (R191): at rest, with usable tables that can escape, a sink that takes the bytes, and room in
`pending` and in the tree, it codes the symbol as the host's own search of R199 does (the coder and the writer are where
that sequence of `FGET` and `NARROW` leaves them), updates the tree as `CINC s` does and the history as `HPUSH s` does,
ends at rest, and changes nothing else. An unlisted answer of the sink is OK (the model's choice, log 2). -/
def Obligations.EncsymCodesAndUpdates : Prop :=
  ∀ (s : State) (sym : SymField),
    s.phase = .run → s.mode = .enc → s.busy = none → sym.toNat < s.SL → s.CoderInv → s.TreeInv → s.sinkGood →
    (∀ (n : Nat) (t : TableRef), s.resolve n = some t → s.total t ≤ s.quarter ∧ 0 < s.get t s.ESC) →
    s.pending.toNat + (s.hlen + 2) * s.P ≤ Config.pendMax →
    (∀ n, s.params.nodeMax = some n → s.nctx + s.hlen ≤ n) →
    ∃ u c, exec (.encsym sym) s = .next u ∧ exec (.cinc sym) s = .next c ∧ c.phase = .run ∧
      (let v := runCommands (encodeScript s sym (s.hlen + 1)) s
       v.phase = .run ∧ v.busy = none ∧
       u = { s with
         low := v.low, high := v.high, pending := v.pending
         wbuf := v.wbuf, wcnt := v.wcnt, sink := v.sink, calls := v.calls
         ctx := c.ctx, nctx := c.nctx
         hist := if s.K ≤ 0 then s.hist else sym.toNat :: s.hist.take (min s.hlen (s.K.toNat - 1))
         responses := s.responses ++ [.okNat 0] }) ∧
      u.IntervalAtRest

/-- `DECSYM` completes (R195): at rest, with usable tables, far enough below the truncation limit, with a source that
answers and room in the tree, it answers the symbol that the host's own search of R199 finds (the coder and the reader
are where that sequence of `DECODE` leaves them), which is below SL, updates the tree as `CINC` of that symbol does and
the history as `HPUSH` of it does, ends at rest with `code` inside the interval, and changes nothing else. An unlisted
answer of the source is EOS (the model's choice, log 2). -/
def Obligations.DecsymDecodesAndUpdates : Prop :=
  ∀ s : State,
    s.phase = .run → s.mode = .dec → s.codeValid = true → s.busy = none → s.CoderInv → s.TreeInv → s.sourceGood →
    (∀ (n : Nat) (t : TableRef), s.resolve n = some t → s.total t ≤ s.quarter) →
    (∀ n, s.params.truncLimit = some n → s.tailbits.toNat + (s.hlen + 1) * (2 * s.P) < n) →
    (∀ n, s.params.nodeMax = some n → s.nctx + s.hlen ≤ n) →
    let v := decodeByHost (s.hlen + 1) s
    let sym := v.lastSymbol
    v.phase = .run ∧ v.busy = none ∧ sym.toNat < s.SL ∧
      ∃ u c : State, exec .decsym s = .next u ∧ exec (.cinc sym) s = .next c ∧ c.phase = .run ∧
        u = { s with
          low := v.low, high := v.high, code := v.code
          eos := v.eos, tailbits := v.tailbits, rbuf := v.rbuf, rcnt := v.rcnt, input := v.input, calls := v.calls
          ctx := c.ctx, nctx := c.nctx
          hist := if s.K ≤ 0 then s.hist else sym.toNat :: s.hist.take (min s.hlen (s.K.toNat - 1))
          responses := s.responses ++ [.okNat sym.toNat] } ∧
        u.IntervalAtRest ∧ u.low.toNat ≤ u.code.toNat ∧ u.code.toNat ≤ u.high.toNat

/-- `ENCSYM s` has exactly the effect of the host's own sequence of primitive commands (R199), whatever it ends in, in
every encoder run: where it completes, raises any of its faults (E_SYMBOL, E_TOTAL, E_ZEROFREQ, E_IO_WRITE, E_PENDING,
E_COUNT, E_NODES; R191, R193) or waits for the sink, that sequence reaches the same state, but for the responses on
the way. The host issues no command while one waits (60_exceptions.md R249), and after a fault its further commands
are REFUSED (R241). After a fault the spec says that the configuration, the fault record, PHASE and the bytes handed
over are the same, and leaves the rest unspecified (R240, S3); that the lost state and the counter of free values
agree as well rests not on R199 but on the model's choice (log 6: one free value at one counter), and nothing is said
of what that state is. That a wait is a state at all is the model's choice (log 3). -/
def Obligations.EncsymIsItsPrimitives : Prop :=
  ∀ (s u : State) (sym : SymField), s.LegalConfig → s.hlen ≤ 127 → s.phase = .run → s.mode = .enc → s.busy = none →
    exec (.encsym sym) s = .next u →
    (runCommands (encodeScript s sym (s.hlen + 1) ++ [.cinc sym, .hpush sym]) s).silent = u.silent

/-- `DECSYM` has exactly the effect of the host's own sequence of primitive commands (R199), whatever it ends in, in
every decoder run with `code` loaded: where it completes, raises any of its faults (E_TRUNCATED, E_TOTAL, E_IO_READ,
E_COUNT, E_NODES; R195) or waits for the source, the host's search with `DECODE`, then `CINC` and `HPUSH` of the
symbol found, reach the same state, but for the responses on the way; where it completes, it answers that symbol.
After a fault the spec says that the configuration, the fault record, PHASE and the bytes handed over are the same,
and leaves the rest unspecified (R240, S3); that the lost state and the counter of free values agree as well rests not
on R199 but on the model's choice (log 6: one free value at one counter), and nothing is said of what that state is.
That a wait is a state at all is the model's choice (log 3). -/
def Obligations.DecsymIsItsPrimitives : Prop :=
  ∀ s u : State, s.LegalConfig → s.hlen ≤ 127 → s.phase = .run → s.mode = .dec → s.codeValid = true →
    s.busy = none → exec .decsym s = .next u →
    let sym := (decodeByHost (s.hlen + 1) s).lastSymbol
    (runCommands [.cinc sym, .hpush sym] (decodeByHost (s.hlen + 1) s)).silent = u.silent ∧
      (u.phase = .run → u.busy = none → u.responses = s.responses ++ [.okNat sym.toNat])

/-! ### Invariants and rules of the whole machine -/

/-- The invariants hold in the state after reset. -/
def Obligations.ResetMeetsTheInvariants : Prop :=
  State.reset.CoderInv ∧ State.reset.ChannelInv ∧ State.reset.TreeInv ∧ State.reset.FaultInv

/-- The tree memory keeps its canonical form, whatever the step. The form (paths and symbols strictly rising, no count
of 0 listed) is the model's own layout of the tree (log 10): the spec says that a layout is not architectural
(10_state.md R48). -/
def Obligations.StepKeepsMemoryCanonical : Prop :=
  ∀ s t : State, Memory.wf s.ctx = true → step s = .next t → Memory.wf t.ctx = true

/-- Every step keeps the coder's invariant: at rest in a run, R21 holds of `low` and `high` and R22 of `code`, for any
command sequence and any input bytes. And every step keeps the bit channel's: at rest `wbuf` is below 2^wcnt
(40_bit_channel.md R101), EOS leaves no bit buffered (R102), a tail bit is counted only after EOS, and what belongs to
the other mode is 0. -/
def Obligations.StepKeepsTheCoderAtRest : Prop :=
  ∀ s t : State, step s = .next t → (s.CoderInv → t.CoderInv) ∧ (s.ChannelInv → t.ChannelInv)

/-- Every step keeps the invariants of the tree and the history (R45, R47, R48, R62; R145: no path is longer than
K). -/
def Obligations.StepKeepsTheTree : Prop :=
  ∀ s t : State, s.TreeInv → step s = .next t → t.TreeInv

/-- Every step keeps the fault record: FAULT_CAUSE is a cause of R231 exactly in phase FAULT, and 0 otherwise, as
FAULT_INFO is. -/
def Obligations.StepKeepsTheFaultRecord : Prop :=
  ∀ s t : State, s.FaultInv → step s = .next t → t.FaultInv

/-- The transitions of PHASE (R33, R261): a command leaves it, or is `START` from UNCONF to RUN, or `BCLOSE` from RUN to
CLOSED, or enters FAULT by raising a cause of R231, with the one response FAULT (R240); phase FAULT, its cause and its
information stay until reset. -/
def Obligations.PhaseTransitions : Prop :=
  ∀ (s t : State) (i : Instr), exec i s = .next t →
    (t.phase = s.phase ∨
      (s.phase = .unconf ∧ t.phase = .run ∧ ∃ m, i = .start m) ∨
      (s.phase = .run ∧ t.phase = .closed ∧ i = .bclose) ∨
      (s.phase ≠ .fault ∧ ∃ (cause : Cause) (info : Nat) (u : State),
        t = u.raise cause info ∧ u.responses = s.responses)) ∧
    (s.phase = .fault → t.phase = .fault ∧ t.faultCause = s.faultCause ∧ t.faultInfo = s.faultInfo)

/-- The configuration is fixed in a run (R41) and MODE with it (R34): only `CRW` in phase UNCONF changes a configuration
register, only `START` writes MODE (a fault loses it), and nothing changes the implementation's parameters. -/
def Obligations.ConfigurationIsFixedInARun : Prop :=
  ∀ (s t : State) (i : Instr), exec i s = .next t →
    t.params = s.params ∧
    ((s.phase ≠ .unconf ∨ ∀ r v, i ≠ .crw r v) →
      t.crP = s.crP ∧ t.crK = s.crK ∧ t.crSl = s.crSl ∧ t.crEsc = s.crEsc) ∧
    (t.phase ≠ .fault → (∀ m, i ≠ .start m) → t.mode = s.mode)

/-- Who writes the coder registers (R23): in a command that raises no fault, `low` and `high` change only by `START`,
`NARROW`, `ENCSYM`, `DECODE`, `DECSYM`, `pending` only by `START`, `NARROW`, `ENCSYM`, and `code` only by `START`,
`DINIT`, `DECODE`, `DECSYM`. -/
def Obligations.CoderRegisterWriters : Prop :=
  ∀ (s t : State) (i : Instr), exec i s = .next t → t.phase ≠ .fault →
    (i.opcode ∉ [.start, .narrow, .encsym, .decode, .decsym] → t.low = s.low ∧ t.high = s.high) ∧
    (i.opcode ∉ [.start, .narrow, .encsym] → t.pending = s.pending) ∧
    (i.opcode ∉ [.start, .dinit, .decode, .decsym] → t.code = s.code)

/-- The commands without side effects (R71): `FTOT`, `FGET`, `FLOW`, `FHIGH`, `CWALK`, `HRD`, `RCRD`, `CRR` change no
state at all when they raise no fault; they answer. (The model's free-value counter may advance, log 6.) -/
def Obligations.ReadingCommandsChangeNothing : Prop :=
  ∀ (s t : State) (i : Instr), i.opcode ∈ [.ftot, .fget, .flow, .fhigh, .cwalk, .hrd, .rcrd, .crr] →
    exec i s = .next t → t.phase = s.phase →
    ∃ r n, t = { s with responses := s.responses ++ [r], freeCount := n }

/-- Every command ends with exactly one response, unless it waits for a byte port (R88, 20 R67); its byte-port calls
come after those before it, only input calls in mode DEC and only output calls in mode ENC (R67, R68). The model's
choices: that responses and calls are recorded in the state (log 11), and that a command which waits gives a next state
with the wait in it and no response (log 3), where the spec lets the block be stuck. -/
def Obligations.OneResponsePerCommand : Prop :=
  ∀ (s : State) (i : Instr), s.busy = none →
    ∃ t l, exec i s = .next t ∧ t.calls = s.calls ++ l ∧
      ((t.busy = none ∧ ∃ r, t.responses = s.responses ++ [r]) ∨ (t.busy ≠ none ∧ t.responses = s.responses)) ∧
      (∀ c ∈ l, s.phase = .run ∧
        (s.mode = .enc → (∃ x a, c = .outByte x a) ∨ c = .outClose) ∧
        (s.mode = .dec → (∃ a, c = .inByte a) ∨ c = .inClose))

/-- Contexts are never removed in a run and NCTX never decreases (R45, R61): in a command that raises no fault and opens
no run, every context that exists goes on existing. -/
def Obligations.ContextsAreNeverRemoved : Prop :=
  ∀ (s t : State) (i : Instr), exec i s = .next t → t.phase ≠ .fault → (∀ m, i ≠ .start m) →
    s.nctx ≤ t.nctx ∧ ∀ p, Memory.has s.ctx p = true → Memory.has t.ctx p = true
end

