-- ==== Sys2Proof/Laws/Channel.lean ====
section
/-! SUPPORT. What the operations inside a command can do, said once: sequencing, the byte ports, the bit channel's
primitives (40_bit_channel.md R101, R102) and `ReadCodeBit` (43_range_coder.md R167). -/

namespace Sys2Proof.Machine

/-! ### Sequencing -/

/-- The state an operation ends in, whether it completes or stops. -/
def Res.final {α : Type} : Res α → State
  | .done _ s => s
  | .stop _ s => s

@[simp] theorem Res.final_done {α : Type} (a : α) (s : State) : (Res.done a s).final = s := rfl
@[simp] theorem Res.final_stop {α : Type} (w : Stop) (s : State) : (Res.stop w s : Res α).final = s := rfl

@[simp] theorem Res.done_andThen {α β : Type} (a : α) (s : State) (f : α → State → Res β) :
    (Res.done a s).andThen f = f a s := rfl
@[simp] theorem Res.stop_andThen {α β : Type} (w : Stop) (s : State) (f : α → State → Res β) :
    (Res.stop w s : Res α).andThen f = .stop w s := rfl

theorem Res.andThen_assoc {α β γ : Type} (r : Res α) (f : α → State → Res β) (g : β → State → Res γ) :
    (r.andThen f).andThen g = r.andThen fun a s => (f a s).andThen g := by
  cases r <;> rfl

theorem Res.andThen_eq_done {α β : Type} {r : Res α} {f : α → State → Res β} {b : β} {u : State}
    (h : r.andThen f = .done b u) : ∃ a v, r = .done a v ∧ f a v = .done b u := by
  cases r with
  | done a v => exact ⟨a, v, rfl, h⟩
  | stop w v => cases h

/-- Where an operation ends, followed by another: a relation that is transitive passes through. -/
theorem Res.final_andThen {α β : Type} (R : State → State → Prop) (trans : ∀ a b c, R a b → R b c → R a c) {s : State}
    {r : Res α} {f : α → State → Res β} (h1 : R s r.final) (h2 : ∀ a v, r = .done a v → R v (f a v).final) :
    R s (r.andThen f).final := by
  cases r with
  | done a v => exact trans _ _ _ h1 (h2 a v rfl)
  | stop w v => exact h1

/-! ### Parts of the state set aside

Two states that agree once a part is set aside differ in that part alone. -/

/-- All but what writing bits changes. -/
def State.sansWriter (s : State) : State := { s with wbuf := 0, wcnt := 0, sink := [], calls := [] }

/-- All but what reading bits changes. -/
def State.sansReader (s : State) : State :=
  { s with eos := false, tailbits := 0, rbuf := 0, rcnt := 0, input := [], calls := [] }

/-- All but what encoding changes. -/
def State.sansEnc (s : State) : State := { s.sansWriter with low := 0, high := 0, pending := 0 }

/-- All but what decoding changes. -/
def State.sansDec (s : State) : State := { s.sansReader with low := 0, high := 0, code := 0 }

/-- All but the tree and the history. -/
def State.sansModel (s : State) : State := { s with ctx := [], nctx := 0, hist := [] }

theorem State.eq_of_sansWriter {s u : State} (h : s.sansWriter = u.sansWriter) :
    u = { s with wbuf := u.wbuf, wcnt := u.wcnt, sink := u.sink, calls := u.calls } := by
  have e : u = { u.sansWriter with wbuf := u.wbuf, wcnt := u.wcnt, sink := u.sink, calls := u.calls } := rfl
  rw [← h] at e
  exact e

theorem State.eq_of_sansReader {s u : State} (h : s.sansReader = u.sansReader) :
    u = { s with
      eos := u.eos, tailbits := u.tailbits, rbuf := u.rbuf, rcnt := u.rcnt, input := u.input, calls := u.calls } := by
  have e : u = { u.sansReader with
      eos := u.eos, tailbits := u.tailbits, rbuf := u.rbuf, rcnt := u.rcnt, input := u.input, calls := u.calls } := rfl
  rw [← h] at e
  exact e

theorem State.eq_of_sansEnc {s u : State} (h : s.sansEnc = u.sansEnc) :
    u = { s with
      low := u.low, high := u.high, pending := u.pending
      wbuf := u.wbuf, wcnt := u.wcnt, sink := u.sink, calls := u.calls } := by
  have e : u = { u.sansEnc with
      low := u.low, high := u.high, pending := u.pending
      wbuf := u.wbuf, wcnt := u.wcnt, sink := u.sink, calls := u.calls } := rfl
  rw [← h] at e
  exact e

theorem State.eq_of_sansDec {s u : State} (h : s.sansDec = u.sansDec) :
    u = { s with
      low := u.low, high := u.high, code := u.code, eos := u.eos, tailbits := u.tailbits
      rbuf := u.rbuf, rcnt := u.rcnt, input := u.input, calls := u.calls } := by
  have e : u = { u.sansDec with
      low := u.low, high := u.high, code := u.code, eos := u.eos, tailbits := u.tailbits
      rbuf := u.rbuf, rcnt := u.rcnt, input := u.input, calls := u.calls } := rfl
  rw [← h] at e
  exact e

theorem State.eq_of_sansModel {s u : State} (h : s.sansModel = u.sansModel) :
    u = { s with ctx := u.ctx, nctx := u.nctx, hist := u.hist } := by
  have e : u = { u.sansModel with ctx := u.ctx, nctx := u.nctx, hist := u.hist } := rfl
  rw [← h] at e
  exact e

/-! ### Writing bits -/

/-- `u` is `s` after writing bits, or after trying to: the calls made are `OutByte` calls. -/
structure Writes (s u : State) : Prop where
  same  : s.sansWriter = u.sansWriter
  calls : ∃ l, u.calls = s.calls ++ l ∧ ∀ c ∈ l, ∃ x a, c = .outByte x a

theorem Writes.refl (s : State) : Writes s s := ⟨rfl, [], by simp⟩

theorem Writes.trans {a b c : State} (h1 : Writes a b) (h2 : Writes b c) : Writes a c := by
  obtain ⟨l, hl, ha⟩ := h1.calls
  obtain ⟨m, hm, hb⟩ := h2.calls
  refine ⟨h1.same.trans h2.same, l ++ m, by rw [hm, hl, List.append_assoc], fun c hc => ?_⟩
  rcases List.mem_append.mp hc with h | h
  · exact ha c h
  · exact hb c h

theorem outByte_writes (b : Byte) (s : State) : Writes s (outByte b s).final := by
  have : ∀ a : OutAnswer, Writes s { s with sink := s.sink.tail, calls := s.calls ++ [.outByte b a] } := fun a =>
    ⟨rfl, [.outByte b a], rfl, by simp⟩
  unfold outByte
  cases h : s.sink.headD .ok <;> exact this _

theorem writeBit_writes (b : Bool) (s : State) : Writes s (writeBit b s).final := by
  unfold writeBit
  simp only
  split
  · exact Res.final_andThen Writes (fun _ _ _ => Writes.trans) (outByte_writes _ s)
      fun _ v _ => ⟨rfl, [], by simp⟩
  · exact ⟨rfl, [], by simp⟩

theorem writeBits_writes (b : Bool) : ∀ (n : Nat) (s : State), Writes s (writeBits b n s).final
  | 0, s => Writes.refl s
  | n + 1, s =>
    Res.final_andThen Writes (fun _ _ _ => Writes.trans) (writeBit_writes b s) fun _ v _ => writeBits_writes b n v

/-- `u` is `s` after writing the bits, every byte taken by the sink. -/
structure Wrote (bits : List Bool) (s u : State) : Prop where
  same   : s.sansWriter = u.sansWriter
  stream : u.bitStream = s.bitStream ++ bits
  good   : s.sinkGood → u.sinkGood
  bytes  : ∃ l : List Byte, u.calls = s.calls ++ l.map (fun x => .outByte x .ok) ∧ u.sink = s.sink.drop l.length
  wcnt   : u.wcnt = BitVec.ofNat 3 (s.wcnt.toNat + bits.length)
  wbuf   : s.wbuf.toNat < 2 ^ s.wcnt.toNat → u.wbuf.toNat < 2 ^ u.wcnt.toNat

theorem Wrote.refl (s : State) : Wrote [] s s := ⟨rfl, by simp, id, ⟨[], by simp⟩, by simp, id⟩

theorem Wrote.trans {x y : List Bool} {a b c : State} (h1 : Wrote x a b) (h2 : Wrote y b c) : Wrote (x ++ y) a c := by
  obtain ⟨l, hl, hs⟩ := h1.bytes
  obtain ⟨m, hm, ht⟩ := h2.bytes
  refine ⟨h1.same.trans h2.same, by rw [h2.stream, h1.stream, List.append_assoc], fun g => h2.good (h1.good g),
    ⟨l ++ m, by rw [hm, hl, List.map_append, List.append_assoc], ?_⟩, ?_, fun h => h2.wbuf (h1.wbuf h)⟩
  · rw [ht, hs, List.drop_drop, List.length_append]
  · rw [h2.wcnt, h1.wcnt]
    apply BitVec.eq_of_toNat_eq
    simp only [BitVec.toNat_ofNat, List.length_append]
    omega

/-- `OutByte(b)` completes exactly where the sink's next answer is OK. -/
theorem outByte_done (b : Byte) {s u : State} (h : outByte b s = .done () u) :
    u = { s with sink := s.sink.tail, calls := s.calls ++ [.outByte b .ok] } := by
  unfold outByte at h
  cases ha : s.sink.headD .ok <;> rw [ha] at h <;> cases h
  rfl

theorem outByte_total (b : Byte) {s : State} (g : s.sinkGood) : ∃ u, outByte b s = .done () u := by
  have : s.sink.headD .ok = .ok := by
    cases h : s.sink with
    | nil => rfl
    | cons a l => exact g a (by simp [h])
  rw [outByte, this]
  exact ⟨_, rfl⟩

theorem sinkGood_tail {s u : State} (h : u.sink = s.sink.tail) (g : s.sinkGood) : u.sinkGood := fun a ha =>
  g a (List.mem_of_mem_tail (h ▸ ha))

theorem State.out_append {s u : State} {l : List Byte} (h : u.calls = s.calls ++ l.map (fun x => .outByte x .ok)) :
    u.out = s.out ++ l := by
  unfold State.out
  rw [h, List.filterMap_append]
  congr 1
  induction l generalizing s u with
  | nil => rfl
  | cons b l ih =>
    have := @ih s { u with calls := s.calls ++ l.map (fun x => .outByte x .ok) } rfl
    simp only [List.map_cons, List.filterMap_cons]
    rw [this]

/-- The bits of a byte that a shift made: the old ones move up, the new one is the least significant. -/
theorem getLsbD_shiftIn (w : Byte) (b : Bool) (i : Nat) (hi : i < 8) :
    (BitVec.ofNat 8 (w.toNat * 2 + b.toNat)).getLsbD i = if i = 0 then b else w.getLsbD (i - 1) := by
  rw [BitVec.getLsbD_ofNat]
  simp only [hi, decide_true, Bool.true_and]
  cases i with
  | zero =>
    rw [Nat.testBit_zero]
    cases b <;> simp
  | succ n =>
    rw [Nat.testBit_succ]
    have : (w.toNat * 2 + b.toNat) / 2 = w.toNat := by cases b <;> (simp; try omega)
    rw [this]
    simp [BitVec.getLsbD]

theorem writeBit_total (b : Bool) {s : State} (g : s.sinkGood) : ∃ u, writeBit b s = .done () u := by
  unfold writeBit
  simp only
  split
  · obtain ⟨u, hu⟩ := outByte_total (BitVec.ofNat 8 (s.wbuf.toNat * 2 + b.toNat)) g
    rw [hu]
    exact ⟨_, rfl⟩
  · exact ⟨_, rfl⟩

/-- The bits of the buffer with one more bit shifted in, up to the eighth. -/
theorem buffered_shiftIn (w : Byte) (b : Bool) {n : Nat} (hn : n < 8) :
    (List.range (n + 1)).map (fun i => (BitVec.ofNat 8 (w.toNat * 2 + b.toNat)).getLsbD (n - i)) =
      (List.range n).map (fun i => w.getLsbD (n - 1 - i)) ++ [b] := by
  rw [List.range_succ, List.map_append]
  congr 1
  · apply List.map_congr_left
    intro i hi
    rw [List.mem_range] at hi
    rw [getLsbD_shiftIn _ _ _ (by omega), if_neg (by omega)]
    congr 1
    omega
  · simp only [List.map_cons, List.map_nil]
    rw [getLsbD_shiftIn _ _ _ (by omega), if_pos (by omega)]

/-- Seven bits and an eighth are the bits of the byte they make (R100, R101). -/
theorem State.buffered_full {s : State} (b : Bool) (h : s.wcnt.toNat = 7) :
    bitsOfByte (BitVec.ofNat 8 (s.wbuf.toNat * 2 + b.toNat)) = s.buffered ++ [b] := by
  have := buffered_shiftIn s.wbuf b (show 7 < 8 by omega)
  rw [State.buffered, h]
  exact this

/-- A bit that does not fill the buffer stays in it (R101). -/
theorem State.buffered_push {s u : State} (b : Bool) (h : s.wcnt.toNat < 7)
    (h1 : u.wbuf = BitVec.ofNat 8 (s.wbuf.toNat * 2 + b.toNat)) (h2 : u.wcnt = BitVec.ofNat 3 (s.wcnt.toNat + 1)) :
    u.buffered = s.buffered ++ [b] := by
  have hn : u.wcnt.toNat = s.wcnt.toNat + 1 := by
    rw [h2, BitVec.toNat_ofNat, Nat.mod_eq_of_lt (by omega)]
  have := buffered_shiftIn s.wbuf b (show s.wcnt.toNat < 8 by omega)
  rw [State.buffered, State.buffered, h1, hn]
  exact this

theorem State.buffered_empty {s : State} (h : s.wcnt = 0) : s.buffered = [] := by
  simp [State.buffered, h]

theorem State.length_buffered (s : State) : s.buffered.length = s.wcnt.toNat := by simp [State.buffered]

/-- `WriteBit(b)` adds one bit to the stream (R101). -/
theorem writeBit_done {b : Bool} {s u : State} (hd : writeBit b s = .done () u) : Wrote [b] s u := by
  unfold writeBit at hd
  simp only at hd
  split at hd
  · next h8 =>
    have hw : s.wcnt.toNat = 7 := by omega
    obtain ⟨_, v, hv, hd⟩ := Res.andThen_eq_done hd
    have := outByte_done _ hv
    subst this
    cases hd
    refine ⟨rfl, ?_, sinkGood_tail rfl,
      ⟨[BitVec.ofNat 8 (s.wbuf.toNat * 2 + b.toNat)], rfl, by simp⟩, by simp [hw], fun _ => by simp⟩
    have ho := State.out_append (s := s)
      (u := { s with
        sink := s.sink.tail, wbuf := 0, wcnt := 0
        calls := s.calls ++ [.outByte (BitVec.ofNat 8 (s.wbuf.toNat * 2 + b.toNat)) .ok] })
      (l := [BitVec.ofNat 8 (s.wbuf.toNat * 2 + b.toNat)]) rfl
    rw [State.bitStream, State.bitStream, ho, List.flatMap_append, List.append_assoc, List.append_assoc,
      State.buffered_empty rfl, List.append_nil, ← s.buffered_full b hw]
    simp
  · next h8 =>
    have hw : s.wcnt.toNat < 7 := by have := s.wcnt.isLt; omega
    cases hd
    refine ⟨rfl, ?_, id, ⟨[], by simp, by simp⟩, rfl, fun h => ?_⟩
    · rw [State.bitStream, State.bitStream, State.buffered_push b hw rfl rfl, ← List.append_assoc]
      rfl
    · have hn : (BitVec.ofNat 3 (s.wcnt.toNat + 1)).toNat = s.wcnt.toNat + 1 := by
        rw [BitVec.toNat_ofNat, Nat.mod_eq_of_lt (by omega)]
      have hb := Bool.toNat_lt b
      have h2 : 2 ^ (s.wcnt.toNat + 1) = 2 ^ s.wcnt.toNat * 2 := pow_succ _ _
      simp only [hn, BitVec.toNat_ofNat]
      exact Nat.lt_of_le_of_lt (Nat.mod_le _ _) (by omega)

theorem writeBits_total (b : Bool) : ∀ (n : Nat) {s : State}, s.sinkGood → ∃ u, writeBits b n s = .done () u
  | 0, s, _ => ⟨s, rfl⟩
  | n + 1, s, g => by
    obtain ⟨v, hv⟩ := writeBit_total b g
    rw [writeBits, hv]
    exact writeBits_total b n ((writeBit_done hv).good g)

theorem writeBits_done {b : Bool} : ∀ {n : Nat} {s u : State}, writeBits b n s = .done () u →
    Wrote (List.replicate n b) s u
  | 0, s, u, h => by cases h; exact Wrote.refl s
  | n + 1, s, u, h => by
    obtain ⟨_, v, hv, h⟩ := Res.andThen_eq_done h
    rw [List.replicate_succ]
    exact (writeBit_done hv).trans (writeBits_done h)

/-! ### Packing (R106) -/

theorem length_bitsOfByte (b : Byte) : (bitsOfByte b).length = 8 := by simp [bitsOfByte]

theorem packBits_byte (b : Byte) (rest : List Bool) : packBits (bitsOfByte b ++ rest) = b :: packBits rest := by
  have hl := length_bitsOfByte b
  have sum8 : ∀ f : Nat → Nat, ((List.range 8).map f).sum = f 0 + f 1 + f 2 + f 3 + f 4 + f 5 + f 6 + f 7 := fun f => by
    simp [List.range_succ]; omega
  have packByte : ∀ b : Byte,
      BitVec.ofNat 8 ((List.range 8).map (fun i => (b.getLsbD (7 - i)).toNat * 2 ^ (7 - i))).sum = b := fun b => by
    rw [sum8]
    revert b
    decide
  unfold packBits
  rw [List.length_append, hl, show (8 + rest.length + 7) / 8 = (rest.length + 7) / 8 + 1 by omega,
    List.range_succ_eq_map (n := (rest.length + 7) / 8), List.map_cons, List.map_map]
  congr 1
  exact packByte b

theorem packBits_bytes (l : List Byte) (rest : List Bool) :
    packBits (l.flatMap bitsOfByte ++ rest) = l ++ packBits rest := by
  induction l with
  | nil => rfl
  | cons b l ih => rw [List.flatMap_cons, List.append_assoc, packBits_byte, ih, List.cons_append]

theorem length_flatMap_bitsOfByte (l : List Byte) : (l.flatMap bitsOfByte).length = 8 * l.length := by
  induction l with
  | nil => rfl
  | cons b l ih => rw [List.flatMap_cons, List.length_append, ih, length_bitsOfByte, List.length_cons]; omega

/-- Whole bytes and fewer than eight bits more: the bytes are what is due (R101). -/
theorem State.bytesDue_of {s : State} {bits rest : List Bool} {l : List Byte}
    (h : l.flatMap bitsOfByte ++ rest = s.buffered ++ bits) (hr : rest.length < 8) : s.bytesDue bits = l := by
  have hl := length_flatMap_bitsOfByte l
  have hn : 8 * ((s.buffered ++ bits).length / 8) = (l.flatMap bitsOfByte).length := by
    rw [← h, List.length_append, hl]
    omega
  rw [State.bytesDue, hn, ← h, List.take_left' rfl]
  have := packBits_bytes l []
  rw [List.append_nil, show packBits [] = [] from rfl, List.append_nil] at this
  exact this

/-- The bytes due when one more bit comes first (R101). -/
theorem State.bytesDue_cons (s : State) (b : Bool) (bits : List Bool) :
    s.bytesDue (b :: bits) =
      (if s.wcnt.toNat = 7 then
        BitVec.ofNat 8 (s.wbuf.toNat * 2 + b.toNat) :: ({ s with wbuf := 0, wcnt := 0 } : State).bytesDue bits
      else ({ s with
        wbuf := BitVec.ofNat 8 (s.wbuf.toNat * 2 + b.toNat)
        wcnt := BitVec.ofNat 3 (s.wcnt.toNat + 1) } : State).bytesDue bits) := by
  have e : s.buffered ++ b :: bits = (s.buffered ++ [b]) ++ bits := by simp
  split
  · next h =>
    have hn : ∀ n, 8 * ((8 + n) / 8) = 8 + 8 * (n / 8) := fun n => by omega
    rw [State.bytesDue, State.bytesDue, e, ← s.buffered_full b h, State.buffered_empty rfl, List.nil_append,
      List.length_append, length_bitsOfByte, hn, List.take_append, length_bitsOfByte,
      List.take_of_length_le (by rw [length_bitsOfByte]; omega), packBits_byte]
    congr 3
    omega
  · next h =>
    have hp := State.buffered_push (s := s)
      (u := { s with
        wbuf := BitVec.ofNat 8 (s.wbuf.toNat * 2 + b.toNat)
        wcnt := BitVec.ofNat 3 (s.wcnt.toNat + 1) }) b (by have := s.wcnt.isLt; omega) rfl rfl
    rw [State.bytesDue, State.bytesDue, e, hp]

/-- What `Wrote` says of the writer, in full (R101). -/
theorem Wrote.after {bits : List Bool} {s u : State} (h : Wrote bits s u) : WriterAfter s bits u := by
  obtain ⟨l, hc, hs⟩ := h.bytes
  have hst := h.stream
  rw [State.bitStream, State.bitStream, State.out_append hc, List.flatMap_append, List.append_assoc,
    List.append_assoc, List.append_cancel_left_eq] at hst
  have hd : s.bytesDue bits = l := State.bytesDue_of hst (by rw [State.length_buffered]; exact u.wcnt.isLt)
  exact ⟨h.stream, h.wcnt, h.wbuf, by rw [hd]; exact hc, by rw [hd]; exact hs⟩

/-! ### Reading bits -/

/-- `u` is `s` after reading bits, or after trying to: the calls made are `InByte` calls. -/
structure Reads (s u : State) : Prop where
  same  : s.sansReader = u.sansReader
  calls : ∃ l, u.calls = s.calls ++ l ∧ ∀ c ∈ l, ∃ a, c = .inByte a

theorem Reads.refl (s : State) : Reads s s := ⟨rfl, [], by simp⟩

theorem Reads.trans {a b c : State} (h1 : Reads a b) (h2 : Reads b c) : Reads a c := by
  obtain ⟨l, hl, ha⟩ := h1.calls
  obtain ⟨m, hm, hb⟩ := h2.calls
  refine ⟨h1.same.trans h2.same, l ++ m, by rw [hm, hl, List.append_assoc], fun c hc => ?_⟩
  rcases List.mem_append.mp hc with h | h
  · exact ha c h
  · exact hb c h

theorem inByte_reads (s : State) : Reads s (inByte s).final := by
  have : ∀ a : InAnswer, Reads s { s with input := s.input.tail, calls := s.calls ++ [.inByte a] } := fun a =>
    ⟨rfl, [.inByte a], rfl, by simp⟩
  unfold inByte
  cases h : s.input.headD .eos <;> exact this _

theorem readBit_reads (s : State) : Reads s (readBit s).final := by
  unfold readBit
  simp only
  split
  · split
    · exact Reads.refl s
    · refine Res.final_andThen Reads (fun _ _ _ => Reads.trans) (inByte_reads s) fun a v _ => ?_
      cases a <;> exact ⟨rfl, [], by simp⟩
  · exact ⟨rfl, [], by simp⟩

theorem readCodeBit_reads (s : State) : Reads s (readCodeBit s).final := by
  refine Res.final_andThen Reads (fun _ _ _ => Reads.trans) (readBit_reads s) fun a v _ => ?_
  cases a
  · exact ⟨rfl, [], by simp [State.countTailbit]⟩
  · exact Reads.refl v

/-- `InByte()` completes exactly where the source's next answer is a byte or EOS. -/
theorem inByte_done {s u : State} {r : Option Byte} (h : inByte s = .done r u) :
    u = { s with input := s.input.tail, calls := s.calls ++ [.inByte (s.input.headD .eos)] } ∧
      ((∃ b, r = some b ∧ s.input.headD .eos = .byte b) ∨ (r = none ∧ s.input.headD .eos = .eos)) := by
  unfold inByte at h
  cases ha : s.input.headD .eos <;> rw [ha] at h <;> cases h
  · exact ⟨rfl, .inl ⟨_, rfl, rfl⟩⟩
  · exact ⟨rfl, .inr ⟨rfl, rfl⟩⟩

theorem sourceGood_tail {s u : State} (h : u.input = s.input.tail) (g : s.sourceGood) : u.sourceGood := fun a ha =>
  g a (List.mem_of_mem_tail (h ▸ ha))

/-- A source that never fails answers any number of bits. -/
theorem State.sourceGood.answers {s : State} (g : s.sourceGood) (n : Nat) : s.sourceAnswers n := fun _ _ =>
  ⟨fun h => (g _ (List.mem_of_getElem? h)).1 rfl, fun h => (g _ (List.mem_of_getElem? h)).2 rfl⟩

/-- What the source is asked depends on the reader alone. -/
theorem State.sourceAnswers.congr {s u : State} {n : Nat} (h : s.sourceAnswers n) (h1 : u.eos = s.eos)
    (h2 : u.rcnt = s.rcnt) (h3 : u.input = s.input) : u.sourceAnswers n := by
  intro k hk
  rw [State.asks, h1, h2, h3] at hk
  rw [h3]
  exact h k hk

/-- Once its end was seen the source is not asked. -/
theorem State.sourceAnswers_eos {s : State} (h : s.eos = true) (n : Nat) : s.sourceAnswers n := fun _ hk =>
  absurd hk.1 (by rw [h]; decide)

/-- `ReadBit` completes where the source answers, and leaves a source that answers the bits that follow (R102). -/
theorem readBit_answers {s : State} {n : Nat} (g : s.sourceAnswers (n + 1)) :
    ∃ r u, readBit s = .done r u ∧ u.sourceAnswers n := by
  unfold readBit
  by_cases h0 : s.rcnt = 0
  · rw [if_pos h0]
    have h0' : s.rcnt.toNat = 0 := by rw [h0]; rfl
    cases he : s.eos with
    | true => exact ⟨_, _, rfl, State.sourceAnswers_eos he n⟩
    | false =>
      have g0 := g 0 ⟨he, by omega, fun i hi => absurd hi (Nat.not_lt_zero i)⟩
      unfold inByte
      cases hi : s.input with
      | nil => exact ⟨_, _, rfl, State.sourceAnswers_eos rfl n⟩
      | cons a l =>
        rw [hi] at g0
        cases a with
        | err => exact absurd rfl g0.1
        | never => exact absurd rfl g0.2
        | eos => exact ⟨_, _, rfl, State.sourceAnswers_eos rfl n⟩
        | byte b =>
          refine ⟨_, _, rfl, fun k hk => ?_⟩
          obtain ⟨k1, k2, k3⟩ := hk
          have k2 : 7 + 8 * k < n := k2
          have k3 : ∀ i, i < k → ∃ x, l[i]? = some (.byte x) := k3
          have := g (k + 1) ⟨he, by omega, fun i hik => by
            rw [hi]
            cases i with
            | zero => exact ⟨b, rfl⟩
            | succ i => exact k3 i (by omega)⟩
          rw [hi] at this
          exact this
  · rw [if_neg h0]
    have h0' : s.rcnt.toNat ≠ 0 := fun e => h0 (by apply BitVec.eq_of_toNat_eq; simpa using e)
    have hlt := s.rcnt.isLt
    refine ⟨_, _, rfl, fun k hk => ?_⟩
    obtain ⟨k1, k2, k3⟩ := hk
    have k2 : (BitVec.ofNat 3 (s.rcnt.toNat - 1)).toNat + 8 * k < n := k2
    rw [BitVec.toNat_ofNat, Nat.mod_eq_of_lt (by omega)] at k2
    exact g k ⟨k1, by omega, k3⟩

theorem bytesOf_head {l : List InAnswer} {b : Byte} (h : l.headD .eos = .byte b) : bytesOf l = b :: bytesOf l.tail := by
  cases l with
  | nil => cases h
  | cons a l => cases h; rfl

theorem bytesOf_eos {l : List InAnswer} (h : l.headD .eos = .eos) : bytesOf l = [] := by
  cases l with
  | nil => rfl
  | cons a l => cases h; rfl

/-- `ReadBit` gives the first bit that is left, or none (R102). -/
theorem readBit_done {s u : State} {r : Option Bool} (h : readBit s = .done r u) :
    r = s.bitsLeft.head? ∧ u.bitsLeft = s.bitsLeft.tail ∧ Reads s u ∧ (s.sourceGood → u.sourceGood) ∧
      u.tailbits = s.tailbits := by
  have hr : Reads s u := by
    have := readBit_reads s
    rwa [h] at this
  unfold readBit at h
  simp only at h
  split at h
  · next h0 =>
    split at h
    · next he =>
      cases h
      simp [State.bitsLeft, h0, he, Reads.refl]
    · next he =>
      obtain ⟨r', v, hv, h⟩ := Res.andThen_eq_done h
      obtain ⟨rfl, ⟨b, rfl, hb⟩ | ⟨rfl, hb⟩⟩ := inByte_done hv
      · cases h
        have hl : s.bitsLeft = bitsOfByte b ++ (bytesOf s.input.tail).flatMap bitsOfByte := by
          simp [State.bitsLeft, h0, he, bytesOf_head hb]
        have hc : bitsOfByte b = b.getLsbD 7 :: (List.range 7).map (fun i => b.getLsbD (6 - i)) := rfl
        refine ⟨by rw [hl, hc]; rfl, ?_, hr, sourceGood_tail rfl, rfl⟩
        rw [hl, hc]
        simp only [State.bitsLeft, he, Bool.false_eq_true, if_false]
        rfl
      · cases h
        refine ⟨?_, ?_, hr, sourceGood_tail rfl, rfl⟩ <;> simp [State.bitsLeft, h0, he, bytesOf_eos hb]
  · next h0 =>
    obtain ⟨n, hn⟩ : ∃ n, s.rcnt.toNat = n + 1 := ⟨s.rcnt.toNat - 1, by
      have : s.rcnt.toNat ≠ 0 := fun h => h0 (by apply BitVec.eq_of_toNat_eq; simpa using h)
      omega⟩
    have hlt : n < 8 := by have := s.rcnt.isLt; omega
    have hn' : (BitVec.ofNat 3 n).toNat = n := by
      rw [BitVec.toNat_ofNat, Nat.mod_eq_of_lt (by have := s.rcnt.isLt; omega)]
    simp only [hn, Nat.add_sub_cancel] at h
    have hb : (List.range (n + 1)).map (fun i => s.rbuf.getLsbD (n - i)) =
        s.rbuf.getLsbD n :: (List.range n).map (fun i => s.rbuf.getLsbD (n - 1 - i)) := by
      rw [List.range_succ_eq_map]
      simp only [List.map_cons, Nat.sub_zero, List.map_map, List.cons.injEq, true_and]
      apply List.map_congr_left
      intro i _
      simp only [Function.comp_apply, Nat.succ_eq_add_one]
      congr 1
      omega
    cases h
    refine ⟨?_, ?_, hr, id, rfl⟩
    · simp only [State.bitsLeft, hn, Nat.add_sub_cancel, hb]; rfl
    · simp only [State.bitsLeft, hn, hn', Nat.add_sub_cancel, hb]; rfl

/-! ### The reader's registers after reading (R102) -/

theorem bytesOf_take (l : List InAnswer) {k : Nat} (h : k ≤ (bytesOf l).length) :
    bytesOf l = (bytesOf l).take k ++ bytesOf (l.drop k) ∧
      l.take k = ((bytesOf l).take k).map InAnswer.byte := by
  induction k generalizing l with
  | zero => simp
  | succ k ih =>
    cases l with
    | nil => simp [bytesOf] at h
    | cons a l =>
      cases a with
      | byte b =>
        simp only [bytesOf, List.length_cons, Nat.add_le_add_iff_right] at h
        obtain ⟨h1, h2⟩ := ih l h
        refine ⟨?_, ?_⟩
        · simp only [bytesOf, List.take_succ_cons, List.drop_succ_cons, List.cons_append]
          rw [← h1]
        · simp only [bytesOf, List.take_succ_cons, List.map_cons, h2]
      | eos => simp [bytesOf] at h
      | err => simp [bytesOf] at h
      | never => simp [bytesOf] at h

theorem getLastD_append {α : Type} (l m : List α) (a : α) : (l ++ m).getLastD a = m.getLastD (l.getLastD a) := by
  induction m using List.reverseRecOn with
  | nil => simp
  | append_singleton m b _ => rw [← List.append_assoc]; simp

theorem rcnt_ofNat (r : BitVec 3) : BitVec.ofNat 3 r.toNat = r := by simp

theorem ReaderAfter.refl (s : State) : ReaderAfter s 0 s := by
  have h0 : s.bytesAsked 0 = 0 := by
    have := s.rcnt.isLt
    unfold State.bytesAsked
    split
    · rfl
    · omega
  have h1 : s.bytesTaken 0 = [] := by rw [State.bytesTaken, h0]; rfl
  refine ⟨?_, ?_, ?_, ?_, ?_⟩ <;> simp [h0, h1]

/-- Reading some bits and then some more. -/
theorem ReaderAfter.trans {n m : Nat} {s v u : State} (h1 : ReaderAfter s n v) (h2 : ReaderAfter v m u) :
    ReaderAfter s (n + m) u := by
  have hr := s.rcnt.isLt
  have a1 := h1.eos
  have a2 := h1.rcnt
  have a3 := h1.input
  have a4 := h1.calls
  have a5 := h1.rbuf
  have b1 := h2.eos
  have b2 := h2.rcnt
  have b3 := h2.input
  have b4 := h2.calls
  have b5 := h2.rbuf
  by_cases he : s.eos = true
  · -- nothing is asked for any more
    have k1 : ∀ n, s.bytesAsked n = 0 := fun n => by simp [State.bytesAsked, he]
    have k2 : ∀ n, s.bytesTaken n = [] := fun n => by simp [State.bytesTaken, k1]
    simp only [k1, k2, List.getLastD_nil, List.length_nil, Nat.mul_zero, Nat.add_zero, Nat.zero_add, Nat.zero_min,
      List.drop_zero, Nat.lt_irrefl, decide_false, Bool.or_false, List.map_nil, if_false, List.append_nil] at a1 a2 a3 a4 a5
    have ve : v.eos = true := by rw [a1, he]
    have q1 : ∀ n, v.bytesAsked n = 0 := fun n => by simp [State.bytesAsked, ve]
    have q2 : ∀ n, v.bytesTaken n = [] := fun n => by simp [State.bytesTaken, q1]
    simp only [q1, q2, List.getLastD_nil, List.length_nil, Nat.mul_zero, Nat.add_zero, Nat.zero_add, Nat.zero_min,
      List.drop_zero, Nat.lt_irrefl, decide_false, Bool.or_false, List.map_nil, if_false, List.append_nil] at b1 b2 b3 b4 b5
    refine ⟨?_, ?_, ?_, ?_, ?_⟩ <;>
      simp only [k1, k2, List.getLastD_nil, List.length_nil, Nat.mul_zero, Nat.add_zero, Nat.zero_add, Nat.zero_min,
        List.drop_zero, Nat.lt_irrefl, decide_false, Bool.or_false, List.map_nil, if_false, List.append_nil]
    · rw [b5, a5]
    · rw [b2, a2]
      apply BitVec.eq_of_toNat_eq
      simp only [BitVec.toNat_ofNat]
      omega
    · rw [b1, a1]
    · rw [b3, a3]
    · rw [b4, a4]
  · have hn : ∀ n, s.bytesAsked n = (n + 7 - s.rcnt.toNat) / 8 := fun n => by simp [State.bytesAsked, he]
    have hlen : ∀ n, (s.bytesTaken n).length = min (s.bytesAsked n) (bytesOf s.input).length := fun n => by
      simp [State.bytesTaken]
    have hmono : s.bytesAsked n ≤ s.bytesAsked (n + m) := by rw [hn, hn]; omega
    by_cases hk : (bytesOf s.input).length < s.bytesAsked n
    · -- the source had ended before
      have t1 : ∀ k, s.bytesAsked n ≤ s.bytesAsked k → s.bytesTaken k = bytesOf s.input := fun k hk' => by
        rw [State.bytesTaken, List.take_of_length_le (by omega)]
      have ve : v.eos = true := by
        rw [a1, t1 n (le_refl _)]
        simp [hk]
      have q1 : ∀ n, v.bytesAsked n = 0 := fun n => by simp [State.bytesAsked, ve]
      have q2 : ∀ n, v.bytesTaken n = [] := fun n => by simp [State.bytesTaken, q1]
      simp only [q1, q2, List.getLastD_nil, List.length_nil, Nat.mul_zero, Nat.add_zero, Nat.zero_add, Nat.zero_min,
        List.drop_zero, Nat.lt_irrefl, decide_false, Bool.or_false, List.map_nil, if_false, List.append_nil] at b1 b2 b3 b4 b5
      rw [t1 n (le_refl _)] at a1 a2 a3 a4 a5
      have hk2 : (bytesOf s.input).length < s.bytesAsked (n + m) := by omega
      refine ⟨?_, ?_, ?_, ?_, ?_⟩ <;> rw [t1 _ hmono]
      · rw [b5, a5]
      · rw [b2, a2]
        apply BitVec.eq_of_toNat_eq
        rw [hn] at hk
        simp only [BitVec.toNat_ofNat]
        omega
      · rw [b1, a1]
        simp [hk, hk2]
      · rw [b3, a3]
        congr 1
        omega
      · rw [b4, a4]
        simp [hk, hk2]
    · -- every byte asked for so far was given
      obtain ⟨d1, d2⟩ := bytesOf_take s.input (k := s.bytesAsked n) (by omega)
      have l1 : (s.bytesTaken n).length = s.bytesAsked n := by rw [hlen]; omega
      have ve : v.eos = false := by
        rw [a1, l1]
        simp [he]
      rw [l1] at a2 a3 a4
      have vi : bytesOf v.input = (bytesOf s.input).drop (s.bytesAsked n) := by
        rw [a3, Nat.min_eq_left (by omega)]
        conv_rhs => rw [d1]
        rw [List.drop_append_of_le_length (by rw [List.length_take]; omega)]
        simp
      have vr : v.rcnt.toNat = s.rcnt.toNat + 8 * s.bytesAsked n - n := by
        rw [a2, BitVec.toNat_ofNat, Nat.mod_eq_of_lt]
        rw [hn]
        omega
      have vn : v.bytesAsked m = s.bytesAsked (n + m) - s.bytesAsked n := by
        rw [hn (n + m)]
        unfold State.bytesAsked
        rw [if_neg (by rw [ve]; decide), vr, if_neg he]
        rw [hn]
        omega
      have vt : s.bytesTaken (n + m) = s.bytesTaken n ++ v.bytesTaken m := by
        rw [State.bytesTaken, State.bytesTaken, State.bytesTaken, vi, vn]
        conv_lhs => rw [show s.bytesAsked (n + m) = s.bytesAsked n + (s.bytesAsked (n + m) - s.bytesAsked n) by omega]
        rw [List.take_add]
      have ll : (s.bytesTaken (n + m)).length = s.bytesAsked n + (v.bytesTaken m).length := by
        rw [vt, List.length_append, l1]
      have hva : ∀ x : Nat, (x < v.bytesAsked m ↔ s.bytesAsked n + x < s.bytesAsked (n + m)) := fun x => by
        rw [vn]
        omega
      refine ⟨?_, ?_, ?_, ?_, ?_⟩
      · rw [vt, getLastD_append, b5, a5]
      · rw [b2, ll, vr]
        congr 1
        have := hn n
        omega
      · rw [b1, ve, ll]
        have hx := hva (v.bytesTaken m).length
        simp only [hx, he]
      · rw [b3, a3, List.drop_drop, ll, vn]
        congr 1
        omega
      · rw [b4, a4, ll, vt]
        have hx := hva (v.bytesTaken m).length
        simp only [hx, Nat.lt_irrefl, if_false, List.append_nil, List.map_append, List.append_assoc]

/-- `ReadBit` on the reader's registers (R102). -/
theorem readBit_reader {s u : State} {r : Option Bool} (h : readBit s = .done r u) : ReaderAfter s 1 u := by
  have hr := s.rcnt.isLt
  unfold readBit at h
  simp only at h
  split at h
  · next h0 =>
    have h0' : s.rcnt.toNat = 0 := by rw [h0]; rfl
    split at h
    · next he =>
      cases h
      have k1 : s.bytesAsked 1 = 0 := by simp [State.bytesAsked, he]
      have k2 : s.bytesTaken 1 = [] := by simp [State.bytesTaken, k1]
      refine ⟨?_, ?_, ?_, ?_, ?_⟩ <;> simp [k1, k2, h0]
    · next he =>
      have k1 : s.bytesAsked 1 = 1 := by simp [State.bytesAsked, he, h0']
      obtain ⟨r', v, hv, h⟩ := Res.andThen_eq_done h
      obtain ⟨rfl, ⟨b, rfl, hb⟩ | ⟨rfl, hb⟩⟩ := inByte_done hv
      · cases h
        have k2 : s.bytesTaken 1 = [b] := by
          rw [State.bytesTaken, k1, bytesOf_head hb]
          rfl
        rw [hb]
        refine ⟨?_, ?_, ?_, ?_, ?_⟩ <;> simp [k1, k2, h0', he]
      · cases h
        have k2 : s.bytesTaken 1 = [] := by
          rw [State.bytesTaken, k1, bytesOf_eos hb]
          rfl
        rw [hb]
        refine ⟨?_, ?_, ?_, ?_, ?_⟩ <;> simp [k1, k2, h0, he]
  · next h0 =>
    have h0' : s.rcnt.toNat ≠ 0 := fun e => h0 (by apply BitVec.eq_of_toNat_eq; simpa using e)
    have k1 : s.bytesAsked 1 = 0 := by
      unfold State.bytesAsked
      split
      · rfl
      · omega
    have k2 : s.bytesTaken 1 = [] := by rw [State.bytesTaken, k1]; rfl
    cases h
    refine ⟨?_, ?_, ?_, ?_, ?_⟩ <;> simp [k1, k2]

/-- `u` is `s` after the coder took `n` bits from a source that answers (R167). -/
structure Took (n : Nat) (s u : State) : Prop where
  reads  : Reads s u
  left   : u.bitsLeft = s.bitsLeft.drop n
  good   : s.sourceGood → u.sourceGood
  tail   : u.tailbits.toNat = min (s.tailbits.toNat + (n - s.bitsLeft.length)) (2 ^ 64 - 1)
  reader : ReaderAfter s n u

theorem Took.refl (s : State) : Took 0 s s := by
  refine ⟨Reads.refl s, by simp, id, ?_, ReaderAfter.refl s⟩
  have := s.tailbits.isLt
  omega

theorem Took.trans {n m : Nat} {a b c : State} (h1 : Took n a b) (h2 : Took m b c) : Took (n + m) a c := by
  refine ⟨h1.reads.trans h2.reads, by rw [h2.left, h1.left, List.drop_drop], fun g => h2.good (h1.good g), ?_,
    h1.reader.trans h2.reader⟩
  rw [h2.tail, h1.tail, h1.left, List.length_drop]
  omega

theorem State.countTailbit_toNat (s : State) :
    s.countTailbit.tailbits.toNat = min (s.tailbits.toNat + 1) (2 ^ 64 - 1) := by
  have := s.tailbits.isLt
  simp only [State.countTailbit]
  split
  · next h =>
    rw [BitVec.toNat_add, show BitVec.toNat (1 : BitVec 64) = 1 from rfl, Nat.mod_eq_of_lt (by omega)]
    omega
  · omega

/-- `ReadCodeBit` completes where the source answers. -/
theorem readCodeBit_answers {s : State} {n : Nat} (g : s.sourceAnswers (n + 1)) :
    ∃ b u, readCodeBit s = .done b u ∧ u.sourceAnswers n := by
  obtain ⟨r, u, h, g'⟩ := readBit_answers g
  rw [readCodeBit, h]
  cases r with
  | none => exact ⟨_, _, rfl, g'.congr rfl rfl rfl⟩
  | some b => exact ⟨_, _, rfl, g'⟩

/-- `ReadCodeBit` gives the first bit that is left, and past the end a 0, counted (R167). -/
theorem readCodeBit_done {s u : State} {b : Bool} (h : readCodeBit s = .done b u) :
    b = s.bitsLeft.headD false ∧ Took 1 s u := by
  obtain ⟨r, v, hv, h⟩ := Res.andThen_eq_done h
  obtain ⟨hr, hl, hrd, hg, ht⟩ := readBit_done hv
  have hR := readBit_reader hv
  have htl := s.tailbits.isLt
  cases hb : s.bitsLeft with
  | nil =>
    rw [hb] at hr hl
    subst hr
    cases h
    refine ⟨rfl, hrd.trans ⟨rfl, [], by simp [State.countTailbit]⟩, ?_, hg, ?_,
      ⟨hR.rbuf, hR.rcnt, hR.eos, hR.input, hR.calls⟩⟩
    · rw [hb]
      simpa [State.countTailbit, State.bitsLeft] using hl
    · rw [State.countTailbit_toNat, ht, hb]
      simp
  | cons b' l =>
    rw [hb] at hr hl
    subst hr
    cases h
    refine ⟨rfl, hrd, ?_, hg, ?_, hR⟩
    · rw [hl, hb]; simp
    · rw [ht, hb, List.length_cons]; omega

end Sys2Proof.Machine
end

