-- ==== Sys2Proof/Laws/Interval.lean ====
section
/-! SUPPORT. The arithmetic of the coder's interval (43_range_coder.md R161, R163 to R165, R168, R169, R173, R175,
R177), on natural numbers: narrowing stays inside, the decoded value keeps `code` inside, and the closed form of
normalisation. -/

namespace Sys2Proof.Machine

/-! ### The two top bits as comparisons -/

theorem testBit_top {p x : Nat} (h : x < 4 * 2 ^ p) : x.testBit (p + 1) = decide (2 * 2 ^ p ≤ x) := by
  have hQ : 0 < 2 ^ p := Nat.two_pow_pos p
  rw [Nat.testBit_eq_decide_div_mod_eq, pow_succ, Nat.mul_comm (2 ^ p) 2]
  rcases Nat.lt_or_ge x (2 * 2 ^ p) with hx | hx
  · simp [Nat.div_eq_of_lt hx]; omega
  · have : x / (2 * 2 ^ p) = 1 := Nat.div_eq_of_lt_le (by omega) (by omega)
    simp [this, hx]

theorem testBit_second {p x : Nat} (h : x < 4 * 2 ^ p) :
    x.testBit p = decide ((2 ^ p ≤ x ∧ x < 2 * 2 ^ p) ∨ 3 * 2 ^ p ≤ x) := by
  have hQ : 0 < 2 ^ p := Nat.two_pow_pos p
  rw [Nat.testBit_eq_decide_div_mod_eq]
  have h3 : x / 2 ^ p < 4 := Nat.div_lt_of_lt_mul (by omega)
  have hd := Nat.div_add_mod x (2 ^ p)
  have hm := Nat.mod_lt x hQ
  generalize x / 2 ^ p = q at *
  interval_cases q <;> simp <;> omega

/-- R21 as comparisons, with QUARTER = 2^p. -/
theorem restInterval_iff {p low high : Nat} :
    RestInterval (p + 2) low high ↔
      low < 2 * 2 ^ p ∧ 2 * 2 ^ p ≤ high ∧ high < 4 * 2 ^ p ∧ ¬ (2 ^ p ≤ low ∧ high < 3 * 2 ^ p) := by
  have hQ : 0 < 2 ^ p := Nat.two_pow_pos p
  have h4 : 2 ^ (p + 2) = 4 * 2 ^ p := by rw [pow_add]; omega
  have e1 : p + 2 - 1 = p + 1 := rfl
  have e2 : p + 2 - 2 = p := rfl
  rw [RestInterval, h4, e1, e2]
  constructor
  · rintro ⟨h1, h2, h3, h5, h6⟩
    have hh : high < 4 * 2 ^ p := by omega
    have hl : low < 4 * 2 ^ p := by omega
    rw [testBit_top hl, decide_eq_false_iff_not] at h3
    rw [testBit_top hh, decide_eq_true_eq] at h5
    rw [testBit_second hl, testBit_second hh, decide_eq_true_eq, decide_eq_false_iff_not] at h6
    omega
  · rintro ⟨h1, h2, h3, h5⟩
    have hl : low < 4 * 2 ^ p := by omega
    rw [testBit_top hl, testBit_top h3, testBit_second hl, testBit_second h3]
    simp only [decide_eq_true_eq, decide_eq_false_iff_not]
    refine ⟨by omega, by omega, by omega, by omega, by omega⟩

/-- The precision floor (R21): `high - low + 1 >= QUARTER + 2`. -/
theorem restInterval_range {P low high : Nat} (hP : 2 ≤ P) (h : RestInterval P low high) :
    2 ^ (P - 2) + 2 ≤ high - low + 1 ∧ high - low + 1 ≤ 2 ^ P ∧ low ≤ high ∧ high < 2 ^ P := by
  obtain ⟨p, rfl⟩ : ∃ p, P = p + 2 := ⟨P - 2, by omega⟩
  have h4 : 2 ^ (p + 2) = 4 * 2 ^ p := by rw [pow_add]; omega
  rw [restInterval_iff] at h
  have e2 : p + 2 - 2 = p := rfl
  rw [h4, e2]
  omega

/-! ### Narrowing -/

/-- R163, R164: the narrowed interval lies inside the old one and is not empty. -/
theorem narrow_inside {low high total cl ch : Nat} (hlh : low ≤ high) (hr : total < high - low + 1) (hc : cl < ch)
    (ht : ch ≤ total) :
    low ≤ narrowLow low high total cl ∧ narrowLow low high total cl ≤ narrowHigh low high total ch ∧
      narrowHigh low high total ch ≤ high := by
  have htp : 0 < total := by omega
  simp only [narrowLow, narrowHigh]
  generalize hrg : high - low + 1 = range at *
  have h1 : cl * range / total + 1 ≤ ch * range / total := by
    rw [Nat.le_div_iff_mul_le htp]
    have h2 : cl * range / total * total ≤ cl * range := Nat.div_mul_le_self _ _
    calc (cl * range / total + 1) * total = cl * range / total * total + total := by ring
      _ ≤ cl * range + range := by omega
      _ = (cl + 1) * range := by ring
      _ ≤ ch * range := Nat.mul_le_mul_right _ hc
  have h3 : ch * range / total ≤ range := by
    rw [Nat.div_le_iff_le_mul_add_pred htp]
    have : ch * range ≤ total * range := Nat.mul_le_mul_right _ ht
    omega
  generalize ch * range / total = y at *
  generalize cl * range / total = x at *
  omega

/-- R173: the value lies below the total. -/
theorem decodeValue_lt {low high code total : Nat} (h1 : low ≤ code) (h2 : code ≤ high) (ht : 1 ≤ total) :
    decodeValue low high code total < total := by
  simp only [decodeValue]
  rw [Nat.div_lt_iff_lt_mul (by omega)]
  have : (code - low + 1) * total ≤ (high - low + 1) * total := Nat.mul_le_mul_right _ (by omega)
  have h3 : 1 * 1 ≤ (code - low + 1) * total := Nat.mul_le_mul (by omega) ht
  rw [Nat.mul_comm total]
  omega

/-- R175: narrowing by the interval that holds the value keeps `code` inside. -/
theorem narrow_holds_code {low high code total cl ch : Nat} (h1 : low ≤ code) (h2 : code ≤ high) (ht : 1 ≤ total)
    (hcl : cl ≤ decodeValue low high code total) (hch : decodeValue low high code total < ch) :
    narrowLow low high total cl ≤ code ∧ code ≤ narrowHigh low high total ch := by
  simp only [decodeValue, narrowLow, narrowHigh] at *
  obtain ⟨d, rfl⟩ : ∃ d, code = low + d := ⟨code - low, by omega⟩
  have hd : low + d - low + 1 = d + 1 := by omega
  rw [hd] at hcl hch
  have hr : 0 < high - low + 1 := by omega
  generalize high - low + 1 = range at *
  rw [Nat.le_div_iff_mul_le hr] at hcl
  rw [Nat.div_lt_iff_lt_mul hr] at hch
  have h3 : 1 * 1 ≤ (d + 1) * total := Nat.mul_le_mul (by omega) ht
  constructor
  · have : cl * range / total < d + 1 := by
      rw [Nat.div_lt_iff_lt_mul (by omega)]
      omega
    omega
  · have : d + 1 ≤ ch * range / total := by
      rw [Nat.le_div_iff_mul_le (by omega)]
      omega
    omega

/-- R175, the other direction: if narrowing keeps `code` inside, the value lies in the interval. -/
theorem value_of_code_inside {low high code total cl ch : Nat} (h1 : low ≤ code) (ht : 1 ≤ total)
    (hr : total ≤ high - low + 1) (hc : 1 ≤ ch) (hcl : narrowLow low high total cl ≤ code)
    (hch : code ≤ narrowHigh low high total ch) :
    cl ≤ decodeValue low high code total ∧ decodeValue low high code total < ch := by
  simp only [decodeValue, narrowLow, narrowHigh] at *
  obtain ⟨d, rfl⟩ : ∃ d, code = low + d := ⟨code - low, by omega⟩
  have hd : low + d - low + 1 = d + 1 := by omega
  rw [hd]
  generalize high - low + 1 = range at *
  have hy : 1 ≤ ch * range / total := by
    rw [Nat.le_div_iff_mul_le (by omega)]
    calc 1 * total ≤ 1 * range := by omega
      _ ≤ ch * range := Nat.mul_le_mul_right _ hc
  have h3 : 1 * 1 ≤ (d + 1) * total := Nat.mul_le_mul (by omega) ht
  constructor
  · rw [Nat.le_div_iff_mul_le (by omega)]
    have : cl * range / total < d + 1 := by
      generalize cl * range / total = x at *
      omega
    rw [Nat.div_lt_iff_lt_mul (by omega)] at this
    omega
  · rw [Nat.div_lt_iff_lt_mul (by omega)]
    have : d + 1 ≤ ch * range / total := by
      generalize ch * range / total = y at *
      omega
    rw [Nat.le_div_iff_mul_le (by omega)] at this
    omega

/-! ### The closed form of normalisation (R165, R168, R169) -/

theorem mul_pow_mod {P a x : Nat} (h : a ≤ P) : x * 2 ^ a % 2 ^ P = x % 2 ^ (P - a) * 2 ^ a := by
  conv_lhs => rw [show P = (P - a) + a by omega, pow_add]
  exact Nat.mul_mod_mul_right _ _ _

theorem shifted_zero {P x : Nat} {e : Bool} (h : x < 2 ^ P) : shifted P 0 0 x e = x := by
  simp [shifted, Nat.mod_eq_of_lt h]

/-- What `a` E1/E2 steps and then `b` E3 steps have done to the bounds `l` and `h`. -/
structure NormAt (P l h a b L H : Nat) : Prop where
  hL     : L = shifted P a b l false
  hH     : H = shifted P a b h true
  shared : l / 2 ^ (P - a) = h / 2 ^ (P - a)
  ha     : a ≤ P
  le     : L ≤ H
  lt     : H < 2 ^ P
  range  : (h - l + 1) * 2 ^ (a + b) = H - L + 1
  apart  : 0 < b → L < 2 ^ (P - 1) ∧ 2 ^ (P - 1) ≤ H ∧ 1 ≤ h - l
  sub    : 2 ^ (P - 1) * (2 ^ b - 1) ≤ l * 2 ^ a % 2 ^ P * 2 ^ b
  mono   : l * 2 ^ a % 2 ^ P ≤ h * 2 ^ a % 2 ^ P

theorem NormAt.start {P l h : Nat} (hlh : l ≤ h) (hh : h < 2 ^ P) : NormAt P l h 0 0 l h where
  hL := (shifted_zero (by omega)).symm
  hH := (shifted_zero hh).symm
  shared := by
    rw [Nat.sub_zero, Nat.div_eq_of_lt hh, Nat.div_eq_of_lt (by omega)]
  ha := Nat.zero_le _
  le := hlh
  lt := hh
  range := by simp
  apart := by simp
  sub := by simp
  mono := by
    simp only [pow_zero, Nat.mul_one]
    rw [Nat.mod_eq_of_lt hh, Nat.mod_eq_of_lt (by omega)]
    exact hlh

/-- At most P steps of either kind (R177). -/
theorem NormAt.steps {P l h a b L H : Nat} (n : NormAt P l h a b L H) : a + b ≤ P ∧ (0 < b → a + b ≤ P - 1) := by
  have h1 : (h - l + 1) * 2 ^ (a + b) ≤ 2 ^ P := by
    rw [n.range]
    have := n.lt
    have := n.le
    omega
  have h2 : a + b ≤ P := by
    by_contra hc
    have : 2 ^ P < 2 ^ (a + b) := Nat.pow_lt_pow_right (by omega) (by omega)
    have : 1 * 2 ^ (a + b) ≤ (h - l + 1) * 2 ^ (a + b) := Nat.mul_le_mul_right _ (by omega)
    omega
  refine ⟨h2, fun hb => ?_⟩
  by_contra hc
  have he : a + b = P := by omega
  have h3 : 2 * 2 ^ (a + b) ≤ (h - l + 1) * 2 ^ (a + b) := Nat.mul_le_mul_right _ (by have := (n.apart hb).2.2; omega)
  have : 0 < 2 ^ P := Nat.two_pow_pos P
  rw [he] at h1 h3
  omega

theorem NormAt.high_pow {P l h a b L H : Nat} (n : NormAt P l h a b L H) : h / 2 ^ (P - a) = l / 2 ^ (P - a) :=
  n.shared.symm

/-- The top bit of a number of P bits. -/
theorem testBit_top_div {P x : Nat} (hP : 1 ≤ P) (h : x < 2 ^ P) : x.testBit (P - 1) = decide (x / 2 ^ (P - 1) = 1) := by
  rw [Nat.testBit_eq_decide_div_mod_eq]
  have : x / 2 ^ (P - 1) < 2 := by
    apply Nat.div_lt_of_lt_mul
    have : 2 ^ P = 2 ^ (P - 1) * 2 := by rw [← pow_succ]; congr 1; omega
    omega
  rw [Nat.mod_eq_of_lt this]

/-- The bounds before any E3 step. -/
theorem NormAt.unshifted {P l h a L H : Nat} (n : NormAt P l h a 0 L H) :
    L = l * 2 ^ a % 2 ^ P ∧ H = h * 2 ^ a % 2 ^ P + (2 ^ a - 1) :=
  ⟨by simpa [shifted] using n.hL, by simpa [shifted] using n.hH⟩

/-- Agreeing top bits leave room for another E1/E2 step. -/
theorem NormAt.room {P l h a L H : Nat} (hP : 2 ≤ P) (n : NormAt P l h a 0 L H) (ht : sameTop P L H = true) :
    a < P := by
  obtain ⟨hL, hH⟩ := n.unshifted
  have ha := n.ha
  rcases Nat.lt_or_ge a P with h' | h'
  · exact h'
  · obtain rfl : a = P := by omega
    rw [Nat.mul_mod_left] at hL hH
    subst hL
    have hm : H.testBit (a - 1) = true := by
      rw [hH, Nat.zero_add, Nat.testBit_two_pow_sub_one]
      simp; omega
    rw [sameTop, hm] at ht
    simp at ht

/-- The top part of the bounds is the top part of what was shifted out of `l` and `h`. -/
theorem NormAt.tops {m a l h L H : Nat} (n : NormAt (a + 1 + m) l h a 0 L H) :
    L / 2 ^ (a + m) = l % 2 ^ (m + 1) / 2 ^ m ∧ H / 2 ^ (a + m) = h % 2 ^ (m + 1) / 2 ^ m ∧
      h * 2 ^ a % 2 ^ (a + 1 + m) / 2 ^ (a + m) = h % 2 ^ (m + 1) / 2 ^ m := by
  obtain ⟨hL, hH⟩ := n.unshifted
  have hpa : 0 < 2 ^ a := Nat.two_pow_pos a
  rw [mul_pow_mod (by omega), show a + 1 + m - a = m + 1 by omega] at hL hH ⊢
  rw [pow_add, ← Nat.div_div_eq_div_mul, ← Nat.div_div_eq_div_mul, ← Nat.div_div_eq_div_mul, hL, hH,
    Nat.mul_div_cancel _ hpa, Nat.mul_comm (h % 2 ^ (m + 1)), Nat.mul_add_div hpa,
    Nat.div_eq_of_lt (by omega : 2 ^ a - 1 < 2 ^ a), Nat.mul_div_cancel_left _ hpa]
  simp

theorem div_pow_succ (x m : Nat) : x / 2 ^ m = 2 * (x / 2 ^ (m + 1)) + x % 2 ^ (m + 1) / 2 ^ m := by
  have h0 : 0 < 2 ^ m := Nat.two_pow_pos m
  conv_lhs => rw [← Nat.div_add_mod x (2 ^ (m + 1))]
  rw [pow_succ, Nat.mul_assoc, Nat.mul_add_div h0]

/-- A step of E1/E2: the top bits agree and nothing was deferred (R168). -/
theorem NormAt.e12 {P l h a L H : Nat} (hP : 2 ≤ P) (n : NormAt P l h a 0 L H) (ht : sameTop P L H = true) :
    NormAt P l h (a + 1) 0 (shiftE12 P L false) (shiftE12 P H true) ∧ L.testBit (P - 1) = l.testBit (P - 1 - a) := by
  have hlt' := n.room hP ht
  obtain ⟨m, rfl⟩ : ∃ m, P = a + 1 + m := ⟨P - a - 1, by omega⟩
  obtain ⟨hL, hH⟩ := n.unshifted
  obtain ⟨t1, t2, t3⟩ := n.tops
  have hle := n.le
  have hlt := n.lt
  have hmono := n.mono
  have hrange := n.range
  have hshared := n.shared
  have e1 : a + 1 + m - 1 = a + m := by omega
  have e2 : a + 1 + m - a = m + 1 := by omega
  have e3 : a + 1 + m - (a + 1) = m := by omega
  have hP2 : 2 ^ (a + 1 + m) = 2 * 2 ^ (a + m) := by
    rw [show a + 1 + m = (a + m) + 1 by omega, pow_succ, Nat.mul_comm]
  have hpa : 0 < 2 ^ a := Nat.two_pow_pos a
  have hQ : 0 < 2 ^ (a + m) := Nat.two_pow_pos _
  rw [sameTop, testBit_top_div (by omega) (by omega), testBit_top_div (by omega) hlt, e1] at ht
  -- the common top bit
  have b1 : L / 2 ^ (a + m) < 2 := Nat.div_lt_of_lt_mul (by omega)
  have b2 : H / 2 ^ (a + m) < 2 := Nat.div_lt_of_lt_mul (by omega)
  have ht' : L / 2 ^ (a + m) = H / 2 ^ (a + m) := by
    simp only [beq_iff_eq, decide_eq_decide] at ht
    generalize L / 2 ^ (a + m) = x at *
    generalize H / 2 ^ (a + m) = y at *
    omega
  have d1 := Nat.div_add_mod L (2 ^ (a + m))
  have d2 := Nat.div_add_mod H (2 ^ (a + m))
  have d3 := Nat.div_add_mod (h * 2 ^ a % 2 ^ (a + 1 + m)) (2 ^ (a + m))
  have m1 := Nat.mod_lt L hQ
  have m2 := Nat.mod_lt H hQ
  have m3 := Nat.mod_lt (h * 2 ^ a % 2 ^ (a + 1 + m)) hQ
  rw [t3, ← t2] at d3
  have sL : (L * 2) % 2 ^ (a + 1 + m) = 2 * (L % 2 ^ (a + m)) := by
    rw [hP2, Nat.mul_comm L, Nat.mul_mod_mul_left]
  have sH : (H * 2) % 2 ^ (a + 1 + m) = 2 * (H % 2 ^ (a + m)) := by
    rw [hP2, Nat.mul_comm H, Nat.mul_mod_mul_left]
  have sh : h * 2 ^ (a + 1) % 2 ^ (a + 1 + m) = 2 * (h * 2 ^ a % 2 ^ (a + 1 + m) % 2 ^ (a + m)) := by
    rw [pow_succ, ← Nat.mul_assoc, ← Nat.mod_mul_mod, hP2, Nat.mul_comm _ 2, Nat.mul_mod_mul_left]
  have sl : l * 2 ^ (a + 1) % 2 ^ (a + 1 + m) = 2 * (L % 2 ^ (a + m)) := by
    rw [hL, pow_succ, ← Nat.mul_assoc, ← Nat.mod_mul_mod, hP2, Nat.mul_comm _ 2, Nat.mul_mod_mul_left]
  rw [← ht'] at d2 d3
  refine ⟨⟨?_, ?_, ?_, by omega, ?_, ?_, ?_, by simp, by simp, ?_⟩, ?_⟩
  · simp only [shiftE12, shifted, sL, sl, Bool.toNat_false]; simp
  · simp only [shiftE12, shifted, sH, sh, Bool.toNat_true]
    simp only [pow_succ, pow_zero, Nat.sub_self, Nat.mul_zero, Nat.sub_zero, Nat.mul_one, Nat.one_mul, Nat.add_zero]
    omega
  · rw [e3, div_pow_succ l, div_pow_succ h, ← t1, ← t2, ht']
    rw [e2] at hshared
    rw [hshared]
  · simp only [shiftE12, sL, sH, Bool.toNat_false, Bool.toNat_true]
    omega
  · simp only [shiftE12, sH, Bool.toNat_true]
    omega
  · simp only [shiftE12, sL, sH, Bool.toNat_false, Bool.toNat_true]
    have : (h - l + 1) * 2 ^ (a + 1 + 0) = 2 * ((h - l + 1) * 2 ^ (a + 0)) := by
      simp only [pow_succ, Nat.add_zero]; ring
    rw [this, hrange]
    omega
  · rw [sl, sh]
    omega
  · rw [testBit_top_div (by omega) (by omega), Nat.testBit_eq_decide_div_mod_eq, e1, show a + m - a = m by omega,
      div_pow_succ l, t1]
    rw [t1] at b1
    generalize l % 2 ^ (m + 1) / 2 ^ m = x at *
    generalize l / 2 ^ (m + 1) = y
    congr 1
    simp only [eq_iff_iff]
    omega

/-- A step of E3: `low` lies in the second quarter and `high` in the third (R169). -/
theorem NormAt.e3 {P l h a b L H : Nat} (hP : 2 ≤ P) (n : NormAt P l h a b L H) (ht : sameTop P L H = false)
    (hs : straddles P L H = true) :
    NormAt P l h a (b + 1) (shiftE3 P L false) (shiftE3 P H true) := by
  obtain ⟨p, rfl⟩ : ∃ p, P = p + 2 := ⟨P - 2, by omega⟩
  have hle := n.le
  have hlt := n.lt
  have hmono := n.mono
  have hrange := n.range
  have hsub := n.sub
  have h4 : 2 ^ (p + 2) = 4 * 2 ^ p := by rw [pow_add]; omega
  have h2 : 2 ^ (p + 1) = 2 * 2 ^ p := by rw [pow_succ]; omega
  have e1 : p + 2 - 1 = p + 1 := rfl
  have e2 : p + 2 - 2 = p := rfl
  have hQ : 0 < 2 ^ p := Nat.two_pow_pos p
  have hL4 : L < 4 * 2 ^ p := by omega
  have hH4 : H < 4 * 2 ^ p := by omega
  rw [sameTop, e1, testBit_top hL4, testBit_top hH4] at ht
  rw [straddles, e2, testBit_second hL4, testBit_second hH4] at hs
  simp only [beq_eq_false_iff_ne, ne_eq, decide_eq_decide, Bool.and_eq_true, decide_eq_true_eq, Bool.not_eq_true',
    decide_eq_false_iff_not] at ht hs
  have c1 : 2 ^ p ≤ L ∧ L < 2 * 2 ^ p ∧ 2 * 2 ^ p ≤ H ∧ H < 3 * 2 ^ p := by omega
  obtain ⟨c1, c2, c3, c4⟩ := c1
  have hL := n.hL
  have hH := n.hH
  simp only [shifted, Bool.toNat_false, Bool.toNat_true, Nat.zero_mul, Nat.add_zero, Nat.one_mul, e1] at hL hH hsub
  have hB : 0 < 2 ^ b := Nat.two_pow_pos b
  have hA : 0 < 2 ^ a := Nat.two_pow_pos a
  have hB2 : 2 ^ (b + 1) = 2 * 2 ^ b := by rw [pow_succ]; omega
  have hb : 2 ^ (p + 1) * (2 ^ (b + 1) - 1) = 2 * (2 ^ (p + 1) * (2 ^ b - 1)) + 2 ^ (p + 1) := by
    rw [hB2, show 2 * 2 ^ b - 1 = 2 * (2 ^ b - 1) + 1 by omega]; ring
  have hyl : l * 2 ^ a % 2 ^ (p + 2) * 2 ^ (b + 1) = 2 * (l * 2 ^ a % 2 ^ (p + 2) * 2 ^ b) := by rw [hB2]; ring
  have hyh : (h * 2 ^ a % 2 ^ (p + 2) + (2 ^ a - 1)) * 2 ^ (b + 1) =
      2 * ((h * 2 ^ a % 2 ^ (p + 2) + (2 ^ a - 1)) * 2 ^ b) := by rw [hB2]; ring
  have hm : l * 2 ^ a % 2 ^ (p + 2) * 2 ^ b ≤ (h * 2 ^ a % 2 ^ (p + 2) + (2 ^ a - 1)) * 2 ^ b :=
    Nat.mul_le_mul_right _ (by omega)
  have hne : 1 ≤ h - l := by
    rcases Nat.eq_zero_or_pos b with rfl | hbp
    · by_contra hc
      have h0 : h - l = 0 := by omega
      rw [h0] at hrange
      simp only [Nat.zero_add, Nat.one_mul, Nat.add_zero] at hrange
      have hsh := n.shared
      have hu := n.unshifted
      -- the bounds differ by less than the bits shifted in
      have ha := n.ha
      rcases Nat.eq_zero_or_pos a with rfl | hap
      · simp at hrange; omega
      · have hp1 : 2 ^ a ∣ 2 ^ (p + 1) ∨ a = p + 2 := by
          rcases Nat.lt_or_ge a (p + 2) with q | q
          · exact .inl (pow_dvd_pow 2 (by omega))
          · exact .inr (by omega)
        rcases hp1 with ⟨k, hk⟩ | rfl
        · have : L = l % 2 ^ (p + 2 - a) * 2 ^ a := by rw [hu.1, mul_pow_mod ha]
          generalize l % 2 ^ (p + 2 - a) = r at this
          rw [← h2, hk] at c2 c3
          have q1 : r < k := by
            by_contra hq
            have : k * 2 ^ a ≤ r * 2 ^ a := Nat.mul_le_mul_right _ (by omega)
            rw [Nat.mul_comm k] at this
            omega
          have : (r + 1) * 2 ^ a ≤ k * 2 ^ a := Nat.mul_le_mul_right _ (by omega)
          rw [Nat.add_mul, Nat.mul_comm k] at this
          omega
        · rw [h4] at hrange
          omega
    · exact (n.apart hbp).2.2
  have g1 := hB2
  have g2 := hb
  have g3 := hyh
  rw [hB2] at g2 g3
  generalize 2 ^ (p + 1) * (2 ^ b - 1) = X at *
  generalize l * 2 ^ a % 2 ^ (p + 2) * 2 ^ b = Y at *
  generalize (h * 2 ^ a % 2 ^ (p + 2) + (2 ^ a - 1)) * 2 ^ b = Z at *
  refine ⟨?_, ?_, n.shared, n.ha, ?_, ?_, ?_, ?_, ?_, hmono⟩
  · simp only [shiftE3, shifted, Bool.toNat_false, Nat.zero_mul, Nat.add_zero, e1, hb, hyl]
    omega
  · simp only [shiftE3, shifted, Bool.toNat_true, Nat.one_mul, e1, hB2, g2, g3]
    omega
  · simp only [shiftE3, Bool.toNat_false, Bool.toNat_true, e1]
    omega
  · simp only [shiftE3, Bool.toNat_true, e1]
    omega
  · simp only [shiftE3, Bool.toNat_false, Bool.toNat_true, e1]
    have : (h - l + 1) * 2 ^ (a + (b + 1)) = 2 * ((h - l + 1) * 2 ^ (a + b)) := by
      rw [← Nat.add_assoc, pow_succ]; ring
    rw [this, hrange]
    omega
  · intro _
    simp only [shiftE3, Bool.toNat_false, Bool.toNat_true, e1]
    omega
  · rw [e1, hb, hyl]
    omega

/-- Where neither condition holds, the interval is at rest (R21). -/
theorem NormAt.rest {P l h a b L H : Nat} (hP : 2 ≤ P) (n : NormAt P l h a b L H) (ht : sameTop P L H = false)
    (hs : straddles P L H = false) : RestInterval P L H := by
  obtain ⟨p, rfl⟩ : ∃ p, P = p + 2 := ⟨P - 2, by omega⟩
  have hle := n.le
  have hlt := n.lt
  have h4 : 2 ^ (p + 2) = 4 * 2 ^ p := by rw [pow_add]; omega
  have e1 : p + 2 - 1 = p + 1 := rfl
  have e2 : p + 2 - 2 = p := rfl
  have hL4 : L < 4 * 2 ^ p := by omega
  have hH4 : H < 4 * 2 ^ p := by omega
  rw [sameTop, e1, testBit_top hL4, testBit_top hH4] at ht
  rw [straddles, e2, testBit_second hL4, testBit_second hH4] at hs
  simp only [beq_eq_false_iff_ne, ne_eq, decide_eq_decide, Bool.and_eq_false_iff, decide_eq_false_iff_not,
    Bool.not_eq_false', decide_eq_true_eq] at ht hs
  rw [restInterval_iff]
  omega

/-- Where an E3 step is made, `low` begins 01 and `high` begins 10 (R165). -/
theorem NormAt.straddle {P l h a b L H : Nat} (hP : 2 ≤ P) (n : NormAt P l h a b L H) (ht : sameTop P L H = false)
    (hs : straddles P L H = true) : Straddle P (shifted P a b l false) (shifted P a b h true) := by
  obtain ⟨p, rfl⟩ : ∃ p, P = p + 2 := ⟨P - 2, by omega⟩
  have hle := n.le
  have hlt := n.lt
  have h4 : 2 ^ (p + 2) = 4 * 2 ^ p := by rw [pow_add]; omega
  have e1 : p + 2 - 1 = p + 1 := rfl
  have e2 : p + 2 - 2 = p := rfl
  rw [← n.hL, ← n.hH]
  simp only [Straddle, straddles, sameTop, e1, e2, Bool.and_eq_true, Bool.not_eq_true'] at ht hs ⊢
  refine ⟨?_, ?_, hs.1, hs.2⟩ <;>
    rw [testBit_top (by omega), testBit_top (by omega)] at ht <;>
    rw [testBit_top (by omega)] <;>
    simp only [beq_eq_false_iff_ne, ne_eq, decide_eq_decide, decide_eq_true_eq, decide_eq_false_iff_not] at ht ⊢ <;>
    omega

/-- After an E3 step the top bits never agree again, so the E1/E2 steps come first (R165). -/
theorem NormAt.topsApart {P l h a b L H : Nat} (hP : 2 ≤ P) (n : NormAt P l h a b L H) (hb : 0 < b) :
    sameTop P L H = false := by
  obtain ⟨p, rfl⟩ : ∃ p, P = p + 2 := ⟨P - 2, by omega⟩
  have hap := n.apart hb
  have hlt := n.lt
  have h4 : 2 ^ (p + 2) = 4 * 2 ^ p := by rw [pow_add]; omega
  have h2 : 2 ^ (p + 1) = 2 * 2 ^ p := by rw [pow_succ]; omega
  have e1 : p + 2 - 1 = p + 1 := rfl
  rw [e1] at hap
  rw [sameTop, e1, testBit_top (by omega), testBit_top (by omega)]
  simp only [beq_eq_false_iff_ne, ne_eq, decide_eq_decide]
  omega

end Sys2Proof.Machine
end

