-- ==== Sys2Proof/Laws/State.lean ====
section
/-! SUPPORT. One lemma per field per named update of the state, each true by rfl. -/

namespace Sys2Proof.Machine

/-! ### A response -/

@[simp] theorem State.respond_crP (s : State) (r : Response) : (s.respond r).crP = s.crP := rfl
@[simp] theorem State.respond_crK (s : State) (r : Response) : (s.respond r).crK = s.crK := rfl
@[simp] theorem State.respond_crSl (s : State) (r : Response) : (s.respond r).crSl = s.crSl := rfl
@[simp] theorem State.respond_crEsc (s : State) (r : Response) : (s.respond r).crEsc = s.crEsc := rfl
@[simp] theorem State.respond_phase (s : State) (r : Response) : (s.respond r).phase = s.phase := rfl
@[simp] theorem State.respond_mode (s : State) (r : Response) : (s.respond r).mode = s.mode := rfl
@[simp] theorem State.respond_codeValid (s : State) (r : Response) : (s.respond r).codeValid = s.codeValid := rfl
@[simp] theorem State.respond_eos (s : State) (r : Response) : (s.respond r).eos = s.eos := rfl
@[simp] theorem State.respond_faultCause (s : State) (r : Response) : (s.respond r).faultCause = s.faultCause := rfl
@[simp] theorem State.respond_faultInfo (s : State) (r : Response) : (s.respond r).faultInfo = s.faultInfo := rfl
@[simp] theorem State.respond_tailbits (s : State) (r : Response) : (s.respond r).tailbits = s.tailbits := rfl
@[simp] theorem State.respond_nctx (s : State) (r : Response) : (s.respond r).nctx = s.nctx := rfl
@[simp] theorem State.respond_low (s : State) (r : Response) : (s.respond r).low = s.low := rfl
@[simp] theorem State.respond_high (s : State) (r : Response) : (s.respond r).high = s.high := rfl
@[simp] theorem State.respond_code (s : State) (r : Response) : (s.respond r).code = s.code := rfl
@[simp] theorem State.respond_pending (s : State) (r : Response) : (s.respond r).pending = s.pending := rfl
@[simp] theorem State.respond_wbuf (s : State) (r : Response) : (s.respond r).wbuf = s.wbuf := rfl
@[simp] theorem State.respond_wcnt (s : State) (r : Response) : (s.respond r).wcnt = s.wcnt := rfl
@[simp] theorem State.respond_rbuf (s : State) (r : Response) : (s.respond r).rbuf = s.rbuf := rfl
@[simp] theorem State.respond_rcnt (s : State) (r : Response) : (s.respond r).rcnt = s.rcnt := rfl
@[simp] theorem State.respond_hist (s : State) (r : Response) : (s.respond r).hist = s.hist := rfl
@[simp] theorem State.respond_ctx (s : State) (r : Response) : (s.respond r).ctx = s.ctx := rfl
@[simp] theorem State.respond_busy (s : State) (r : Response) : (s.respond r).busy = s.busy := rfl
@[simp] theorem State.respond_params (s : State) (r : Response) : (s.respond r).params = s.params := rfl
@[simp] theorem State.respond_input (s : State) (r : Response) : (s.respond r).input = s.input := rfl
@[simp] theorem State.respond_sink (s : State) (r : Response) : (s.respond r).sink = s.sink := rfl
@[simp] theorem State.respond_calls (s : State) (r : Response) : (s.respond r).calls = s.calls := rfl
@[simp] theorem State.respond_responses (s : State) (r : Response) : (s.respond r).responses = s.responses ++ [r] := rfl
@[simp] theorem State.respond_host (s : State) (r : Response) : (s.respond r).host = s.host := rfl
@[simp] theorem State.respond_freeCount (s : State) (r : Response) : (s.respond r).freeCount = s.freeCount := rfl
@[simp] theorem State.respond_P (s : State) (r : Response) : (s.respond r).P = s.P := rfl
@[simp] theorem State.respond_K (s : State) (r : Response) : (s.respond r).K = s.K := rfl
@[simp] theorem State.respond_SL (s : State) (r : Response) : (s.respond r).SL = s.SL := rfl
@[simp] theorem State.respond_ESC (s : State) (r : Response) : (s.respond r).ESC = s.ESC := rfl
@[simp] theorem State.respond_hlen (s : State) (r : Response) : (s.respond r).hlen = s.hlen := rfl

/-! ### `low` and `high` -/

@[simp] theorem State.setInterval_crP (s : State) (l h : Nat) : (s.setInterval l h).crP = s.crP := rfl
@[simp] theorem State.setInterval_crK (s : State) (l h : Nat) : (s.setInterval l h).crK = s.crK := rfl
@[simp] theorem State.setInterval_crSl (s : State) (l h : Nat) : (s.setInterval l h).crSl = s.crSl := rfl
@[simp] theorem State.setInterval_crEsc (s : State) (l h : Nat) : (s.setInterval l h).crEsc = s.crEsc := rfl
@[simp] theorem State.setInterval_phase (s : State) (l h : Nat) : (s.setInterval l h).phase = s.phase := rfl
@[simp] theorem State.setInterval_mode (s : State) (l h : Nat) : (s.setInterval l h).mode = s.mode := rfl
@[simp] theorem State.setInterval_codeValid (s : State) (l h : Nat) : (s.setInterval l h).codeValid = s.codeValid := rfl
@[simp] theorem State.setInterval_eos (s : State) (l h : Nat) : (s.setInterval l h).eos = s.eos := rfl
@[simp] theorem State.setInterval_faultCause (s : State) (l h : Nat) : (s.setInterval l h).faultCause = s.faultCause := rfl
@[simp] theorem State.setInterval_faultInfo (s : State) (l h : Nat) : (s.setInterval l h).faultInfo = s.faultInfo := rfl
@[simp] theorem State.setInterval_tailbits (s : State) (l h : Nat) : (s.setInterval l h).tailbits = s.tailbits := rfl
@[simp] theorem State.setInterval_nctx (s : State) (l h : Nat) : (s.setInterval l h).nctx = s.nctx := rfl
@[simp] theorem State.setInterval_low (s : State) (l h : Nat) : (s.setInterval l h).low = BitVec.ofNat 32 l := rfl
@[simp] theorem State.setInterval_high (s : State) (l h : Nat) : (s.setInterval l h).high = BitVec.ofNat 32 h := rfl
@[simp] theorem State.setInterval_code (s : State) (l h : Nat) : (s.setInterval l h).code = s.code := rfl
@[simp] theorem State.setInterval_pending (s : State) (l h : Nat) : (s.setInterval l h).pending = s.pending := rfl
@[simp] theorem State.setInterval_wbuf (s : State) (l h : Nat) : (s.setInterval l h).wbuf = s.wbuf := rfl
@[simp] theorem State.setInterval_wcnt (s : State) (l h : Nat) : (s.setInterval l h).wcnt = s.wcnt := rfl
@[simp] theorem State.setInterval_rbuf (s : State) (l h : Nat) : (s.setInterval l h).rbuf = s.rbuf := rfl
@[simp] theorem State.setInterval_rcnt (s : State) (l h : Nat) : (s.setInterval l h).rcnt = s.rcnt := rfl
@[simp] theorem State.setInterval_hist (s : State) (l h : Nat) : (s.setInterval l h).hist = s.hist := rfl
@[simp] theorem State.setInterval_ctx (s : State) (l h : Nat) : (s.setInterval l h).ctx = s.ctx := rfl
@[simp] theorem State.setInterval_busy (s : State) (l h : Nat) : (s.setInterval l h).busy = s.busy := rfl
@[simp] theorem State.setInterval_params (s : State) (l h : Nat) : (s.setInterval l h).params = s.params := rfl
@[simp] theorem State.setInterval_input (s : State) (l h : Nat) : (s.setInterval l h).input = s.input := rfl
@[simp] theorem State.setInterval_sink (s : State) (l h : Nat) : (s.setInterval l h).sink = s.sink := rfl
@[simp] theorem State.setInterval_calls (s : State) (l h : Nat) : (s.setInterval l h).calls = s.calls := rfl
@[simp] theorem State.setInterval_responses (s : State) (l h : Nat) : (s.setInterval l h).responses = s.responses := rfl
@[simp] theorem State.setInterval_host (s : State) (l h : Nat) : (s.setInterval l h).host = s.host := rfl
@[simp] theorem State.setInterval_freeCount (s : State) (l h : Nat) : (s.setInterval l h).freeCount = s.freeCount := rfl
@[simp] theorem State.setInterval_P (s : State) (l h : Nat) : (s.setInterval l h).P = s.P := rfl
@[simp] theorem State.setInterval_K (s : State) (l h : Nat) : (s.setInterval l h).K = s.K := rfl
@[simp] theorem State.setInterval_SL (s : State) (l h : Nat) : (s.setInterval l h).SL = s.SL := rfl
@[simp] theorem State.setInterval_ESC (s : State) (l h : Nat) : (s.setInterval l h).ESC = s.ESC := rfl
@[simp] theorem State.setInterval_hlen (s : State) (l h : Nat) : (s.setInterval l h).hlen = s.hlen := rfl

/-! ### `code` -/

@[simp] theorem State.setCode_crP (s : State) (c : Nat) : (s.setCode c).crP = s.crP := rfl
@[simp] theorem State.setCode_crK (s : State) (c : Nat) : (s.setCode c).crK = s.crK := rfl
@[simp] theorem State.setCode_crSl (s : State) (c : Nat) : (s.setCode c).crSl = s.crSl := rfl
@[simp] theorem State.setCode_crEsc (s : State) (c : Nat) : (s.setCode c).crEsc = s.crEsc := rfl
@[simp] theorem State.setCode_phase (s : State) (c : Nat) : (s.setCode c).phase = s.phase := rfl
@[simp] theorem State.setCode_mode (s : State) (c : Nat) : (s.setCode c).mode = s.mode := rfl
@[simp] theorem State.setCode_codeValid (s : State) (c : Nat) : (s.setCode c).codeValid = s.codeValid := rfl
@[simp] theorem State.setCode_eos (s : State) (c : Nat) : (s.setCode c).eos = s.eos := rfl
@[simp] theorem State.setCode_faultCause (s : State) (c : Nat) : (s.setCode c).faultCause = s.faultCause := rfl
@[simp] theorem State.setCode_faultInfo (s : State) (c : Nat) : (s.setCode c).faultInfo = s.faultInfo := rfl
@[simp] theorem State.setCode_tailbits (s : State) (c : Nat) : (s.setCode c).tailbits = s.tailbits := rfl
@[simp] theorem State.setCode_nctx (s : State) (c : Nat) : (s.setCode c).nctx = s.nctx := rfl
@[simp] theorem State.setCode_low (s : State) (c : Nat) : (s.setCode c).low = s.low := rfl
@[simp] theorem State.setCode_high (s : State) (c : Nat) : (s.setCode c).high = s.high := rfl
@[simp] theorem State.setCode_code (s : State) (c : Nat) : (s.setCode c).code = BitVec.ofNat 32 c := rfl
@[simp] theorem State.setCode_pending (s : State) (c : Nat) : (s.setCode c).pending = s.pending := rfl
@[simp] theorem State.setCode_wbuf (s : State) (c : Nat) : (s.setCode c).wbuf = s.wbuf := rfl
@[simp] theorem State.setCode_wcnt (s : State) (c : Nat) : (s.setCode c).wcnt = s.wcnt := rfl
@[simp] theorem State.setCode_rbuf (s : State) (c : Nat) : (s.setCode c).rbuf = s.rbuf := rfl
@[simp] theorem State.setCode_rcnt (s : State) (c : Nat) : (s.setCode c).rcnt = s.rcnt := rfl
@[simp] theorem State.setCode_hist (s : State) (c : Nat) : (s.setCode c).hist = s.hist := rfl
@[simp] theorem State.setCode_ctx (s : State) (c : Nat) : (s.setCode c).ctx = s.ctx := rfl
@[simp] theorem State.setCode_busy (s : State) (c : Nat) : (s.setCode c).busy = s.busy := rfl
@[simp] theorem State.setCode_params (s : State) (c : Nat) : (s.setCode c).params = s.params := rfl
@[simp] theorem State.setCode_input (s : State) (c : Nat) : (s.setCode c).input = s.input := rfl
@[simp] theorem State.setCode_sink (s : State) (c : Nat) : (s.setCode c).sink = s.sink := rfl
@[simp] theorem State.setCode_calls (s : State) (c : Nat) : (s.setCode c).calls = s.calls := rfl
@[simp] theorem State.setCode_responses (s : State) (c : Nat) : (s.setCode c).responses = s.responses := rfl
@[simp] theorem State.setCode_host (s : State) (c : Nat) : (s.setCode c).host = s.host := rfl
@[simp] theorem State.setCode_freeCount (s : State) (c : Nat) : (s.setCode c).freeCount = s.freeCount := rfl
@[simp] theorem State.setCode_P (s : State) (c : Nat) : (s.setCode c).P = s.P := rfl
@[simp] theorem State.setCode_K (s : State) (c : Nat) : (s.setCode c).K = s.K := rfl
@[simp] theorem State.setCode_SL (s : State) (c : Nat) : (s.setCode c).SL = s.SL := rfl
@[simp] theorem State.setCode_ESC (s : State) (c : Nat) : (s.setCode c).ESC = s.ESC := rfl
@[simp] theorem State.setCode_hlen (s : State) (c : Nat) : (s.setCode c).hlen = s.hlen := rfl

/-! ### A count -/

@[simp] theorem State.setCount_crP (s : State) (p : Path) (sym c : Nat) : (s.setCount p sym c).crP = s.crP := rfl
@[simp] theorem State.setCount_crK (s : State) (p : Path) (sym c : Nat) : (s.setCount p sym c).crK = s.crK := rfl
@[simp] theorem State.setCount_crSl (s : State) (p : Path) (sym c : Nat) : (s.setCount p sym c).crSl = s.crSl := rfl
@[simp] theorem State.setCount_crEsc (s : State) (p : Path) (sym c : Nat) : (s.setCount p sym c).crEsc = s.crEsc := rfl
@[simp] theorem State.setCount_phase (s : State) (p : Path) (sym c : Nat) : (s.setCount p sym c).phase = s.phase := rfl
@[simp] theorem State.setCount_mode (s : State) (p : Path) (sym c : Nat) : (s.setCount p sym c).mode = s.mode := rfl
@[simp] theorem State.setCount_codeValid (s : State) (p : Path) (sym c : Nat) : (s.setCount p sym c).codeValid = s.codeValid := rfl
@[simp] theorem State.setCount_eos (s : State) (p : Path) (sym c : Nat) : (s.setCount p sym c).eos = s.eos := rfl
@[simp] theorem State.setCount_faultCause (s : State) (p : Path) (sym c : Nat) : (s.setCount p sym c).faultCause = s.faultCause := rfl
@[simp] theorem State.setCount_faultInfo (s : State) (p : Path) (sym c : Nat) : (s.setCount p sym c).faultInfo = s.faultInfo := rfl
@[simp] theorem State.setCount_tailbits (s : State) (p : Path) (sym c : Nat) : (s.setCount p sym c).tailbits = s.tailbits := rfl
@[simp] theorem State.setCount_nctx (s : State) (p : Path) (sym c : Nat) : (s.setCount p sym c).nctx = s.nctx := rfl
@[simp] theorem State.setCount_low (s : State) (p : Path) (sym c : Nat) : (s.setCount p sym c).low = s.low := rfl
@[simp] theorem State.setCount_high (s : State) (p : Path) (sym c : Nat) : (s.setCount p sym c).high = s.high := rfl
@[simp] theorem State.setCount_code (s : State) (p : Path) (sym c : Nat) : (s.setCount p sym c).code = s.code := rfl
@[simp] theorem State.setCount_pending (s : State) (p : Path) (sym c : Nat) : (s.setCount p sym c).pending = s.pending := rfl
@[simp] theorem State.setCount_wbuf (s : State) (p : Path) (sym c : Nat) : (s.setCount p sym c).wbuf = s.wbuf := rfl
@[simp] theorem State.setCount_wcnt (s : State) (p : Path) (sym c : Nat) : (s.setCount p sym c).wcnt = s.wcnt := rfl
@[simp] theorem State.setCount_rbuf (s : State) (p : Path) (sym c : Nat) : (s.setCount p sym c).rbuf = s.rbuf := rfl
@[simp] theorem State.setCount_rcnt (s : State) (p : Path) (sym c : Nat) : (s.setCount p sym c).rcnt = s.rcnt := rfl
@[simp] theorem State.setCount_hist (s : State) (p : Path) (sym c : Nat) : (s.setCount p sym c).hist = s.hist := rfl
@[simp] theorem State.setCount_ctx (s : State) (p : Path) (sym c : Nat) : (s.setCount p sym c).ctx = Memory.write s.ctx p (Table.set (Memory.table s.ctx p) sym c) := rfl
@[simp] theorem State.setCount_busy (s : State) (p : Path) (sym c : Nat) : (s.setCount p sym c).busy = s.busy := rfl
@[simp] theorem State.setCount_params (s : State) (p : Path) (sym c : Nat) : (s.setCount p sym c).params = s.params := rfl
@[simp] theorem State.setCount_input (s : State) (p : Path) (sym c : Nat) : (s.setCount p sym c).input = s.input := rfl
@[simp] theorem State.setCount_sink (s : State) (p : Path) (sym c : Nat) : (s.setCount p sym c).sink = s.sink := rfl
@[simp] theorem State.setCount_calls (s : State) (p : Path) (sym c : Nat) : (s.setCount p sym c).calls = s.calls := rfl
@[simp] theorem State.setCount_responses (s : State) (p : Path) (sym c : Nat) : (s.setCount p sym c).responses = s.responses := rfl
@[simp] theorem State.setCount_host (s : State) (p : Path) (sym c : Nat) : (s.setCount p sym c).host = s.host := rfl
@[simp] theorem State.setCount_freeCount (s : State) (p : Path) (sym c : Nat) : (s.setCount p sym c).freeCount = s.freeCount := rfl
@[simp] theorem State.setCount_P (s : State) (p : Path) (sym c : Nat) : (s.setCount p sym c).P = s.P := rfl
@[simp] theorem State.setCount_K (s : State) (p : Path) (sym c : Nat) : (s.setCount p sym c).K = s.K := rfl
@[simp] theorem State.setCount_SL (s : State) (p : Path) (sym c : Nat) : (s.setCount p sym c).SL = s.SL := rfl
@[simp] theorem State.setCount_ESC (s : State) (p : Path) (sym c : Nat) : (s.setCount p sym c).ESC = s.ESC := rfl
@[simp] theorem State.setCount_hlen (s : State) (p : Path) (sym c : Nat) : (s.setCount p sym c).hlen = s.hlen := rfl

/-! ### A tail bit -/

@[simp] theorem State.countTailbit_crP (s : State) : (s.countTailbit).crP = s.crP := rfl
@[simp] theorem State.countTailbit_crK (s : State) : (s.countTailbit).crK = s.crK := rfl
@[simp] theorem State.countTailbit_crSl (s : State) : (s.countTailbit).crSl = s.crSl := rfl
@[simp] theorem State.countTailbit_crEsc (s : State) : (s.countTailbit).crEsc = s.crEsc := rfl
@[simp] theorem State.countTailbit_phase (s : State) : (s.countTailbit).phase = s.phase := rfl
@[simp] theorem State.countTailbit_mode (s : State) : (s.countTailbit).mode = s.mode := rfl
@[simp] theorem State.countTailbit_codeValid (s : State) : (s.countTailbit).codeValid = s.codeValid := rfl
@[simp] theorem State.countTailbit_eos (s : State) : (s.countTailbit).eos = s.eos := rfl
@[simp] theorem State.countTailbit_faultCause (s : State) : (s.countTailbit).faultCause = s.faultCause := rfl
@[simp] theorem State.countTailbit_faultInfo (s : State) : (s.countTailbit).faultInfo = s.faultInfo := rfl
@[simp] theorem State.countTailbit_tailbits (s : State) : (s.countTailbit).tailbits = if s.tailbits.toNat < 2 ^ 64 - 1 then s.tailbits + 1 else s.tailbits := rfl
@[simp] theorem State.countTailbit_nctx (s : State) : (s.countTailbit).nctx = s.nctx := rfl
@[simp] theorem State.countTailbit_low (s : State) : (s.countTailbit).low = s.low := rfl
@[simp] theorem State.countTailbit_high (s : State) : (s.countTailbit).high = s.high := rfl
@[simp] theorem State.countTailbit_code (s : State) : (s.countTailbit).code = s.code := rfl
@[simp] theorem State.countTailbit_pending (s : State) : (s.countTailbit).pending = s.pending := rfl
@[simp] theorem State.countTailbit_wbuf (s : State) : (s.countTailbit).wbuf = s.wbuf := rfl
@[simp] theorem State.countTailbit_wcnt (s : State) : (s.countTailbit).wcnt = s.wcnt := rfl
@[simp] theorem State.countTailbit_rbuf (s : State) : (s.countTailbit).rbuf = s.rbuf := rfl
@[simp] theorem State.countTailbit_rcnt (s : State) : (s.countTailbit).rcnt = s.rcnt := rfl
@[simp] theorem State.countTailbit_hist (s : State) : (s.countTailbit).hist = s.hist := rfl
@[simp] theorem State.countTailbit_ctx (s : State) : (s.countTailbit).ctx = s.ctx := rfl
@[simp] theorem State.countTailbit_busy (s : State) : (s.countTailbit).busy = s.busy := rfl
@[simp] theorem State.countTailbit_params (s : State) : (s.countTailbit).params = s.params := rfl
@[simp] theorem State.countTailbit_input (s : State) : (s.countTailbit).input = s.input := rfl
@[simp] theorem State.countTailbit_sink (s : State) : (s.countTailbit).sink = s.sink := rfl
@[simp] theorem State.countTailbit_calls (s : State) : (s.countTailbit).calls = s.calls := rfl
@[simp] theorem State.countTailbit_responses (s : State) : (s.countTailbit).responses = s.responses := rfl
@[simp] theorem State.countTailbit_host (s : State) : (s.countTailbit).host = s.host := rfl
@[simp] theorem State.countTailbit_freeCount (s : State) : (s.countTailbit).freeCount = s.freeCount := rfl
@[simp] theorem State.countTailbit_P (s : State) : (s.countTailbit).P = s.P := rfl
@[simp] theorem State.countTailbit_K (s : State) : (s.countTailbit).K = s.K := rfl
@[simp] theorem State.countTailbit_SL (s : State) : (s.countTailbit).SL = s.SL := rfl
@[simp] theorem State.countTailbit_ESC (s : State) : (s.countTailbit).ESC = s.ESC := rfl
@[simp] theorem State.countTailbit_hlen (s : State) : (s.countTailbit).hlen = s.hlen := rfl

/-! ### Fault entry (60_exceptions.md R240) -/

@[simp] theorem State.raise_crP (s : State) (c : Cause) (n : Nat) : (s.raise c n).crP = s.crP := rfl
@[simp] theorem State.raise_crK (s : State) (c : Cause) (n : Nat) : (s.raise c n).crK = s.crK := rfl
@[simp] theorem State.raise_crSl (s : State) (c : Cause) (n : Nat) : (s.raise c n).crSl = s.crSl := rfl
@[simp] theorem State.raise_crEsc (s : State) (c : Cause) (n : Nat) : (s.raise c n).crEsc = s.crEsc := rfl
@[simp] theorem State.raise_phase (s : State) (c : Cause) (n : Nat) : (s.raise c n).phase = .fault := rfl
@[simp] theorem State.raise_mode (s : State) (c : Cause) (n : Nat) : (s.raise c n).mode = (Config.lost s.freeCount).mode := rfl
@[simp] theorem State.raise_codeValid (s : State) (c : Cause) (n : Nat) : (s.raise c n).codeValid = (Config.lost s.freeCount).codeValid := rfl
@[simp] theorem State.raise_eos (s : State) (c : Cause) (n : Nat) : (s.raise c n).eos = (Config.lost s.freeCount).eos := rfl
@[simp] theorem State.raise_faultCause (s : State) (c : Cause) (n : Nat) : (s.raise c n).faultCause = c.code := rfl
@[simp] theorem State.raise_faultInfo (s : State) (c : Cause) (n : Nat) : (s.raise c n).faultInfo = BitVec.ofNat 32 n := rfl
@[simp] theorem State.raise_tailbits (s : State) (c : Cause) (n : Nat) : (s.raise c n).tailbits = (Config.lost s.freeCount).tailbits := rfl
@[simp] theorem State.raise_nctx (s : State) (c : Cause) (n : Nat) : (s.raise c n).nctx = (Config.lost s.freeCount).nctx := rfl
@[simp] theorem State.raise_low (s : State) (c : Cause) (n : Nat) : (s.raise c n).low = (Config.lost s.freeCount).low := rfl
@[simp] theorem State.raise_high (s : State) (c : Cause) (n : Nat) : (s.raise c n).high = (Config.lost s.freeCount).high := rfl
@[simp] theorem State.raise_code (s : State) (c : Cause) (n : Nat) : (s.raise c n).code = (Config.lost s.freeCount).code := rfl
@[simp] theorem State.raise_pending (s : State) (c : Cause) (n : Nat) : (s.raise c n).pending = (Config.lost s.freeCount).pending := rfl
@[simp] theorem State.raise_wbuf (s : State) (c : Cause) (n : Nat) : (s.raise c n).wbuf = (Config.lost s.freeCount).wbuf := rfl
@[simp] theorem State.raise_wcnt (s : State) (c : Cause) (n : Nat) : (s.raise c n).wcnt = (Config.lost s.freeCount).wcnt := rfl
@[simp] theorem State.raise_rbuf (s : State) (c : Cause) (n : Nat) : (s.raise c n).rbuf = (Config.lost s.freeCount).rbuf := rfl
@[simp] theorem State.raise_rcnt (s : State) (c : Cause) (n : Nat) : (s.raise c n).rcnt = (Config.lost s.freeCount).rcnt := rfl
@[simp] theorem State.raise_hist (s : State) (c : Cause) (n : Nat) : (s.raise c n).hist = (Config.lost s.freeCount).hist := rfl
@[simp] theorem State.raise_ctx (s : State) (c : Cause) (n : Nat) : (s.raise c n).ctx = Memory.ofList (Config.lost s.freeCount).ctx := rfl
@[simp] theorem State.raise_busy (s : State) (c : Cause) (n : Nat) : (s.raise c n).busy = s.busy := rfl
@[simp] theorem State.raise_params (s : State) (c : Cause) (n : Nat) : (s.raise c n).params = s.params := rfl
@[simp] theorem State.raise_input (s : State) (c : Cause) (n : Nat) : (s.raise c n).input = s.input := rfl
@[simp] theorem State.raise_sink (s : State) (c : Cause) (n : Nat) : (s.raise c n).sink = s.sink := rfl
@[simp] theorem State.raise_calls (s : State) (c : Cause) (n : Nat) : (s.raise c n).calls = s.calls := rfl
@[simp] theorem State.raise_responses (s : State) (c : Cause) (n : Nat) : (s.raise c n).responses = s.responses ++ [{ kind := .fault, value := c.code.zeroExtend 64 }] := rfl
@[simp] theorem State.raise_host (s : State) (c : Cause) (n : Nat) : (s.raise c n).host = s.host := rfl
@[simp] theorem State.raise_freeCount (s : State) (c : Cause) (n : Nat) : (s.raise c n).freeCount = s.freeCount + 1 := rfl
@[simp] theorem State.raise_P (s : State) (c : Cause) (n : Nat) : (s.raise c n).P = s.P := rfl
@[simp] theorem State.raise_K (s : State) (c : Cause) (n : Nat) : (s.raise c n).K = s.K := rfl
@[simp] theorem State.raise_SL (s : State) (c : Cause) (n : Nat) : (s.raise c n).SL = s.SL := rfl
@[simp] theorem State.raise_ESC (s : State) (c : Cause) (n : Nat) : (s.raise c n).ESC = s.ESC := rfl

/-! ### Reset (70_reset_and_hazards.md R260) -/

@[simp] theorem State.resetBlock_crP (s : State) (i : List InAnswer) (k : List OutAnswer) : (s.resetBlock i k).crP = State.reset.crP := rfl
@[simp] theorem State.resetBlock_crK (s : State) (i : List InAnswer) (k : List OutAnswer) : (s.resetBlock i k).crK = State.reset.crK := rfl
@[simp] theorem State.resetBlock_crSl (s : State) (i : List InAnswer) (k : List OutAnswer) : (s.resetBlock i k).crSl = State.reset.crSl := rfl
@[simp] theorem State.resetBlock_crEsc (s : State) (i : List InAnswer) (k : List OutAnswer) : (s.resetBlock i k).crEsc = State.reset.crEsc := rfl
@[simp] theorem State.resetBlock_phase (s : State) (i : List InAnswer) (k : List OutAnswer) : (s.resetBlock i k).phase = State.reset.phase := rfl
@[simp] theorem State.resetBlock_mode (s : State) (i : List InAnswer) (k : List OutAnswer) : (s.resetBlock i k).mode = State.reset.mode := rfl
@[simp] theorem State.resetBlock_codeValid (s : State) (i : List InAnswer) (k : List OutAnswer) : (s.resetBlock i k).codeValid = State.reset.codeValid := rfl
@[simp] theorem State.resetBlock_eos (s : State) (i : List InAnswer) (k : List OutAnswer) : (s.resetBlock i k).eos = State.reset.eos := rfl
@[simp] theorem State.resetBlock_faultCause (s : State) (i : List InAnswer) (k : List OutAnswer) : (s.resetBlock i k).faultCause = State.reset.faultCause := rfl
@[simp] theorem State.resetBlock_faultInfo (s : State) (i : List InAnswer) (k : List OutAnswer) : (s.resetBlock i k).faultInfo = State.reset.faultInfo := rfl
@[simp] theorem State.resetBlock_tailbits (s : State) (i : List InAnswer) (k : List OutAnswer) : (s.resetBlock i k).tailbits = State.reset.tailbits := rfl
@[simp] theorem State.resetBlock_nctx (s : State) (i : List InAnswer) (k : List OutAnswer) : (s.resetBlock i k).nctx = State.reset.nctx := rfl
@[simp] theorem State.resetBlock_low (s : State) (i : List InAnswer) (k : List OutAnswer) : (s.resetBlock i k).low = State.reset.low := rfl
@[simp] theorem State.resetBlock_high (s : State) (i : List InAnswer) (k : List OutAnswer) : (s.resetBlock i k).high = State.reset.high := rfl
@[simp] theorem State.resetBlock_code (s : State) (i : List InAnswer) (k : List OutAnswer) : (s.resetBlock i k).code = State.reset.code := rfl
@[simp] theorem State.resetBlock_pending (s : State) (i : List InAnswer) (k : List OutAnswer) : (s.resetBlock i k).pending = State.reset.pending := rfl
@[simp] theorem State.resetBlock_wbuf (s : State) (i : List InAnswer) (k : List OutAnswer) : (s.resetBlock i k).wbuf = State.reset.wbuf := rfl
@[simp] theorem State.resetBlock_wcnt (s : State) (i : List InAnswer) (k : List OutAnswer) : (s.resetBlock i k).wcnt = State.reset.wcnt := rfl
@[simp] theorem State.resetBlock_rbuf (s : State) (i : List InAnswer) (k : List OutAnswer) : (s.resetBlock i k).rbuf = State.reset.rbuf := rfl
@[simp] theorem State.resetBlock_rcnt (s : State) (i : List InAnswer) (k : List OutAnswer) : (s.resetBlock i k).rcnt = State.reset.rcnt := rfl
@[simp] theorem State.resetBlock_hist (s : State) (i : List InAnswer) (k : List OutAnswer) : (s.resetBlock i k).hist = State.reset.hist := rfl
@[simp] theorem State.resetBlock_ctx (s : State) (i : List InAnswer) (k : List OutAnswer) : (s.resetBlock i k).ctx = State.reset.ctx := rfl
@[simp] theorem State.resetBlock_busy (s : State) (i : List InAnswer) (k : List OutAnswer) : (s.resetBlock i k).busy = State.reset.busy := rfl
@[simp] theorem State.resetBlock_params (s : State) (i : List InAnswer) (k : List OutAnswer) : (s.resetBlock i k).params = s.params := rfl
@[simp] theorem State.resetBlock_input (s : State) (i : List InAnswer) (k : List OutAnswer) : (s.resetBlock i k).input = i := rfl
@[simp] theorem State.resetBlock_sink (s : State) (i : List InAnswer) (k : List OutAnswer) : (s.resetBlock i k).sink = k := rfl
@[simp] theorem State.resetBlock_calls (s : State) (i : List InAnswer) (k : List OutAnswer) : (s.resetBlock i k).calls = s.calls := rfl
@[simp] theorem State.resetBlock_responses (s : State) (i : List InAnswer) (k : List OutAnswer) : (s.resetBlock i k).responses = s.responses := rfl
@[simp] theorem State.resetBlock_host (s : State) (i : List InAnswer) (k : List OutAnswer) : (s.resetBlock i k).host = s.host := rfl
@[simp] theorem State.resetBlock_freeCount (s : State) (i : List InAnswer) (k : List OutAnswer) : (s.resetBlock i k).freeCount = s.freeCount := rfl

/-! ### The history update (42_context_tree.md R146) -/

/-- The history update changes the history alone. -/
theorem State.pushHistory_eq (s : State) (sym : Nat) :
    s.pushHistory sym = { s with hist := (s.pushHistory sym).hist } := by
  simp only [State.pushHistory]; split <;> rfl

/-- The new history (R146): the symbol and the K - 1 most recent of the old entries. -/
theorem State.pushHistory_hist (s : State) (sym : Nat) :
    (s.pushHistory sym).hist =
      if s.K ≤ 0 then s.hist else sym :: s.hist.take (min s.hlen (s.K.toNat - 1)) := by
  simp only [State.pushHistory]
  split
  · rfl
  · have hk : s.K.toNat = (s.K.toNat - 1) + 1 := by omega
    simp only [State.hlen]
    rw [hk, List.take_succ_cons, Nat.add_sub_cancel, Nat.min_comm, List.take_eq_take_min]

end Sys2Proof.Machine
end

