-- ==== Sys2Proof/Laws/Coder.lean ====
section
/-! SUPPORT. What the range coder's steps can do (43_range_coder.md R160 to R175): what they leave alone, when they
complete, and the closed form of normalisation on both sides. -/

namespace Sys2Proof.Machine

/-! ### What the coder leaves alone -/

/-- `u` is `s` after encoding, or after trying to. -/
structure Encodes (s u : State) : Prop where
  same  : s.sansEnc = u.sansEnc
  calls : ∃ l, u.calls = s.calls ++ l ∧ ∀ c ∈ l, ∃ x a, c = .outByte x a

/-- `u` is `s` after decoding, or after trying to. -/
structure Decodes (s u : State) : Prop where
  same  : s.sansDec = u.sansDec
  calls : ∃ l, u.calls = s.calls ++ l ∧ ∀ c ∈ l, ∃ a, c = .inByte a

theorem Encodes.refl (s : State) : Encodes s s := ⟨rfl, [], by simp⟩
theorem Decodes.refl (s : State) : Decodes s s := ⟨rfl, [], by simp⟩

theorem Encodes.trans {a b c : State} (h1 : Encodes a b) (h2 : Encodes b c) : Encodes a c := by
  obtain ⟨l, hl, ha⟩ := h1.calls
  obtain ⟨m, hm, hb⟩ := h2.calls
  refine ⟨h1.same.trans h2.same, l ++ m, by rw [hm, hl, List.append_assoc], fun c hc => ?_⟩
  rcases List.mem_append.mp hc with h | h
  · exact ha c h
  · exact hb c h

theorem Decodes.trans {a b c : State} (h1 : Decodes a b) (h2 : Decodes b c) : Decodes a c := by
  obtain ⟨l, hl, ha⟩ := h1.calls
  obtain ⟨m, hm, hb⟩ := h2.calls
  refine ⟨h1.same.trans h2.same, l ++ m, by rw [hm, hl, List.append_assoc], fun c hc => ?_⟩
  rcases List.mem_append.mp hc with h | h
  · exact ha c h
  · exact hb c h

theorem Writes.encodes {s u : State} (h : Writes s u) : Encodes s u :=
  ⟨congrArg (fun s : State => { s with low := 0, high := 0, pending := 0 }) h.same, h.calls⟩

theorem Reads.decodes {s u : State} (h : Reads s u) : Decodes s u :=
  ⟨congrArg (fun s : State => { s with low := 0, high := 0, code := 0 }) h.same, h.calls⟩

theorem Encodes.setInterval (s : State) (l h : Nat) : Encodes s (s.setInterval l h) := ⟨rfl, [], by simp⟩
theorem Decodes.setInterval (s : State) (l h : Nat) : Decodes s (s.setInterval l h) := ⟨rfl, [], by simp⟩

theorem Encodes.mode {s u : State} (h : Encodes s u) : u.mode = s.mode := (congrArg State.mode h.same).symm
theorem Encodes.phase {s u : State} (h : Encodes s u) : u.phase = s.phase := (congrArg State.phase h.same).symm
theorem Encodes.codeValid {s u : State} (h : Encodes s u) : u.codeValid = s.codeValid := (congrArg State.codeValid h.same).symm
theorem Encodes.ctx {s u : State} (h : Encodes s u) : u.ctx = s.ctx := (congrArg State.ctx h.same).symm
theorem Encodes.hist {s u : State} (h : Encodes s u) : u.hist = s.hist := (congrArg State.hist h.same).symm
theorem Encodes.nctx {s u : State} (h : Encodes s u) : u.nctx = s.nctx := (congrArg State.nctx h.same).symm
theorem Encodes.params {s u : State} (h : Encodes s u) : u.params = s.params := (congrArg State.params h.same).symm
theorem Encodes.busy {s u : State} (h : Encodes s u) : u.busy = s.busy := (congrArg State.busy h.same).symm
theorem Encodes.responses {s u : State} (h : Encodes s u) : u.responses = s.responses := (congrArg State.responses h.same).symm
theorem Encodes.P {s u : State} (h : Encodes s u) : u.P = s.P := (congrArg State.P h.same).symm
theorem Encodes.K {s u : State} (h : Encodes s u) : u.K = s.K := (congrArg State.K h.same).symm
theorem Encodes.SL {s u : State} (h : Encodes s u) : u.SL = s.SL := (congrArg State.SL h.same).symm
theorem Encodes.ESC {s u : State} (h : Encodes s u) : u.ESC = s.ESC := (congrArg State.ESC h.same).symm
theorem Encodes.quarter {s u : State} (h : Encodes s u) : u.quarter = s.quarter := (congrArg State.quarter h.same).symm
theorem Encodes.LegalConfig {s u : State} (h : Encodes s u) : u.LegalConfig = s.LegalConfig := (congrArg State.LegalConfig h.same).symm
theorem Encodes.code {s u : State} (h : Encodes s u) : u.code = s.code := (congrArg State.code h.same).symm

theorem Decodes.mode {s u : State} (h : Decodes s u) : u.mode = s.mode := (congrArg State.mode h.same).symm
theorem Decodes.phase {s u : State} (h : Decodes s u) : u.phase = s.phase := (congrArg State.phase h.same).symm
theorem Decodes.codeValid {s u : State} (h : Decodes s u) : u.codeValid = s.codeValid := (congrArg State.codeValid h.same).symm
theorem Decodes.ctx {s u : State} (h : Decodes s u) : u.ctx = s.ctx := (congrArg State.ctx h.same).symm
theorem Decodes.hist {s u : State} (h : Decodes s u) : u.hist = s.hist := (congrArg State.hist h.same).symm
theorem Decodes.nctx {s u : State} (h : Decodes s u) : u.nctx = s.nctx := (congrArg State.nctx h.same).symm
theorem Decodes.params {s u : State} (h : Decodes s u) : u.params = s.params := (congrArg State.params h.same).symm
theorem Decodes.busy {s u : State} (h : Decodes s u) : u.busy = s.busy := (congrArg State.busy h.same).symm
theorem Decodes.responses {s u : State} (h : Decodes s u) : u.responses = s.responses := (congrArg State.responses h.same).symm
theorem Decodes.P {s u : State} (h : Decodes s u) : u.P = s.P := (congrArg State.P h.same).symm
theorem Decodes.K {s u : State} (h : Decodes s u) : u.K = s.K := (congrArg State.K h.same).symm
theorem Decodes.SL {s u : State} (h : Decodes s u) : u.SL = s.SL := (congrArg State.SL h.same).symm
theorem Decodes.ESC {s u : State} (h : Decodes s u) : u.ESC = s.ESC := (congrArg State.ESC h.same).symm
theorem Decodes.quarter {s u : State} (h : Decodes s u) : u.quarter = s.quarter := (congrArg State.quarter h.same).symm
theorem Decodes.LegalConfig {s u : State} (h : Decodes s u) : u.LegalConfig = s.LegalConfig := (congrArg State.LegalConfig h.same).symm
theorem Decodes.pending {s u : State} (h : Decodes s u) : u.pending = s.pending := (congrArg State.pending h.same).symm

theorem takeBit_decodes (f : Nat → Nat → Bool → Nat) (s : State) : Decodes s (takeBit f s).final :=
  Res.final_andThen Decodes (fun _ _ _ => Decodes.trans) (readCodeBit_reads s).decodes fun _ _ _ => ⟨rfl, [], by simp⟩

theorem emitBit_encodes (b : Bool) (s : State) : Encodes s (emitBit b s).final :=
  Res.final_andThen Encodes (fun _ _ _ => Encodes.trans) (writeBit_writes b s).encodes fun _ v _ =>
    Res.final_andThen Encodes (fun _ _ _ => Encodes.trans) (writeBits_writes _ _ v).encodes fun _ _ _ =>
      ⟨rfl, [], by simp⟩

theorem deferBit_encodes (s : State) : Encodes s (deferBit s).final := by
  unfold deferBit
  split
  · exact Encodes.refl s
  · exact ⟨rfl, [], by simp⟩

theorem stepE12_encodes {s : State} (hm : s.mode = .enc) : Encodes s (stepE12 s).final := by
  rw [stepE12, hm]
  exact Res.final_andThen Encodes (fun _ _ _ => Encodes.trans) (emitBit_encodes _ s) fun _ v _ =>
    Encodes.setInterval v _ _

theorem stepE3_encodes {s : State} (hm : s.mode = .enc) : Encodes s (stepE3 s).final := by
  rw [stepE3, hm]
  exact Res.final_andThen Encodes (fun _ _ _ => Encodes.trans) (deferBit_encodes s) fun _ v _ =>
    Encodes.setInterval v _ _

theorem stepE12_decodes {s : State} (hm : s.mode = .dec) : Decodes s (stepE12 s).final := by
  rw [stepE12, hm]
  exact Res.final_andThen Decodes (fun _ _ _ => Decodes.trans) (takeBit_decodes _ s) fun _ v _ =>
    Decodes.setInterval v _ _

theorem stepE3_decodes {s : State} (hm : s.mode = .dec) : Decodes s (stepE3 s).final := by
  rw [stepE3, hm]
  exact Res.final_andThen Decodes (fun _ _ _ => Decodes.trans) (takeBit_decodes _ s) fun _ v _ =>
    Decodes.setInterval v _ _

theorem final_done {α : Type} {r : Res α} {a : α} {v : State} (h : r = .done a v) : r.final = v := by rw [h]; rfl

theorem normalizeLoop_encodes : ∀ (fuel : Nat) (s : State), s.mode = .enc → Encodes s (normalizeLoop fuel s).final
  | 0, s, _ => Encodes.refl s
  | fuel + 1, s, hm => by
    rw [normalizeLoop]
    split
    · refine Res.final_andThen Encodes (fun _ _ _ => Encodes.trans) (stepE12_encodes hm) fun _ v hv => ?_
      have := stepE12_encodes hm
      rw [final_done hv] at this
      exact normalizeLoop_encodes fuel v (this.mode.trans hm)
    · split
      · refine Res.final_andThen Encodes (fun _ _ _ => Encodes.trans) (stepE3_encodes hm) fun _ v hv => ?_
        have := stepE3_encodes hm
        rw [final_done hv] at this
        exact normalizeLoop_encodes fuel v (this.mode.trans hm)
      · exact Encodes.refl s

theorem normalizeLoop_decodes : ∀ (fuel : Nat) (s : State), s.mode = .dec → Decodes s (normalizeLoop fuel s).final
  | 0, s, _ => Decodes.refl s
  | fuel + 1, s, hm => by
    rw [normalizeLoop]
    split
    · refine Res.final_andThen Decodes (fun _ _ _ => Decodes.trans) (stepE12_decodes hm) fun _ v hv => ?_
      have := stepE12_decodes hm
      rw [final_done hv] at this
      exact normalizeLoop_decodes fuel v (this.mode.trans hm)
    · split
      · refine Res.final_andThen Decodes (fun _ _ _ => Decodes.trans) (stepE3_decodes hm) fun _ v hv => ?_
        have := stepE3_decodes hm
        rw [final_done hv] at this
        exact normalizeLoop_decodes fuel v (this.mode.trans hm)
      · exact Decodes.refl s

theorem codeStep_encodes (t : TableRef) (sym : Nat) {s : State} (hm : s.mode = .enc) :
    Encodes s (codeStep t sym s).final := by
  unfold codeStep
  simp only
  split
  · exact Encodes.refl s
  · split
    · exact Encodes.refl s
    · exact (Encodes.setInterval s _ _).trans (normalizeLoop_encodes _ _ hm)

theorem codeStep_decodes (t : TableRef) (sym : Nat) {s : State} (hm : s.mode = .dec) :
    Decodes s (codeStep t sym s).final := by
  unfold codeStep
  simp only
  split
  · exact Decodes.refl s
  · split
    · exact Decodes.refl s
    · exact (Decodes.setInterval s _ _).trans (normalizeLoop_decodes _ _ hm)

theorem decodeWith_decodes (t : TableRef) {s : State} (hm : s.mode = .dec) : Decodes s (decodeWith t s).final := by
  unfold decodeWith
  simp only
  split
  · exact Decodes.refl s
  · split
    · exact Decodes.refl s
    · exact Res.final_andThen Decodes (fun _ _ _ => Decodes.trans) (codeStep_decodes t _ hm) fun _ v _ =>
        Decodes.refl v

theorem loadCode_decodes : ∀ (n : Nat) (s : State), Decodes s (loadCode n s).final
  | 0, s => Decodes.refl s
  | n + 1, s =>
    Res.final_andThen Decodes (fun _ _ _ => Decodes.trans) (takeBit_decodes _ s) fun _ v _ => loadCode_decodes n v

/-! ### Normalisation on the encoder's side -/

/-- `s` is `s0` after `a` E1/E2 steps and then `b` E3 steps of the encoder. -/
structure EncAt (s0 : State) (a b : Nat) (s : State) : Prop where
  norm    : NormAt s0.P s0.low.toNat s0.high.toNat a b s.low.toNat s.high.toNat
  pending : s.pending.toNat = (if a = 0 then s0.pending.toNat else 0) + b
  wrote   : Wrote (emitted s0.P a s0.low.toNat s0.pending.toNat)
              { s0 with low := s.low, high := s.high, pending := s.pending } s

theorem EncAt.P {s0 s : State} {a b : Nat} (h : EncAt s0 a b s) : s.P = s0.P :=
  (congrArg State.P h.wrote.same).symm

theorem EncAt.mode {s0 s : State} {a b : Nat} (h : EncAt s0 a b s) : s.mode = s0.mode :=
  (congrArg State.mode h.wrote.same).symm

theorem EncAt.start {s : State} (hlh : s.low.toNat ≤ s.high.toNat) (hh : s.high.toNat < 2 ^ s.P) : EncAt s 0 0 s :=
  ⟨NormAt.start hlh hh, by simp, Wrote.refl s⟩

theorem emitted_one (P l k : Nat) :
    emitted P 1 l k = l.testBit (P - 1) :: List.replicate k (!l.testBit (P - 1)) := by
  simp [emitted]

theorem emitted_succ (P a l k : Nat) (ha : 0 < a) :
    emitted P (a + 1) l k = emitted P a l k ++ [l.testBit (P - 1 - a)] := by
  obtain ⟨n, rfl⟩ : ∃ n, a = n + 1 := ⟨a - 1, by omega⟩
  simp only [emitted, List.range_succ, List.map_append, List.map_cons, List.map_nil, List.cons_append,
    List.append_assoc]
  rw [show P - 1 - (n + 1) = P - 2 - n by omega]

theorem emitBit_done {b : Bool} {s u : State} (h : emitBit b s = .done () u) :
    u.pending = 0 ∧ Wrote (b :: List.replicate s.pending.toNat (!b)) { s with pending := 0 } u := by
  obtain ⟨_, v, hv, h⟩ := Res.andThen_eq_done h
  obtain ⟨_, w, hw, h⟩ := Res.andThen_eq_done h
  cases h
  have h1 := writeBit_done hv
  have hp : v.pending = s.pending := (congrArg State.pending h1.same).symm
  have h2 := h1.trans (writeBits_done hw)
  rw [hp] at h2
  exact ⟨rfl, congrArg (fun s : State => { s with pending := 0 }) h2.same, h2.stream, h2.good, h2.bytes, h2.wcnt,
    h2.wbuf⟩

theorem emitBit_total (b : Bool) {s : State} (g : s.sinkGood) : ∃ u, emitBit b s = .done () u := by
  obtain ⟨v, hv⟩ := writeBit_total b g
  obtain ⟨u, hu⟩ := writeBits_total (!b) v.pending.toNat ((writeBit_done hv).good g)
  rw [emitBit, hv, Res.done_andThen, hu]
  exact ⟨_, rfl⟩

/-- Writing the coder registers does not disturb what was written. -/
theorem Wrote.setCoder {x : List Bool} {s u : State} (h : Wrote x s u) (l h' p : Word) :
    Wrote x { s with low := l, high := h', pending := p } { u with low := l, high := h', pending := p } :=
  ⟨congrArg (fun s : State => { s with low := l, high := h', pending := p }) h.same, h.stream, h.good, h.bytes, h.wcnt,
    h.wbuf⟩

theorem toNat_ofNat32 {x P : Nat} (hP : P ≤ 32) (h : x < 2 ^ P) : (BitVec.ofNat 32 x).toNat = x := by
  rw [BitVec.toNat_ofNat, Nat.mod_eq_of_lt (Nat.lt_of_lt_of_le h (Nat.pow_le_pow_right (by omega) hP))]

theorem EncAt.e12 {s0 s u : State} {a : Nat} (hP : 2 ≤ s0.P) (hP' : s0.P ≤ 32) (hm : s0.mode = .enc)
    (h : EncAt s0 a 0 s) (ht : sameTop s.P s.low.toNat s.high.toNat = true) (hd : stepE12 s = .done () u) :
    EncAt s0 (a + 1) 0 u := by
  rw [stepE12, h.mode, hm] at hd
  obtain ⟨_, v, hv, hd⟩ := Res.andThen_eq_done hd
  simp only at hv
  cases hd
  obtain ⟨hp, hw⟩ := emitBit_done hv
  have hPs := h.P
  have hvP : v.P = s0.P := ((congrArg State.P hw.same).symm).trans hPs
  have hvl : v.low = s.low := (congrArg State.low hw.same).symm
  have hvh : v.high = s.high := (congrArg State.high hw.same).symm
  rw [hPs] at ht
  obtain ⟨hn, hb⟩ := h.norm.e12 hP ht
  have hlt := hn.lt
  have hle := hn.le
  rw [hPs, hb] at hw
  have hsp := h.pending
  refine ⟨?_, ?_, ?_⟩
  · simp only [State.shiftInterval12, State.setInterval_low, State.setInterval_high, hvP, hvl, hvh]
    rw [toNat_ofNat32 hP' hlt, toNat_ofNat32 hP' (Nat.lt_of_le_of_lt hle hlt)]
    exact hn
  · simp only [State.shiftInterval12, State.setInterval_pending, hp, if_neg (Nat.succ_ne_zero a)]
    rfl
  · have w1 := h.wrote.setCoder v.shiftInterval12.low v.shiftInterval12.high v.shiftInterval12.pending
    have w2 := hw.setCoder v.shiftInterval12.low v.shiftInterval12.high v.shiftInterval12.pending
    have w3 := w1.trans w2
    rcases Nat.eq_zero_or_pos a with rfl | ha
    · rw [emitted_one, Nat.sub_zero] at *
      simp only [if_true, Nat.add_zero] at hsp
      rw [hsp] at w3
      exact w3
    · rw [emitted_succ _ _ _ _ ha]
      rw [if_neg (by omega)] at hsp
      rw [hsp] at w3
      exact w3

theorem EncAt.e3 {s0 s u : State} {a b : Nat} (hP : 2 ≤ s0.P) (hP' : s0.P ≤ 32) (hm : s0.mode = .enc)
    (h : EncAt s0 a b s) (ht : sameTop s.P s.low.toNat s.high.toNat = false)
    (hs : straddles s.P s.low.toNat s.high.toNat = true) (hd : stepE3 s = .done () u) :
    EncAt s0 a (b + 1) u := by
  rw [stepE3, h.mode, hm] at hd
  obtain ⟨_, v, hv, hd⟩ := Res.andThen_eq_done hd
  simp only [deferBit] at hv
  cases hd
  split at hv
  · cases hv
  next hmax =>
  cases hv
  have hPs := h.P
  rw [hPs] at ht hs
  have hn := h.norm.e3 hP ht hs
  have hlt := hn.lt
  have hle := hn.le
  refine ⟨?_, ?_, ?_⟩
  · have e : State.P { s with pending := s.pending + 1 } = s0.P := hPs
    simp only [State.shiftInterval3, State.setInterval_low, State.setInterval_high, e]
    rw [toNat_ofNat32 hP' hlt, toNat_ofNat32 hP' (Nat.lt_of_le_of_lt hle hlt)]
    exact hn
  · have := s.pending.isLt
    simp only [State.shiftInterval3, State.setInterval_pending, BitVec.toNat_add]
    rw [show BitVec.toNat (1 : Word) = 1 from rfl]
    simp only [Config.pendMax] at hmax
    rw [Nat.mod_eq_of_lt (by omega), h.pending, Nat.add_assoc]
  · exact h.wrote.setCoder _ _ _

/-- The loop of `Normalize` on the encoder's side ends at rest in the closed form (R165, R177). -/
theorem normalizeLoop_enc_done {s0 u : State} (hP : 2 ≤ s0.P) (hP' : s0.P ≤ 32) (hm : s0.mode = .enc) :
    ∀ (fuel a b : Nat) (s : State), EncAt s0 a b s → s0.P < a + b + fuel → normalizeLoop fuel s = .done () u →
      ∃ a' b', EncAt s0 a' b' u ∧ RestInterval s0.P u.low.toNat u.high.toNat
  | 0, a, b, s, h, hf, _ => by
    have := h.norm.steps.1
    omega
  | fuel + 1, a, b, s, h, hf, hd => by
    have hPs := h.P
    rw [normalizeLoop] at hd
    split at hd
    · next ht =>
      have hb : b = 0 := by
        by_contra hb
        have := h.norm.topsApart hP (by omega)
        rw [hPs, this] at ht
        cases ht
      subst hb
      obtain ⟨_, v, hv, hd⟩ := Res.andThen_eq_done hd
      exact normalizeLoop_enc_done hP hP' hm fuel (a + 1) 0 v (h.e12 hP hP' hm ht hv) (by omega) hd
    · next ht =>
      split at hd
      · next hs =>
        obtain ⟨_, v, hv, hd⟩ := Res.andThen_eq_done hd
        exact normalizeLoop_enc_done hP hP' hm fuel a (b + 1) v
          (h.e3 hP hP' hm (Bool.eq_false_iff.mpr ht) hs hv) (by omega) hd
      · next hs =>
        cases hd
        rw [hPs] at ht hs
        exact ⟨a, b, h, h.norm.rest hP (Bool.eq_false_iff.mpr ht) (Bool.eq_false_iff.mpr hs)⟩

/-- `Normalize` completes on the encoder's side where the sink takes every byte and `pending` has room (R165, R166). -/
theorem normalizeLoop_enc_total {s0 : State} (hP : 2 ≤ s0.P) (hP' : s0.P ≤ 32) (hm : s0.mode = .enc) (g : s0.sinkGood)
    (hroom : s0.pending.toNat + s0.P ≤ Config.pendMax) :
    ∀ (fuel a b : Nat) (s : State), EncAt s0 a b s → ∃ u, normalizeLoop fuel s = .done () u
  | 0, _, _, s, _ => ⟨s, rfl⟩
  | fuel + 1, a, b, s, h => by
    have hPs := h.P
    rw [normalizeLoop]
    split
    · next ht =>
      have hb : b = 0 := by
        by_contra hb
        have := h.norm.topsApart hP (by omega)
        rw [hPs, this] at ht
        cases ht
      subst hb
      obtain ⟨v, hv⟩ := emitBit_total (s.low.toNat.testBit (s.P - 1)) (h.wrote.good g)
      have hv' : stepE12 s = .done () v.shiftInterval12 := by
        rw [stepE12, h.mode, hm]
        simp only [hv, Res.done_andThen]
      rw [hv']
      exact normalizeLoop_enc_total hP hP' hm g hroom fuel (a + 1) 0 _ (h.e12 hP hP' hm ht hv')
    · next ht =>
      split
      · next hs =>
        have hsteps := h.norm.steps.1
        have hp : s.pending.toNat ≠ Config.pendMax := by
          have hn := h.norm.e3 hP (by rw [← hPs]; exact Bool.eq_false_iff.mpr ht) (by rw [← hPs]; exact hs)
          have := (hn.steps).2 (by omega)
          rw [h.pending]
          split <;> omega
        have hv' : stepE3 s = .done () ({ s with pending := s.pending + 1 } : State).shiftInterval3 := by
          have hde : ∀ v, deferBit s = .done () v → stepE3 s = .done () v.shiftInterval3 := fun v hv => by
            rw [stepE3, h.mode, hm]
            simp only [hv, Res.done_andThen]
          exact hde _ (if_neg hp)
        rw [hv']
        exact normalizeLoop_enc_total hP hP' hm g hroom fuel a (b + 1) _
          (h.e3 hP hP' hm (Bool.eq_false_iff.mpr ht) hs hv')
      · exact ⟨s, rfl⟩

/-! ### Bits as numbers -/

theorem numOfBits_append (l : List Bool) (b : Bool) : numOfBits (l ++ [b]) = 2 * numOfBits l + b.toNat := by
  simp [numOfBits]

theorem numOfBits_lt (l : List Bool) : numOfBits l < 2 ^ l.length := by
  induction l using List.reverseRecOn with
  | nil => decide
  | append_singleton l b ih =>
    rw [numOfBits_append, List.length_append, List.length_singleton, pow_succ]
    have := Bool.toNat_lt b
    omega

theorem State.length_codeBits (s : State) (n : Nat) : (s.codeBits n).length = n := by
  simp [State.codeBits]

theorem State.codeBits_succ (s : State) (n : Nat) :
    s.codeBits (n + 1) = s.codeBits n ++ [(s.bitsLeft.drop n).headD false] := by
  unfold State.codeBits
  generalize s.bitsLeft = l
  induction n generalizing l with
  | zero => cases l <;> simp
  | succ n ih =>
    cases l with
    | nil =>
      simp only [List.nil_append, List.drop_nil, List.headD_nil, List.take_replicate, Nat.min_self]
      exact List.replicate_succ'
    | cons b l =>
      have := ih l
      have e : ∀ m k : Nat, (b :: l ++ List.replicate (m + 1) false).take (k + 1) =
          b :: (l ++ List.replicate (m + 1) false).take k := fun _ _ => rfl
      have r : ∀ k : Nat, (l ++ List.replicate (k + 1) false).take k = (l ++ List.replicate k false).take k := by
        intro k
        rw [List.replicate_succ', ← List.append_assoc, List.take_append_of_le_length]
        simp
      rw [e, e, r (n + 1), this, r n]
      rfl

/-! ### Normalisation on the decoder's side -/

/-- The shift of E1/E2 keeps `code` between the bounds (R22, R168). -/
theorem shiftE12_between {P L C H : Nat} (b : Bool) (hP : 2 ≤ P) (h1 : L ≤ C) (h2 : C ≤ H) (h3 : H < 2 ^ P)
    (ht : sameTop P L H = true) :
    shiftE12 P L false ≤ shiftE12 P C b ∧ shiftE12 P C b ≤ shiftE12 P H true := by
  obtain ⟨p, rfl⟩ : ∃ p, P = p + 1 := ⟨P - 1, by omega⟩
  have hP2 : 2 ^ (p + 1) = 2 * 2 ^ p := by rw [pow_succ]; omega
  have hQ : 0 < 2 ^ p := Nat.two_pow_pos p
  rw [sameTop, testBit_top_div (by omega) (by omega), testBit_top_div (by omega) h3] at ht
  have sh : ∀ x, (x * 2) % 2 ^ (p + 1) = 2 * (x % 2 ^ p) := fun x => by
    rw [hP2, Nat.mul_comm x, Nat.mul_mod_mul_left]
  simp only [shiftE12, sh]
  rw [show p + 1 - 1 = p from rfl] at ht
  have b1 : L / 2 ^ p < 2 := Nat.div_lt_of_lt_mul (by omega)
  have b2 : H / 2 ^ p < 2 := Nat.div_lt_of_lt_mul (by omega)
  have m1 := Nat.div_le_div_right (c := 2 ^ p) h1
  have m2 := Nat.div_le_div_right (c := 2 ^ p) h2
  have d1 := Nat.div_add_mod L (2 ^ p)
  have d2 := Nat.div_add_mod H (2 ^ p)
  have d3 := Nat.div_add_mod C (2 ^ p)
  have hb := Bool.toNat_lt b
  have ht' : L / 2 ^ p = C / 2 ^ p ∧ C / 2 ^ p = H / 2 ^ p := by
    simp only [beq_iff_eq, decide_eq_decide] at ht
    generalize L / 2 ^ p = x at *
    generalize H / 2 ^ p = y at *
    generalize C / 2 ^ p = z at *
    omega
  rw [← ht'.2, ← ht'.1] at d2
  rw [← ht'.1] at d3
  simp only [Bool.toNat_false, Bool.toNat_true]
  omega

/-- The shift of E3 as arithmetic, and that it keeps `code` between the bounds (R22, R169). -/
theorem shiftE3_between {P L C H : Nat} (b : Bool) (hP : 2 ≤ P) (h1 : L ≤ C) (h2 : C ≤ H) (h3 : H < 2 ^ P)
    (ht : sameTop P L H = false) (hs : straddles P L H = true) :
    shiftE3Code P C b = 2 * C - 2 ^ (P - 1) + b.toNat ∧ 2 ^ (P - 2) ≤ L ∧
      shiftE3 P L false ≤ shiftE3Code P C b ∧ shiftE3Code P C b ≤ shiftE3 P H true := by
  obtain ⟨p, rfl⟩ : ∃ p, P = p + 2 := ⟨P - 2, by omega⟩
  have h4 : 2 ^ (p + 2) = 4 * 2 ^ p := by rw [pow_add]; omega
  have h22 : 2 ^ (p + 1) = 2 * 2 ^ p := by rw [pow_succ]; omega
  have e1 : p + 2 - 1 = p + 1 := rfl
  have e2 : p + 2 - 2 = p := rfl
  have hQ : 0 < 2 ^ p := Nat.two_pow_pos p
  have hL4 : L < 4 * 2 ^ p := by omega
  have hH4 : H < 4 * 2 ^ p := by omega
  have hC4 : C < 4 * 2 ^ p := by omega
  rw [sameTop, e1, testBit_top hL4, testBit_top hH4] at ht
  rw [straddles, e2, testBit_second hL4, testBit_second hH4] at hs
  simp only [beq_eq_false_iff_ne, ne_eq, decide_eq_decide, Bool.and_eq_true, decide_eq_true_eq, Bool.not_eq_true',
    decide_eq_false_iff_not] at ht hs
  have hb := Bool.toNat_lt b
  have hc : shiftE3Code (p + 2) C b = 2 * C - 2 ^ (p + 1) + b.toNat := by
    rw [shiftE3Code, e1, testBit_top hC4]
    rcases Nat.lt_or_ge C (2 * 2 ^ p) with hlt | hge
    · have : C * 2 % 2 ^ (p + 1) = 2 * C - 2 ^ (p + 1) := by
        rw [h22, Nat.mod_eq_sub_mod (by omega), Nat.mod_eq_of_lt (by omega)]
        omega
      rw [this, decide_eq_false (by omega)]
      simp
    · have : C * 2 % 2 ^ (p + 1) = 2 * C - 2 * 2 ^ (p + 1) := by
        rw [h22, Nat.mod_eq_sub_mod (by omega), Nat.mod_eq_sub_mod (by omega), Nat.mod_eq_of_lt (by omega)]
        omega
      rw [this, decide_eq_true (by omega)]
      simp only [Bool.toNat_true]
      omega
  rw [hc]
  simp only [shiftE3, e1, e2, h22, Bool.toNat_false, Bool.toNat_true]
  have c1 : 2 ^ p ≤ L ∧ 2 * 2 ^ p ≤ H := by omega
  refine ⟨trivial, c1.1, ?_, ?_⟩ <;> omega

/-- `s` is `s0` after `a` E1/E2 steps and then `b` E3 steps of the decoder. -/
structure DecAt (s0 : State) (a b : Nat) (s : State) : Prop where
  norm   : NormAt s0.P s0.low.toNat s0.high.toNat a b s.low.toNat s.high.toNat
  inside : s.low.toNat ≤ s.code.toNat ∧ s.code.toNat ≤ s.high.toNat
  above  : s0.low.toNat * 2 ^ a % 2 ^ s0.P ≤
             s0.code.toNat * 2 ^ a % 2 ^ s0.P + numOfBits ((s0.codeBits (a + b)).take a)
  code   : s.code.toNat =
             (s0.code.toNat * 2 ^ a % 2 ^ s0.P + numOfBits ((s0.codeBits (a + b)).take a)) * 2 ^ b -
               2 ^ (s0.P - 1) * (2 ^ b - 1) + numOfBits ((s0.codeBits (a + b)).drop a)
  took   : Took (a + b) { s0 with low := s.low, high := s.high, code := s.code } s

theorem DecAt.P {s0 s : State} {a b : Nat} (h : DecAt s0 a b s) : s.P = s0.P :=
  (congrArg State.P h.took.reads.same).symm

theorem DecAt.mode {s0 s : State} {a b : Nat} (h : DecAt s0 a b s) : s.mode = s0.mode :=
  (congrArg State.mode h.took.reads.same).symm

theorem DecAt.start {s : State} (h1 : s.low.toNat ≤ s.code.toNat) (h2 : s.code.toNat ≤ s.high.toNat)
    (hh : s.high.toNat < 2 ^ s.P) : DecAt s 0 0 s := by
  refine ⟨NormAt.start (by omega) hh, ⟨h1, h2⟩, ?_, ?_, Took.refl s⟩
  · simp only [pow_zero, Nat.mul_one]
    rw [Nat.mod_eq_of_lt (by omega), Nat.mod_eq_of_lt (by omega)]
    omega
  · simp [State.codeBits, numOfBits, Nat.mod_eq_of_lt (Nat.lt_of_le_of_lt h2 hh)]

theorem Took.setCoder {n : Nat} {s u : State} (h : Took n s u) (l h' c : Word) :
    Took n { s with low := l, high := h', code := c } { u with low := l, high := h', code := c } :=
  ⟨⟨congrArg (fun s : State => { s with low := l, high := h', code := c }) h.reads.same, h.reads.calls⟩, h.left,
    h.good, h.tail, ⟨h.reader.rbuf, h.reader.rcnt, h.reader.eos, h.reader.input, h.reader.calls⟩⟩

theorem DecAt.e12 {s0 s u : State} {a : Nat} (hP : 2 ≤ s0.P) (hP' : s0.P ≤ 32) (hm : s0.mode = .dec)
    (h : DecAt s0 a 0 s) (ht : sameTop s.P s.low.toNat s.high.toNat = true) (hd : stepE12 s = .done () u) :
    DecAt s0 (a + 1) 0 u := by
  rw [stepE12, h.mode, hm] at hd
  obtain ⟨_, v, hv, hd⟩ := Res.andThen_eq_done hd
  simp only at hv
  cases hd
  obtain ⟨b, w, hw, hv⟩ := Res.andThen_eq_done hv
  cases hv
  obtain ⟨hb, hk⟩ := readCodeBit_done hw
  have hPs := h.P
  have hwP : w.P = s0.P := ((congrArg State.P hk.reads.same).symm).trans hPs
  have hwl : w.low = s.low := (congrArg State.low hk.reads.same).symm
  have hwh : w.high = s.high := (congrArg State.high hk.reads.same).symm
  have hwc : w.code = s.code := (congrArg State.code hk.reads.same).symm
  have hleft := h.took.left
  rw [hPs] at ht
  obtain ⟨hn, -⟩ := h.norm.e12 hP ht
  have hbt := shiftE12_between b hP h.inside.1 h.inside.2 h.norm.lt ht
  have hlt := hn.lt
  have hle := hn.le
  have hroom := h.norm.room hP ht
  have e1 : (State.setCode w (shiftE12 w.P w.code.toNat b)).P = s0.P := hwP
  have f1 : (State.shiftInterval12 (State.setCode w (shiftE12 w.P w.code.toNat b))).low.toNat =
      shiftE12 s0.P s.low.toNat false := by
    simp only [State.shiftInterval12, State.setInterval_low, e1, State.setCode_low, hwl]
    exact toNat_ofNat32 hP' (Nat.lt_of_le_of_lt hle hlt)
  have f2 : (State.shiftInterval12 (State.setCode w (shiftE12 w.P w.code.toNat b))).high.toNat =
      shiftE12 s0.P s.high.toNat true := by
    simp only [State.shiftInterval12, State.setInterval_high, e1, State.setCode_high, hwh]
    exact toNat_ofNat32 hP' hlt
  have f3 : (State.shiftInterval12 (State.setCode w (shiftE12 w.P w.code.toNat b))).code.toNat =
      shiftE12 s0.P s.code.toNat b := by
    simp only [State.shiftInterval12, State.setInterval_code, State.setCode_code, hwc, hwP]
    exact toNat_ofNat32 hP' (by omega)
  have hbits : s0.codeBits (a + 1) = s0.codeBits a ++ [b] := by
    rw [State.codeBits_succ, hb, hleft]
    rfl
  have hlen := s0.length_codeBits a
  have hN := numOfBits_lt (s0.codeBits a)
  rw [hlen] at hN
  have hcode := h.code
  simp only [Nat.add_zero, pow_zero, Nat.mul_one, Nat.sub_self, Nat.mul_zero, Nat.sub_zero,
    List.take_of_length_le (Nat.le_of_eq hlen), List.drop_of_length_le (Nat.le_of_eq hlen)] at hcode
  rw [show numOfBits [] = 0 from rfl, Nat.add_zero] at hcode
  have hP2 : 2 ^ s0.P = 2 ^ (a + 1) * 2 ^ (s0.P - (a + 1)) := by rw [← pow_add]; congr 1; omega
  -- the bits shifted in stay below the bits shifted out
  have hmod : s0.code.toNat * 2 ^ a % 2 ^ s0.P = s0.code.toNat % 2 ^ (s0.P - a) * 2 ^ a := mul_pow_mod (by omega)
  have hmod1 : s0.code.toNat * 2 ^ (a + 1) % 2 ^ s0.P = s0.code.toNat % 2 ^ (s0.P - (a + 1)) * 2 ^ (a + 1) :=
    mul_pow_mod (by omega)
  have hnew : shiftE12 s0.P s.code.toNat b =
      s0.code.toNat * 2 ^ (a + 1) % 2 ^ s0.P + (2 * numOfBits (s0.codeBits a) + b.toNat) := by
    rw [shiftE12, hcode, hmod1]
    have e : (s0.code.toNat * 2 ^ a % 2 ^ s0.P + numOfBits (s0.codeBits a)) * 2 % 2 ^ s0.P =
        s0.code.toNat % 2 ^ (s0.P - (a + 1)) * 2 ^ (a + 1) + 2 * numOfBits (s0.codeBits a) := by
      rw [Nat.add_mul, Nat.add_mod, Nat.mod_mul_mod, Nat.mul_assoc, ← pow_succ, hmod1]
      have hm1 : s0.code.toNat % 2 ^ (s0.P - (a + 1)) < 2 ^ (s0.P - (a + 1)) := Nat.mod_lt _ (Nat.two_pow_pos _)
      generalize s0.code.toNat % 2 ^ (s0.P - (a + 1)) = r at *
      have hb2 : 2 ^ (a + 1) = 2 * 2 ^ a := by rw [pow_succ]; omega
      have : (r + 1) * 2 ^ (a + 1) ≤ 2 ^ (s0.P - (a + 1)) * 2 ^ (a + 1) := Nat.mul_le_mul_right _ hm1
      rw [Nat.add_mul, Nat.mul_comm (2 ^ (s0.P - (a + 1))), ← hP2] at this
      rw [Nat.mul_comm (numOfBits _) 2, Nat.mod_eq_of_lt (show 2 * numOfBits (s0.codeBits a) < 2 ^ s0.P by omega),
        Nat.mod_eq_of_lt (by omega)]
    rw [e]
    omega
  refine ⟨?_, ?_, ?_, ?_, ?_⟩
  · rw [f1, f2]
    exact hn
  · rw [f1, f2, f3]
    exact hbt
  · have := hbt.1
    rw [hnew, show shiftE12 s0.P s.low.toNat false = _ from hn.unshifted.1] at this
    rw [Nat.add_zero, hbits, List.take_of_length_le (by rw [List.length_append, hlen]; rfl), numOfBits_append]
    exact this
  · rw [f3, hnew, Nat.add_zero, hbits, List.take_of_length_le (by rw [List.length_append, hlen]; rfl),
      List.drop_of_length_le (by rw [List.length_append, hlen]; rfl), numOfBits_append]
    simp [numOfBits]
  · exact (h.took.setCoder _ _ _).trans (hk.setCoder _ _ _)

theorem DecAt.e3 {s0 s u : State} {a b : Nat} (hP : 2 ≤ s0.P) (hP' : s0.P ≤ 32) (hm : s0.mode = .dec)
    (h : DecAt s0 a b s) (ht : sameTop s.P s.low.toNat s.high.toNat = false)
    (hs : straddles s.P s.low.toNat s.high.toNat = true) (hd : stepE3 s = .done () u) :
    DecAt s0 a (b + 1) u := by
  rw [stepE3, h.mode, hm] at hd
  obtain ⟨_, v, hv, hd⟩ := Res.andThen_eq_done hd
  simp only at hv
  cases hd
  obtain ⟨x, w, hw, hv⟩ := Res.andThen_eq_done hv
  cases hv
  obtain ⟨hb, hk⟩ := readCodeBit_done hw
  have hPs := h.P
  have hwP : w.P = s0.P := ((congrArg State.P hk.reads.same).symm).trans hPs
  have hwl : w.low = s.low := (congrArg State.low hk.reads.same).symm
  have hwh : w.high = s.high := (congrArg State.high hk.reads.same).symm
  have hwc : w.code = s.code := (congrArg State.code hk.reads.same).symm
  have hleft := h.took.left
  rw [hPs] at ht hs
  have hn := h.norm.e3 hP ht hs
  obtain ⟨hc3, hq, hbt⟩ := shiftE3_between x hP h.inside.1 h.inside.2 h.norm.lt ht hs
  have hlt := hn.lt
  have hle := hn.le
  have e1 : (State.setCode w (shiftE3Code w.P w.code.toNat x)).P = s0.P := hwP
  have f1 : (State.shiftInterval3 (State.setCode w (shiftE3Code w.P w.code.toNat x))).low.toNat =
      shiftE3 s0.P s.low.toNat false := by
    simp only [State.shiftInterval3, State.setInterval_low, e1, State.setCode_low, hwl]
    exact toNat_ofNat32 hP' (Nat.lt_of_le_of_lt hle hlt)
  have f2 : (State.shiftInterval3 (State.setCode w (shiftE3Code w.P w.code.toNat x))).high.toNat =
      shiftE3 s0.P s.high.toNat true := by
    simp only [State.shiftInterval3, State.setInterval_high, e1, State.setCode_high, hwh]
    exact toNat_ofNat32 hP' hlt
  have f3 : (State.shiftInterval3 (State.setCode w (shiftE3Code w.P w.code.toNat x))).code.toNat =
      shiftE3Code s0.P s.code.toNat x := by
    simp only [State.shiftInterval3, State.setInterval_code, State.setCode_code, hwc, hwP]
    exact toNat_ofNat32 hP' (by omega)
  have hbits : s0.codeBits (a + (b + 1)) = s0.codeBits (a + b) ++ [x] := by
    rw [← Nat.add_assoc, State.codeBits_succ, hb, hleft]
    rfl
  have hlen := s0.length_codeBits (a + b)
  have htake : (s0.codeBits (a + (b + 1))).take a = (s0.codeBits (a + b)).take a := by
    rw [hbits, List.take_append_of_le_length (by omega)]
  have hdrop : (s0.codeBits (a + (b + 1))).drop a = (s0.codeBits (a + b)).drop a ++ [x] := by
    rw [hbits, List.drop_append_of_le_length (by omega)]
  refine ⟨?_, ?_, ?_, ?_, ?_⟩
  · rw [f1, f2]
    exact hn
  · rw [f1, f2, f3]
    exact hbt
  · rw [htake]
    exact h.above
  · rw [f3, hc3, htake, hdrop, numOfBits_append, h.code]
    have habove := h.above
    have hsub := h.norm.sub
    have hLq : 2 ^ (s0.P - 2) ≤ s0.low.toNat * 2 ^ a % 2 ^ s0.P * 2 ^ b - 2 ^ (s0.P - 1) * (2 ^ b - 1) := by
      have := h.norm.hL
      simp only [shifted, Bool.toNat_false, Nat.zero_mul, Nat.add_zero] at this
      omega
    generalize s0.low.toNat * 2 ^ a % 2 ^ s0.P = yl at *
    generalize s0.code.toNat * 2 ^ a % 2 ^ s0.P + numOfBits ((s0.codeBits (a + b)).take a) = y at *
    have hyy : yl * 2 ^ b ≤ y * 2 ^ b := Nat.mul_le_mul_right _ habove
    have hB : 0 < 2 ^ b := Nat.two_pow_pos b
    have hB2 : 2 ^ (b + 1) = 2 * 2 ^ b := by rw [pow_succ]; omega
    have h2 : 2 ^ (s0.P - 1) = 2 * 2 ^ (s0.P - 2) := by
      rw [show s0.P - 1 = (s0.P - 2) + 1 by omega, pow_succ]; omega
    have hx : 2 ^ (s0.P - 1) * (2 ^ (b + 1) - 1) = 2 * (2 ^ (s0.P - 1) * (2 ^ b - 1)) + 2 ^ (s0.P - 1) := by
      rw [hB2, show 2 * 2 ^ b - 1 = 2 * (2 ^ b - 1) + 1 by omega]; ring
    have hy : y * 2 ^ (b + 1) = 2 * (y * 2 ^ b) := by rw [hB2]; ring
    rw [hx, hy]
    generalize 2 ^ (s0.P - 1) * (2 ^ b - 1) = X at *
    generalize y * 2 ^ b = Y at *
    omega
  · exact (h.took.setCoder _ _ _).trans (hk.setCoder _ _ _)

/-- The loop of `Normalize` on the decoder's side ends at rest in the closed form (R165, R177). -/
theorem normalizeLoop_dec_done {s0 u : State} (hP : 2 ≤ s0.P) (hP' : s0.P ≤ 32) (hm : s0.mode = .dec) :
    ∀ (fuel a b : Nat) (s : State), DecAt s0 a b s → s0.P < a + b + fuel → normalizeLoop fuel s = .done () u →
      ∃ a' b', DecAt s0 a' b' u ∧ RestInterval s0.P u.low.toNat u.high.toNat
  | 0, a, b, s, h, hf, _ => by
    have := h.norm.steps.1
    omega
  | fuel + 1, a, b, s, h, hf, hd => by
    have hPs := h.P
    rw [normalizeLoop] at hd
    split at hd
    · next ht =>
      have hb : b = 0 := by
        by_contra hb
        have := h.norm.topsApart hP (by omega)
        rw [hPs, this] at ht
        cases ht
      subst hb
      obtain ⟨_, v, hv, hd⟩ := Res.andThen_eq_done hd
      exact normalizeLoop_dec_done hP hP' hm fuel (a + 1) 0 v (h.e12 hP hP' hm ht hv) (by omega) hd
    · next ht =>
      split at hd
      · next hs =>
        obtain ⟨_, v, hv, hd⟩ := Res.andThen_eq_done hd
        exact normalizeLoop_dec_done hP hP' hm fuel a (b + 1) v
          (h.e3 hP hP' hm (Bool.eq_false_iff.mpr ht) hs hv) (by omega) hd
      · next hs =>
        cases hd
        rw [hPs] at ht hs
        exact ⟨a, b, h, h.norm.rest hP (Bool.eq_false_iff.mpr ht) (Bool.eq_false_iff.mpr hs)⟩

/-- Taking a bit in completes where the source answers. -/
theorem takeBit_answers (f : Nat → Nat → Bool → Nat) {s : State} {n : Nat} (g : s.sourceAnswers (n + 1)) :
    ∃ u, takeBit f s = .done () u ∧ Reads { s with code := u.code } u ∧ u.sourceAnswers n := by
  obtain ⟨b, u, h, g'⟩ := readCodeBit_answers g
  have hk := (readCodeBit_done h).2.reads
  rw [takeBit, h]
  exact ⟨_, rfl, ⟨congrArg (fun s : State => { s with code := (u.setCode (f u.P u.code.toNat b)).code }) hk.same,
    hk.calls⟩, g'.congr rfl rfl rfl⟩

/-! ### The steps of `Normalize`, from the bounds alone (R165, R177) -/

/-- How many E1/E2 and E3 steps `Normalize` makes. -/
def coderSteps (P : Nat) : Nat → Word → Word → Nat × Nat
  | 0, _, _ => (0, 0)
  | fuel + 1, low, high =>
    if sameTop P low.toNat high.toNat then
      let r := coderSteps P fuel (BitVec.ofNat 32 (shiftE12 P low.toNat false)) (BitVec.ofNat 32 (shiftE12 P high.toNat true))
      (r.1 + 1, r.2)
    else if straddles P low.toNat high.toNat then
      let r := coderSteps P fuel (BitVec.ofNat 32 (shiftE3 P low.toNat false)) (BitVec.ofNat 32 (shiftE3 P high.toNat true))
      (r.1, r.2 + 1)
    else (0, 0)

/-- The steps end at rest, in the closed form, and each E3 step is made where the bounds straddle the middle (R165,
R177). -/
theorem coderSteps_norm {P l h : Nat} (hP : 2 ≤ P) (hP' : P ≤ 32) : ∀ (fuel a b : Nat) (low high : Word),
    NormAt P l h a b low.toNat high.toNat → P < a + b + fuel →
    (∃ L H, NormAt P l h (a + (coderSteps P fuel low high).1) (b + (coderSteps P fuel low high).2) L H ∧
      RestInterval P L H) ∧ (0 < b → (coderSteps P fuel low high).1 = 0) ∧
    ∀ j, b ≤ j → j < b + (coderSteps P fuel low high).2 →
      Straddle P (shifted P (a + (coderSteps P fuel low high).1) j l false)
        (shifted P (a + (coderSteps P fuel low high).1) j h true)
  | 0, a, b, low, high, n, hf => by
    have := n.steps.1
    omega
  | fuel + 1, a, b, low, high, n, hf => by
    rw [coderSteps]
    by_cases ht : sameTop P low.toNat high.toNat = true
    · have hb : b = 0 := by
        by_contra hb
        rw [n.topsApart hP (by omega)] at ht
        cases ht
      subst hb
      obtain ⟨n', -⟩ := n.e12 hP ht
      have hlt := n'.lt
      have hle := n'.le
      rw [← toNat_ofNat32 hP' hlt, ← toNat_ofNat32 hP' (Nat.lt_of_le_of_lt hle hlt)] at n'
      obtain ⟨⟨L, H, q1, q2⟩, -, q4⟩ := coderSteps_norm hP hP' fuel (a + 1) 0 _ _ n' (by omega)
      rw [if_pos ht]
      rw [Nat.add_right_comm] at q1 q4
      exact ⟨⟨L, H, q1, q2⟩, fun h0 => absurd h0 (by omega), q4⟩
    · rw [if_neg ht]
      rw [Bool.not_eq_true] at ht
      by_cases hs : straddles P low.toNat high.toNat = true
      · rw [if_pos hs]
        have n' := n.e3 hP ht hs
        have hlt := n'.lt
        have hle := n'.le
        rw [← toNat_ofNat32 hP' hlt, ← toNat_ofNat32 hP' (Nat.lt_of_le_of_lt hle hlt)] at n'
        obtain ⟨⟨L, H, q1, q2⟩, q3, q4⟩ := coderSteps_norm hP hP' fuel a (b + 1) _ _ n' (by omega)
        rw [Nat.add_right_comm] at q1 q4
        refine ⟨⟨L, H, q1, q2⟩, fun _ => q3 (by omega), fun j hj hj' => ?_⟩
        rcases Nat.eq_or_lt_of_le hj with rfl | hj
        · rw [q3 (by omega)]
          exact n.straddle hP ht hs
        · exact q4 j hj hj'
      · rw [if_neg hs]
        rw [Bool.not_eq_true] at hs
        exact ⟨⟨_, _, n, n.rest hP ht hs⟩, fun _ => rfl, fun j hj hj' => absurd hj' (Nat.not_lt.mpr hj)⟩

/-- The steps of `Normalize` are those the bounds call for (R165, R177). -/
theorem coderSteps_steps {P : Nat} (hP : 2 ≤ P) (hP' : P ≤ 32) {low high : Word} (hle : low.toNat ≤ high.toNat)
    (hlt : high.toNat < 2 ^ P) :
    NormSteps P low.toNat high.toNat (coderSteps P (2 * P) low high).1 (coderSteps P (2 * P) low high).2 := by
  obtain ⟨⟨L, H, q1, q2⟩, -, q3⟩ := coderSteps_norm hP hP' (2 * P) 0 0 low high (NormAt.start hle hlt) (by omega)
  simp only [Nat.zero_add] at q1 q3
  rw [q1.hL, q1.hH] at q2
  have := q1.steps
  exact ⟨by omega, q1.shared, fun j hj => q3 j (Nat.zero_le j) hj, q2⟩

/-- `Normalize` completes on the decoder's side where the source answers the bits of its steps (R165). -/
theorem normalizeLoop_answers : ∀ (fuel : Nat) {s : State}, s.mode = .dec →
    s.sourceAnswers ((coderSteps s.P fuel s.low s.high).1 + (coderSteps s.P fuel s.low s.high).2) →
    ∃ u, normalizeLoop fuel s = .done () u
  | 0, s, _, _ => ⟨s, rfl⟩
  | fuel + 1, s, hm, g => by
    rw [coderSteps] at g
    rw [normalizeLoop]
    by_cases ht : sameTop s.P s.low.toNat s.high.toNat = true
    · simp only [if_pos ht] at g ⊢
      rw [Nat.add_right_comm] at g
      obtain ⟨v, hv, hr, hg⟩ := takeBit_answers shiftE12 g
      have e : stepE12 s = .done () v.shiftInterval12 := by
        rw [stepE12, hm]
        simp only [hv, Res.done_andThen]
      rw [e, Res.done_andThen]
      refine normalizeLoop_answers fuel (s := v.shiftInterval12) ((congrArg State.mode hr.same).symm.trans hm) ?_
      have e1 : v.P = s.P := (congrArg State.P hr.same).symm
      have e2 : v.low = s.low := (congrArg State.low hr.same).symm
      have e3 : v.high = s.high := (congrArg State.high hr.same).symm
      rw [← e1, ← e2, ← e3] at hg
      exact hg.congr rfl rfl rfl
    · simp only [if_neg ht] at g ⊢
      by_cases hs : straddles s.P s.low.toNat s.high.toNat = true
      · simp only [if_pos hs] at g ⊢
        rw [← Nat.add_assoc] at g
        obtain ⟨v, hv, hr, hg⟩ := takeBit_answers shiftE3Code g
        have e : stepE3 s = .done () v.shiftInterval3 := by
          rw [stepE3, hm]
          simp only [hv, Res.done_andThen]
        rw [e, Res.done_andThen]
        refine normalizeLoop_answers fuel (s := v.shiftInterval3) ((congrArg State.mode hr.same).symm.trans hm) ?_
        have e1 : v.P = s.P := (congrArg State.P hr.same).symm
        have e2 : v.low = s.low := (congrArg State.low hr.same).symm
        have e3 : v.high = s.high := (congrArg State.high hr.same).symm
        rw [← e1, ← e2, ← e3] at hg
        exact hg.congr rfl rfl rfl
      · simp only [if_neg hs] at g ⊢
        exact ⟨s, rfl⟩

/-! ### Loading `code` (R172) -/

theorem State.codeBits_cons (s v : State) (n : Nat) (h : v.bitsLeft = s.bitsLeft.drop 1) :
    s.codeBits (n + 1) = s.bitsLeft.headD false :: v.codeBits n := by
  unfold State.codeBits
  rw [h]
  cases s.bitsLeft with
  | nil => simp [List.replicate_succ]
  | cons b l =>
    simp only [List.cons_append, List.take_succ_cons, List.drop_succ_cons, List.drop_zero, List.headD_cons,
      List.cons.injEq, true_and]
    rw [List.replicate_succ', ← List.append_assoc, List.take_append_of_le_length]; simp

theorem numOfBits_cons (b : Bool) (l : List Bool) : numOfBits (b :: l) = b.toNat * 2 ^ l.length + numOfBits l := by
  induction l using List.reverseRecOn with
  | nil => simp [numOfBits]
  | append_singleton l c ih =>
    rw [← List.cons_append, numOfBits_append, numOfBits_append, ih]; simp [pow_succ]; ring

/-- Loading `n` bits (R172): they enter `code` in order, and nothing is dropped while they fit. -/
theorem loadCode_done : ∀ (n : Nat) (s u : State), loadCode n s = .done () u → s.P ≤ 32 →
    (s.code.toNat + 1) * 2 ^ n ≤ 2 ^ s.P →
    u.code.toNat = s.code.toNat * 2 ^ n + numOfBits (s.codeBits n) ∧ Took n { s with code := u.code } u
  | 0, s, u, h, _, _ => by
    cases h
    exact ⟨by simp [State.codeBits, numOfBits], Took.refl _⟩
  | n + 1, s, u, h, h32, hlt => by
    obtain ⟨_, v, hv, h⟩ := Res.andThen_eq_done h
    obtain ⟨b, w, hw, hv⟩ := Res.andThen_eq_done hv
    cases hv
    obtain ⟨hb, hk⟩ := readCodeBit_done hw
    have hwc : w.code = s.code := (congrArg State.code hk.reads.same).symm
    have hwP : w.P = s.P := (congrArg State.P hk.reads.same).symm
    have h2 : 2 ^ (n + 1) = 2 * 2 ^ n := by rw [pow_succ]; omega
    have hp : 0 < 2 ^ n := Nat.two_pow_pos n
    have hbl := Bool.toNat_lt b
    have hx : (2 * s.code.toNat + 2) * 2 ^ n ≤ 2 ^ s.P := by
      calc _ = (s.code.toNat + 1) * 2 ^ (n + 1) := by rw [h2]; ring
        _ ≤ _ := hlt
    have hx2 : (2 * s.code.toNat + 2) * 1 ≤ (2 * s.code.toNat + 2) * 2 ^ n := Nat.mul_le_mul_left _ hp
    have hc : (w.setCode (shiftE12 w.P w.code.toNat b)).code.toNat = 2 * s.code.toNat + b.toNat := by
      simp only [State.setCode_code, hwc, hwP, shiftE12]
      rw [Nat.mod_eq_of_lt (by omega), toNat_ofNat32 h32 (by omega)]; omega
    have hP' : (w.setCode (shiftE12 w.P w.code.toNat b)).P = s.P := hwP
    have ih := loadCode_done n _ u h (by rw [hP']; exact h32) (by
      rw [hc, hP']
      exact le_trans (Nat.mul_le_mul_right _ (by omega)) hx)
    refine ⟨?_, ?_⟩
    · rw [ih.1, hc, State.codeBits_cons s (w.setCode (shiftE12 w.P w.code.toNat b)) n hk.left, ← hb, numOfBits_cons,
        State.length_codeBits, h2]
      ring
    · have := (hk.setCoder s.low s.high u.code).trans (m := n) (c := u) ?_
      · rw [Nat.add_comm] at this; exact this
      · have e1 : w.low = s.low := (congrArg State.low hk.reads.same).symm
        have e2 : w.high = s.high := (congrArg State.high hk.reads.same).symm
        have := ih.2
        rw [← e1, ← e2]
        exact this

/-- Loading bits completes where the source answers. -/
theorem loadCode_answers : ∀ (n : Nat) (s : State), s.sourceAnswers n → ∃ u, loadCode n s = .done () u
  | 0, s, _ => ⟨s, rfl⟩
  | n + 1, s, g => by
    obtain ⟨v, hv, -, hg⟩ := takeBit_answers shiftE12 g
    rw [loadCode, hv]
    exact loadCode_answers n v hg

end Sys2Proof.Machine
end

