-- ==== Sys2Proof/Laws/Memory.lean ====
section
/-! SUPPORT. Laws of the association lists, the tables and the tree memory: read after write, every other key left
alone, the canonical form kept, and the cumulative values as sums. -/

namespace Sys2Proof.Machine

/-! ### Association lists in an order -/

section Assoc

variable {κ β : Type} [DecidableEq κ]

/-- What a strict total order of keys is. -/
structure KeyOrder (lt : κ → κ → Bool) : Prop where
  irrefl : ∀ a, lt a a = false
  trans  : ∀ a b c, lt a b = true → lt b c = true → lt a c = true
  total  : ∀ a b, a ≠ b → lt a b = false → lt b a = true

@[simp] theorem lookup_nil (k : κ) : lookup k ([] : List (κ × β)) = none := rfl

theorem lookup_cons (k k' : κ) (v : β) (l : List (κ × β)) :
    lookup k ((k', v) :: l) = if k = k' then some v else lookup k l := rfl

/-- A key below every key of the list is not listed. -/
theorem lookup_none_of_all {lt : κ → κ → Bool} (o : KeyOrder lt) (k : κ) :
    ∀ l : List (κ × β), (l.all fun e => lt k e.1) = true → lookup k l = none
  | [], _ => rfl
  | (k', v) :: l, h => by
    simp only [List.all_cons, Bool.and_eq_true] at h
    have hne : k ≠ k' := fun e => by simp [e, o.irrefl] at h
    simp [lookup_cons, hne, lookup_none_of_all o k l h.2]

theorem lookup_insertKey (lt : κ → κ → Bool) (k k' : κ) (v : β) :
    ∀ l : List (κ × β), lookup k' (insertKey lt k v l) = if k' = k then some v else lookup k' l
  | [] => by simp [insertKey, lookup_cons]
  | (a, w) :: l => by
    have ih := lookup_insertKey lt k k' v l
    simp only [insertKey]
    split <;> rename_i h1
    · subst h1; by_cases h : k' = k <;> simp [lookup_cons, h]
    · split
      · simp [lookup_cons]
      · simp only [lookup_cons, ih]
        by_cases h : k' = a
        · have : k' ≠ k := fun e => h1 (e ▸ h)
          simp [h]; intro e; exact absurd (e.symm) h1
        · simp [h]

theorem all_insertKey (lt : κ → κ → Bool) (p : κ × β → Bool) (k : κ) (v : β) (hk : p (k, v) = true) :
    ∀ l : List (κ × β), l.all p = true → (insertKey lt k v l).all p = true
  | [], _ => by simp [insertKey, hk]
  | (a, w) :: l, h => by
    simp only [List.all_cons, Bool.and_eq_true] at h
    have ih := all_insertKey lt p k v hk l h.2
    simp only [insertKey]
    split
    · simp [hk, h.2]
    · split <;> simp [hk, h.1, h.2, ih]

theorem sorted_insertKey {lt : κ → κ → Bool} (o : KeyOrder lt) (k : κ) (v : β) :
    ∀ l : List (κ × β), sortedKeys lt l = true → sortedKeys lt (insertKey lt k v l) = true
  | [], _ => by simp [insertKey, sortedKeys]
  | (a, w) :: l, h => by
    simp only [sortedKeys, Bool.and_eq_true] at h
    have ih := sorted_insertKey o k v l h.2
    simp only [insertKey]
    split <;> rename_i h1
    · subst h1; simp [sortedKeys, h.1, h.2]
    · split <;> rename_i h2
      · have : (l.all fun e => lt k e.1) = true := by
          rw [List.all_eq_true] at h ⊢
          exact fun e he => o.trans _ _ _ h2 (h.1 e he)
        simp [sortedKeys, h.1, h.2, h2, this]
      · have hak : lt a k = true := o.total k a h1 (by simpa using h2)
        simp only [sortedKeys, ih, Bool.and_true]
        exact all_insertKey lt (fun e => lt a e.1) k v hak l h.1

/-- In a sorted list a key below its first key is not listed. -/
theorem lookup_none_of_lt {lt : κ → κ → Bool} (o : KeyOrder lt) (k a : κ) (w : β) (l : List (κ × β))
    (hs : sortedKeys lt ((a, w) :: l) = true) (h : lt k a = true) : lookup k ((a, w) :: l) = none := by
  simp only [sortedKeys, Bool.and_eq_true, List.all_eq_true] at hs
  refine lookup_none_of_all o k _ ?_
  simp only [List.all_cons, h, Bool.true_and, List.all_eq_true]
  exact fun e he => o.trans _ _ _ h (hs.1 e he)

/-- Writing a listed key of a sorted list keeps the length; writing another adds one. -/
theorem length_insertKey {lt : κ → κ → Bool} (o : KeyOrder lt) (k : κ) (v : β) :
    ∀ l : List (κ × β), sortedKeys lt l = true →
      (insertKey lt k v l).length = if (lookup k l).isSome then l.length else l.length + 1
  | [], _ => by simp [insertKey]
  | (a, w) :: l, hs => by
    have hs' := hs
    simp only [sortedKeys, Bool.and_eq_true] at hs'
    have ih := length_insertKey o k v l hs'.2
    simp only [insertKey]
    split <;> rename_i h1
    · simp [lookup_cons, h1]
    · split <;> rename_i h2
      · simp [lookup_none_of_lt o k a w l hs h2]
      · simp only [List.length_cons, ih, lookup_cons, h1, if_false]
        split <;> rfl

theorem all_removeKey (p : κ × β → Bool) (k : κ) :
    ∀ l : List (κ × β), l.all p = true → (removeKey k l).all p = true
  | [], _ => rfl
  | (a, w) :: l, h => by
    simp only [List.all_cons, Bool.and_eq_true] at h
    simp only [removeKey]
    split
    · exact h.2
    · simp [h.1, all_removeKey p k l h.2]

theorem sorted_removeKey (lt : κ → κ → Bool) (k : κ) :
    ∀ l : List (κ × β), sortedKeys lt l = true → sortedKeys lt (removeKey k l) = true
  | [], _ => rfl
  | (a, w) :: l, h => by
    simp only [sortedKeys, Bool.and_eq_true] at h
    simp only [removeKey]
    split
    · exact h.2
    · simp [sortedKeys, all_removeKey _ k l h.1, sorted_removeKey lt k l h.2]

theorem lookup_removeKey {lt : κ → κ → Bool} (o : KeyOrder lt) (k k' : κ) :
    ∀ l : List (κ × β), sortedKeys lt l = true →
      lookup k' (removeKey k l) = if k' = k then none else lookup k' l
  | [], _ => by simp [removeKey]
  | (a, w) :: l, h => by
    simp only [sortedKeys, Bool.and_eq_true] at h
    have ih := lookup_removeKey o k k' l h.2
    simp only [removeKey]
    split <;> rename_i h1
    · subst h1
      by_cases h2 : k' = k
      · subst h2; simp [lookup_none_of_all o k' l h.1]
      · simp [lookup_cons, h2]
    · simp only [lookup_cons, ih]
      by_cases h2 : k' = a
      · subst h2; simp [Ne.symm h1]
      · simp [h2]

/-- A key that is listed is listed with an entry of the list. -/
theorem mem_of_lookup {k : κ} {v : β} : ∀ l : List (κ × β), lookup k l = some v → (k, v) ∈ l
  | [], h => by simp at h
  | (a, w) :: l, h => by
    simp only [lookup_cons] at h
    split at h <;> rename_i h1
    · simp_all
    · exact List.mem_cons_of_mem _ (mem_of_lookup l h)

/-- Every entry of a sorted list is what its key is listed with. -/
theorem lookup_of_mem {lt : κ → κ → Bool} (o : KeyOrder lt) {k : κ} {v : β} :
    ∀ l : List (κ × β), sortedKeys lt l = true → (k, v) ∈ l → lookup k l = some v
  | [], _, h => by simp at h
  | (a, w) :: l, hs, h => by
    simp only [sortedKeys, Bool.and_eq_true, List.all_eq_true] at hs
    rcases List.mem_cons.mp h with h1 | h1
    · simp_all [lookup_cons]
    · have hne : k ≠ a := by
        rintro rfl
        simpa [o.irrefl] using hs.1 (k, v) h1
      simp [lookup_cons, hne, lookup_of_mem o l hs.2 h1]

end Assoc

/-! ### The two orders -/

theorem symbolLt_order : KeyOrder symbolLt where
  irrefl a := by simp [symbolLt]
  trans a b c := by simp only [symbolLt, decide_eq_true_eq]; omega
  total a b := by simp only [symbolLt, decide_eq_true_eq, decide_eq_false_iff_not]; omega

theorem pathLt_irrefl : ∀ p, pathLt p p = false
  | [] => rfl
  | a :: p => by simp [pathLt, pathLt_irrefl p]

theorem pathLt_trans : ∀ p q r, pathLt p q = true → pathLt q r = true → pathLt p r = true
  | [], [], _, h, _ => by simp [pathLt] at h
  | [], _ :: _, [], _, h => by simp [pathLt] at h
  | [], _ :: _, _ :: _, _, _ => rfl
  | _ :: _, [], _, h, _ => by simp [pathLt] at h
  | _ :: _, _ :: _, [], _, h => by simp [pathLt] at h
  | a :: p, b :: q, c :: r, h1, h2 => by
    simp only [pathLt, Bool.or_eq_true, Bool.and_eq_true, decide_eq_true_eq] at h1 h2 ⊢
    rcases h1 with h1 | ⟨rfl, h1⟩ <;> rcases h2 with h2 | ⟨rfl, h2⟩
    · left; omega
    · left; exact h1
    · left; exact h2
    · right; exact ⟨rfl, pathLt_trans p q r h1 h2⟩

theorem pathLt_total : ∀ p q, p ≠ q → pathLt p q = false → pathLt q p = true
  | [], [], h, _ => absurd rfl h
  | [], _ :: _, _, h => by simp [pathLt] at h
  | _ :: _, [], _, _ => rfl
  | a :: p, b :: q, h1, h2 => by
    simp only [pathLt, Bool.or_eq_false_iff, Bool.and_eq_false_imp, decide_eq_false_iff_not,
      decide_eq_true_eq, Bool.or_eq_true, Bool.and_eq_true] at h2 ⊢
    by_cases hab : a = b
    · subst hab
      exact Or.inr ⟨rfl, pathLt_total p q (fun e => h1 (by rw [e])) (h2.2 rfl)⟩
    · left; omega

theorem pathLt_order : KeyOrder pathLt := ⟨pathLt_irrefl, pathLt_trans, pathLt_total⟩

/-! ### Tables -/

theorem Table.wf_iff (t : Table) :
    Table.wf t = true ↔ sortedKeys symbolLt t = true ∧ ∀ e ∈ t, e.2 ≠ 0 := by
  simp [Table.wf, List.all_eq_true]

@[simp] theorem Table.wf_nil : Table.wf [] = true := rfl

@[simp] theorem Table.wf_fresh (esc : Nat) : Table.wf (Table.fresh esc) = true := by
  simp [Table.fresh, Table.wf, sortedKeys]

@[simp] theorem Table.get_nil (sym : Nat) : Table.get [] sym = 0 := rfl

theorem Table.get_fresh (esc sym : Nat) : Table.get (Table.fresh esc) sym = if sym = esc then 1 else 0 := by
  by_cases h : sym = esc <;> simp [Table.fresh, Table.get, lookup_cons, h]

/-- Writing a count keeps the canonical form. -/
theorem Table.wf_set (t : Table) (sym c : Nat) (h : Table.wf t = true) : Table.wf (Table.set t sym c) = true := by
  simp only [Table.wf, Bool.and_eq_true] at h ⊢
  simp only [Table.set]
  split <;> rename_i hc
  · exact ⟨sorted_removeKey _ _ _ h.1, all_removeKey _ _ _ h.2⟩
  · exact ⟨sorted_insertKey symbolLt_order _ _ _ h.1, all_insertKey _ _ _ _ (by simpa using hc) _ h.2⟩

/-- Read after write of a count, and every other count left alone. -/
theorem Table.get_set (t : Table) (sym c j : Nat) (h : Table.wf t = true) :
    Table.get (Table.set t sym c) j = if j = sym then c else Table.get t j := by
  simp only [Table.wf, Bool.and_eq_true] at h
  simp only [Table.get, Table.set]
  split <;> rename_i hc
  · rw [lookup_removeKey symbolLt_order _ _ _ h.1]
    split <;> simp [hc]
  · rw [lookup_insertKey]
    split <;> simp

theorem Table.get_cons (k v : Nat) (t : Table) (j : Nat) (h : Table.wf ((k, v) :: t) = true) :
    Table.get ((k, v) :: t) j = (if j = k then v else 0) + Table.get t j := by
  simp only [Table.wf, sortedKeys, Bool.and_eq_true] at h
  have hk := lookup_none_of_all symbolLt_order k t h.1.1
  simp only [Table.get, lookup_cons]
  by_cases hj : j = k
  · subst hj; simp [hk]
  · simp [hj]

theorem Table.wf_tail (e : Nat × Nat) (t : Table) (h : Table.wf (e :: t) = true) : Table.wf t = true := by
  simp only [Table.wf, sortedKeys, List.all_cons, Bool.and_eq_true] at h ⊢
  exact ⟨h.1.2, h.2.2⟩

/-- CumLow is the sum of the counts below the symbol (41_frequency_table.md R122). -/
theorem Table.cumLow_eq_sum : ∀ (t : Table) (sym : Nat), Table.wf t = true →
    Table.cumLow t sym = (Finset.range sym).sum (fun j => Table.get t j)
  | [], sym, _ => by simp [Table.cumLow]
  | (k, v) :: t, sym, h => by
    have ih := Table.cumLow_eq_sum t sym (Table.wf_tail _ _ h)
    simp only [Table.get_cons k v t _ h, Finset.sum_add_distrib, ← ih]
    simp only [Finset.sum_ite_eq', Finset.mem_range, Table.cumLow, List.filter_cons]
    split <;> simp_all

theorem Table.total_eq_sum (sl : Nat) (t : Table) (h : Table.wf t = true) :
    Table.total sl t = (Finset.range sl).sum (fun j => Table.get t j) :=
  Table.cumLow_eq_sum t sl h

@[simp] theorem Table.cumLow_zero (t : Table) : Table.cumLow t 0 = 0 := by simp [Table.cumLow]

theorem Table.cumLow_succ (t : Table) (sym : Nat) (h : Table.wf t = true) :
    Table.cumLow t (sym + 1) = Table.cumHigh t sym := by
  rw [Table.cumHigh, Table.cumLow_eq_sum t _ h, Table.cumLow_eq_sum t _ h, Finset.sum_range_succ]

theorem Table.cumLow_mono (t : Table) {i j : Nat} (h : Table.wf t = true) (hij : i ≤ j) :
    Table.cumLow t i ≤ Table.cumLow t j := by
  rw [Table.cumLow_eq_sum t _ h, Table.cumLow_eq_sum t _ h]
  exact Finset.sum_le_sum_of_subset (Finset.range_subset_range.mpr hij)

/-- A symbol below SL has its interval inside the total. -/
theorem Table.cumHigh_le_total (t : Table) {sym sl : Nat} (h : Table.wf t = true) (hs : sym < sl) :
    Table.cumHigh t sym ≤ Table.total sl t := by
  rw [← Table.cumLow_succ t sym h]
  exact Table.cumLow_mono t h hs

/-- What writing a count does to the cumulative values. -/
theorem Table.cumLow_set (t : Table) (sym c j : Nat) (h : Table.wf t = true) :
    Table.cumLow (Table.set t sym c) j + (if sym < j then Table.get t sym else 0) =
      Table.cumLow t j + (if sym < j then c else 0) := by
  rw [Table.cumLow_eq_sum _ _ (Table.wf_set t sym c h), Table.cumLow_eq_sum t _ h]
  simp only [Table.get_set t sym c _ h]
  split <;> rename_i hj
  · have hm : sym ∈ Finset.range j := Finset.mem_range.mpr hj
    rw [← Finset.add_sum_erase _ _ hm, ← Finset.add_sum_erase (Finset.range j) (fun i => Table.get t i) hm]
    have : ((Finset.range j).erase sym).sum (fun i => if i = sym then c else Table.get t i) =
        ((Finset.range j).erase sym).sum (fun i => Table.get t i) :=
      Finset.sum_congr rfl fun i hi => by simp [Finset.ne_of_mem_erase hi]
    simp only [this, if_true]
    omega
  · have : (Finset.range j).sum (fun i => if i = sym then c else Table.get t i) =
        (Finset.range j).sum (fun i => Table.get t i) :=
      Finset.sum_congr rfl fun i hi => by
        have : i ≠ sym := fun e => hj (e ▸ Finset.mem_range.mp hi)
        simp [this]
    simp [this]

/-- The symbols a write leaves listed are those listed before, and the one written. -/
theorem Table.mem_set (t : Table) (sym c : Nat) (h : Table.wf t = true) (e : Nat × Nat)
    (he : e ∈ Table.set t sym c) : e ∈ t ∨ e.1 = sym := by
  by_cases hs : e.1 = sym
  · exact Or.inr hs
  · left
    have hw := (Table.wf_iff _).mp (Table.wf_set t sym c h)
    have h1 := lookup_of_mem symbolLt_order (k := e.1) (v := e.2) _ hw.1 he
    have h2 : lookup e.1 t = some e.2 := by
      simp only [Table.set] at h1
      split at h1
      · rw [lookup_removeKey symbolLt_order _ _ _ ((Table.wf_iff t).mp h).1] at h1; simpa [hs] using h1
      · rw [lookup_insertKey] at h1; simpa [hs] using h1
    exact mem_of_lookup _ h2

/-! ### The tree memory -/

theorem Memory.wf_iff (m : Memory) :
    Memory.wf m = true ↔ sortedKeys pathLt m = true ∧ ∀ e ∈ m, Table.wf e.2 = true := by
  simp [Memory.wf, List.all_eq_true]

@[simp] theorem Memory.wf_nil : Memory.wf [] = true := rfl

/-- Writing a context's table keeps the canonical form. -/
theorem Memory.wf_write (m : Memory) (p : Path) (t : Table) (hm : Memory.wf m = true) (ht : Table.wf t = true) :
    Memory.wf (Memory.write m p t) = true := by
  simp only [Memory.wf, Bool.and_eq_true] at hm ⊢
  exact ⟨sorted_insertKey pathLt_order _ _ _ hm.1, all_insertKey _ _ _ _ (by simpa using ht) _ hm.2⟩

@[simp] theorem Memory.lookup_write (m : Memory) (p q : Path) (t : Table) :
    lookup q (Memory.write m p t) = if q = p then some t else lookup q m :=
  lookup_insertKey _ _ _ _ _

@[simp] theorem Memory.table_write (m : Memory) (p q : Path) (t : Table) :
    Memory.table (Memory.write m p t) q = if q = p then t else Memory.table m q := by
  simp only [Memory.table, Memory.lookup_write]; split <;> rfl

@[simp] theorem Memory.has_write (m : Memory) (p q : Path) (t : Table) :
    Memory.has (Memory.write m p t) q = (decide (q = p) || Memory.has m q) := by
  simp only [Memory.has, Memory.lookup_write]; split <;> simp_all

/-- Every table of a canonical memory is canonical, an absent one too. -/
theorem Memory.wf_table (m : Memory) (p : Path) (hm : Memory.wf m = true) :
    Table.wf (Memory.table m p) = true := by
  simp only [Memory.table]
  cases h : lookup p m with
  | none => rfl
  | some t => exact ((Memory.wf_iff m).mp hm).2 _ (mem_of_lookup m h)

theorem Memory.length_write (m : Memory) (p : Path) (t : Table) (hm : Memory.wf m = true) :
    (Memory.write m p t).length = if Memory.has m p then m.length else m.length + 1 :=
  length_insertKey pathLt_order _ _ _ ((Memory.wf_iff m).mp hm).1

theorem Table.wf_foldl_set (cs : List (Nat × Nat)) :
    ∀ t, Table.wf t = true → Table.wf (cs.foldl (fun t c => Table.set t c.1 c.2) t) = true := by
  induction cs with
  | nil => exact fun _ h => h
  | cons c cs ih => exact fun t h => ih _ (Table.wf_set _ _ _ h)

/-- Any list of tables is put in canonical form: the lost tree of a fault is canonical (log 6). -/
theorem Memory.wf_ofList (entries : List (List Nat × List (Nat × Nat))) : Memory.wf (Memory.ofList entries) = true := by
  have : ∀ m, Memory.wf m = true → Memory.wf (entries.foldl
      (fun m e => Memory.write m e.1 (e.2.foldl (fun t c => Table.set t c.1 c.2) [])) m) = true := by
    induction entries with
    | nil => exact fun _ h => h
    | cons e entries ih => exact fun m h => ih _ (Memory.wf_write _ _ _ h (Table.wf_foldl_set _ _ rfl))
  exact this [] rfl

theorem State.reset_memory_wf : Memory.wf State.reset.ctx = true := rfl

end Sys2Proof.Machine
end

