-- ==== Sys2Proof/Laws/Coding.lean ====
section
/-! SUPPORT. The tables a state holds (41_frequency_table.md R121, R122, R131), the symbol search (43_range_coder.md
R174), and the coding and decoding steps as wholes (R160, R173). -/

namespace Sys2Proof.Machine

/-! ### Tables of a state -/

@[simp] theorem State.cumLow_zero (s : State) (t : TableRef) : s.cumLow t 0 = 0 := by
  cases t <;> simp [State.cumLow]

theorem State.cumLow_succ (s : State) (t : TableRef) (sym : Nat) (h : Memory.wf s.ctx = true) :
    s.cumLow t (sym + 1) = s.cumHigh t sym := by
  cases t with
  | flat => rfl
  | context p => exact Table.cumLow_succ _ _ (Memory.wf_table _ _ h)

theorem State.cumLow_SL (s : State) (t : TableRef) : s.cumLow t s.SL = s.total t := by
  cases t <;> rfl

theorem State.cumHigh_eq (s : State) (t : TableRef) (sym : Nat) : s.cumHigh t sym = s.cumLow t sym + s.get t sym := by
  cases t <;> rfl

theorem State.cumLow_mono (s : State) (t : TableRef) {i j : Nat} (h : Memory.wf s.ctx = true) (hij : i ≤ j) :
    s.cumLow t i ≤ s.cumLow t j := by
  cases t with
  | flat => exact hij
  | context p => exact Table.cumLow_mono _ (Memory.wf_table _ _ h) hij

theorem State.cumHigh_le_total (s : State) (t : TableRef) {sym : Nat} (h : Memory.wf s.ctx = true) (hs : sym < s.SL) :
    s.cumHigh t sym ≤ s.total t := by
  rw [← s.cumLow_succ t sym h, ← s.cumLow_SL t]
  exact s.cumLow_mono t h hs

/-- The intervals of two symbols do not meet (R131). -/
theorem State.interval_unique (s : State) (t : TableRef) {i j v : Nat} (h : Memory.wf s.ctx = true)
    (hi : s.cumLow t i ≤ v ∧ v < s.cumHigh t i) (hj : s.cumLow t j ≤ v ∧ v < s.cumHigh t j) : i = j := by
  rw [← s.cumLow_succ t i h] at hi
  rw [← s.cumLow_succ t j h] at hj
  rcases Nat.lt_trichotomy i j with q | q | q
  · have := s.cumLow_mono t h (show i + 1 ≤ j from q)
    omega
  · exact q
  · have := s.cumLow_mono t h (show j + 1 ≤ i from q)
    omega

/-! ### The symbol search (R174) -/

theorem searchSymbol_spec (f : Nat → Nat) (v : Nat) : ∀ (fuel start stop : Nat), start < stop →
    stop - start ≤ 2 ^ fuel → f start ≤ v → v < f stop →
      start ≤ searchSymbol f v fuel start stop ∧ searchSymbol f v fuel start stop < stop ∧
      f (searchSymbol f v fuel start stop) ≤ v ∧ v < f (searchSymbol f v fuel start stop + 1)
  | 0, start, stop, h1, h2, h3, h4 => by
    have : stop = start + 1 := by rw [pow_zero] at h2; omega
    subst this
    exact ⟨le_refl _, h1, h3, h4⟩
  | fuel + 1, start, stop, h1, h2, h3, h4 => by
    rw [pow_succ] at h2
    rw [searchSymbol]
    split
    · split
      · next h6 =>
        have := searchSymbol_spec f v fuel start ((start + stop) / 2) (by omega) (by omega) h3 h6
        exact ⟨this.1, by omega, this.2.2⟩
      · next h6 =>
        have := searchSymbol_spec f v fuel ((start + stop) / 2) stop (by omega) (by omega) (by omega) h4
        exact ⟨by omega, this.2⟩
    · next h5 =>
      have : stop = start + 1 := by omega
      subst this
      exact ⟨le_refl _, h1, h3, h4⟩

theorem searchSymbol_lt (f : Nat → Nat) (v : Nat) : ∀ (fuel start stop : Nat), start < stop →
    searchSymbol f v fuel start stop < stop
  | 0, _, _, h => h
  | fuel + 1, start, stop, h => by
    rw [searchSymbol]
    split
    · split
      · have := searchSymbol_lt f v fuel start ((start + stop) / 2) (by omega)
        omega
      · exact searchSymbol_lt f v fuel ((start + stop) / 2) stop (by omega)
    · exact h

/-- What the search finds is a symbol, whatever the value. -/
theorem State.findSymbol_lt (s : State) (t : TableRef) (v : Nat) (h : 1 ≤ s.SL) : s.findSymbol t v < s.SL :=
  searchSymbol_lt _ _ _ _ _ h

/-- Below the total, the search finds a symbol whose interval holds the value (R174). -/
theorem State.findSymbol_spec (s : State) (t : TableRef) {v : Nat} (h : Memory.wf s.ctx = true) (hv : v < s.total t) :
    s.findSymbol t v < s.SL ∧ s.cumLow t (s.findSymbol t v) ≤ v ∧ v < s.cumHigh t (s.findSymbol t v) := by
  have h0 : 0 < s.SL := by
    rcases Nat.eq_zero_or_pos s.SL with h0 | h0
    · rw [← s.cumLow_SL t, h0, State.cumLow_zero] at hv
      omega
    · exact h0
  have hS : s.SL - 0 ≤ 2 ^ 32 := by
    have := s.crSl.isLt
    simp only [State.SL]
    omega
  have := searchSymbol_spec (s.cumLow t) v 32 0 s.SL h0 hS (by simp) (by rw [s.cumLow_SL]; exact hv)
  rw [s.cumLow_succ t _ h] at this
  exact this.2

/-! ### The coding step (R160) -/

/-- What a coding step makes of the interval. -/
structure Narrowed (s : State) (t : TableRef) (sym : Nat) (v : State) : Prop where
  low  : v.low.toNat = narrowLow s.low.toNat s.high.toNat (s.total t) (s.cumLow t sym)
  high : v.high.toNat = narrowHigh s.low.toNat s.high.toNat (s.total t) (s.cumHigh t sym)
  le   : v.low.toNat ≤ v.high.toNat
  lt   : v.high.toNat < 2 ^ s.P
  inL  : s.low.toNat ≤ v.low.toNat
  inH  : v.high.toNat ≤ s.high.toNat

theorem State.narrowed {s : State} {t : TableRef} {sym : Nat} (hP : 2 ≤ s.P) (hP' : s.P ≤ 32) (hr : s.IntervalAtRest)
    (hw : Memory.wf s.ctx = true) (hs : sym < s.SL) (ht : s.total t ≤ s.quarter)
    (hc : s.cumLow t sym < s.cumHigh t sym) :
    Narrowed s t sym (s.narrowTo (s.total t) (s.cumLow t sym) (s.cumHigh t sym)) := by
  obtain ⟨h1, h2, h3, h4⟩ := restInterval_range hP hr
  have hch := s.cumHigh_le_total t hw hs
  simp only [State.quarter] at ht
  obtain ⟨n1, n2, n3⟩ := narrow_inside h3 (by omega : s.total t < _) hc hch
  have e1 : (s.narrowTo (s.total t) (s.cumLow t sym) (s.cumHigh t sym)).low.toNat = _ :=
    toNat_ofNat32 hP' (by omega :
      narrowLow s.low.toNat s.high.toNat (s.total t) (s.cumLow t sym) < 2 ^ s.P)
  have e2 : (s.narrowTo (s.total t) (s.cumLow t sym) (s.cumHigh t sym)).high.toNat = _ :=
    toNat_ofNat32 hP' (by omega :
      narrowHigh s.low.toNat s.high.toNat (s.total t) (s.cumHigh t sym) < 2 ^ s.P)
  exact ⟨e1, e2, by rw [e1, e2]; exact n2, by rw [e2]; omega, by rw [e1]; exact n1, by rw [e2]; exact n3⟩

theorem State.narrowTo_P (s : State) (a b c : Nat) : (s.narrowTo a b c).P = s.P := rfl
theorem State.narrowTo_mode (s : State) (a b c : Nat) : (s.narrowTo a b c).mode = s.mode := rfl

/-- Where a coding step gets past its checks, it is normalisation of the narrowed interval. -/
theorem codeStep_eq {t : TableRef} {sym : Nat} {s : State} (ht : s.total t ≤ s.quarter)
    (hc : s.cumLow t sym ≠ s.cumHigh t sym) :
    codeStep t sym s = normalize (s.narrowTo (s.total t) (s.cumLow t sym) (s.cumHigh t sym)) := by
  unfold codeStep
  simp only
  rw [if_neg (by omega), if_neg hc]

/-- A coding step that completes passed its checks (R162, R164). -/
theorem codeStep_checks {t : TableRef} {sym : Nat} {s u : State} (h : codeStep t sym s = .done () u) :
    s.total t ≤ s.quarter ∧ s.cumLow t sym < s.cumHigh t sym := by
  unfold codeStep at h
  simp only at h
  split at h
  · cases h
  · split at h
    · cases h
    · have := s.cumHigh_eq t sym
      omega

/-- A coding step of the encoder that completes ends at rest, in the closed form. -/
theorem codeStep_enc_done {t : TableRef} {sym : Nat} {s u : State} (hP : 2 ≤ s.P) (hP' : s.P ≤ 32) (hm : s.mode = .enc)
    (hr : s.IntervalAtRest) (hw : Memory.wf s.ctx = true) (hs : sym < s.SL) (h : codeStep t sym s = .done () u) :
    ∃ a b, EncAt (s.narrowTo (s.total t) (s.cumLow t sym) (s.cumHigh t sym)) a b u ∧ u.IntervalAtRest := by
  obtain ⟨ht, hc⟩ := codeStep_checks h
  have n := s.narrowed hP hP' hr hw hs ht hc
  rw [codeStep_eq ht (by omega)] at h
  obtain ⟨a, b, he, hrest⟩ := normalizeLoop_enc_done (s0 := s.narrowTo _ _ _) hP hP' hm _ 0 0 _
    (EncAt.start n.le n.lt) (by simp only [State.narrowTo_P]; omega) h
  refine ⟨a, b, he, ?_⟩
  have := he.P
  rw [State.IntervalAtRest, this]
  exact hrest

/-- When a coding step of the encoder completes. -/
theorem codeStep_enc_total {t : TableRef} {sym : Nat} {s : State} (hP : 2 ≤ s.P) (hP' : s.P ≤ 32) (hm : s.mode = .enc)
    (hr : s.IntervalAtRest) (hw : Memory.wf s.ctx = true) (hs : sym < s.SL) (ht : s.total t ≤ s.quarter)
    (hg : 0 < s.get t sym) (g : s.sinkGood) (hroom : s.pending.toNat + s.P ≤ Config.pendMax) :
    ∃ u, codeStep t sym s = .done () u := by
  have hc : s.cumLow t sym < s.cumHigh t sym := by rw [s.cumHigh_eq]; omega
  have n := s.narrowed hP hP' hr hw hs ht hc
  rw [codeStep_eq ht (by omega)]
  exact normalizeLoop_enc_total (s0 := s.narrowTo _ _ _) hP hP' hm g hroom _ 0 0 _ (EncAt.start n.le n.lt)

/-- A coding step of the decoder that completes ends at rest with `code` inside, in the closed form (R22, R175). -/
theorem codeStep_dec_done {t : TableRef} {sym : Nat} {s u : State} (hP : 2 ≤ s.P) (hP' : s.P ≤ 32) (hm : s.mode = .dec)
    (hr : s.IntervalAtRest) (hw : Memory.wf s.ctx = true) (hs : sym < s.SL)
    (hin : narrowLow s.low.toNat s.high.toNat (s.total t) (s.cumLow t sym) ≤ s.code.toNat ∧
      s.code.toNat ≤ narrowHigh s.low.toNat s.high.toNat (s.total t) (s.cumHigh t sym))
    (h : codeStep t sym s = .done () u) :
    ∃ a b, DecAt (s.narrowTo (s.total t) (s.cumLow t sym) (s.cumHigh t sym)) a b u ∧ u.IntervalAtRest := by
  obtain ⟨ht, hc⟩ := codeStep_checks h
  have n := s.narrowed hP hP' hr hw hs ht hc
  rw [codeStep_eq ht (by omega)] at h
  obtain ⟨a, b, he, hrest⟩ := normalizeLoop_dec_done (s0 := s.narrowTo _ _ _) hP hP' hm _ 0 0 _
    (DecAt.start (by rw [n.low]; exact hin.1) (by rw [n.high]; exact hin.2) n.lt)
    (by simp only [State.narrowTo_P]; omega) h
  refine ⟨a, b, he, ?_⟩
  have := he.P
  rw [State.IntervalAtRest, this]
  exact hrest

/-- When a coding step of the decoder completes. -/
theorem codeStep_dec_total {t : TableRef} {sym : Nat} {s : State} (hm : s.mode = .dec) (ht : s.total t ≤ s.quarter)
    (hg : 0 < s.get t sym) (g : s.sourceGood) : ∃ u, codeStep t sym s = .done () u := by
  have := s.cumHigh_eq t sym
  rw [codeStep_eq ht (by omega)]
  exact normalizeLoop_answers _ (s := s.narrowTo _ _ _) hm ((g.answers _).congr rfl rfl rfl)

/-! ### The decoding step (R173) -/

/-- A decoding step that completes passed its checks, and is the coding step of the symbol it found. -/
theorem decodeWith_done {t : TableRef} {sym : Nat} {s u : State} (h : decodeWith t s = .done sym u) :
    s.truncated = false ∧ s.total t ≤ s.quarter ∧
      sym = s.findSymbol t (decodeValue s.low.toNat s.high.toNat s.code.toNat (s.total t)) ∧
      codeStep t sym s = .done () u := by
  unfold decodeWith at h
  simp only at h
  split at h
  · cases h
  next htr =>
  split at h
  · cases h
  next ht =>
  obtain ⟨_, v, hv, h⟩ := Res.andThen_eq_done h
  cases h
  exact ⟨Bool.eq_false_iff.mpr htr, by omega, rfl, hv⟩

/-- The symbol a decoding step finds, with its interval around `code` (R173 to R175). -/
theorem State.findSymbol_inside {s : State} {t : TableRef} (hw : Memory.wf s.ctx = true)
    (h1 : s.low.toNat ≤ s.code.toNat) (h2 : s.code.toNat ≤ s.high.toNat) (ht1 : 1 ≤ s.total t) :
    let v := decodeValue s.low.toNat s.high.toNat s.code.toNat (s.total t)
    s.findSymbol t v < s.SL ∧ s.cumLow t (s.findSymbol t v) ≤ v ∧ v < s.cumHigh t (s.findSymbol t v) ∧
      narrowLow s.low.toNat s.high.toNat (s.total t) (s.cumLow t (s.findSymbol t v)) ≤ s.code.toNat ∧
      s.code.toNat ≤ narrowHigh s.low.toNat s.high.toNat (s.total t) (s.cumHigh t (s.findSymbol t v)) := by
  intro v
  obtain ⟨f1, f2, f3⟩ := s.findSymbol_spec t hw (decodeValue_lt h1 h2 ht1)
  exact ⟨f1, f2, f3, narrow_holds_code h1 h2 ht1 f2 f3⟩

/-- When a decoding step completes. -/
theorem decodeWith_total {t : TableRef} {s : State} (hm : s.mode = .dec) (hw : Memory.wf s.ctx = true)
    (h1 : s.low.toNat ≤ s.code.toNat) (h2 : s.code.toNat ≤ s.high.toNat) (ht1 : 1 ≤ s.total t)
    (ht : s.total t ≤ s.quarter) (htr : s.truncated = false) (g : s.sourceGood) :
    ∃ sym u, decodeWith t s = .done sym u := by
  obtain ⟨-, f2, f3, -⟩ := s.findSymbol_inside hw h1 h2 ht1
  have := s.cumHigh_eq t (s.findSymbol t (decodeValue s.low.toNat s.high.toNat s.code.toNat (s.total t)))
  obtain ⟨u, hu⟩ := codeStep_dec_total (sym := s.findSymbol t _) hm ht (by omega :
    0 < s.get t (s.findSymbol t (decodeValue s.low.toNat s.high.toNat s.code.toNat (s.total t)))) g
  unfold decodeWith
  simp only [htr, Bool.false_eq_true, if_false]
  rw [if_neg (by omega), hu]
  exact ⟨_, _, rfl⟩

/-- A decoding step that completes found a symbol, and ends at rest with `code` inside (R22, R175). -/
theorem decodeWith_rest {t : TableRef} {sym : Nat} {s u : State} (hP : 2 ≤ s.P) (hP' : s.P ≤ 32) (hm : s.mode = .dec)
    (hr : s.IntervalAtRest) (hw : Memory.wf s.ctx = true) (hS : 1 ≤ s.SL) (h1 : s.low.toNat ≤ s.code.toNat)
    (h2 : s.code.toNat ≤ s.high.toNat) (h : decodeWith t s = .done sym u) :
    sym < s.SL ∧ u.IntervalAtRest ∧ u.low.toNat ≤ u.code.toNat ∧ u.code.toNat ≤ u.high.toNat := by
  obtain ⟨-, -, hsym, hc⟩ := decodeWith_done h
  have hlt : sym < s.SL := hsym ▸ s.findSymbol_lt t _ hS
  have ht1 : 1 ≤ s.total t := by
    have := (codeStep_checks hc).2
    have := s.cumHigh_le_total t hw hlt
    omega
  have hf := s.findSymbol_inside hw h1 h2 ht1
  simp only at hf
  rw [← hsym] at hf
  obtain ⟨a, b, he, hrest⟩ := codeStep_dec_done hP hP' hm hr hw hlt hf.2.2.2 hc
  exact ⟨hlt, hrest, he.inside⟩

end Sys2Proof.Machine
end

