-- ==== Sys2Proof/Laws/Tree.lean ====
section
/-! SUPPORT. What the tree's operations can do (42_context_tree.md R142, R144, R146; 41_frequency_table.md R127): the
frame, when they complete, and the tree they leave. -/

namespace Sys2Proof.Machine

/-! ### The frame -/

/-- `u` is `s` after updating contexts, or after trying to: the history stands, the tree stays canonical, no context is
removed. -/
structure Updates (s u : State) : Prop where
  same  : s.sansModel = u.sansModel
  hist  : u.hist = s.hist
  wf    : Memory.wf s.ctx = true → Memory.wf u.ctx = true
  has   : ∀ p, Memory.has s.ctx p = true → Memory.has u.ctx p = true
  nctx  : s.nctx ≤ u.nctx

theorem Updates.refl (s : State) : Updates s s := ⟨rfl, rfl, id, fun _ => id, le_refl _⟩

theorem Updates.trans {a b c : State} (h1 : Updates a b) (h2 : Updates b c) : Updates a c :=
  ⟨h1.same.trans h2.same, h2.hist.trans h1.hist, fun h => h2.wf (h1.wf h), fun p h => h2.has p (h1.has p h),
    le_trans h1.nctx h2.nctx⟩

theorem State.setCount_updates (s : State) (p : Path) (sym c : Nat) : Updates s (s.setCount p sym c) where
  same := rfl
  hist := rfl
  wf h := Memory.wf_write _ _ _ h (Table.wf_set _ _ _ (Memory.wf_table _ _ h))
  has q h := by simp only [State.setCount, Memory.has_write, h, Bool.or_true]
  nctx := le_refl _

theorem increment_updates (p : Path) (sym : Nat) (s : State) : Updates s (increment p sym s).final := by
  unfold increment
  split
  · exact Updates.refl s
  · exact s.setCount_updates _ _ _

theorem assignCount_updates (p : Path) (sym c : Nat) (s : State) : Updates s (assignCount p sym c s).final := by
  unfold assignCount
  simp only
  split
  · exact Updates.refl s
  · exact s.setCount_updates _ _ _

theorem createContext_updates (p : Path) (s : State) : Updates s (createContext p s).final := by
  unfold createContext
  split
  · exact Updates.refl s
  · exact ⟨rfl, rfl, fun h => Memory.wf_write _ _ _ h (Table.wf_fresh _),
      fun q h => by simp only [Res.final_done, Memory.has_write, h, Bool.or_true], Nat.le_succ _⟩

theorem visitContext_updates (sym : Nat) (p : Path) (s : State) : Updates s (visitContext sym p s).final := by
  refine Res.final_andThen Updates (fun _ _ _ => Updates.trans) ?_ fun _ v _ => increment_updates p sym v
  split
  · exact Updates.refl s
  · exact createContext_updates p s

theorem visitAll_updates (sym : Nat) : ∀ (l : List Path) (s : State), Updates s (visitAll sym l s).final
  | [], s => Updates.refl s
  | p :: l, s =>
    Res.final_andThen Updates (fun _ _ _ => Updates.trans) (visitContext_updates sym p s) fun _ v _ =>
      visitAll_updates sym l v

theorem updateContexts_updates (sym : Nat) (s : State) : Updates s (updateContexts sym s).final := by
  unfold updateContexts
  split
  · exact Updates.refl s
  · exact visitAll_updates sym _ s

/-! ### One context -/

/-- The table an existing context has before a visit, or a created one starts with (R142). -/
def State.tableOrFresh (s : State) (p : Path) : Table :=
  if Memory.has s.ctx p then Memory.table s.ctx p else Table.fresh s.ESC

theorem State.tableOrFresh_wf {s : State} (h : Memory.wf s.ctx = true) (p : Path) :
    Table.wf (s.tableOrFresh p) = true := by
  unfold State.tableOrFresh
  split
  · exact Memory.wf_table _ _ h
  · exact Table.wf_fresh _

/-- The state after a visit of one context (R144). -/
def State.visited (s : State) (sym : Nat) (p : Path) : State :=
  { s with
    ctx := Memory.write s.ctx p (Table.set (s.tableOrFresh p) sym (Table.get (s.tableOrFresh p) sym + 1))
    nctx := if Memory.has s.ctx p then s.nctx else s.nctx + 1 }

theorem insertKey_insertKey {κ β : Type} [DecidableEq κ] (lt : κ → κ → Bool) (hl : ∀ a, lt a a = false) (k : κ)
    (v w : β) : ∀ l : List (κ × β), insertKey lt k w (insertKey lt k v l) = insertKey lt k w l
  | [] => by simp [insertKey]
  | (a, x) :: l => by
    simp only [insertKey]
    split
    · simp [insertKey]
    · split
      · simp [insertKey]
      · simp only [insertKey, *, if_false, Bool.false_eq_true]
        rw [insertKey_insertKey lt hl k v w l]

theorem Memory.write_write (m : Memory) (p : Path) (t u : Table) :
    Memory.write (Memory.write m p t) p u = Memory.write m p u :=
  insertKey_insertKey pathLt pathLt_irrefl p t u m

/-- A visit as one update of the state: when it completes, and what it leaves. -/
theorem visitContext_eq (sym : Nat) (p : Path) (s : State) :
    visitContext sym p s =
      if Memory.has s.ctx p then
        if s.total (.context p) = Config.totalMax then .stop (.raised .count sym) s else .done () (s.visited sym p)
      else if s.params.nodeMax = some s.nctx then .stop (.raised .nodes s.nctx) s
      else .done () (s.visited sym p) := by
  unfold visitContext
  cases hh : Memory.has s.ctx p with
  | true =>
    simp only [if_true, Res.done_andThen, increment]
    split
    · rfl
    · simp [State.visited, State.tableOrFresh, State.setCount, State.get, hh]
  | false =>
    simp only [Bool.false_eq_true, if_false, createContext]
    split
    · rfl
    · next hn =>
      have ht : State.total { s with ctx := Memory.write s.ctx p (Table.fresh s.ESC), nctx := s.nctx + 1 }
          (.context p) ≠ Config.totalMax := by
        simp only [State.total, Memory.table_write, if_true, Table.total, Table.cumLow, Table.fresh, List.filter_cons,
          List.filter_nil]
        split <;> simp [Config.totalMax]
      simp only [Res.done_andThen, increment, if_neg ht]
      simp [State.visited, State.tableOrFresh, State.setCount, State.get, hh, Memory.write_write]

theorem State.visited_get {s : State} (h : Memory.wf s.ctx = true) (sym : Nat) (p : Path) (j : Nat) :
    Table.get (Memory.table (s.visited sym p).ctx p) j =
      Table.get (s.tableOrFresh p) j + (if j = sym then 1 else 0) := by
  simp only [State.visited, Memory.table_write, if_true]
  rw [Table.get_set _ _ _ _ (s.tableOrFresh_wf h p)]
  split
  · next e => rw [e]
  · omega

/-! ### The update path -/

/-- How many contexts of a list do not exist. -/
def State.missing (s : State) (l : List Path) : Nat := (l.filter (fun p => !Memory.has s.ctx p)).length

/-- The tree after the contexts of a list, none twice, were visited (R144). -/
structure Visited (s : State) (sym : Nat) (l : List Path) (u : State) : Prop where
  updates  : Updates s u
  nctx     : u.nctx = s.nctx + s.missing l
  length   : Memory.wf s.ctx = true → u.ctx.length = s.ctx.length + s.missing l
  others   : ∀ q, q ∉ l → lookup q u.ctx = lookup q s.ctx
  has      : ∀ q ∈ l, Memory.has u.ctx q = true
  get      : Memory.wf s.ctx = true → ∀ q ∈ l, ∀ j,
               Table.get (Memory.table u.ctx q) j = Table.get (s.tableOrFresh q) j + (if j = sym then 1 else 0)
  room     : ∀ q ∈ l, Memory.has s.ctx q = true → s.total (.context q) ≠ Config.totalMax
  capacity : ∀ n, s.params.nodeMax = some n → s.nctx ≤ n → u.nctx ≤ n

theorem has_of_lookup {m m' : Memory} {q : Path} (h : lookup q m = lookup q m') : Memory.has m q = Memory.has m' q := by
  simp only [Memory.has, h]

theorem table_of_lookup {m m' : Memory} {q : Path} (h : lookup q m = lookup q m') :
    Memory.table m q = Memory.table m' q := by
  simp only [Memory.table, h]

theorem State.visited_others (s : State) (sym : Nat) {p q : Path} (h : q ≠ p) :
    lookup q (s.visited sym p).ctx = lookup q s.ctx := by
  simp only [State.visited, Memory.lookup_write, if_neg h]

theorem State.missing_congr {s v : State} {l : List Path} (h : ∀ q ∈ l, lookup q v.ctx = lookup q s.ctx) :
    v.missing l = s.missing l := by
  unfold State.missing
  congr 1
  apply List.filter_congr
  intro q hq
  rw [has_of_lookup (h q hq)]

theorem State.visited_updates (s : State) (sym : Nat) (p : Path) : Updates s (s.visited sym p) where
  same := rfl
  hist := rfl
  wf h := Memory.wf_write _ _ _ h (Table.wf_set _ _ _ (s.tableOrFresh_wf h p))
  has q h := by simp only [State.visited, Memory.has_write, h, Bool.or_true]
  nctx := by simp only [State.visited]; split <;> omega

/-- What visiting a list of contexts leaves, and what it required. -/
theorem visitAll_done (sym : Nat) : ∀ (l : List Path) (s u : State), l.Nodup → visitAll sym l s = .done () u →
    Visited s sym l u
  | [], s, u, _, h => by
    cases h
    refine ⟨Updates.refl s, by simp [State.missing], by simp [State.missing], ?_, ?_, ?_, ?_, ?_⟩ <;> simp
  | p :: l, s, u, hn, h => by
    rw [List.nodup_cons] at hn
    obtain ⟨_, v, hv, h⟩ := Res.andThen_eq_done h
    have ih := visitAll_done sym l v u hn.2 h
    rw [visitContext_eq] at hv
    have hvis : v = s.visited sym p ∧ (Memory.has s.ctx p = true → s.total (.context p) ≠ Config.totalMax) ∧
        (Memory.has s.ctx p = false → s.params.nodeMax ≠ some s.nctx) := by
      cases hh : Memory.has s.ctx p <;> simp only [hh, if_true, if_false, Bool.false_eq_true] at hv
      · split at hv
        · cases hv
        · next hnm => cases hv; exact ⟨rfl, fun h => (by cases h), fun _ => hnm⟩
      · split at hv
        · cases hv
        · next ht => cases hv; exact ⟨rfl, fun _ => ht, fun h => (by cases h)⟩
    obtain ⟨rfl, hroom, hcap⟩ := hvis
    have hoth : ∀ q ∈ l, lookup q (s.visited sym p).ctx = lookup q s.ctx := fun q hq =>
      s.visited_others sym fun e => hn.1 (e ▸ hq)
    have hmis := State.missing_congr hoth
    have hup := s.visited_updates sym p
    have hmc : s.missing (p :: l) = (if Memory.has s.ctx p then 0 else 1) + s.missing l := by
      simp only [State.missing, List.filter_cons]
      cases Memory.has s.ctx p <;> simp [Nat.add_comm]
    refine ⟨hup.trans ih.updates, ?_, ?_, ?_, ?_, ?_, ?_, ?_⟩
    · rw [ih.nctx, hmis, hmc]
      simp only [State.visited]
      split <;> omega
    · intro hw
      rw [ih.length (hup.wf hw), hmis, hmc]
      simp only [State.visited]
      rw [Memory.length_write _ _ _ hw]
      split <;> omega
    · intro q hq
      rw [List.mem_cons, not_or] at hq
      rw [ih.others q hq.2, s.visited_others sym hq.1]
    · intro q hq
      rcases List.mem_cons.mp hq with rfl | hq
      · exact ih.updates.has _ (by simp [State.visited])
      · exact ih.has q hq
    · intro hw q hq j
      rcases List.mem_cons.mp hq with rfl | hq
      · rw [table_of_lookup (ih.others q hn.1), s.visited_get hw]
      · rw [ih.get (hup.wf hw) q hq j]
        have : (s.visited sym p).tableOrFresh q = s.tableOrFresh q := by
          unfold State.tableOrFresh
          rw [has_of_lookup (hoth q hq), table_of_lookup (hoth q hq)]
          rfl
        rw [this]
    · intro q hq hh
      rcases List.mem_cons.mp hq with rfl | hq
      · exact hroom hh
      · have := ih.room q hq (by rw [has_of_lookup (hoth q hq)]; exact hh)
        intro ht
        apply this
        simp only [State.total] at ht ⊢
        rw [table_of_lookup (hoth q hq)]
        exact ht
    · intro n hn' hle
      refine ih.capacity n hn' ?_
      simp only [State.visited]
      cases hh : Memory.has s.ctx p
      · have : s.nctx ≠ n := fun e => hcap hh (by rw [e]; exact hn')
        simp only [Bool.false_eq_true, if_false]
        omega
      · simpa using hle

/-- When visiting a list of contexts completes. -/
theorem visitAll_total (sym : Nat) : ∀ (l : List Path) (s : State), l.Nodup →
    (∀ q ∈ l, Memory.has s.ctx q = true → s.total (.context q) ≠ Config.totalMax) →
    (∀ n, s.params.nodeMax = some n → s.nctx + s.missing l ≤ n) → ∃ u, visitAll sym l s = .done () u
  | [], s, _, _, _ => ⟨s, rfl⟩
  | p :: l, s, hn, hr, hc => by
    rw [List.nodup_cons] at hn
    have hoth : ∀ q ∈ l, lookup q (s.visited sym p).ctx = lookup q s.ctx := fun q hq =>
      s.visited_others sym fun e => hn.1 (e ▸ hq)
    have hmis := State.missing_congr hoth
    have hmc : s.missing (p :: l) = (if Memory.has s.ctx p then 0 else 1) + s.missing l := by
      simp only [State.missing, List.filter_cons]
      cases Memory.has s.ctx p <;> simp [Nat.add_comm]
    have hv : visitContext sym p s = .done () (s.visited sym p) := by
      rw [visitContext_eq]
      cases hh : Memory.has s.ctx p
      · have : s.params.nodeMax ≠ some s.nctx := fun e => by
          have := hc _ e
          rw [hmc, hh] at this
          simp only [Bool.false_eq_true, if_false] at this
          omega
        simp only [Bool.false_eq_true, if_false, if_neg this]
      · simp only [if_true, if_neg (hr p (by simp) hh)]
    rw [visitAll, hv, Res.done_andThen]
    refine visitAll_total sym l _ hn.2 (fun q hq hh => ?_) (fun n hn' => ?_)
    · have := hr q (List.mem_cons_of_mem _ hq) (by rw [← has_of_lookup (hoth q hq)]; exact hh)
      intro ht
      apply this
      simp only [State.total] at ht ⊢
      rw [← table_of_lookup (hoth q hq)]
      exact ht
    · have := hc n hn'
      rw [hmis]
      rw [hmc] at this
      simp only [State.visited]
      cases hh : Memory.has s.ctx p <;> simp only [hh, if_true, if_false, Bool.false_eq_true] at this ⊢ <;> omega

theorem State.updatePaths_nodup (s : State) : s.updatePaths.Nodup := by
  unfold State.updatePaths
  rw [List.nodup_map_iff_inj_on List.nodup_range]
  intro i hi j hj h
  rw [List.mem_range] at hi hj
  have := congrArg List.length h
  rw [List.length_take, List.length_take] at this
  simp only [State.hlen] at hi hj
  omega

theorem State.mem_updatePaths {s : State} {q : Path} :
    q ∈ s.updatePaths ↔ ∃ n, n ≤ min s.hlen s.K.toNat ∧ s.hist.take n = q := by
  simp only [State.updatePaths, List.mem_map, List.mem_range]
  constructor
  · rintro ⟨n, hn, h⟩
    exact ⟨n, by omega, h⟩
  · rintro ⟨n, hn, h⟩
    exact ⟨n, by omega, h⟩

/-! ### The invariants of the tree (10_state.md R45, R47, R48, R62) -/

/-- The table a context has after a count grew: its symbols are below SL, its total is in range. -/
theorem tableInRange_of_get {sl : Nat} {t t' : Table} {sym : Nat} (hw : Table.wf t = true) (hw' : Table.wf t' = true)
    (hs : sym < sl) (ht : TableInRange sl t) (hm : Table.total sl t ≠ Config.totalMax)
    (hg : ∀ j, Table.get t' j = Table.get t j + (if j = sym then 1 else 0)) : TableInRange sl t' := by
  obtain ⟨h1, h2, h3⟩ := ht
  have htot : Table.total sl t' = Table.total sl t + 1 := by
    rw [Table.total_eq_sum _ _ hw', Table.total_eq_sum _ _ hw, Finset.sum_congr rfl fun j _ => hg j,
      Finset.sum_add_distrib, Finset.sum_ite_eq' _ sym, if_pos (Finset.mem_range.mpr hs)]
  refine ⟨fun e he => ?_, by omega, by omega⟩
  by_contra hc
  have hl := lookup_of_mem symbolLt_order (k := e.1) (v := e.2) _ ((Table.wf_iff _).mp hw').1 he
  have h0 := ((Table.wf_iff _).mp hw').2 e he
  have hge := hg e.1
  rw [if_neg (by omega)] at hge
  have : Table.get t' e.1 = e.2 := by simp [Table.get, hl]
  rw [this] at hge
  have hx : lookup e.1 t = none := by
    cases hx : lookup e.1 t with
    | none => rfl
    | some c => exact absurd (h1 _ (mem_of_lookup _ hx)) hc
  simp [Table.get, hx] at hge
  exact h0 hge

theorem tableInRange_fresh {sl esc : Nat} (h : esc < sl) : TableInRange sl (Table.fresh esc) := by
  refine ⟨by simp [Table.fresh, h], ?_, ?_⟩ <;>
    simp [Table.total, Table.cumLow, Table.fresh, h, Config.totalMax]

theorem Memory.mem_iff {m : Memory} (hw : Memory.wf m = true) {e : Path × Table} : e ∈ m ↔ lookup e.1 m = some e.2 :=
  ⟨fun h => lookup_of_mem pathLt_order (k := e.1) (v := e.2) _ ((Memory.wf_iff _).mp hw).1 h, mem_of_lookup _⟩

theorem Memory.table_of_some {m : Memory} {p : Path} {t : Table} (h : lookup p m = some t) : Memory.table m p = t := by
  simp [Memory.table, h]

/-- The statistics update keeps the tree's invariants (R144, R145). -/
theorem updateContexts_tree {sym : Nat} {s u : State} (hw : Memory.wf s.ctx = true) (hc : s.LegalConfig)
    (hs : sym < s.SL) (ht : s.TreeAtRest) (h : updateContexts sym s = .done () u) : u.TreeAtRest := by
  unfold updateContexts at h
  split at h
  · cases h
    exact ht
  next hK =>
  have v := visitAll_done sym _ _ _ s.updatePaths_nodup h
  have hu := State.eq_of_sansModel v.updates.same
  have hP : u.params = s.params := (congrArg State.params v.updates.same).symm
  have hK' : u.K = s.K := (congrArg State.K v.updates.same).symm
  have hSL : u.SL = s.SL := (congrArg State.SL v.updates.same).symm
  have hhist := v.updates.hist
  have hwu := v.updates.wf hw
  have hKn : 0 ≤ s.K := by have := hc.2.2.1; omega
  have hhas : ∀ q, Memory.has u.ctx q = true → Memory.has s.ctx q = true ∨ q ∈ s.updatePaths := fun q hq => by
    by_cases hm : q ∈ s.updatePaths
    · exact .inr hm
    · rw [has_of_lookup (v.others q hm)] at hq
      exact .inl hq
  refine ⟨?_, ?_, ?_, ?_, ?_, ?_, ?_, ?_, ?_⟩
  · simp only [State.hlen, hhist, hK']
    exact ht.histLen
  · rw [hhist, hSL]
    exact ht.histSyms
  · intro h'
    rw [hK'] at h'
    exact absurd h' hK
  · intro _
    exact v.updates.has _ (ht.root hKn)
  · intro p x hpx
    rcases hhas _ hpx with h1 | h1
    · exact v.updates.has _ (ht.parents p x h1)
    · obtain ⟨n, hn, hq⟩ := State.mem_updatePaths.mp h1
      refine v.has _ (State.mem_updatePaths.mpr ⟨n - 1, by omega, ?_⟩)
      have hlen := congrArg List.length hq
      rw [List.length_take, List.length_append, List.length_singleton] at hlen
      have : s.hist.take (n - 1) = (s.hist.take n).take (n - 1) := by
        rw [List.take_take]
        congr 1
        omega
      simp only [State.hlen] at hn
      rw [this, hq, List.take_append_of_le_length (by omega), List.take_of_length_le (by omega)]
  · intro p hp
    rw [hK']
    rcases hhas _ hp with h1 | h1
    · exact ht.depth p h1
    · obtain ⟨n, hn, hq⟩ := State.mem_updatePaths.mp h1
      rw [← hq, List.length_take]
      omega
  · intro e he
    rw [hSL]
    have hl := (Memory.mem_iff hwu).mp he
    by_cases hm : e.1 ∈ s.updatePaths
    · have hte := Memory.table_of_some hl
      have hg := v.get hw _ hm
      rw [hte] at hg
      have hwe : Table.wf e.2 = true := ((Memory.wf_iff _).mp hwu).2 e he
      refine tableInRange_of_get (s.tableOrFresh_wf hw e.1) hwe hs ?_ ?_ hg
      · unfold State.tableOrFresh
        cases hh : Memory.has s.ctx e.1
        · exact tableInRange_fresh hc.2.2.2.2.2.2.2
        · obtain ⟨t, hx⟩ := Option.isSome_iff_exists.mp hh
          simp only [if_true, Memory.table_of_some hx]
          exact ht.tables (e.1, t) ((Memory.mem_iff hw).mpr hx)
      · unfold State.tableOrFresh
        cases hh : Memory.has s.ctx e.1
        · simp only [Bool.false_eq_true, if_false, Table.total, Table.cumLow, Table.fresh, List.filter_cons,
            List.filter_nil]
          split <;> simp [Config.totalMax]
        · exact v.room _ hm hh
    · rw [v.others _ hm] at hl
      exact ht.tables e ((Memory.mem_iff hw).mpr hl)
  · rw [v.nctx, v.length hw, ht.counted]
  · intro n hn
    rw [hP] at hn
    exact v.capacity n hn (ht.capacity n hn)

/-- The history update keeps the tree's invariants (R146, R47). -/
theorem State.pushHistory_tree {s : State} {sym : Nat} (hs : sym < s.SL) (ht : s.TreeAtRest) :
    (s.pushHistory sym).TreeAtRest := by
  unfold State.pushHistory
  split
  · exact ht
  · next hK =>
    refine ⟨?_, ?_, ht.noModel, ht.root, ht.parents, ht.depth, ht.tables, ht.counted, ht.capacity⟩
    · simp only [State.hlen, State.K, List.length_take] at hK ⊢
      omega
    · intro x hx
      rcases List.mem_cons.mp (List.mem_of_mem_take hx) with rfl | h
      · exact hs
      · exact ht.histSyms x h

/-- Setting a count to a value that keeps the total in range keeps the tree's invariants (41 R127, R129). -/
theorem State.setCount_tree {s : State} {p : Path} {sym c : Nat} (hw : Memory.wf s.ctx = true) (ht : s.TreeAtRest)
    (hp : Memory.has s.ctx p = true) (hs : sym < s.SL)
    (h1 : 1 ≤ s.total (.context p) - s.get (.context p) sym + c)
    (h2 : s.total (.context p) - s.get (.context p) sym + c ≤ Config.totalMax) : (s.setCount p sym c).TreeAtRest := by
  have hup := s.setCount_updates p sym c
  have hhas : ∀ q, Memory.has (s.setCount p sym c).ctx q = Memory.has s.ctx q := fun q => by
    simp only [State.setCount, Memory.has_write]
    by_cases hq : q = p
    · subst hq; simp [hp]
    · simp [hq]
  have htw := Memory.wf_table _ p hw
  have hK : s.K ≠ -1 := fun hK => by
    have := ht.noModel hK
    simp [Memory.has, this] at hp
  refine ⟨ht.histLen, ht.histSyms, fun h => absurd h hK, ?_, ?_, ?_, ?_, ?_, ht.capacity⟩
  · intro h
    rw [hhas]
    exact ht.root h
  · intro q x
    rw [hhas, hhas]
    exact ht.parents q x
  · intro q
    rw [hhas]
    exact ht.depth q
  · intro e he
    have hl := (Memory.mem_iff (hup.wf hw)).mp he
    simp only [State.setCount, Memory.lookup_write] at hl
    split at hl
    · next he1 =>
      rw [← Option.some.inj hl]
      obtain ⟨t, hx⟩ := Option.isSome_iff_exists.mp hp
      have hte := Memory.table_of_some hx
      have hr := ht.tables (p, t) ((Memory.mem_iff hw).mpr hx)
      rw [← hte] at hr
      have htot : Table.total s.SL (Table.set (Memory.table s.ctx p) sym c) =
          s.total (.context p) - s.get (.context p) sym + c := by
        have := Table.cumLow_set _ sym c s.SL htw
        have hle := Table.cumHigh_le_total _ htw hs
        rw [if_pos hs, if_pos hs] at this
        rw [Table.cumHigh, Table.total] at hle
        simp only [State.total, State.get, Table.total]
        omega
      refine ⟨fun f hf => ?_, ?_, ?_⟩
      · rcases Table.mem_set _ _ _ htw f hf with h | h
        · exact hr.1 f h
        · rw [h]; exact hs
      · show 1 ≤ Table.total s.SL _
        rw [htot]
        exact h1
      · show Table.total s.SL _ ≤ _
        rw [htot]
        exact h2
    · exact ht.tables e ((Memory.mem_iff hw).mpr hl)
  · show s.nctx = (Memory.write s.ctx p _).length
    rw [Memory.length_write _ _ _ hw, hp, if_pos rfl]
    exact ht.counted

end Sys2Proof.Machine
end

