-- ==== Sys2Proof/Laws/Commands.lean ====
section
/-! SUPPORT. Every command as the checks of 60_exceptions.md R235 around its own body, what the bodies can do, and what a
command can end in (30_encoding.md R88). -/

namespace Sys2Proof.Machine

/-! ### The checks -/

/-- What a command does once it is legal and accepted. -/
def body : Instr → State → Res Response
  | .crw r v => fun s => .done (.okNat 0) (s.setConfig r v)
  | .crr r => fun s =>
    if s.phase = .fault ∧ lostRegister r then
      .done (.ok (s.lostReg r)) { s with freeCount := s.freeCount + 1 }
    else .done (.ok (s.controlReg r)) s
  | .start m => fun s =>
    match s.configError with
    | some r => .stop (.raised .config r) s
    | none => .done (.okNat 0) (s.openRun m)
  | .brd => fun s =>
    (readBit s).andThen fun r s =>
      match r with
      | none => .done (.okNat 2) s
      | some b => .done (.okNat b.toNat) s
  | .bwr b => fun s => (writeBit b s).andThen fun _ s => .done (.okNat 0) s
  | .bclose => fun s => (closeStream s).andThen fun _ s => .done (.okNat 0) { s with phase := .closed }
  | .ftot o => fun s => withTable o s fun t s => .done (.okNat (s.total t)) s
  | .fget o sym => fun s =>
    withSymbol sym s fun s => withTable o s fun t s => .done (.okNat (s.get t sym.toNat)) s
  | .flow o sym => fun s =>
    withSymbol sym s fun s => withTable o s fun t s => .done (.okNat (s.cumLow t sym.toNat)) s
  | .fhigh o sym => fun s =>
    withSymbol sym s fun s => withTable o s fun t s => .done (.okNat (s.cumHigh t sym.toNat)) s
  | .finc o sym => fun s =>
    withSymbol sym s fun s => withTable o s fun t s =>
      withWritable (.finc o sym) t s fun p s => increment p sym.toNat s
  | .fset o sym c => fun s =>
    withSymbol sym s fun s => withTable o s fun t s =>
      withWritable (.fset o sym c) t s fun p s => assignCount p sym.toNat c.toNat s
  | .cwalk o => fun s => withTable o s fun _ s => .done (.okNat 0) s
  | .cinc sym => fun s =>
    withSymbol sym s fun s => (updateContexts sym.toNat s).andThen fun _ s => .done (.okNat 0) s
  | .hpush sym => fun s => withSymbol sym s fun s => .done (.okNat 0) (s.pushHistory sym.toNat)
  | .hrd idx => fun s =>
    match s.hist[idx.toNat]? with
    | none => .done .absent s
    | some sym => .done (.okNat sym) s
  | .narrow o sym => fun s =>
    withSymbol sym s fun s => withTable o s fun t s =>
      (codeStep t sym.toNat s).andThen fun _ s => .done (.okNat 0) s
  | .finish => fun s => (writeBit true s).andThen fun _ s => .done (.okNat 0) s
  | .dinit => fun s =>
    (loadCode s.P (s.setCode 0)).andThen fun _ s => .done (.okNat 0) { s with codeValid := true }
  | .decode o => fun s =>
    withTable o s fun t s => (decodeWith t s).andThen fun sym s => .done (.okNat sym) s
  | .rcrd r => fun s => .done (.ok ((s.coderReg r).zeroExtend 64)) s
  | .encsym sym => fun s =>
    withSymbol sym s fun s =>
      (encodeSearch sym.toNat (s.hlen + 1) s).andThen fun _ s =>
        (updateModel sym.toNat s).andThen fun _ s => .done (.okNat 0) s
  | .decsym => fun s =>
    (decodeSearch (s.hlen + 1) s).andThen fun sym s =>
      (updateModel sym s).andThen fun _ s => .done (.okNat sym) s

/-- Every command is the checks of R235 around its body. -/
theorem exec_eq (i : Instr) (s : State) : exec i s = .next (runCommand i s (body i)) := by
  cases i <;> rfl

/-- Phase FAULT refuses every command but a legal `CRR` (R241). -/
theorem runCommand_refused {i : Instr} {s : State} {b : State → Res Response} (hp : s.phase = .fault)
    (h : i.opcode ≠ .crr ∨ i.wellFormed = false) : runCommand i s b = s.refuse := by
  unfold runCommand
  rw [if_pos]
  refine ⟨hp, fun hc => ?_⟩
  rcases h with h | h
  · exact h hc.1
  · rw [h] at hc
    exact absurd hc.2 (by simp)

/-- An illegal command raises E_ILLEGAL (R86). -/
theorem runCommand_illegal {i : Instr} {s : State} {b : State → Res Response} (hp : s.phase ≠ .fault)
    (h : i.wellFormed = false) : runCommand i s b = s.raise .illegal (Instr.info i) := by
  unfold runCommand
  rw [if_neg (fun hc => hp hc.1), if_pos (by simp [h])]

/-- A command that is not accepted raises E_SEQUENCE (R90). -/
theorem runCommand_sequence {i : Instr} {s : State} {b : State → Res Response} (hp : s.phase ≠ .fault)
    (h : i.wellFormed = true) (ha : s.accepts i.opcode = false) :
    runCommand i s b = s.raise .sequence (Instr.info i) := by
  unfold runCommand
  rw [if_neg (fun hc => hp hc.1), if_neg (by simp [h]), if_pos (by simp [ha])]

/-- A legal command that is accepted runs its body. -/
theorem runCommand_accepted {i : Instr} {s : State} {b : State → Res Response} (h : i.wellFormed = true)
    (ha : s.accepts i.opcode = true) : runCommand i s b = finishCommand (b s) := by
  unfold runCommand
  rw [if_neg, if_neg (by simp [h]), if_neg (by simp [ha])]
  rintro ⟨hp, hc⟩
  refine hc ⟨?_, h⟩
  simpa [State.accepts, hp] using ha

/-- What a command can do: be refused, raise a fault before its body, or run its body. -/
theorem exec_cases (i : Instr) (s : State) :
    (s.phase = .fault ∧ exec i s = .next s.refuse) ∨
      (s.phase ≠ .fault ∧ ∃ cause info, exec i s = .next (s.raise cause info)) ∨
      (i.wellFormed = true ∧ s.accepts i.opcode = true ∧ exec i s = .next (finishCommand (body i s))) := by
  rw [exec_eq]
  by_cases hw : i.wellFormed = true
  · by_cases ha : s.accepts i.opcode = true
    · exact .inr (.inr ⟨hw, ha, by rw [runCommand_accepted hw ha]⟩)
    · rw [Bool.not_eq_true] at ha
      by_cases hp : s.phase = .fault
      · refine .inl ⟨hp, ?_⟩
        rw [runCommand_refused hp (.inl fun e => ?_)]
        simp [State.accepts, hp, e] at ha
      · exact .inr (.inl ⟨hp, _, _, by rw [runCommand_sequence hp hw ha]⟩)
  · rw [Bool.not_eq_true] at hw
    by_cases hp : s.phase = .fault
    · exact .inl ⟨hp, by rw [runCommand_refused hp (.inr hw)]⟩
    · exact .inr (.inl ⟨hp, _, _, by rw [runCommand_illegal hp hw]⟩)

/-- The same, read from what a command answered. -/
theorem exec_next {i : Instr} {s t : State} (h : exec i s = .next t) :
    (s.phase = .fault ∧ t = s.refuse) ∨ (s.phase ≠ .fault ∧ ∃ cause info, t = s.raise cause info) ∨
      (i.wellFormed = true ∧ s.accepts i.opcode = true ∧ t = finishCommand (body i s)) := by
  rcases exec_cases i s with ⟨a, b⟩ | ⟨a, c, n, b⟩ | ⟨a, b, c⟩
  · rw [h] at b
    injection b with b
    exact .inl ⟨a, b⟩
  · rw [h] at b
    injection b with b
    exact .inr (.inl ⟨a, c, n, b⟩)
  · rw [h] at c
    injection c with c
    exact .inr (.inr ⟨a, b, c⟩)

/-- The three ways a body ends, and how the command ends in each. -/
theorem finishCommand_cases (r : Res Response) :
    (∃ a u, r = .done a u ∧ finishCommand r = u.respond a) ∨
      (∃ c n u, r = .stop (.raised c n) u ∧ finishCommand r = u.raise c n) ∨
      (∃ p u, r = .stop (.waiting p) u ∧ finishCommand r = { u with busy := some p }) := by
  cases r with
  | done a u => exact .inl ⟨a, u, rfl, rfl⟩
  | stop w u =>
    cases w with
    | raised c n => exact .inr (.inl ⟨c, n, u, rfl, rfl⟩)
    | waiting p => exact .inr (.inr ⟨p, u, rfl, rfl⟩)

/-- Phase FAULT accepts `CRR` alone (R241). -/
theorem State.accepts_fault {s : State} {op : Opcode} (h : s.phase = .fault) (ha : s.accepts op = true) : op = .crr := by
  simpa [State.accepts, h] using ha

/-- An accepted legal command answers what its body ends in. -/
theorem exec_accepted {i : Instr} {s : State} (h : i.wellFormed = true) (ha : s.accepts i.opcode = true) :
    exec i s = .next (finishCommand (body i s)) := by
  rw [exec_eq, runCommand_accepted h ha]

/-- A command whose body completes answers its response. -/
theorem exec_done {i : Instr} {s u : State} {r : Response} (h : i.wellFormed = true)
    (ha : s.accepts i.opcode = true) (hb : body i s = .done r u) : exec i s = .next (u.respond r) := by
  rw [exec_accepted h ha, hb]
  rfl

/-- A command whose body raises a fault enters it. -/
theorem exec_raised {i : Instr} {s u : State} {c : Cause} {n : Nat} (h : i.wellFormed = true)
    (ha : s.accepts i.opcode = true) (hb : body i s = .stop (.raised c n) u) : exec i s = .next (u.raise c n) := by
  rw [exec_accepted h ha, hb]
  rfl

/-- A command that leaves the phase RUN and waits for no port is an accepted one whose body completed. -/
theorem exec_ran {i : Instr} {s u : State} (h : exec i s = .next u) (hp : u.phase ≠ .fault) (hb : u.busy = none)
    (hm : ∀ s : State, s.phase = .fault → u = s.refuse → False := fun s hs e => hp (by rw [e]; exact hs)) :
    i.wellFormed = true ∧ s.accepts i.opcode = true ∧ ∃ r v, body i s = .done r v ∧ u = v.respond r := by
  rcases exec_cases i s with ⟨hf, he⟩ | ⟨_, c, n, he⟩ | ⟨hw, ha, he⟩ <;> rw [he] at h <;> injection h with h
  · exact (hm s hf h.symm).elim
  · subst h
    exact absurd rfl hp
  · refine ⟨hw, ha, ?_⟩
    cases hr : body i s with
    | done r v => rw [hr] at h; exact ⟨r, v, rfl, h.symm⟩
    | stop w v =>
      rw [hr] at h
      cases w with
      | raised c n => subst h; exact absurd rfl hp
      | waiting p => subst h; cases hb

/-! ### Operands -/

theorem withSymbol_lt {sym : SymField} {s : State} {k : State → Res Response} (h : sym.toNat < s.SL) :
    withSymbol sym s k = k s := by
  unfold withSymbol
  rw [if_neg (by omega)]

theorem withSymbol_ge {sym : SymField} {s : State} {k : State → Res Response} (h : s.SL ≤ sym.toNat) :
    withSymbol sym s k = .stop (.raised .symbol sym.toNat) s := by
  unfold withSymbol
  rw [if_pos h]

theorem withTable_some {o : Order} {s : State} {t : TableRef} {k : TableRef → State → Res Response}
    (h : s.resolve o.toInt = some t) : withTable o s k = k t s := by
  unfold withTable
  rw [h]

theorem withTable_none {o : Order} {s : State} {k : TableRef → State → Res Response}
    (h : s.resolve o.toInt = none) : withTable o s k = .done .absent s := by
  unfold withTable
  rw [h]

/-- A symbol check passes or ends the command with the state untouched. -/
theorem withSymbol_rel {R : State → State → Prop} {sym : SymField} {s : State} {k : State → Res Response}
    (refl : R s s) (h : sym.toNat < s.SL → R s (k s).final) : R s (withSymbol sym s k).final := by
  by_cases hs : sym.toNat < s.SL
  · rw [withSymbol_lt hs]
    exact h hs
  · rw [withSymbol_ge (by omega)]
    exact refl

/-- A designator resolves or the command answers ABSENT with the state untouched. -/
theorem withTable_rel {R : State → State → Prop} {o : Order} {s : State} {k : TableRef → State → Res Response}
    (refl : R s s) (h : ∀ t, s.resolve o.toInt = some t → R s (k t s).final) : R s (withTable o s k).final := by
  cases ht : s.resolve o.toInt with
  | none => rw [withTable_none ht]; exact refl
  | some t => rw [withTable_some ht]; exact h t ht

/-- A context that a designator resolves to exists (R141). -/
theorem State.resolve_has {s : State} {o : Int} {p : Path} (h : s.resolve o = some (.context p)) :
    Memory.has s.ctx p = true := by
  unfold State.resolve at h
  split at h
  · cases h
  · split at h
    · cases h
    · split at h
      · next hh => cases h; exact hh
      · cases h

/-! ### The searches of the symbol driver -/

theorem encodeSearch_encodes (sym : Nat) : ∀ (n : Nat) {s : State}, s.mode = .enc →
    Encodes s (encodeSearch sym n s).final
  | 0, s, hm => codeStep_encodes _ _ hm
  | n + 1, s, hm => by
    rw [encodeSearch]
    split
    · exact encodeSearch_encodes sym n hm
    · next t _ =>
      split
      · exact codeStep_encodes _ _ hm
      · refine Res.final_andThen Encodes (fun _ _ _ => Encodes.trans) (codeStep_encodes t s.ESC hm) fun _ v hv => ?_
        have := codeStep_encodes t s.ESC hm
        rw [final_done hv] at this
        exact encodeSearch_encodes sym n (this.mode.trans hm)

theorem decodeSearch_decodes : ∀ (n : Nat) {s : State}, s.mode = .dec → Decodes s (decodeSearch n s).final
  | 0, s, hm => decodeWith_decodes _ hm
  | n + 1, s, hm => by
    rw [decodeSearch]
    split
    · exact decodeSearch_decodes n hm
    · next t _ =>
      refine Res.final_andThen Decodes (fun _ _ _ => Decodes.trans) (decodeWith_decodes t hm) fun y v hv => ?_
      have := decodeWith_decodes t hm
      rw [final_done hv] at this
      split
      · exact Decodes.refl v
      · exact decodeSearch_decodes n (this.mode.trans hm)

/-- The encoder's search that completes ends at rest (R191, R21). -/
theorem encodeSearch_rest {sym : Nat} : ∀ {n : Nat} {s u : State}, s.mode = .enc → s.LegalConfig → s.IntervalAtRest →
    Memory.wf s.ctx = true → sym < s.SL → encodeSearch sym n s = .done () u → u.IntervalAtRest
  | 0, s, u, hm, hc, hr, hw, hs, h => by
    obtain ⟨a, b, -, hrest⟩ := codeStep_enc_done hc.1 hc.2.1 hm hr hw hs h
    exact hrest
  | n + 1, s, u, hm, hc, hr, hw, hs, h => by
    rw [encodeSearch] at h
    split at h
    · exact encodeSearch_rest hm hc hr hw hs h
    next t _ =>
      split at h
      · obtain ⟨a, b, -, hrest⟩ := codeStep_enc_done hc.1 hc.2.1 hm hr hw hs h
        exact hrest
      · obtain ⟨_, v, hv, h⟩ := Res.andThen_eq_done h
        obtain ⟨a, b, -, hrest⟩ := codeStep_enc_done hc.1 hc.2.1 hm hr hw hc.2.2.2.2.2.2.2 hv
        have he := codeStep_encodes t s.ESC hm
        rw [final_done hv] at he
        exact encodeSearch_rest (he.mode.trans hm) (by rwa [he.LegalConfig]) hrest (by rwa [he.ctx]) (by rwa [he.SL]) h

/-- The decoder's search that completes found a symbol and ends at rest with `code` inside (R195, R22). -/
theorem decodeSearch_rest : ∀ {n : Nat} {sym : Nat} {s u : State}, s.mode = .dec → s.LegalConfig → s.IntervalAtRest →
    Memory.wf s.ctx = true → s.low.toNat ≤ s.code.toNat → s.code.toNat ≤ s.high.toNat →
    decodeSearch n s = .done sym u →
    sym < s.SL ∧ u.IntervalAtRest ∧ u.low.toNat ≤ u.code.toNat ∧ u.code.toNat ≤ u.high.toNat
  | 0, sym, s, u, hm, hc, hr, hw, h1, h2, h =>
    decodeWith_rest hc.1 hc.2.1 hm hr hw hc.2.2.2.2.1 h1 h2 h
  | n + 1, sym, s, u, hm, hc, hr, hw, h1, h2, h => by
    rw [decodeSearch] at h
    split at h
    · exact decodeSearch_rest hm hc hr hw h1 h2 h
    next t _ =>
      obtain ⟨y, v, hv, h⟩ := Res.andThen_eq_done h
      have hd := decodeWith_rest hc.1 hc.2.1 hm hr hw hc.2.2.2.2.1 h1 h2 hv
      split at h
      · cases h
        exact hd
      · have he := decodeWith_decodes t hm
        rw [final_done hv] at he
        rw [← he.SL]
        exact decodeSearch_rest (he.mode.trans hm) (by rwa [he.LegalConfig]) hd.2.1 (by rwa [he.ctx]) hd.2.2.1
          hd.2.2.2 h

/-- What the decoder's search finds is a symbol (R195). -/
theorem decodeSearch_lt : ∀ {n : Nat} {sym : Nat} {s u : State}, s.mode = .dec → 1 ≤ s.SL →
    decodeSearch n s = .done sym u → sym < s.SL
  | 0, sym, s, u, _, hS, h => by
    rw [(decodeWith_done h).2.2.1]
    exact s.findSymbol_lt _ _ hS
  | n + 1, sym, s, u, hm, hS, h => by
    rw [decodeSearch] at h
    split at h
    · exact decodeSearch_lt hm hS h
    next t _ =>
      obtain ⟨y, v, hv, h⟩ := Res.andThen_eq_done h
      have he := decodeWith_decodes t hm
      rw [final_done hv] at he
      split at h
      · cases h
        rw [(decodeWith_done hv).2.2.1]
        exact s.findSymbol_lt _ _ hS
      · rw [← he.SL]
        exact decodeSearch_lt (he.mode.trans hm) (by rwa [he.SL]) h

/-- `u` is `s` after a model update, or after trying to: only the tree and the history differ. -/
structure Models (s u : State) : Prop where
  same : s.sansModel = u.sansModel
  wf   : Memory.wf s.ctx = true → Memory.wf u.ctx = true
  has  : ∀ p, Memory.has s.ctx p = true → Memory.has u.ctx p = true
  nctx : s.nctx ≤ u.nctx

theorem Models.refl (s : State) : Models s s := ⟨rfl, id, fun _ => id, le_refl _⟩

theorem Models.trans {a b c : State} (h1 : Models a b) (h2 : Models b c) : Models a c :=
  ⟨h1.same.trans h2.same, fun h => h2.wf (h1.wf h), fun p h => h2.has p (h1.has p h), le_trans h1.nctx h2.nctx⟩

theorem Updates.models {s u : State} (h : Updates s u) : Models s u := ⟨h.same, h.wf, h.has, h.nctx⟩

theorem State.pushHistory_models (s : State) (sym : Nat) : Models s (s.pushHistory sym) := by
  unfold State.pushHistory
  split
  · exact Models.refl s
  · exact ⟨rfl, id, fun _ => id, le_refl _⟩

theorem updateModel_models (sym : Nat) (s : State) : Models s (updateModel sym s).final :=
  Res.final_andThen Models (fun _ _ _ => Models.trans) (updateContexts_updates sym s).models fun _ v _ =>
    v.pushHistory_models sym

/-! ### What a body leaves alone -/

/-- All but what a run changes: the configuration, the phase, the mode, the parameters, and what the host sees. -/
def State.sansRun (s : State) : State :=
  { s with
    low := 0, high := 0, code := 0, pending := 0, wbuf := 0, wcnt := 0, rbuf := 0, rcnt := 0, eos := false
    tailbits := 0, input := [], sink := [], calls := [], ctx := [], nctx := 0, hist := [], codeValid := false }

/-- `u` is `s` after a command's work inside a run, or after part of it. -/
structure Runs (s u : State) : Prop where
  same  : s.sansRun = u.sansRun
  wf    : Memory.wf s.ctx = true → Memory.wf u.ctx = true
  has   : ∀ p, Memory.has s.ctx p = true → Memory.has u.ctx p = true
  nctx  : s.nctx ≤ u.nctx
  calls : ∃ l, u.calls = s.calls ++ l ∧ ∀ c ∈ l,
            (s.mode = .enc → ∃ x a, c = .outByte x a) ∧ (s.mode = .dec → ∃ a, c = .inByte a)

theorem Runs.refl (s : State) : Runs s s := ⟨rfl, id, fun _ => id, le_refl _, [], by simp⟩

theorem Runs.trans {a b c : State} (h1 : Runs a b) (h2 : Runs b c) : Runs a c := by
  obtain ⟨l, hl, ha⟩ := h1.calls
  obtain ⟨m, hm, hb⟩ := h2.calls
  have hmode : b.mode = a.mode := (congrArg State.mode h1.same).symm
  refine ⟨h1.same.trans h2.same, fun h => h2.wf (h1.wf h), fun p h => h2.has p (h1.has p h),
    le_trans h1.nctx h2.nctx, l ++ m, by rw [hm, hl, List.append_assoc], fun c hc => ?_⟩
  rcases List.mem_append.mp hc with h | h
  · exact ha c h
  · rw [← hmode]
    exact hb c h

theorem Encodes.runs {s u : State} (h : Encodes s u) (hm : s.mode = .enc) : Runs s u where
  same := by have := congrArg State.sansRun h.same; exact this
  wf hw := by have e : s.ctx = u.ctx := by { have := congrArg State.ctx h.same; exact this }
              rwa [← e]
  has p hp := by have e : s.ctx = u.ctx := by { have := congrArg State.ctx h.same; exact this }
                 rwa [← e]
  nctx := by have := congrArg State.nctx h.same; exact Nat.le_of_eq this
  calls := by
    obtain ⟨l, hl, hc⟩ := h.calls
    exact ⟨l, hl, fun c h => ⟨fun _ => hc c h, fun hd => by rw [hm] at hd; cases hd⟩⟩

theorem Decodes.runs {s u : State} (h : Decodes s u) (hm : s.mode = .dec) : Runs s u where
  same := by have := congrArg State.sansRun h.same; exact this
  wf hw := by have e : s.ctx = u.ctx := by { have := congrArg State.ctx h.same; exact this }
              rwa [← e]
  has p hp := by have e : s.ctx = u.ctx := by { have := congrArg State.ctx h.same; exact this }
                 rwa [← e]
  nctx := by have := congrArg State.nctx h.same; exact Nat.le_of_eq this
  calls := by
    obtain ⟨l, hl, hc⟩ := h.calls
    exact ⟨l, hl, fun c h => ⟨(fun hd => by rw [hm] at hd; cases hd), fun _ => hc c h⟩⟩

theorem Models.runs {s u : State} (h : Models s u) : Runs s u where
  same := by have := congrArg State.sansRun h.same; exact this
  wf := h.wf
  has := h.has
  nctx := h.nctx
  calls := ⟨[], by rw [List.append_nil]; exact (congrArg State.calls h.same).symm, by simp⟩

/-- Where a command is accepted, by the mode it needs (R90). -/
theorem State.accepts_encMode {s : State} {op : Opcode} (h : s.accepts op = true)
    (ho : op = .bwr ∨ op = .narrow ∨ op = .finish ∨ op = .encsym) : s.phase = .run ∧ s.mode = .enc := by
  unfold State.accepts at h
  cases hp : s.phase <;> cases hm : s.mode <;> rcases ho with rfl | rfl | rfl | rfl <;>
    simp_all [acceptsRun, acceptsEnc, acceptsDec, acceptsUnconf, acceptsClosed]

theorem State.accepts_decMode {s : State} {op : Opcode} (h : s.accepts op = true)
    (ho : op = .brd ∨ op = .dinit ∨ op = .decode ∨ op = .decsym) :
    s.phase = .run ∧ s.mode = .dec ∧ (op = .dinit → s.codeValid = false) ∧
      (op = .decode ∨ op = .decsym → s.codeValid = true) := by
  unfold State.accepts at h
  cases hp : s.phase <;> cases hm : s.mode <;> rcases ho with rfl | rfl | rfl | rfl <;>
    simp_all [acceptsRun, acceptsEnc, acceptsDec, acceptsUnconf, acceptsClosed]

/-- The commands that work inside a run and leave its phase. -/
def worksInRun : Opcode → Bool
  | .crw | .crr | .start | .bclose => false
  | _ => true

/-- What the body of a command inside a run can do, wherever it ends. -/
theorem body_runs {i : Instr} {s : State} (ha : s.accepts i.opcode = true) (hi : worksInRun i.opcode = true) :
    Runs s (body i s).final := by
  have tr : ∀ a b c : State, Runs a b → Runs b c → Runs a c := fun _ _ _ => Runs.trans
  cases i with
  | crw => cases hi
  | crr => cases hi
  | start => cases hi
  | bclose => cases hi
  | brd =>
    have hm := (State.accepts_decMode ha (.inl rfl)).2.1
    refine Res.final_andThen Runs tr ((readBit_reads s).decodes.runs hm) fun r v _ => ?_
    cases r <;> exact Runs.refl v
  | bwr b =>
    have hm := (State.accepts_encMode ha (.inl rfl)).2
    exact Res.final_andThen Runs tr ((writeBit_writes b s).encodes.runs hm) fun r v _ => Runs.refl v
  | ftot o => exact withTable_rel (Runs.refl s) fun _ _ => Runs.refl s
  | fget o sym =>
    simp only [body]
    exact withSymbol_rel (Runs.refl s) fun _ => withTable_rel (Runs.refl s) fun _ _ => Runs.refl s
  | flow o sym =>
    simp only [body]
    exact withSymbol_rel (Runs.refl s) fun _ => withTable_rel (Runs.refl s) fun _ _ => Runs.refl s
  | fhigh o sym =>
    simp only [body]
    exact withSymbol_rel (Runs.refl s) fun _ => withTable_rel (Runs.refl s) fun _ _ => Runs.refl s
  | finc o sym =>
    simp only [body]
    refine withSymbol_rel (Runs.refl s) fun _ => withTable_rel (Runs.refl s) fun t _ => ?_
    cases t with
    | flat => exact Runs.refl s
    | context p =>
      exact Res.final_andThen Runs tr (increment_updates p _ s).models.runs fun _ v _ => Runs.refl v
  | fset o sym c =>
    simp only [body]
    refine withSymbol_rel (Runs.refl s) fun _ => withTable_rel (Runs.refl s) fun t _ => ?_
    cases t with
    | flat => exact Runs.refl s
    | context p =>
      exact Res.final_andThen Runs tr (assignCount_updates p _ _ s).models.runs fun _ v _ => Runs.refl v
  | cwalk o => exact withTable_rel (Runs.refl s) fun _ _ => Runs.refl s
  | cinc sym =>
    simp only [body]
    exact withSymbol_rel (Runs.refl s) fun _ =>
      Res.final_andThen Runs tr (updateContexts_updates _ s).models.runs fun _ v _ => Runs.refl v
  | hpush sym =>
    simp only [body]
    exact withSymbol_rel (Runs.refl s) fun _ => (s.pushHistory_models _).runs
  | hrd idx =>
    simp only [body]
    split <;> exact Runs.refl s
  | narrow o sym =>
    have hm := (State.accepts_encMode ha (.inr (.inl rfl))).2
    simp only [body]
    exact withSymbol_rel (Runs.refl s) fun _ => withTable_rel (Runs.refl s) fun t _ =>
      Res.final_andThen Runs tr ((codeStep_encodes t _ hm).runs hm) fun _ v _ => Runs.refl v
  | finish =>
    have hm := (State.accepts_encMode ha (.inr (.inr (.inl rfl)))).2
    exact Res.final_andThen Runs tr ((writeBit_writes true s).encodes.runs hm) fun r v _ => Runs.refl v
  | dinit =>
    have hm := (State.accepts_decMode ha (.inr (.inl rfl))).2.1
    have h0 : Decodes s (s.setCode 0) := ⟨rfl, [], by simp⟩
    exact Res.final_andThen Runs tr ((h0.trans (loadCode_decodes s.P _)).runs hm) fun r v _ =>
      ⟨rfl, id, fun _ => id, le_refl _, [], by simp⟩
  | decode o =>
    have hm := (State.accepts_decMode ha (.inr (.inr (.inl rfl)))).2.1
    simp only [body]
    exact withTable_rel (Runs.refl s) fun t _ =>
      Res.final_andThen Runs tr ((decodeWith_decodes t hm).runs hm) fun _ v _ => Runs.refl v
  | rcrd r => exact Runs.refl s
  | encsym sym =>
    have hm := (State.accepts_encMode ha (.inr (.inr (.inr rfl)))).2
    simp only [body]
    exact withSymbol_rel (Runs.refl s) fun _ =>
      Res.final_andThen Runs tr ((encodeSearch_encodes _ _ hm).runs hm) fun _ v _ =>
        Res.final_andThen Runs tr (updateModel_models _ v).runs fun _ w _ => Runs.refl w
  | decsym =>
    have hm := (State.accepts_decMode ha (.inr (.inr (.inr rfl)))).2.1
    exact Res.final_andThen Runs tr ((decodeSearch_decodes _ hm).runs hm) fun y v _ =>
      Res.final_andThen Runs tr (updateModel_models y v).runs fun _ w _ => Runs.refl w

/-! ### The bodies of the commands that are not inside a run -/

theorem body_crr (r : SymField) (s : State) : ∃ v n, body (.crr r) s = .done (.ok v) { s with freeCount := n } := by
  simp only [body]
  split
  · exact ⟨_, _, rfl⟩
  · exact ⟨_, s.freeCount, rfl⟩

theorem flushBits_writes (s : State) : Writes s (flushBits s).final := by
  unfold flushBits
  split
  · exact Res.final_andThen Writes (fun _ _ _ => Writes.trans) (outByte_writes _ s) fun _ v _ => ⟨rfl, [], by simp⟩
  · exact Writes.refl s

/-- `BCLOSE` closes the stream of its mode, or stops while it flushes (40_bit_channel.md R105). -/
theorem body_bclose (s : State) :
    (∃ u, s.mode = .enc ∧ Writes s u ∧
      body .bclose s = .done (.okNat 0) { u with phase := .closed, calls := u.calls ++ [.outClose] }) ∨
    (s.mode = .dec ∧
      body .bclose s = .done (.okNat 0) { s with phase := .closed, calls := s.calls ++ [.inClose] }) ∨
    (∃ w u, s.mode = .enc ∧ Writes s u ∧ body .bclose s = .stop w u) := by
  have hf := flushBits_writes s
  have henc : s.mode = .enc → closeStream s = (flushBits s).andThen fun _ s => .done () (outClose s) := fun hm => by
    rw [closeStream, hm]
  have hdec : s.mode = .dec → closeStream s = .done () (inClose s) := fun hm => by
    rw [closeStream, hm]
  by_cases hm : s.mode = .enc
  · have hb : body .bclose s = ((flushBits s).andThen fun _ s => .done () (outClose s)).andThen
        fun _ s => .done (.okNat 0) { s with phase := .closed } := by
      simp only [body, henc hm]
    cases hx : flushBits s with
    | done a u =>
      rw [hx] at hf hb
      exact .inl ⟨u, hm, hf, hb⟩
    | stop w u =>
      rw [hx] at hf hb
      exact .inr (.inr ⟨w, u, hm, hf, hb⟩)
  · have hm : s.mode = .dec := by
      cases h : s.mode
      · exact absurd h hm
      · rfl
    have hb : body .bclose s = (Res.done () (inClose s)).andThen
        fun _ s => .done (.okNat 0) { s with phase := .closed } := by
      simp only [body, hdec hm]
    exact .inr (.inl ⟨hm, hb⟩)

/-- Outside phase RUN, the body of a command that works in a run leaves the state as it is (R90). -/
theorem body_quiet {i : Instr} {s : State} (ha : s.accepts i.opcode = true) (hi : worksInRun i.opcode = true)
    (hp : s.phase ≠ .run) : (body i s).final = s := by
  have hc : acceptsClosed i.opcode = true := by
    unfold State.accepts at ha
    cases h : s.phase <;> simp only [h] at ha
    · cases i <;> simp_all [Instr.opcode, acceptsUnconf, worksInRun]
    · exact absurd h hp
    · exact ha
    · cases i <;> simp_all [Instr.opcode, worksInRun]
  have ws : ∀ (sym : SymField) (k : State → Res Response), (k s).final = s → (withSymbol sym s k).final = s :=
    fun sym k hk => withSymbol_rel (R := fun a b => b = a) rfl fun _ => hk
  have wt : ∀ (o : Order) (k : TableRef → State → Res Response), (∀ t, (k t s).final = s) →
      (withTable o s k).final = s :=
    fun o k hk => withTable_rel (R := fun a b => b = a) rfl fun t _ => hk t
  cases i <;> simp only [Instr.opcode, acceptsClosed, Bool.false_eq_true] at hc
  case crr => cases hi
  case ftot o => exact wt _ _ fun _ => rfl
  case fget o sym =>
    simp only [body]
    refine ws _ _ ?_
    exact wt _ _ fun _ => rfl
  case flow o sym =>
    simp only [body]
    refine ws _ _ ?_
    exact wt _ _ fun _ => rfl
  case fhigh o sym =>
    simp only [body]
    refine ws _ _ ?_
    exact wt _ _ fun _ => rfl
  case cwalk o => exact wt _ _ fun _ => rfl
  case hrd idx =>
    simp only [body]
    split <;> rfl
  case rcrd r => rfl

/-! ### Steps -/

/-- What every part of a step keeps, a step keeps: the host's queue moving on, reset, an illegal word, a command. -/
theorem step_keeps {Inv : State → Prop} (hhost : ∀ s r, Inv s → Inv { s with host := r })
    (hreset : ∀ s i o, Inv s → Inv (s.resetBlock i o)) (hcut : ∀ s t k i o, Inv s → Inv (cutShort s t k i o))
    (hill : ∀ s w, Inv s → s.busy = none → Inv (illegalWord w s))
    (hexec : ∀ i s t, Inv s → s.busy = none → exec i s = .next t → Inv t) (s t : State) (hs : Inv s)
    (h : step s = .next t) : Inv t := by
  have hw : ∀ w s t, Inv s → s.busy = none → execWord w s = .next t → Inv t := by
    intro w s t hs hb h
    unfold execWord at h
    split at h
    · exact hexec _ _ _ hs hb h
    · injection h with h
      subst h
      exact hill _ _ hs hb
  unfold step at h
  split at h
  · injection h with h
    exact h ▸ hs
  · injection h with h
    subst h
    exact hreset _ _ _ (hhost _ _ hs)
  · split at h
    · cases h
    · next rest _ _ hb => exact hw _ _ _ (hhost s rest hs) hb h
  · split at h
    · cases h
    · split at h
      · injection h with h
        subst h
        exact hcut _ _ _ _ _ (hhost _ _ hs)
      · next hne => exact absurd h (hne t)

/-- A command that is not inside a run. -/
theorem worksInRun_false {i : Instr} (h : worksInRun i.opcode = false) :
    (∃ r v, i = .crw r v) ∨ (∃ r, i = .crr r) ∨ (∃ m, i = .start m) ∨ i = .bclose := by
  cases i <;> simp_all [worksInRun, Instr.opcode]

theorem State.accepts_start {s : State} (ha : s.accepts .start = true) : s.phase = .unconf := by
  cases hp : s.phase <;> cases hm : s.mode <;>
    simp_all [State.accepts, acceptsRun, acceptsEnc, acceptsDec, acceptsClosed]

theorem State.accepts_crw {s : State} (ha : s.accepts .crw = true) : s.phase = .unconf := by
  cases hp : s.phase <;> cases hm : s.mode <;>
    simp_all [State.accepts, acceptsRun, acceptsEnc, acceptsDec, acceptsClosed]

theorem State.accepts_bclose {s : State} (ha : s.accepts .bclose = true) : s.phase = .run := by
  cases hp : s.phase <;> simp_all [State.accepts, acceptsUnconf, acceptsClosed]

end Sys2Proof.Machine
end

