-- ==== Sys2Proof/Laws/Causes.lean ====
section
/-! SUPPORT. What the steps of a command cannot raise: E_SEQUENCE is raised by the checks before a command's steps
and by nothing else (60_exceptions.md R231, R235). -/

namespace Sys2Proof.Machine

/-- The result does not end in a raise of E_SEQUENCE. -/
def Res.InSequence {α : Type} (r : Res α) : Prop := ∀ n u, r ≠ .stop (.raised .sequence n) u

theorem Res.InSequence.done {α : Type} (a : α) (s : State) : (Res.done a s).InSequence := by
  intro n u h
  cases h

theorem Res.InSequence.raised {α : Type} {c : Cause} (h : c ≠ .sequence) (n : Nat) (s : State) :
    (Res.stop (.raised c n) s : Res α).InSequence := by
  intro m u e
  cases e
  exact h rfl

theorem Res.InSequence.andThen {α β : Type} {r : Res α} {f : α → State → Res β} (h1 : r.InSequence)
    (h2 : ∀ a v, (f a v).InSequence) : (r.andThen f).InSequence := by
  cases r with
  | done a v => exact h2 a v
  | stop w v =>
    intro n u h
    cases h
    exact h1 n v rfl

theorem outByte_inSequence (b : Byte) (s : State) : (outByte b s).InSequence := by
  unfold outByte
  simp only
  split <;> intro n u h <;> cases h

theorem inByte_inSequence (s : State) : (inByte s).InSequence := by
  unfold inByte
  simp only
  split <;> intro n u h <;> cases h

theorem writeBit_inSequence (b : Bool) (s : State) : (writeBit b s).InSequence := by
  unfold writeBit
  simp only
  split
  · exact (outByte_inSequence _ s).andThen fun _ _ => .done _ _
  · exact .done _ _

theorem writeBits_inSequence (b : Bool) : ∀ n s, (writeBits b n s).InSequence
  | 0, s => .done () s
  | n + 1, s => (writeBit_inSequence b s).andThen fun _ => writeBits_inSequence b n

theorem readBit_inSequence (s : State) : (readBit s).InSequence := by
  unfold readBit
  split
  · split
    · exact .done _ _
    · exact (inByte_inSequence s).andThen fun r v => by cases r <;> exact .done _ _
  · exact .done _ _

theorem takeBit_inSequence (f : Nat → Nat → Bool → Nat) (s : State) : (takeBit f s).InSequence :=
  Res.InSequence.andThen ((readBit_inSequence s).andThen fun r v => by cases r <;> exact .done _ _) fun _ _ => .done _ _

theorem stepE12_inSequence (s : State) : (stepE12 s).InSequence := by
  unfold stepE12
  cases s.mode
  · exact Res.InSequence.andThen ((writeBit_inSequence _ s).andThen fun _ v =>
      (writeBits_inSequence _ _ v).andThen fun _ _ => .done _ _) fun _ _ => .done _ _
  · exact (takeBit_inSequence _ s).andThen fun _ _ => .done _ _

theorem stepE3_inSequence (s : State) : (stepE3 s).InSequence := by
  unfold stepE3
  cases s.mode
  · refine Res.InSequence.andThen ?_ fun _ _ => .done _ _
    show (deferBit s).InSequence
    unfold deferBit
    split
    · exact .raised (by decide) _ _
    · exact .done _ _
  · exact (takeBit_inSequence _ s).andThen fun _ _ => .done _ _

theorem normalizeLoop_inSequence : ∀ n s, (normalizeLoop n s).InSequence
  | 0, s => .done () s
  | n + 1, s => by
    rw [normalizeLoop]
    split
    · exact (stepE12_inSequence s).andThen fun _ => normalizeLoop_inSequence n
    · split
      · exact (stepE3_inSequence s).andThen fun _ => normalizeLoop_inSequence n
      · exact .done _ _

theorem codeStep_inSequence (t : TableRef) (sym : Nat) (s : State) : (codeStep t sym s).InSequence := by
  unfold codeStep
  simp only
  split
  · exact .raised (by decide) _ _
  · split
    · exact .raised (by decide) _ _
    · exact normalizeLoop_inSequence _ _

theorem decodeWith_inSequence (t : TableRef) (s : State) : (decodeWith t s).InSequence := by
  unfold decodeWith
  split
  · exact .raised (by decide) _ _
  · simp only
    split
    · exact .raised (by decide) _ _
    · exact (codeStep_inSequence t _ s).andThen fun _ _ => .done _ _

theorem loadCode_inSequence : ∀ n s, (loadCode n s).InSequence
  | 0, s => .done () s
  | n + 1, s => (takeBit_inSequence _ s).andThen fun _ => loadCode_inSequence n

theorem increment_inSequence (p : Path) (sym : Nat) (s : State) : (increment p sym s).InSequence := by
  unfold increment
  split
  · exact .raised (by decide) _ _
  · exact .done _ _

theorem assignCount_inSequence (p : Path) (sym c : Nat) (s : State) : (assignCount p sym c s).InSequence := by
  unfold assignCount
  simp only
  split
  · exact .raised (by decide) _ _
  · exact .done _ _

theorem visitAll_inSequence (sym : Nat) : ∀ l s, (visitAll sym l s).InSequence
  | [], s => .done () s
  | p :: l, s => by
    refine Res.InSequence.andThen (Res.InSequence.andThen ?_ fun _ => increment_inSequence p sym) fun _ =>
      visitAll_inSequence sym l
    split
    · exact .done _ _
    · unfold createContext
      split
      · exact .raised (by decide) _ _
      · exact .done _ _

theorem updateContexts_inSequence (sym : Nat) (s : State) : (updateContexts sym s).InSequence := by
  unfold updateContexts
  split
  · exact .done _ _
  · exact visitAll_inSequence sym _ s

theorem encodeSearch_inSequence (sym : Nat) : ∀ n s, (encodeSearch sym n s).InSequence
  | 0, s => codeStep_inSequence .flat sym s
  | n + 1, s => by
    rw [encodeSearch]
    split
    · exact encodeSearch_inSequence sym n s
    · split
      · exact codeStep_inSequence _ _ s
      · exact (codeStep_inSequence _ _ s).andThen fun _ => encodeSearch_inSequence sym n

theorem decodeSearch_inSequence : ∀ n s, (decodeSearch n s).InSequence
  | 0, s => decodeWith_inSequence .flat s
  | n + 1, s => by
    rw [decodeSearch]
    split
    · exact decodeSearch_inSequence n s
    · refine (decodeWith_inSequence _ s).andThen fun y v => ?_
      split
      · exact .done _ _
      · exact decodeSearch_inSequence n v

theorem updateModel_inSequence (sym : Nat) (s : State) : (updateModel sym s).InSequence :=
  (updateContexts_inSequence sym s).andThen fun _ _ => .done _ _

theorem closeStream_inSequence (s : State) : (closeStream s).InSequence := by
  unfold closeStream
  split
  · refine Res.InSequence.andThen ?_ fun _ _ => .done _ _
    unfold flushBits
    split
    · exact (outByte_inSequence _ s).andThen fun _ _ => .done _ _
    · exact .done _ _
  · exact .done _ _

theorem withSymbol_inSequence {sym : SymField} {s : State} {k : State → Res Response}
    (h : (k s).InSequence) : (withSymbol sym s k).InSequence := by
  unfold withSymbol
  split
  · exact .raised (by decide) _ _
  · exact h

theorem withTable_inSequence {o : Order} {s : State} {k : TableRef → State → Res Response}
    (h : ∀ t, (k t s).InSequence) : (withTable o s k).InSequence := by
  unfold withTable
  split
  · exact .done _ _
  · exact h _

theorem withWritable_inSequence {i : Instr} {t : TableRef} {s : State} {k : Path → State → Res Unit}
    (h : ∀ p, (k p s).InSequence) : (withWritable i t s k).InSequence := by
  unfold withWritable
  cases t with
  | flat => exact .raised (by decide) _ _
  | context p => exact (h p).andThen fun _ _ => .done _ _

/-- No command's own steps raise E_SEQUENCE. -/
theorem body_inSequence (i : Instr) (s : State) : (body i s).InSequence := by
  cases i with
  | crw r v => exact .done _ _
  | crr r =>
    simp only [body]
    split <;> exact .done _ _
  | start m =>
    simp only [body]
    split
    · exact .raised (by decide) _ _
    · exact .done _ _
  | brd => exact (readBit_inSequence s).andThen fun r v => by cases r <;> exact .done _ _
  | bwr b => exact (writeBit_inSequence b s).andThen fun _ _ => .done _ _
  | bclose => exact (closeStream_inSequence s).andThen fun _ _ => .done _ _
  | ftot o => exact withTable_inSequence fun t => .done _ _
  | fget o sym =>
    simp only [body]
    refine withSymbol_inSequence ?_
    exact withTable_inSequence fun t => .done _ _
  | flow o sym =>
    simp only [body]
    refine withSymbol_inSequence ?_
    exact withTable_inSequence fun t => .done _ _
  | fhigh o sym =>
    simp only [body]
    refine withSymbol_inSequence ?_
    exact withTable_inSequence fun t => .done _ _
  | finc o sym =>
    simp only [body]
    refine withSymbol_inSequence ?_
    exact withTable_inSequence fun t =>
      withWritable_inSequence fun p => increment_inSequence p _ s
  | fset o sym c =>
    simp only [body]
    refine withSymbol_inSequence ?_
    exact withTable_inSequence fun t =>
      withWritable_inSequence fun p => assignCount_inSequence p _ _ s
  | cwalk o => exact withTable_inSequence fun t => .done _ _
  | cinc sym =>
    simp only [body]
    refine withSymbol_inSequence ?_
    exact (updateContexts_inSequence _ s).andThen fun _ _ => .done _ _
  | hpush sym =>
    simp only [body]
    refine withSymbol_inSequence ?_
    exact .done _ _
  | hrd idx =>
    simp only [body]
    split <;> exact .done _ _
  | narrow o sym =>
    simp only [body]
    refine withSymbol_inSequence ?_
    exact withTable_inSequence fun t =>
      (codeStep_inSequence t _ s).andThen fun _ _ => .done _ _
  | finish => exact (writeBit_inSequence true s).andThen fun _ _ => .done _ _
  | dinit => exact (loadCode_inSequence _ _).andThen fun _ _ => .done _ _
  | decode o =>
    simp only [body]
    exact withTable_inSequence fun t => (decodeWith_inSequence t s).andThen fun _ _ => .done _ _
  | rcrd r => exact .done _ _
  | encsym sym =>
    simp only [body]
    refine withSymbol_inSequence ?_
    exact (encodeSearch_inSequence _ _ s).andThen fun _ v =>
      (updateModel_inSequence _ v).andThen fun _ _ => .done _ _
  | decsym =>
    exact (decodeSearch_inSequence _ s).andThen fun sym v =>
      (updateModel_inSequence sym v).andThen fun _ _ => .done _ _

end Sys2Proof.Machine
end

