-- ==== Sys2Proof/Laws/Responses.lean ====
section
/-! SUPPORT. No operation inside a command looks at the responses given before (30_encoding.md R88): what it does to a
state whose responses are set aside is what it does to the state. -/

namespace Sys2Proof.Machine

/-- The state with other responses on record. -/
def State.setResponses (s : State) (l : List Response) : State := { s with responses := l }

/-- The result of an operation with other responses on record. -/
def Res.setResponses {α : Type} (l : List Response) : Res α → Res α
  | .done a s => .done a (s.setResponses l)
  | .stop w s => .stop w (s.setResponses l)

/-- An operation that does not look at the responses. -/
def Blind {α : Type} (f : State → Res α) : Prop := ∀ l s, f (s.setResponses l) = (f s).setResponses l

theorem Blind.andThen {α β : Type} {f : State → Res α} {g : α → State → Res β} (hf : Blind f) (hg : ∀ a, Blind (g a)) :
    Blind fun s => (f s).andThen g := by
  intro l s
  show (f (s.setResponses l)).andThen g = ((f s).andThen g).setResponses l
  rw [hf l s]
  cases f s with
  | done a v => exact hg a l v
  | stop w v => rfl

theorem Blind.done {α : Type} (a : α) (f : State → State) (h : ∀ l s, f (s.setResponses l) = (f s).setResponses l) :
    Blind fun s => .done a (f s) := fun l s => by
  simp only [h l s, Res.setResponses]

theorem outByte_blind (b : Byte) : Blind (outByte b) := by
  intro l s
  unfold outByte
  have e : (s.setResponses l).sink = s.sink := rfl
  rw [e]
  cases s.sink.headD .ok <;> rfl

theorem inByte_blind : Blind inByte := by
  intro l s
  unfold inByte
  have e : (s.setResponses l).input = s.input := rfl
  rw [e]
  cases s.input.headD .eos <;> rfl

theorem writeBit_blind (b : Bool) : Blind (writeBit b) := by
  intro l s
  have e1 : (s.setResponses l).wbuf = s.wbuf := rfl
  have e2 : (s.setResponses l).wcnt = s.wcnt := rfl
  unfold writeBit
  simp only [e1, e2]
  split
  · exact Blind.andThen (outByte_blind _) (fun _ => Blind.done _ _ fun _ _ => rfl) l s
  · rfl

theorem writeBits_blind (b : Bool) : ∀ n, Blind (writeBits b n)
  | 0 => fun _ _ => rfl
  | n + 1 => Blind.andThen (writeBit_blind b) fun _ => writeBits_blind b n

theorem readBit_blind : Blind readBit := by
  intro l s
  have e1 : (s.setResponses l).rcnt = s.rcnt := rfl
  have e2 : (s.setResponses l).eos = s.eos := rfl
  have e3 : (s.setResponses l).rbuf = s.rbuf := rfl
  unfold readBit
  simp only [e1, e2, e3]
  split
  · split
    · rfl
    · exact Blind.andThen inByte_blind (fun r => by cases r <;> exact fun _ _ => rfl) l s
  · rfl

theorem readCodeBit_blind : Blind readCodeBit :=
  Blind.andThen readBit_blind fun r => by cases r <;> exact fun _ _ => rfl

theorem takeBit_blind (f : Nat → Nat → Bool → Nat) : Blind (takeBit f) :=
  Blind.andThen readCodeBit_blind fun _ _ _ => rfl

theorem emitBit_blind (b : Bool) : Blind (emitBit b) :=
  Blind.andThen (writeBit_blind b) fun _ => fun l s =>
    Blind.andThen (writeBits_blind (!b) s.pending.toNat) (fun _ _ _ => rfl) l s

theorem deferBit_blind : Blind deferBit := by
  intro l s
  unfold deferBit
  have e : (s.setResponses l).pending = s.pending := rfl
  rw [e]
  split <;> rfl

theorem stepE12_blind : Blind stepE12 := by
  intro l s
  have hm : (s.setResponses l).mode = s.mode := rfl
  cases h : s.mode with
  | enc =>
    rw [h] at hm
    rw [stepE12, stepE12, hm, h]
    exact Blind.andThen (emitBit_blind _) (fun _ _ _ => rfl) l s
  | dec =>
    rw [h] at hm
    rw [stepE12, stepE12, hm, h]
    exact Blind.andThen (takeBit_blind _) (fun _ _ _ => rfl) l s

theorem stepE3_blind : Blind stepE3 := by
  intro l s
  have hm : (s.setResponses l).mode = s.mode := rfl
  cases h : s.mode with
  | enc =>
    rw [h] at hm
    rw [stepE3, stepE3, hm, h]
    exact Blind.andThen deferBit_blind (fun _ _ _ => rfl) l s
  | dec =>
    rw [h] at hm
    rw [stepE3, stepE3, hm, h]
    exact Blind.andThen (takeBit_blind _) (fun _ _ _ => rfl) l s

theorem normalizeLoop_blind : ∀ n, Blind (normalizeLoop n)
  | 0 => fun _ _ => rfl
  | n + 1 => by
    intro l s
    have e1 : (s.setResponses l).P = s.P := rfl
    have e2 : (s.setResponses l).low = s.low := rfl
    have e3 : (s.setResponses l).high = s.high := rfl
    rw [normalizeLoop, normalizeLoop, e1, e2, e3]
    split
    · exact Blind.andThen stepE12_blind (fun _ => normalizeLoop_blind n) l s
    · split
      · exact Blind.andThen stepE3_blind (fun _ => normalizeLoop_blind n) l s
      · rfl

theorem State.total_setResponses (s : State) (l : List Response) (t : TableRef) :
    (s.setResponses l).total t = s.total t := by cases t <;> rfl
theorem State.get_setResponses (s : State) (l : List Response) (t : TableRef) (sym : Nat) :
    (s.setResponses l).get t sym = s.get t sym := by cases t <;> rfl
theorem State.cumLow_setResponses (s : State) (l : List Response) (t : TableRef) (sym : Nat) :
    (s.setResponses l).cumLow t sym = s.cumLow t sym := by cases t <;> rfl
theorem State.cumHigh_setResponses (s : State) (l : List Response) (t : TableRef) (sym : Nat) :
    (s.setResponses l).cumHigh t sym = s.cumHigh t sym := by cases t <;> rfl
theorem State.findSymbol_setResponses (s : State) (l : List Response) (t : TableRef) (v : Nat) :
    (s.setResponses l).findSymbol t v = s.findSymbol t v := by cases t <;> rfl
theorem State.resolve_setResponses (s : State) (l : List Response) (o : Int) :
    (s.setResponses l).resolve o = s.resolve o := rfl

theorem codeStep_blind (t : TableRef) (sym : Nat) : Blind (codeStep t sym) := by
  intro l s
  have e : (s.setResponses l).quarter = s.quarter := rfl
  unfold codeStep
  simp only [State.total_setResponses, State.cumLow_setResponses, State.cumHigh_setResponses, e]
  split
  · rfl
  · split
    · rfl
    · exact normalizeLoop_blind (2 * s.P) l (s.narrowTo (s.total t) (s.cumLow t sym) (s.cumHigh t sym))

theorem decodeWith_blind (t : TableRef) : Blind (decodeWith t) := by
  intro l s
  have e : (s.setResponses l).quarter = s.quarter := rfl
  have e1 : (s.setResponses l).truncated = s.truncated := rfl
  have e2 : (s.setResponses l).low = s.low := rfl
  have e3 : (s.setResponses l).high = s.high := rfl
  have e4 : (s.setResponses l).code = s.code := rfl
  unfold decodeWith
  simp only [State.total_setResponses, State.findSymbol_setResponses, e, e1, e2, e3, e4]
  split
  · rfl
  · split
    · rfl
    · exact Blind.andThen (codeStep_blind t _) (fun _ _ _ => rfl) l s

theorem visitContext_blind (sym : Nat) (p : Path) : Blind (visitContext sym p) := by
  intro l s
  have e1 : (s.setResponses l).ctx = s.ctx := rfl
  have e2 : (s.setResponses l).params = s.params := rfl
  have e3 : (s.setResponses l).nctx = s.nctx := rfl
  rw [visitContext_eq, visitContext_eq, State.total_setResponses, e1, e2, e3]
  split
  · split <;> rfl
  · split <;> rfl

theorem visitAll_blind (sym : Nat) : ∀ ps, Blind (visitAll sym ps)
  | [] => fun _ _ => rfl
  | p :: ps => Blind.andThen (visitContext_blind sym p) fun _ => visitAll_blind sym ps

theorem updateContexts_blind (sym : Nat) : Blind (updateContexts sym) := by
  intro l s
  have e1 : (s.setResponses l).K = s.K := rfl
  have e2 : (s.setResponses l).updatePaths = s.updatePaths := rfl
  unfold updateContexts
  rw [e1, e2]
  split
  · rfl
  · exact visitAll_blind sym _ l s

/-! ### The bounds do not depend on the mode -/

/-- The bounds that `Normalize` leaves, from the bounds alone (43_range_coder.md R165, R168, R169). -/
def boundsLoop (P : Nat) : Nat → Word → Word → Word × Word
  | 0, low, high => (low, high)
  | fuel + 1, low, high =>
    if sameTop P low.toNat high.toNat then
      boundsLoop P fuel (BitVec.ofNat 32 (shiftE12 P low.toNat false)) (BitVec.ofNat 32 (shiftE12 P high.toNat true))
    else if straddles P low.toNat high.toNat then
      boundsLoop P fuel (BitVec.ofNat 32 (shiftE3 P low.toNat false)) (BitVec.ofNat 32 (shiftE3 P high.toNat true))
    else (low, high)

theorem stepE12_bounds {s u : State} (h : stepE12 s = .done () u) :
    u.P = s.P ∧ u.low = BitVec.ofNat 32 (shiftE12 s.P s.low.toNat false) ∧
      u.high = BitVec.ofNat 32 (shiftE12 s.P s.high.toNat true) := by
  have key : ∀ v : State, v.P = s.P → v.low = s.low → v.high = s.high →
      v.shiftInterval12.P = s.P ∧ v.shiftInterval12.low = BitVec.ofNat 32 (shiftE12 s.P s.low.toNat false) ∧
        v.shiftInterval12.high = BitVec.ofNat 32 (shiftE12 s.P s.high.toNat true) := fun v h1 h2 h3 => by
    rw [← h1, ← h2, ← h3]
    exact ⟨rfl, rfl, rfl⟩
  cases hm : s.mode with
  | enc =>
    rw [stepE12, hm] at h
    obtain ⟨_, v, hv, h⟩ := Res.andThen_eq_done h
    cases h
    have hw := (emitBit_done hv).2.same
    exact key v (congrArg State.P hw).symm (congrArg State.low hw).symm (congrArg State.high hw).symm
  | dec =>
    rw [stepE12, hm] at h
    obtain ⟨_, v, hv, h⟩ := Res.andThen_eq_done h
    cases h
    simp only at hv
    obtain ⟨b, w, hw, hv⟩ := Res.andThen_eq_done hv
    cases hv
    have hk := (readCodeBit_done hw).2.reads.same
    exact key _ (congrArg State.P hk).symm (congrArg State.low hk).symm (congrArg State.high hk).symm

theorem stepE3_bounds {s u : State} (h : stepE3 s = .done () u) :
    u.P = s.P ∧ u.low = BitVec.ofNat 32 (shiftE3 s.P s.low.toNat false) ∧
      u.high = BitVec.ofNat 32 (shiftE3 s.P s.high.toNat true) := by
  have key : ∀ v : State, v.P = s.P → v.low = s.low → v.high = s.high →
      v.shiftInterval3.P = s.P ∧ v.shiftInterval3.low = BitVec.ofNat 32 (shiftE3 s.P s.low.toNat false) ∧
        v.shiftInterval3.high = BitVec.ofNat 32 (shiftE3 s.P s.high.toNat true) := fun v h1 h2 h3 => by
    rw [← h1, ← h2, ← h3]
    exact ⟨rfl, rfl, rfl⟩
  cases hm : s.mode with
  | enc =>
    rw [stepE3, hm] at h
    obtain ⟨_, v, hv, h⟩ := Res.andThen_eq_done h
    cases h
    simp only at hv
    unfold deferBit at hv
    split at hv
    · cases hv
    · cases hv
      exact key _ rfl rfl rfl
  | dec =>
    rw [stepE3, hm] at h
    obtain ⟨_, v, hv, h⟩ := Res.andThen_eq_done h
    cases h
    simp only at hv
    obtain ⟨b, w, hw, hv⟩ := Res.andThen_eq_done hv
    cases hv
    have hk := (readCodeBit_done hw).2.reads.same
    exact key _ (congrArg State.P hk).symm (congrArg State.low hk).symm (congrArg State.high hk).symm

/-- Both sides normalise the bounds alike (R175). -/
theorem normalizeLoop_bounds : ∀ {fuel : Nat} {s u : State}, normalizeLoop fuel s = .done () u →
    (u.low, u.high) = boundsLoop s.P fuel s.low s.high
  | 0, s, u, h => by cases h; rfl
  | fuel + 1, s, u, h => by
    rw [normalizeLoop] at h
    rw [boundsLoop]
    split at h
    · next ht =>
      obtain ⟨_, v, hv, h⟩ := Res.andThen_eq_done h
      obtain ⟨h1, h2, h3⟩ := stepE12_bounds hv
      rw [if_pos ht, ← h2, ← h3, ← h1]
      exact normalizeLoop_bounds h
    · next ht =>
      split at h
      · next hs =>
        obtain ⟨_, v, hv, h⟩ := Res.andThen_eq_done h
        obtain ⟨h1, h2, h3⟩ := stepE3_bounds hv
        rw [if_neg ht, if_pos hs, ← h2, ← h3, ← h1]
        exact normalizeLoop_bounds h
      · next hs =>
        cases h
        rw [if_neg ht, if_neg hs]

end Sys2Proof.Machine
end

