-- ==== Sys2Proof/Laws/Driver.lean ====
section
/-! SUPPORT. When the symbol driver's searches and the statistics update complete, and that the update looks at the
model's part of the state alone. -/

namespace Sys2Proof.Machine

/-- What a designator names depends on the history and the tree alone (R141). -/
theorem State.resolve_congr {s u : State} (h1 : u.hist = s.hist) (h2 : u.ctx = s.ctx) (o : Int) :
    u.resolve o = s.resolve o := by
  simp [State.resolve, State.hlen, h1, h2]

theorem State.total_of_ctx {s u : State} (t : TableRef) (h : u.ctx = s.ctx) (h2 : u.SL = s.SL) :
    u.total t = s.total t := by
  cases t <;> simp [State.total, h, h2]

theorem State.get_of_ctx {s u : State} (t : TableRef) (n : Nat) (h : u.ctx = s.ctx) : u.get t n = s.get t n := by
  cases t <;> simp [State.get, h]

/-- What the encoder's search needs to complete within `n` coding steps. -/
structure EncReady (s : State) (n : Nat) : Prop where
  mode : s.mode = .enc
  legal : s.LegalConfig
  rest : s.IntervalAtRest
  wf : Memory.wf s.ctx = true
  good : s.sinkGood
  tabs : ∀ (k : Nat) (t : TableRef), s.resolve k = some t → s.total t ≤ s.quarter ∧ 0 < s.get t s.ESC
  room : s.pending.toNat + n * s.P ≤ Config.pendMax

theorem EncReady.mono {s : State} {n m : Nat} (h : EncReady s n) (hm : m ≤ n) : EncReady s m :=
  ⟨h.mode, h.legal, h.rest, h.wf, h.good, h.tabs, by have := h.room; have := Nat.mul_le_mul_right s.P hm; omega⟩

/-- A coding step completes and leaves what one step fewer needs. -/
theorem codeStep_ready {s : State} {n : Nat} {t : TableRef} {sym : Nat} (h : EncReady s (n + 1)) (hs : sym < s.SL)
    (ht : s.total t ≤ s.quarter) (hg : 0 < s.get t sym) :
    ∃ u, codeStep t sym s = .done () u ∧ EncReady u n ∧ Encodes s u := by
  obtain ⟨c1, c2, -⟩ := h.legal
  have hroom : s.pending.toNat + s.P ≤ Config.pendMax := by have := h.room; rw [Nat.succ_mul] at this; omega
  obtain ⟨u, hu⟩ := codeStep_enc_total c1 c2 h.mode h.rest h.wf hs ht hg h.good hroom
  obtain ⟨a, b, he, hr⟩ := codeStep_enc_done c1 c2 h.mode h.rest h.wf hs hu
  have hE := codeStep_encodes t sym h.mode
  rw [hu] at hE
  have hE : Encodes s u := hE
  refine ⟨u, hu, ⟨hE.mode.trans h.mode, hE.LegalConfig ▸ h.legal, hr, hE.ctx ▸ h.wf, he.wrote.good h.good,
    fun k t hk => ?_, ?_⟩, hE⟩
  · rw [State.resolve_congr hE.hist hE.ctx] at hk
    have := h.tabs k t hk
    rw [State.total_of_ctx t hE.ctx hE.SL, State.get_of_ctx t _ hE.ctx, hE.quarter, hE.ESC]; exact this
  · have hp := he.pending
    have hst := he.norm.steps
    rw [State.narrowTo_P] at hst
    have e : (s.narrowTo (s.total t) (s.cumLow t sym) (s.cumHigh t sym)).pending = s.pending := rfl
    rw [e] at hp
    have h1 := h.room
    rw [Nat.succ_mul] at h1
    rw [hE.P, hp]
    split <;> omega

/-- The encoder's search completes (R191). -/
theorem encodeSearch_total {sym : Nat} : ∀ {n : Nat} {s : State}, EncReady s (n + 1) → sym < s.SL →
    ∃ u, encodeSearch sym n s = .done () u
  | 0, s, h, hs => by
    obtain ⟨u, hu, -⟩ := codeStep_ready (t := .flat) h hs h.legal.2.2.2.2.2.2.1 (by simp [State.get])
    exact ⟨u, hu⟩
  | n + 1, s, h, hs => by
    rw [encodeSearch]
    cases ht : s.resolve n with
    | none => exact encodeSearch_total (h.mono (by omega)) hs
    | some t =>
      simp only
      split
      · next hc =>
        obtain ⟨u, hu, -⟩ := codeStep_ready h hs (h.tabs n t ht).1 hc.2
        exact ⟨u, hu⟩
      · obtain ⟨u, hu, hr, hE⟩ := codeStep_ready (sym := s.ESC) h h.legal.2.2.2.2.2.2.2 (h.tabs n t ht).1
          (h.tabs n t ht).2
        rw [hu]
        exact encodeSearch_total hr (hE.SL ▸ hs)

/-- The visit of a context looks at the model's part of the state alone (R145). -/
theorem visitContext_on (sym : Nat) (p : Path) {s u : State} (h1 : u.ctx = s.ctx) (h2 : u.nctx = s.nctx)
    (h3 : u.params = s.params) (h4 : u.crEsc = s.crEsc) (h5 : u.crSl = s.crSl) {v : State} (h : visitContext sym p s = .done () v) :
    visitContext sym p u = .done () { u with ctx := v.ctx, nctx := v.nctx } := by
  rw [visitContext_eq] at h ⊢
  have e : u.total (.context p) = s.total (.context p) := by simp [State.total, State.SL, h1, h5]
  have e2 : u.visited sym p = { u with ctx := (s.visited sym p).ctx, nctx := (s.visited sym p).nctx } := by
    simp [State.visited, State.tableOrFresh, h1, h2, State.ESC, h4]
  rw [h1, e, h3, h2, e2]
  split at h
  · split at h
    · cases h
    · next a b => cases h; rw [if_pos a, if_neg b, h3]
  · split at h
    · cases h
    · next a b => cases h; rw [if_neg a, if_neg b, h3]

theorem visitAll_on (sym : Nat) : ∀ (l : List Path) {s u v : State}, u.ctx = s.ctx → u.nctx = s.nctx →
    u.params = s.params → u.crEsc = s.crEsc → u.crSl = s.crSl → visitAll sym l s = .done () v →
    visitAll sym l u = .done () { u with ctx := v.ctx, nctx := v.nctx }
  | [], s, u, v, h1, h2, _, _, _, h => by
    cases h; rw [visitAll, ← h1, ← h2]
  | p :: l, s, u, v, h1, h2, h3, h4, h5, h => by
    obtain ⟨_, w, hw, h⟩ := Res.andThen_eq_done h
    have hu := visitContext_updates sym p s
    rw [hw] at hu
    rw [visitAll, visitContext_on sym p h1 h2 h3 h4 h5 hw, Res.done_andThen]
    refine visitAll_on sym l (s := w) (u := { u with ctx := w.ctx, nctx := w.nctx }) rfl rfl ?_ ?_ ?_ h
    · have := congrArg State.params hu.same; exact h3.trans this
    · have := congrArg State.crEsc hu.same; exact h4.trans this
    · have := congrArg State.crSl hu.same; exact h5.trans this

/-- What the update does to the tree depends on the configuration, the tree, the history and the symbol (R145). -/
theorem updateContexts_on {sym : Nat} {s u v : State} (h1 : u.ctx = s.ctx) (h2 : u.nctx = s.nctx) (h3 : u.params = s.params)
    (h4 : u.crEsc = s.crEsc) (h5 : u.crSl = s.crSl) (h6 : u.K = s.K) (h7 : u.hist = s.hist)
    (h : updateContexts sym s = .done () v) :
    updateContexts sym u = .done () { u with ctx := v.ctx, nctx := v.nctx } := by
  unfold updateContexts at h ⊢
  rw [h6]
  split at h
  · next hk => cases h; rw [if_pos hk, ← h1, ← h2]
  · next hk =>
    rw [if_neg hk]
    have : u.updatePaths = s.updatePaths := by simp [State.updatePaths, State.hlen, h6, h7]
    rw [this]
    exact visitAll_on sym _ h1 h2 h3 h4 h5 h

/-- The statistics update completes where no total is near TOTAL_MAX and there is room (R144). -/
theorem updateContexts_total {s : State} (sym : Nat) (hc : s.LegalConfig) (ht : s.TreeAtRest)
    (hq : ∀ (n : Nat) (t : TableRef), s.resolve n = some t → s.total t ≤ s.quarter)
    (hn : ∀ n, s.params.nodeMax = some n → s.nctx + s.hlen ≤ n) : ∃ v, updateContexts sym s = .done () v := by
  unfold updateContexts
  split
  · exact ⟨s, rfl⟩
  next hk =>
  refine visitAll_total sym _ s s.updatePaths_nodup (fun q hq' hh => ?_) (fun n hnn => ?_)
  · obtain ⟨k, hk', rfl⟩ := State.mem_updatePaths.mp hq'
    have hr : s.resolve k = some (.context (s.hist.take k)) := by
      unfold State.resolve
      rw [if_neg (by omega), if_neg (by simp; omega)]
      simp [hh]
    have h1 := hq k _ hr
    have h2 : s.quarter ≤ 2 ^ 30 := Nat.pow_le_pow_right (by omega) (by have := hc.2.1; omega)
    unfold Config.totalMax; omega
  · have h1 := hn n hnn
    have hroot : Memory.has s.ctx [] = true := ht.root (by have := hc.2.2.1; omega)
    have : s.missing s.updatePaths ≤ s.hlen := by
      unfold State.missing State.updatePaths
      rw [List.range_succ_eq_map, List.map_cons, List.filter_cons]
      simp only [List.take_zero, hroot]
      refine le_trans (List.length_filter_le _ _) ?_
      simp
    omega

/-! ### The decoder's search -/

/-- What the decoder's search needs to complete when `n` decoding steps may come after the next one. -/
structure DecReady (s : State) (n : Nat) : Prop where
  mode   : s.mode = .dec
  legal  : s.LegalConfig
  rest   : s.IntervalAtRest
  inside : s.low.toNat ≤ s.code.toNat ∧ s.code.toNat ≤ s.high.toNat
  wf     : Memory.wf s.ctx = true
  good   : s.sourceGood
  tabs   : ∀ (k : Nat) (t : TableRef), s.resolve k = some t → 1 ≤ s.total t ∧ s.total t ≤ s.quarter
  limit  : ∀ m, s.params.truncLimit = some m → s.tailbits.toNat + n * s.P < m

theorem DecReady.mono {s : State} {n m : Nat} (h : DecReady s n) (hm : m ≤ n) : DecReady s m :=
  ⟨h.mode, h.legal, h.rest, h.inside, h.wf, h.good, h.tabs, fun k hk => by
    have h1 := h.limit k hk
    have h2 := Nat.mul_le_mul_right s.P hm
    omega⟩

theorem DecReady.notTruncated {s : State} {n : Nat} (h : DecReady s n) : s.truncated = false := by
  unfold State.truncated
  cases hl : s.params.truncLimit with
  | none => rfl
  | some m =>
    have h1 := h.limit m hl
    have h2 : s.tailbits.toNat < m := by omega
    simpa using h2

/-- A decoding step completes and leaves what one step fewer needs. -/
theorem decodeWith_ready {s : State} {n : Nat} {t : TableRef} (h : DecReady s n) (h1 : 1 ≤ s.total t)
    (hq : s.total t ≤ s.quarter) :
    ∃ sym u, decodeWith t s = .done sym u ∧ Decodes s u ∧ (∀ k, n = k + 1 → DecReady u k) := by
  obtain ⟨c1, c2, -, -, hS, -⟩ := h.legal
  obtain ⟨sym, u, hd⟩ := decodeWith_total h.mode h.wf h.inside.1 h.inside.2 h1 hq h.notTruncated h.good
  have hD := decodeWith_decodes t h.mode
  rw [hd] at hD
  have hD : Decodes s u := hD
  obtain ⟨-, r1, r2, r3⟩ := decodeWith_rest c1 c2 h.mode h.rest h.wf hS h.inside.1 h.inside.2 hd
  obtain ⟨-, -, hsym, hcs⟩ := decodeWith_done hd
  have hf := s.findSymbol_inside h.wf h.inside.1 h.inside.2 h1
  simp only at hf
  rw [← hsym] at hf
  obtain ⟨a, b, he, -⟩ := codeStep_dec_done c1 c2 h.mode h.rest h.wf hf.1 hf.2.2.2 hcs
  have hst := he.norm.steps
  rw [State.narrowTo_P] at hst
  refine ⟨sym, u, hd, hD, fun k hk => ⟨hD.mode.trans h.mode, hD.LegalConfig ▸ h.legal, r1, ⟨r2, r3⟩, hD.ctx ▸ h.wf,
    he.took.good h.good, fun j t' hj => ?_, fun m hm => ?_⟩⟩
  · rw [State.resolve_congr hD.hist hD.ctx] at hj
    rw [State.total_of_ctx t' hD.ctx hD.SL, hD.quarter]
    exact h.tabs j t' hj
  · rw [hD.params] at hm
    have h2 := h.limit m hm
    have h3 := he.took.tail
    have e : ∀ x : Nat, (s.tailbits.toNat + (a + b - x)) ≤ s.tailbits.toNat + s.P := fun x => by omega
    have h4 : u.tailbits.toNat ≤ s.tailbits.toNat + s.P := by
      refine le_trans (le_of_eq h3) (le_trans (min_le_left _ _) (e _))
    rw [hk, Nat.succ_mul] at h2
    rw [hD.P]
    omega

/-- The decoder's search completes (R195). -/
theorem decodeSearch_total : ∀ {n : Nat} {s : State}, DecReady s n → ∃ sym u, decodeSearch n s = .done sym u
  | 0, s, h => by
    obtain ⟨sym, u, hu, -⟩ := decodeWith_ready (t := .flat) h h.legal.2.2.2.2.1 h.legal.2.2.2.2.2.2.1
    exact ⟨sym, u, hu⟩
  | n + 1, s, h => by
    rw [decodeSearch]
    cases ht : s.resolve n with
    | none => exact decodeSearch_total (h.mono (by omega))
    | some t =>
      obtain ⟨y, u, hu, -, hr⟩ := decodeWith_ready h (h.tabs n t ht).1 (h.tabs n t ht).2
      simp only [hu, Res.done_andThen]
      split
      · exact ⟨y, u, rfl⟩
      · exact decodeSearch_total (hr n rfl)

end Sys2Proof.Machine
end

