-- ==== Sys2Proof/Laws/Encoding.lean ====
section
/-! SUPPORT. Laws of the encoding: a word is the packing of its four fields, the mask of a format acts field by
field, and the opcode map is read back. -/

namespace Sys2Proof

theorem packWord_toNat (op : Byte) (o : Order) (sym : SymField) (imm : Word) :
    (packWord op o sym imm).toNat = op.toNat * 2 ^ 56 + o.toNat * 2 ^ 48 + sym.toNat * 2 ^ 32 + imm.toNat := by
  have h1 := op.isLt
  have h2 := o.isLt
  have h3 := sym.isLt
  have h4 := imm.isLt
  simp only [packWord, BitVec.toNat_append]
  rw [← Nat.shiftLeft_add_eq_or_of_lt h2, ← Nat.shiftLeft_add_eq_or_of_lt h3, ← Nat.shiftLeft_add_eq_or_of_lt h4]
  simp only [Nat.shiftLeft_eq]
  omega

@[simp] theorem opcodeField_packWord (op : Byte) (o : Order) (sym : SymField) (imm : Word) :
    opcodeField (packWord op o sym imm) = op := by
  have h2 := o.isLt
  have h3 := sym.isLt
  have h4 := imm.isLt
  apply BitVec.eq_of_toNat_eq
  simp only [opcodeField, BitVec.extractLsb'_toNat, packWord_toNat, Nat.shiftRight_eq_div_pow]
  omega

@[simp] theorem ordField_packWord (op : Byte) (o : Order) (sym : SymField) (imm : Word) :
    ordField (packWord op o sym imm) = o := by
  have h2 := o.isLt
  have h3 := sym.isLt
  have h4 := imm.isLt
  apply BitVec.eq_of_toNat_eq
  simp only [ordField, BitVec.extractLsb'_toNat, packWord_toNat, Nat.shiftRight_eq_div_pow]
  omega

@[simp] theorem symField_packWord (op : Byte) (o : Order) (sym : SymField) (imm : Word) :
    symField (packWord op o sym imm) = sym := by
  have h3 := sym.isLt
  have h4 := imm.isLt
  apply BitVec.eq_of_toNat_eq
  simp only [symField, BitVec.extractLsb'_toNat, packWord_toNat, Nat.shiftRight_eq_div_pow]
  omega

@[simp] theorem immField_packWord (op : Byte) (o : Order) (sym : SymField) (imm : Word) :
    immField (packWord op o sym imm) = imm := by
  have h4 := imm.isLt
  apply BitVec.eq_of_toNat_eq
  simp only [immField, BitVec.extractLsb'_toNat, packWord_toNat, Nat.shiftRight_eq_div_pow]
  omega

/-- A word is the packing of its fields. -/
theorem packWord_fields (w : Command) :
    packWord (opcodeField w) (ordField w) (symField w) (immField w) = w := by
  have h := w.isLt
  apply BitVec.eq_of_toNat_eq
  simp only [packWord_toNat, opcodeField, ordField, symField, immField, BitVec.extractLsb'_toNat,
    Nat.shiftRight_eq_div_pow]
  omega

/-- Two packings are equal only field by field. -/
theorem packWord_inj (a a' : Byte) (b b' : Order) (c c' : SymField) (d d' : Word) :
    packWord a b c d = packWord a' b' c' d' ↔ a = a' ∧ b = b' ∧ c = c' ∧ d = d' := by
  refine ⟨fun h => ⟨?_, ?_, ?_, ?_⟩, fun ⟨h1, h2, h3, h4⟩ => by rw [h1, h2, h3, h4]⟩
  · simpa using congrArg opcodeField h
  · simpa using congrArg ordField h
  · simpa using congrArg symField h
  · simpa using congrArg immField h

theorem packWord_and (a a' : Byte) (b b' : Order) (c c' : SymField) (d d' : Word) :
    packWord a b c d &&& packWord a' b' c' d' = packWord (a &&& a') (b &&& b') (c &&& c') (d &&& d') := by
  refine (BitVec.and_append (x₁ := a ++ b ++ c) (x₂ := a' ++ b' ++ c')).trans ?_
  rw [BitVec.and_append, BitVec.and_append]
  rfl

/-- The bits of the `ord`, `sym` and `imm` fields that a format fixes at zero (R81). -/
def Format.fixed : Format → Order × SymField × Word
  | .N   => (0xFF, 0xFFFF, 0xFFFFFFFF)
  | .B   => (0xFF, 0xFFFF, 0xFFFFFFFE)
  | .S   => (0xFF, 0, 0xFFFFFFFF)
  | .T   => (0, 0xFFFF, 0xFFFFFFFF)
  | .TS  => (0, 0, 0xFFFFFFFF)
  | .TSI => (0, 0, 0)
  | .R   => (0xFF, 0, 0)

theorem Format.mask_eq (f : Format) : f.mask = packWord 0xFF f.fixed.1 f.fixed.2.1 f.fixed.2.2 := by
  cases f <;> decide

theorem Opcode.match_eq (op : Opcode) : op.byte.zeroExtend 64 <<< 56 = packWord op.byte 0 0 0 := by
  cases op <;> decide

/-- A packed word fits an opcode's row exactly when its opcode is the row's and every bit the format fixes is zero
(R81, R86). -/
theorem Opcode.fits_packWord (op : Opcode) (a : Byte) (b : Order) (c : SymField) (d : Word) :
    op.fits (packWord a b c d) = true ↔
      a = op.byte ∧ b &&& op.format.fixed.1 = 0 ∧ c &&& op.format.fixed.2.1 = 0 ∧ d &&& op.format.fixed.2.2 = 0 := by
  have ha : a &&& 0xFF = a := by
    have : (0xFF : Byte) = BitVec.allOnes 8 := by decide
    rw [this, BitVec.and_allOnes]
  rw [Opcode.fits, beq_iff_eq, Format.mask_eq, Opcode.match_eq, packWord_and, packWord_inj, ha]

theorem Opcode.ofByte_byte (op : Opcode) : Opcode.ofByte op.byte = some op := by
  cases op <;> decide

theorem Opcode.mem_all (op : Opcode) : op ∈ Opcode.all := by cases op <;> decide

theorem Opcode.byte_of_ofByte (b : Byte) (op : Opcode) (h : Opcode.ofByte b = some op) : op.byte = b := by
  simpa using List.find?_some h

/-- A byte of no row selects no command (R85). -/
theorem Opcode.ofByte_none (b : Byte) (h : ∀ op ∈ Opcode.all, op.byte ≠ b) : Opcode.ofByte b = none := by
  simp only [Opcode.ofByte, List.find?_eq_none, beq_iff_eq]
  exact h

@[simp] theorem modeOfBit_bitOfMode (m : Mode) : modeOfBit (bitOfMode m) = m := by cases m <;> rfl

@[simp] theorem bitOfMode_modeOfBit (b : Bool) : bitOfMode (modeOfBit b) = b := by cases b <;> rfl

/-- The one operand bit of a packed word (format B). -/
theorem immBit_packWord (op : Byte) (o : Order) (sym : SymField) (imm : Word) :
    immBit (packWord op o sym imm) = imm.getLsbD 0 := by
  have h := imm.isLt
  simp only [immBit, BitVec.getLsbD, packWord_toNat, Nat.testBit_zero, decide_eq_decide]
  omega

@[simp] theorem immOfBit_getLsbD (b : Bool) : (immOfBit b).getLsbD 0 = b := by cases b <;> decide

@[simp] theorem immOfBit_getElem (b : Bool) : (immOfBit b)[0] = b := by cases b <;> decide

@[simp] theorem immOfBit_fixed (b : Bool) : immOfBit b &&& 0xFFFFFFFE = 0 := by cases b <;> decide

/-- A field all of whose bits but bit 0 are zero is its bit 0. -/
theorem immOfBit_of_fixed (d : Word) (h : d &&& 0xFFFFFFFE = 0) : immOfBit (d.getLsbD 0) = d := by
  have hd : ∀ i, 1 ≤ i → i < 32 → d.getLsbD i = false := by
    intro i h1 h2
    have h3 := congrArg (fun x : Word => x.getLsbD i) h
    have h4 : (0xFFFFFFFE : Word).getLsbD i = true := by
      interval_cases i <;> decide
    simp only [BitVec.getLsbD_and, h4, Bool.and_true] at h3
    simpa using h3
  apply BitVec.eq_of_getLsbD_eq
  intro i hi
  rcases Nat.eq_zero_or_pos i with rfl | h0
  · exact immOfBit_getLsbD _
  · rw [hd i h0 hi]
    cases d.getLsbD 0
    · simp [immOfBit]
    · have : ∀ j, 1 ≤ j → j < 32 → (immOfBit true).getLsbD j = false := by
        intro j h1 h2
        interval_cases j <;> decide
      exact this i h0 hi

end Sys2Proof
end

