-- ==== Sys2Proof/Laws/PerInstr.lean ====
section
/-! SUPPORT. Statements about every command, one lemma per command: its encoding has the fixed bits of its row of
30_encoding.md R84. -/

namespace Sys2Proof.Laws.OpcodeFits

/-- The word of the command has the opcode byte of its row and the bits its format fixes (R81, R84). -/
def Statement (i : Instr) : Prop := opcodeField (encode i) = i.opcode.byte ∧ i.opcode.fits (encode i) = true

end Sys2Proof.Laws.OpcodeFits

/-- A command whose word is packed from fields that its format does not fix at a one has the statement. -/
theorem Sys2Proof.Laws.opcodeFits_of_packed {i : Instr} (o : Order) (sym : SymField) (imm : Word)
    (he : encode i = packWord i.opcode.byte o sym imm) (ho : o &&& i.opcode.format.fixed.1 = 0)
    (hs : sym &&& i.opcode.format.fixed.2.1 = 0) (hi : imm &&& i.opcode.format.fixed.2.2 = 0) :
    OpcodeFits.Statement i := by
  refine ⟨?_, ?_⟩ <;> rw [he]
  · exact opcodeField_packWord _ _ _ _
  · exact (Opcode.fits_packWord _ _ _ _ _).mpr ⟨rfl, ho, hs, hi⟩

namespace Sys2Proof.Laws.OpcodeFits

theorem crw (r : SymField) (v : Word) : Statement (.crw r v) :=
  opcodeFits_of_packed 0 r v rfl BitVec.zero_and BitVec.and_zero BitVec.and_zero

theorem crr (r : SymField) : Statement (.crr r) :=
  opcodeFits_of_packed 0 r 0 rfl BitVec.zero_and BitVec.and_zero BitVec.zero_and

theorem start (m : Mode) : Statement (.start m) :=
  opcodeFits_of_packed 0 0 (immOfBit (bitOfMode m)) rfl BitVec.zero_and BitVec.zero_and (immOfBit_fixed _)

theorem brd : Statement .brd :=
  opcodeFits_of_packed 0 0 0 rfl BitVec.zero_and BitVec.zero_and BitVec.zero_and

theorem bwr (b : Bool) : Statement (.bwr b) :=
  opcodeFits_of_packed 0 0 (immOfBit b) rfl BitVec.zero_and BitVec.zero_and (immOfBit_fixed _)

theorem bclose : Statement .bclose :=
  opcodeFits_of_packed 0 0 0 rfl BitVec.zero_and BitVec.zero_and BitVec.zero_and

theorem ftot (o : Order) : Statement (.ftot o) :=
  opcodeFits_of_packed o 0 0 rfl BitVec.and_zero BitVec.zero_and BitVec.zero_and

theorem fget (o : Order) (sym : SymField) : Statement (.fget o sym) :=
  opcodeFits_of_packed o sym 0 rfl BitVec.and_zero BitVec.and_zero BitVec.zero_and

theorem flow (o : Order) (sym : SymField) : Statement (.flow o sym) :=
  opcodeFits_of_packed o sym 0 rfl BitVec.and_zero BitVec.and_zero BitVec.zero_and

theorem fhigh (o : Order) (sym : SymField) : Statement (.fhigh o sym) :=
  opcodeFits_of_packed o sym 0 rfl BitVec.and_zero BitVec.and_zero BitVec.zero_and

theorem finc (o : Order) (sym : SymField) : Statement (.finc o sym) :=
  opcodeFits_of_packed o sym 0 rfl BitVec.and_zero BitVec.and_zero BitVec.zero_and

theorem fset (o : Order) (sym : SymField) (c : Word) : Statement (.fset o sym c) :=
  opcodeFits_of_packed o sym c rfl BitVec.and_zero BitVec.and_zero BitVec.and_zero

theorem cwalk (o : Order) : Statement (.cwalk o) :=
  opcodeFits_of_packed o 0 0 rfl BitVec.and_zero BitVec.zero_and BitVec.zero_and

theorem cinc (sym : SymField) : Statement (.cinc sym) :=
  opcodeFits_of_packed 0 sym 0 rfl BitVec.zero_and BitVec.and_zero BitVec.zero_and

theorem hpush (sym : SymField) : Statement (.hpush sym) :=
  opcodeFits_of_packed 0 sym 0 rfl BitVec.zero_and BitVec.and_zero BitVec.zero_and

theorem hrd (idx : SymField) : Statement (.hrd idx) :=
  opcodeFits_of_packed 0 idx 0 rfl BitVec.zero_and BitVec.and_zero BitVec.zero_and

theorem narrow (o : Order) (sym : SymField) : Statement (.narrow o sym) :=
  opcodeFits_of_packed o sym 0 rfl BitVec.and_zero BitVec.and_zero BitVec.zero_and

theorem finish : Statement .finish :=
  opcodeFits_of_packed 0 0 0 rfl BitVec.zero_and BitVec.zero_and BitVec.zero_and

theorem dinit : Statement .dinit :=
  opcodeFits_of_packed 0 0 0 rfl BitVec.zero_and BitVec.zero_and BitVec.zero_and

theorem decode (o : Order) : Statement (.decode o) :=
  opcodeFits_of_packed o 0 0 rfl BitVec.and_zero BitVec.zero_and BitVec.zero_and

theorem rcrd (r : SymField) : Statement (.rcrd r) :=
  opcodeFits_of_packed 0 r 0 rfl BitVec.zero_and BitVec.and_zero BitVec.zero_and

theorem encsym (sym : SymField) : Statement (.encsym sym) :=
  opcodeFits_of_packed 0 sym 0 rfl BitVec.zero_and BitVec.and_zero BitVec.zero_and

theorem decsym : Statement .decsym :=
  opcodeFits_of_packed 0 0 0 rfl BitVec.zero_and BitVec.zero_and BitVec.zero_and

end Sys2Proof.Laws.OpcodeFits
end

