-- ==== Sys2Proof/Laws/Stops.lean ====
section
/-! SUPPORT. Where an operation stops: the byte port that fails or does not answer (20_memory.md R67, R68), the owed
bits that reach their maximum (43_range_coder.md R166), the context that cannot be created or incremented
(42_context_tree.md R142, R144). -/

namespace Sys2Proof.Machine

/-! ### Fault entry forgets the run (60_exceptions.md R240) -/

theorem Encodes.raise {s u : State} (h : Encodes s u) (c : Cause) (n : Nat) :
    u.raise c n = ({ s with sink := u.sink, calls := u.calls } : State).raise c n := by
  rw [State.eq_of_sansEnc h.same]
  rfl

theorem Decodes.raise {s u : State} (h : Decodes s u) (c : Cause) (n : Nat) :
    u.raise c n = ({ s with input := u.input, calls := u.calls } : State).raise c n := by
  rw [State.eq_of_sansDec h.same]
  rfl

theorem Updates.raise {s u : State} (h : Updates s u) (c : Cause) (n : Nat) : u.raise c n = s.raise c n := by
  rw [State.eq_of_sansModel h.same]
  rfl

/-! ### Writing bits to any sink -/

/-- How an answer of the sink that is not OK ends the command (R68). -/
def OutAnswer.stop : OutAnswer → Stop
  | .err => .raised .ioWrite 0
  | _ => .waiting .output

/-- How an answer of the source that is neither a byte nor EOS ends the command (R67). -/
def InAnswer.stop : InAnswer → Stop
  | .err => .raised .ioRead 0
  | _ => .waiting .input

/-- `OutByte` calls as the sink took them. -/
def taken (l : List Byte) : List PortCall := l.map (fun x => .outByte x .ok)

/-- `WriteBit` for each bit of a list. -/
def writeList : List Bool → State → Res Unit
  | [], s => .done () s
  | b :: bits, s => (writeBit b s).andThen fun _ s => writeList bits s

theorem writeList_append : ∀ (x y : List Bool) (s : State),
    writeList (x ++ y) s = (writeList x s).andThen fun _ s => writeList y s
  | [], _, _ => rfl
  | b :: x, y, s => by
    rw [List.cons_append, writeList, writeList, Res.andThen_assoc]
    congr 1
    funext _ v
    exact writeList_append x y v

theorem writeBits_eq (b : Bool) : ∀ (n : Nat) (s : State), writeBits b n s = writeList (List.replicate n b) s
  | 0, _ => rfl
  | n + 1, s => by
    rw [writeBits, List.replicate_succ, writeList]
    congr 1
    funext _ v
    exact writeBits_eq b n v

theorem writeList_done : ∀ {bits : List Bool} {s u : State}, writeList bits s = .done () u → Wrote bits s u
  | [], s, u, h => by cases h; exact Wrote.refl s
  | b :: bits, s, u, h => by
    obtain ⟨_, v, hv, h⟩ := Res.andThen_eq_done h
    exact (writeBit_done hv).trans (writeList_done h)

theorem writeList_writes : ∀ (bits : List Bool) (s : State), Writes s (writeList bits s).final
  | [], s => Writes.refl s
  | b :: bits, s =>
    Res.final_andThen Writes (fun _ _ _ => Writes.trans) (writeBit_writes b s) fun _ v _ => writeList_writes bits v

/-- `WriteBit` that hands no byte over, and one that does. -/
theorem writeBit_eq (b : Bool) (s : State) :
    writeBit b s =
      if s.wcnt.toNat = 7 then
        (match s.sink.headD .ok with
         | .ok => .done () { s with
             wbuf := 0, wcnt := 0, sink := s.sink.tail
             calls := s.calls ++ [.outByte (BitVec.ofNat 8 (s.wbuf.toNat * 2 + b.toNat)) .ok] }
         | a => .stop a.stop { s with
             sink := s.sink.tail
             calls := s.calls ++ [.outByte (BitVec.ofNat 8 (s.wbuf.toNat * 2 + b.toNat)) a] })
      else .done () { s with
        wbuf := BitVec.ofNat 8 (s.wbuf.toNat * 2 + b.toNat), wcnt := BitVec.ofNat 3 (s.wcnt.toNat + 1) } := by
  unfold writeBit
  by_cases h : s.wcnt.toNat = 7
  · simp only [h, if_true, outByte]
    cases s.sink.headD .ok <;> rfl
  · simp only [if_neg h]
    rw [if_neg (by omega)]

/-- Writing bits completes where the sink takes the bytes that are due (R101). -/
theorem writeList_total : ∀ (bits : List Bool) (s : State), s.sinkTakes (s.bytesDue bits).length →
    ∃ u, writeList bits s = .done () u
  | [], s, _ => ⟨s, rfl⟩
  | b :: bits, s, h => by
    rw [State.bytesDue_cons] at h
    rw [writeList, writeBit_eq]
    split
    · next h7 =>
      rw [if_pos h7] at h
      have h0 := h 0 (by simp)
      have e : s.sink.headD .ok = .ok := by
        cases hs : s.sink <;> simp_all
      rw [e]
      refine writeList_total bits _ fun i hi => ?_
      have := h (i + 1) (by simp only [List.length_cons]; exact Nat.succ_lt_succ hi)
      cases hs : s.sink <;> simp_all
    · next h7 =>
      rw [if_neg h7] at h
      exact writeList_total bits _ h

/-- Writing bits stops at the first byte that is due and that the sink does not take (R101, R68). -/
theorem writeList_stop : ∀ (bits : List Bool) (s : State) (k : Nat), s.sinkTakes k → (hk : k < (s.bytesDue bits).length) →
    s.sink.getD k .ok ≠ .ok →
    ∃ u, writeList bits s = .stop (s.sink.getD k .ok).stop u ∧ u.sink = s.sink.drop (k + 1) ∧
      u.calls = s.calls ++ taken ((s.bytesDue bits).take k) ++ [.outByte (s.bytesDue bits)[k] (s.sink.getD k .ok)]
  | [], s, k, _, hk, _ => by
    have : (s.bytesDue []).length = 0 := by
      have h8 : s.buffered.length / 8 = 0 := by
        rw [s.length_buffered]
        have := s.wcnt.isLt
        omega
      simp [State.bytesDue, h8, packBits]
    omega
  | b :: bits, s, k, ht, hk, ha => by
    have hc := s.bytesDue_cons b bits
    rw [writeList, writeBit_eq]
    by_cases h7 : s.wcnt.toNat = 7
    · rw [if_pos h7] at hc
      rw [if_pos h7]
      cases k with
      | zero =>
        have e : s.sink.getD 0 .ok = s.sink.headD .ok := by cases s.sink <;> rfl
        rw [e] at ha ⊢
        have e2 : s.sink.drop (0 + 1) = s.sink.tail := by simp
        simp only [hc, List.take_zero, List.getElem_cons_zero, e2]
        cases hh : s.sink.headD .ok with
        | ok => exact absurd hh ha
        | err => exact ⟨_, rfl, rfl, by simp [taken]⟩
        | never => exact ⟨_, rfl, rfl, by simp [taken]⟩
      | succ k =>
        have h0 := ht 0 (by omega)
        have e : s.sink.headD .ok = .ok := by cases hs : s.sink <;> simp_all
        have et : ∀ i, s.sink.tail.getD i .ok = s.sink.getD (i + 1) .ok := fun i => by
          cases hs : s.sink <;> simp
        rw [e]
        obtain ⟨u, h1, h2, h3⟩ := writeList_stop bits { s with
            wbuf := 0, wcnt := 0, sink := s.sink.tail
            calls := s.calls ++ [.outByte (BitVec.ofNat 8 (s.wbuf.toNat * 2 + b.toNat)) .ok] } k
          (fun i hi => by
            show s.sink.tail.getD i .ok = .ok
            rw [et]
            exact ht (i + 1) (by omega))
          (by
            rw [hc, List.length_cons] at hk
            exact Nat.lt_of_succ_lt_succ hk)
          (by
            show s.sink.tail.getD k .ok ≠ .ok
            rw [et]
            exact ha)
        have e3 : s.sink.tail.getD k .ok = s.sink.getD (k + 1) .ok := et k
        refine ⟨u, ?_, ?_, ?_⟩
        · rw [← e3]
          exact h1
        · rw [h2]
          show s.sink.tail.drop (k + 1) = _
          simp
        · rw [h3, ← e3]
          simp only [hc, List.take_succ_cons, List.getElem_cons_succ, taken, List.map_cons, List.append_assoc,
            List.cons_append, List.nil_append]
          rfl
    · rw [if_neg h7] at hc
      rw [if_neg h7]
      obtain ⟨u, h1, h2, h3⟩ := writeList_stop bits { s with
          wbuf := BitVec.ofNat 8 (s.wbuf.toNat * 2 + b.toNat), wcnt := BitVec.ofNat 3 (s.wcnt.toNat + 1) } k ht
        (by rw [hc] at hk; exact hk) ha
      refine ⟨u, h1, h2, ?_⟩
      rw [h3]
      simp only [hc]

/-! ### Writing does not look at the coder registers -/

/-- The state with other values in the encoder's registers. -/
def State.withCoder (s : State) (l h p : Word) : State := { s with low := l, high := h, pending := p }

theorem writeBit_withCoder (b : Bool) (s : State) (l h p : Word) :
    (∀ u, writeBit b s = .done () u → writeBit b (s.withCoder l h p) = .done () (u.withCoder l h p)) ∧
    (∀ w u, writeBit b s = .stop w u → writeBit b (s.withCoder l h p) = .stop w (u.withCoder l h p)) := by
  have e1 : (s.withCoder l h p).wcnt = s.wcnt := rfl
  have e2 : (s.withCoder l h p).wbuf = s.wbuf := rfl
  have e3 : (s.withCoder l h p).sink = s.sink := rfl
  rw [writeBit_eq, writeBit_eq, e1, e2, e3]
  split
  · cases s.sink.headD .ok <;> refine ⟨fun u hu => ?_, fun w u hu => ?_⟩ <;> cases hu <;> rfl
  · refine ⟨fun u hu => ?_, fun w u hu => ?_⟩ <;> cases hu
    rfl

theorem writeList_withCoder (l h p : Word) : ∀ (bits : List Bool) (s : State),
    (∀ u, writeList bits s = .done () u → writeList bits (s.withCoder l h p) = .done () (u.withCoder l h p)) ∧
    (∀ w u, writeList bits s = .stop w u → writeList bits (s.withCoder l h p) = .stop w (u.withCoder l h p))
  | [], s => ⟨fun u hu => by cases hu; rfl, fun w u hu => by cases hu⟩
  | b :: bits, s => by
    obtain ⟨k1, k2⟩ := writeBit_withCoder b s l h p
    cases hv : writeBit b s with
    | done a v =>
      have ih := writeList_withCoder l h p bits v
      simp only [writeList, hv, k1 v hv, Res.done_andThen]
      exact ih
    | stop w v =>
      simp only [writeList, hv, k2 w v hv, Res.stop_andThen]
      refine ⟨fun u hu => (by cases hu), fun w' u hu => ?_⟩
      cases hu
      rfl

/-- `emitBit` writes the definite bit and the owed ones, and clears `pending` (R168). -/
theorem emitBit_eq (b : Bool) (s : State) :
    emitBit b s = (writeList (b :: List.replicate s.pending.toNat (!b)) s).andThen
      fun _ v => .done () { v with pending := 0 } := by
  rw [emitBit, writeList, Res.andThen_assoc]
  cases hv : writeBit b s with
  | done a v =>
    have hp : v.pending = s.pending := (congrArg State.pending (writeBit_done hv).same).symm
    simp only [Res.done_andThen, writeBits_eq, hp]
  | stop w v => rfl

/-! ### The bits of the E1/E2 steps, from the bounds alone (43_range_coder.md R168) -/

/-- The bits the E1/E2 steps of `Normalize` write, with `p` bits owed; they come before the E3 steps. -/
def coderBits (P : Nat) : Nat → Word → Word → Nat → List Bool
  | 0, _, _, _ => []
  | fuel + 1, low, high, p =>
    if sameTop P low.toNat high.toNat then
      low.toNat.testBit (P - 1) :: List.replicate p (!low.toNat.testBit (P - 1)) ++
        coderBits P fuel (BitVec.ofNat 32 (shiftE12 P low.toNat false)) (BitVec.ofNat 32 (shiftE12 P high.toNat true)) 0
    else []

/-- The bits the steps write are the emitted bits of the closed form (R168). -/
theorem coderBits_emitted {P l h p0 : Nat} (hP : 2 ≤ P) (hP' : P ≤ 32) : ∀ (fuel a : Nat) (low high : Word),
    NormAt P l h a 0 low.toNat high.toNat → P < a + fuel →
    emitted P a l p0 ++ coderBits P fuel low high (if a = 0 then p0 else 0) =
      emitted P (a + (coderSteps P fuel low high).1) l p0
  | 0, a, low, high, n, hf => by
    have := n.steps.1
    omega
  | fuel + 1, a, low, high, n, hf => by
    rw [coderSteps, coderBits]
    by_cases ht : sameTop P low.toNat high.toNat = true
    · obtain ⟨n', hb⟩ := n.e12 hP ht
      have hlt := n'.lt
      have hle := n'.le
      rw [← toNat_ofNat32 hP' hlt, ← toNat_ofNat32 hP' (Nat.lt_of_le_of_lt hle hlt)] at n'
      have ih := coderBits_emitted (p0 := p0) hP hP' fuel (a + 1) _ _ n' (by omega)
      rw [if_neg (Nat.succ_ne_zero a)] at ih
      rw [if_pos ht, if_pos ht]
      have e : a + 1 + (coderSteps P fuel (BitVec.ofNat 32 (shiftE12 P low.toNat false))
          (BitVec.ofNat 32 (shiftE12 P high.toNat true))).1 = a + ((coderSteps P fuel
          (BitVec.ofNat 32 (shiftE12 P low.toNat false)) (BitVec.ofNat 32 (shiftE12 P high.toNat true))).1 + 1) := by
        omega
      rw [e] at ih
      rw [← ih, ← List.append_assoc]
      congr 1
      rcases Nat.eq_zero_or_pos a with rfl | ha
      · rw [emitted_one, if_pos rfl, hb, Nat.sub_zero]
        rfl
      · rw [emitted_succ _ _ _ _ ha, if_neg (by omega), hb]
        rfl
    · rw [if_neg ht, if_neg ht, List.append_nil]
      rw [Bool.not_eq_true] at ht
      split
      · next hs =>
        have n' := n.e3 hP ht hs
        have hlt := n'.lt
        have hle := n'.le
        rw [← toNat_ofNat32 hP' hlt, ← toNat_ofNat32 hP' (Nat.lt_of_le_of_lt hle hlt)] at n'
        have := (coderSteps_norm hP hP' fuel a 1 _ _ n' (by omega)).2.1 (by omega)
        simp only [this, Nat.add_zero]
      · rfl

/-! ### `Normalize` on the encoder's side -/

/-- The state after the emission of an E1/E2 step, as a state with other coder registers. -/
theorem shiftInterval12_withCoder (v : State) :
    State.shiftInterval12 { v with pending := 0 } =
      v.withCoder (BitVec.ofNat 32 (shiftE12 v.P v.low.toNat false)) (BitVec.ofNat 32 (shiftE12 v.P v.high.toNat true)) 0 :=
  rfl

/-- Where writing the bits of the E1/E2 steps stops, `Normalize` stops. -/
theorem normalizeLoop_write_stop : ∀ (fuel : Nat) (s : State) (w : Stop) (v : State), s.mode = .enc →
    writeList (coderBits s.P fuel s.low s.high s.pending.toNat) s = .stop w v →
    ∃ v', normalizeLoop fuel s = .stop w v' ∧ v'.sink = v.sink ∧ v'.calls = v.calls
  | 0, s, w, v, _, h => by cases h
  | fuel + 1, s, w, v, hm, h => by
    rw [coderBits] at h
    by_cases ht : sameTop s.P s.low.toNat s.high.toNat = true
    · rw [if_pos ht, writeList_append] at h
      rw [normalizeLoop, if_pos ht]
      have hstep : ∀ r, emitBit (s.low.toNat.testBit (s.P - 1)) s = r →
          stepE12 s = r.andThen fun _ s => .done () s.shiftInterval12 := fun r hr => by
        rw [stepE12, hm]
        simp only [hr]
      rw [hstep _ (emitBit_eq _ s)]
      cases hx : writeList (s.low.toNat.testBit (s.P - 1) ::
          List.replicate s.pending.toNat (!s.low.toNat.testBit (s.P - 1))) s with
      | stop w' v' =>
        rw [hx] at h
        cases h
        exact ⟨_, rfl, rfl, rfl⟩
      | done a u =>
        rw [hx] at h
        simp only [Res.done_andThen] at h ⊢
        have hu := (writeList_done hx).same
        have e1 : u.P = s.P := (congrArg State.P hu).symm
        have e2 : u.low = s.low := (congrArg State.low hu).symm
        have e3 : u.high = s.high := (congrArg State.high hu).symm
        have e4 : u.mode = s.mode := (congrArg State.mode hu).symm
        rw [shiftInterval12_withCoder, e1, e2, e3]
        have hw := (writeList_withCoder (BitVec.ofNat 32 (shiftE12 s.P s.low.toNat false))
          (BitVec.ofNat 32 (shiftE12 s.P s.high.toNat true)) 0 _ u).2 w v h
        have := normalizeLoop_write_stop fuel (u.withCoder (BitVec.ofNat 32 (shiftE12 s.P s.low.toNat false))
          (BitVec.ofNat 32 (shiftE12 s.P s.high.toNat true)) 0) w _ (e4.trans hm) (by
            show writeList (coderBits u.P fuel _ _ (BitVec.toNat (0 : Word))) _ = _
            rw [e1]
            exact hw)
        exact this
    · rw [if_neg ht] at h
      cases h

/-- `Normalize` completes on the encoder's side where the bits can be written and the owed bits have room. -/
theorem normalizeLoop_enc_room {s0 : State} (hP : 2 ≤ s0.P) (hP' : s0.P ≤ 32) (hm : s0.mode = .enc) :
    ∀ (fuel a b : Nat) (s : State), EncAt s0 a b s → s0.P < a + b + fuel →
    (∃ v, writeList (coderBits s.P fuel s.low s.high s.pending.toNat) s = .done () v) →
    (if a + (coderSteps s.P fuel s.low s.high).1 = 0 then s0.pending.toNat else 0) +
      (b + (coderSteps s.P fuel s.low s.high).2) ≤ Config.pendMax →
    ∃ u, normalizeLoop fuel s = .done () u ∧ EncAt s0 (a + (coderSteps s.P fuel s.low s.high).1)
      (b + (coderSteps s.P fuel s.low s.high).2) u
  | 0, a, b, s, h, hf, _, _ => by
    have := h.norm.steps.1
    omega
  | fuel + 1, a, b, s, h, hf, hw, hroom => by
    have hPs := h.P
    rw [coderBits] at hw
    rw [coderSteps] at hroom ⊢
    rw [normalizeLoop]
    by_cases ht : sameTop s.P s.low.toNat s.high.toNat = true
    · have hb : b = 0 := by
        by_contra hb
        rw [hPs, h.norm.topsApart hP (by omega)] at ht
        cases ht
      subst hb
      simp only [if_pos ht] at hw hroom ⊢
      rw [writeList_append] at hw
      obtain ⟨v, hv⟩ := hw
      obtain ⟨_, x, hx, hv⟩ := Res.andThen_eq_done hv
      have hstep : stepE12 s = .done () (State.shiftInterval12 { x with pending := 0 }) := by
        have he := emitBit_eq (s.low.toNat.testBit (s.P - 1)) s
        rw [hx] at he
        rw [stepE12, h.mode, hm]
        simp only [he, Res.done_andThen]
      have hu := (writeList_done hx).same
      have e1 : x.P = s.P := (congrArg State.P hu).symm
      have e2 : x.low = s.low := (congrArg State.low hu).symm
      have e3 : x.high = s.high := (congrArg State.high hu).symm
      have hE := h.e12 hP hP' hm ht hstep
      rw [hstep, Res.done_andThen]
      rw [shiftInterval12_withCoder, e1, e2, e3] at hE ⊢
      have hwr := (writeList_withCoder (BitVec.ofNat 32 (shiftE12 s.P s.low.toNat false))
        (BitVec.ofNat 32 (shiftE12 s.P s.high.toNat true)) 0 _ x).1 v hv
      have e5 : (x.withCoder (BitVec.ofNat 32 (shiftE12 s.P s.low.toNat false))
        (BitVec.ofNat 32 (shiftE12 s.P s.high.toNat true)) 0).P = s.P := e1
      obtain ⟨u, hu1, hu2⟩ := normalizeLoop_enc_room hP hP' hm fuel (a + 1) 0 _ hE (by omega)
        ⟨_, by rw [e5]; exact hwr⟩ (by
          rw [e5]
          have key : ∀ x y p M : Nat, (if a + (x + 1) = 0 then p else 0) + (0 + y) ≤ M →
              (if a + 1 + x = 0 then p else 0) + (0 + y) ≤ M := fun x y p M hk => by
            rw [if_neg (by omega)] at hk
            rw [if_neg (by omega)]
            exact hk
          exact key _ _ _ _ hroom)
      refine ⟨u, hu1, ?_⟩
      rw [e5] at hu2
      simp only [State.withCoder] at hu2
      rw [Nat.add_right_comm] at hu2
      exact hu2
    · simp only [if_neg ht] at hroom ⊢
      rw [Bool.not_eq_true] at ht
      by_cases hs : straddles s.P s.low.toNat s.high.toNat = true
      · simp only [if_pos hs] at hroom ⊢
        have hn := h.norm.e3 hP (by rw [← hPs]; exact ht) (by rw [← hPs]; exact hs)
        have hp : s.pending.toNat ≠ Config.pendMax := by
          rw [h.pending]
          split at hroom
          · rw [if_pos (by omega)]
            omega
          · split
            · next ha0 ha =>
              have hlt := hn.lt
              have hle := hn.le
              rw [← toNat_ofNat32 hP' hlt, ← toNat_ofNat32 hP' (Nat.lt_of_le_of_lt hle hlt)] at hn
              have := (coderSteps_norm hP hP' fuel a (b + 1) _ _ hn (by omega)).2.1 (by omega)
              rw [← hPs] at this
              omega
            · omega
        have hv' : stepE3 s = .done () ({ s with pending := s.pending + 1 } : State).shiftInterval3 := by
          have hde : ∀ v, deferBit s = .done () v → stepE3 s = .done () v.shiftInterval3 := fun v hv => by
            rw [stepE3, h.mode, hm]
            simp only [hv, Res.done_andThen]
          exact hde _ (if_neg hp)
        have hE := h.e3 hP hP' hm ht hs hv'
        rw [hv', Res.done_andThen]
        have e5 : (({ s with pending := s.pending + 1 } : State).shiftInterval3).P = s.P := rfl
        have e6 : (({ s with pending := s.pending + 1 } : State).shiftInterval3).low =
          BitVec.ofNat 32 (shiftE3 s.P s.low.toNat false) := rfl
        have e7 : (({ s with pending := s.pending + 1 } : State).shiftInterval3).high =
          BitVec.ofNat 32 (shiftE3 s.P s.high.toNat true) := rfl
        have hnobits : ∃ v, writeList (coderBits
            (({ s with pending := s.pending + 1 } : State).shiftInterval3).P fuel
            (({ s with pending := s.pending + 1 } : State).shiftInterval3).low
            (({ s with pending := s.pending + 1 } : State).shiftInterval3).high
            (({ s with pending := s.pending + 1 } : State).shiftInterval3).pending.toNat)
            (({ s with pending := s.pending + 1 } : State).shiftInterval3) = .done () v := by
          have h0 := hE.norm.topsApart hP (by omega)
          rw [← hPs, ← e5] at h0
          cases fuel with
          | zero => exact ⟨_, rfl⟩
          | succ f =>
            rw [coderBits, if_neg (by rw [h0]; decide)]
            exact ⟨_, rfl⟩
        obtain ⟨u, hu1, hu2⟩ := normalizeLoop_enc_room hP hP' hm fuel a (b + 1) _ hE (by omega) hnobits (by
          rw [e5, e6, e7]
          refine le_trans (Nat.le_of_eq ?_) hroom
          congr 1
          omega)
        refine ⟨u, hu1, ?_⟩
        rw [e5, e6, e7] at hu2
        rw [Nat.add_right_comm b, Nat.add_assoc b _ 1] at hu2
        exact hu2
      · simp only [if_neg hs] at hroom ⊢
        exact ⟨s, rfl, h⟩

/-- `Normalize` raises E_PENDING where the E3 steps exceed the room for owed bits (R166, R169). -/
theorem normalizeLoop_pending {s0 : State} (hP : 2 ≤ s0.P) (hP' : s0.P ≤ 32) (hm : s0.mode = .enc) :
    ∀ (fuel b : Nat) (s : State), EncAt s0 0 b s → s0.P < b + fuel → (coderSteps s.P fuel s.low s.high).1 = 0 →
    Config.pendMax < s0.pending.toNat + (b + (coderSteps s.P fuel s.low s.high).2) →
    ∃ u, normalizeLoop fuel s = .stop (.raised .pending 0) u ∧ u.sink = s.sink ∧ u.calls = s.calls
  | 0, b, s, h, hf, _, _ => by
    have := h.norm.steps.1
    omega
  | fuel + 1, b, s, h, hf, h1, h2 => by
    have hPs := h.P
    rw [coderSteps] at h1 h2
    rw [normalizeLoop]
    by_cases ht : sameTop s.P s.low.toNat s.high.toNat = true
    · rw [if_pos ht] at h1
      exact absurd h1 (Nat.succ_ne_zero _)
    · simp only [if_neg ht] at h1 h2 ⊢
      rw [Bool.not_eq_true] at ht
      by_cases hs : straddles s.P s.low.toNat s.high.toNat = true
      · simp only [if_pos hs] at h1 h2 ⊢
        by_cases hp : s.pending.toNat = Config.pendMax
        · have : stepE3 s = .stop (.raised .pending 0) s := by
            rw [stepE3, h.mode, hm]
            simp only [deferBit, if_pos hp, Res.stop_andThen]
          rw [this]
          exact ⟨s, rfl, rfl, rfl⟩
        · have hv' : stepE3 s = .done () ({ s with pending := s.pending + 1 } : State).shiftInterval3 := by
            have hde : ∀ v, deferBit s = .done () v → stepE3 s = .done () v.shiftInterval3 := fun v hv => by
              rw [stepE3, h.mode, hm]
              simp only [hv, Res.done_andThen]
            exact hde _ (if_neg hp)
          have hE := h.e3 hP hP' hm ht hs hv'
          rw [hv', Res.done_andThen]
          exact normalizeLoop_pending hP hP' hm fuel (b + 1) _ hE (by omega) h1 (by
            refine Nat.lt_of_lt_of_eq h2 ?_
            show _ = s0.pending.toNat + (b + 1 + (coderSteps s.P fuel (BitVec.ofNat 32 (shiftE3 s.P s.low.toNat false))
              (BitVec.ofNat 32 (shiftE3 s.P s.high.toNat true))).2)
            omega)
      · simp only [if_neg hs] at h2
        have := h.pending
        rw [if_pos rfl] at this
        have hlt := s.pending.isLt
        simp only [Config.pendMax] at h2
        omega

/-! ### The encoder's coding step (43_range_coder.md R160) -/

/-- Everything a coding step of the encoder can end in once it is past its checks: with `a` E1/E2 and `b` E3 steps, it
completes, stops at a byte the sink does not take, or raises E_PENDING. -/
theorem codeStep_enc_outcome {t : TableRef} {sym : Nat} {s : State} (hP : 2 ≤ s.P) (hP' : s.P ≤ 32) (hm : s.mode = .enc)
    (hr : s.IntervalAtRest) (hw : Memory.wf s.ctx = true) (hs : sym < s.SL) (ht : s.total t ≤ s.quarter)
    (hg : 0 < s.get t sym) :
    let l := narrowLow s.low.toNat s.high.toNat (s.total t) (s.cumLow t sym)
    let h := narrowHigh s.low.toNat s.high.toNat (s.total t) (s.cumHigh t sym)
    ∃ a b, NormSteps s.P l h a b ∧
      (let due := s.bytesDue (emitted s.P a l s.pending.toNat)
       (s.sinkTakes due.length → (a = 0 → s.pending.toNat + b ≤ Config.pendMax) → ∃ u, codeStep t sym s = .done () u ∧
         EncAt (s.narrowTo (s.total t) (s.cumLow t sym) (s.cumHigh t sym)) a b u) ∧
       (∀ k, s.sinkTakes k → k < due.length → s.sink.getD k .ok ≠ .ok →
         ∃ u, codeStep t sym s = .stop (s.sink.getD k .ok).stop u ∧ u.sink = s.sink.drop (k + 1) ∧
           u.calls = s.calls ++ taken (due.take k) ++ [.outByte (due.getD k 0) (s.sink.getD k .ok)]) ∧
       (a = 0 → Config.pendMax < s.pending.toNat + b →
         ∃ u, codeStep t sym s = .stop (.raised .pending 0) u ∧ u.sink = s.sink ∧ u.calls = s.calls)) := by
  intro l h
  have hc : s.cumLow t sym < s.cumHigh t sym := by rw [s.cumHigh_eq]; omega
  have n := s.narrowed hP hP' hr hw hs ht hc
  have he := codeStep_eq (t := t) (sym := sym) (s := s) ht (by omega)
  obtain ⟨s0, hs0⟩ : ∃ s0, s0 = s.narrowTo (s.total t) (s.cumLow t sym) (s.cumHigh t sym) := ⟨_, rfl⟩
  have e1 : s0.P = s.P := by rw [hs0]; rfl
  have e2 : s0.pending = s.pending := by rw [hs0]; rfl
  have e3 : s0.mode = .enc := by rw [hs0]; exact hm
  have e4 : s0.low.toNat = l := by rw [hs0]; exact n.low
  have e5 : s0.high.toNat = h := by rw [hs0]; exact n.high
  have e6 : s0.sink = s.sink := by rw [hs0]; rfl
  have e7 : s0.calls = s.calls := by rw [hs0]; rfl
  have e8 : ∀ bits, s0.bytesDue bits = s.bytesDue bits := fun bits => by rw [hs0]; rfl
  have hst : EncAt s0 0 0 s0 := EncAt.start (by rw [hs0]; exact n.le) (by rw [hs0]; exact n.lt)
  have hf : s0.P < 0 + 0 + 2 * s0.P := by omega
  rw [← hs0] at he ⊢
  rw [he, normalize, e1]
  have q := coderSteps_steps (by omega : 2 ≤ s0.P) (by omega) hst.norm.le hst.norm.lt
  have qb := coderBits_emitted (p0 := s0.pending.toNat) (by omega : 2 ≤ s0.P) (by omega) (2 * s0.P) 0 _ _ hst.norm
    (by omega)
  rw [if_pos rfl, show emitted s0.P 0 s0.low.toNat s0.pending.toNat = [] from rfl, List.nil_append] at qb
  have hP2 : 2 ≤ s0.P := by omega
  have hP3 : s0.P ≤ 32 := by omega
  have ht1 := normalizeLoop_enc_room (s0 := s0) hP2 hP3 e3 (2 * s0.P) 0 0 s0 hst hf
  have ht2 := normalizeLoop_write_stop (2 * s0.P) s0
  have ht3 := normalizeLoop_pending (s0 := s0) hP2 hP3 e3 (2 * s0.P) 0 s0 hst (by omega)
  generalize coderSteps s0.P (2 * s0.P) s0.low s0.high = r at q qb ht1 ht3
  simp only [Nat.zero_add] at qb ht1 ht3
  rw [qb] at ht1 ht2
  rw [e1, e4, e5] at q
  rw [e1, e4, e2] at ht1 ht2
  rw [e1, e2] at ht3
  have htake : ∀ k, s.sinkTakes k → s0.sinkTakes k := fun k hk i hi => by rw [e6]; exact hk i hi
  have hmost := q.most
  refine ⟨r.1, r.2, q, ?_, ?_, ?_⟩
  · intro htk hroom
    refine ht1 (writeList_total _ _ (htake _ ?_)) ?_
    · rw [e8]
      exact htk
    · split
      · next ha => exact hroom ha
      · simp only [Config.pendMax]
        omega
  · intro k hk hlt ha
    obtain ⟨u, w1, w2, w3⟩ := writeList_stop (emitted s.P r.1 l s.pending.toNat) s0 k (htake k hk) (by rw [e8]; exact hlt)
      (by rw [e6]; exact ha)
    obtain ⟨v, v1, v2, v3⟩ := ht2 _ u e3 w1
    refine ⟨v, ?_, ?_, ?_⟩
    · rw [← e6]
      exact v1
    · rw [v2, w2, e6]
    · rw [v3, w3, e7, e6]
      simp only [e8, List.getD_eq_getElem _ _ hlt]
  · intro ha hp
    obtain ⟨u, u1, u2, u3⟩ := ht3 ha hp
    exact ⟨u, u1, u2.trans e6, u3.trans e7⟩

/-! ### Reading bits from a source that fails or does not answer (R102) -/

/-- Within the next `n` bits the source is asked a `k`-th time, after `k` bytes, and answers `a`. -/
structure AsksFor (s : State) (k : Nat) (a : InAnswer) (n : Nat) : Prop where
  asks : s.asks n k
  last : s.input[k]? = some a
  bad  : a = .err ∨ a = .never

/-- What the source has been asked, and what it has left, after the bad answer. -/
structure AfterAsking (s u : State) (k : Nat) : Prop where
  input    : u.input = s.input.drop (k + 1)
  calls    : u.calls = s.calls ++ (s.input.take (k + 1)).map .inByte
  eos      : u.eos = s.eos
  tailbits : u.tailbits = s.tailbits

/-- A bit read on the way to a bad answer. -/
theorem readCodeBit_asks {s : State} {k n : Nat} {a : InAnswer} (h : AsksFor s k a (n + 1)) :
    (∃ u, readCodeBit s = .stop a.stop u ∧ AfterAsking s u k) ∨
    (∃ b u k', readCodeBit s = .done b u ∧ AsksFor u k' a n ∧
      (∀ v, AfterAsking u v k' → AfterAsking s v k)) := by
  obtain ⟨⟨he, hn, hb⟩, hl, ha⟩ := h
  by_cases h0 : s.rcnt = 0
  · have h0' : s.rcnt.toNat = 0 := by rw [h0]; rfl
    cases hi : s.input with
    | nil => rw [hi] at hl; simp at hl
    | cons x rest =>
      have hd : s.input.headD .eos = x := by rw [hi]; rfl
      have htl : s.input.tail = rest := by rw [hi]; rfl
      cases k with
      | zero =>
        have hx : x = a := by rw [hi] at hl; simpa using hl
        subst hx
        refine .inl ?_
        have hin : inByte s = .stop x.stop { s with input := rest, calls := s.calls ++ [.inByte x] } := by
          unfold inByte
          simp only [hd, htl]
          rcases ha with rfl | rfl <;> rfl
        have hrd : readCodeBit s = .stop x.stop { s with input := rest, calls := s.calls ++ [.inByte x] } := by
          rw [readCodeBit, readBit]
          simp only [h0, if_true, he, Bool.false_eq_true, if_false, hin, Res.stop_andThen]
        exact ⟨_, hrd, by simp [hi], by simp [hi], rfl, rfl⟩
      | succ k =>
        obtain ⟨b, hb0⟩ := hb 0 (by omega)
        have hx : x = .byte b := by rw [hi] at hb0; simpa using hb0
        subst hx
        refine .inr ?_
        have hrd : readCodeBit s = .done (b.getLsbD 7) { s with
            rbuf := b, rcnt := 7, input := rest, calls := s.calls ++ [.inByte (.byte b)] } := by
          rw [readCodeBit, readBit]
          simp only [h0, if_true, he, Bool.false_eq_true, if_false, inByte, hd, htl, Res.done_andThen]
        refine ⟨_, _, k, hrd, ⟨⟨he, ?_, fun i hik => ?_⟩, ?_, ha⟩, fun v hv => ?_⟩
        · show 7 + 8 * k < n
          omega
        · have := hb (i + 1) (by omega)
          rw [hi] at this
          simpa using this
        · rw [hi] at hl
          simpa using hl
        · obtain ⟨v1, v2, v3, v4⟩ := hv
          refine ⟨?_, ?_, v3, v4⟩
          · rw [v1, hi]
            simp
          · rw [v2, hi]
            simp
  · have h0' : s.rcnt.toNat ≠ 0 := fun e => h0 (by apply BitVec.eq_of_toNat_eq; simpa using e)
    have hlt := s.rcnt.isLt
    refine .inr ?_
    have hrd : readCodeBit s = .done (s.rbuf.getLsbD (s.rcnt.toNat - 1)) { s with
        rcnt := BitVec.ofNat 3 (s.rcnt.toNat - 1) } := by
      rw [readCodeBit, readBit]
      simp only [h0, if_false, Res.done_andThen]
    refine ⟨_, _, k, hrd, ⟨⟨he, ?_, hb⟩, hl, ha⟩, fun v hv => ⟨hv.input, hv.calls, hv.eos, hv.tailbits⟩⟩
    show (BitVec.ofNat 3 (s.rcnt.toNat - 1)).toNat + 8 * k < n
    rw [BitVec.toNat_ofNat, Nat.mod_eq_of_lt (by omega)]
    omega

/-- Other values in the decoder's registers change nothing about the source. -/
theorem AsksFor.congr {s u : State} {k n : Nat} {a : InAnswer} (h : AsksFor s k a n) (h1 : u.eos = s.eos)
    (h2 : u.rcnt = s.rcnt) (h3 : u.input = s.input) : AsksFor u k a n :=
  ⟨by rw [State.asks, h1, h2, h3]; exact h.asks, by rw [h3]; exact h.last, h.bad⟩

/-- A bit taken into `code` on the way to a bad answer. -/
theorem takeBit_asks (f : Nat → Nat → Bool → Nat) {s : State} {k n : Nat} {a : InAnswer} (h : AsksFor s k a (n + 1)) :
    (∃ u, takeBit f s = .stop a.stop u ∧ AfterAsking s u k) ∨
    (∃ u k', takeBit f s = .done () u ∧ Reads { s with code := u.code } u ∧ AsksFor u k' a n ∧
      (∀ v, AfterAsking u v k' → AfterAsking s v k)) := by
  rcases readCodeBit_asks h with ⟨u, h1, h2⟩ | ⟨b, u, k', h1, h2, h3⟩
  · refine .inl ⟨u, ?_, h2⟩
    rw [takeBit, h1]
    rfl
  · refine .inr ⟨u.setCode (f u.P u.code.toNat b), k', ?_, ?_, h2.congr rfl rfl rfl,
      fun v hv => h3 v ⟨hv.input, hv.calls, hv.eos, hv.tailbits⟩⟩
    · rw [takeBit, h1]
      rfl
    · have hk := (readCodeBit_done h1).2.reads
      exact ⟨congrArg (fun s : State => { s with code := (u.setCode (f u.P u.code.toNat b)).code }) hk.same, hk.calls⟩

/-- Taking bits in leaves everything but `code` and the reader alone. -/
theorem takeBit_reads (f : Nat → Nat → Bool → Nat) (s : State) :
    Reads { s with code := (takeBit f s).final.code } (takeBit f s).final := by
  have h := readCodeBit_reads s
  rw [takeBit]
  cases hr : readCodeBit s with
  | done b v =>
    rw [hr] at h
    exact ⟨congrArg (fun x : State => { x with code := (v.setCode (f v.P v.code.toNat b)).code }) h.same, h.calls⟩
  | stop w v =>
    rw [hr] at h
    exact ⟨congrArg (fun x : State => { x with code := v.code }) h.same, h.calls⟩

/-- Loading bits leaves the bounds alone, wherever it ends. -/
theorem loadCode_bounds : ∀ (n : Nat) (s : State),
    (loadCode n s).final.low = s.low ∧ (loadCode n s).final.high = s.high
  | 0, _ => ⟨rfl, rfl⟩
  | n + 1, s => by
    have h := (takeBit_reads shiftE12 s).same
    have h1 : (takeBit shiftE12 s).final.low = s.low := (congrArg State.low h).symm
    have h2 : (takeBit shiftE12 s).final.high = s.high := (congrArg State.high h).symm
    rw [loadCode, ← h1, ← h2]
    cases takeBit shiftE12 s with
    | done b v => exact loadCode_bounds n v
    | stop w v => exact ⟨rfl, rfl⟩

/-- Loading bits stops at the bad answer (R172). -/
theorem loadCode_asks : ∀ (n : Nat) {s : State} {k : Nat} {a : InAnswer}, AsksFor s k a n →
    ∃ u, loadCode n s = .stop a.stop u ∧ AfterAsking s u k
  | 0, s, k, a, h => absurd h.asks.2.1 (by omega)
  | n + 1, s, k, a, h => by
    rw [loadCode]
    rcases takeBit_asks shiftE12 h with ⟨u, h1, h2⟩ | ⟨u, k', h1, -, h2, h3⟩
    · rw [h1]
      exact ⟨u, rfl, h2⟩
    · rw [h1]
      obtain ⟨v, hv, hv2⟩ := loadCode_asks n h2
      exact ⟨v, hv, h3 v hv2⟩

/-- `Normalize` on the decoder's side stops at the bad answer (R165, R167). -/
theorem normalizeLoop_asks : ∀ (fuel : Nat) {s : State} {k : Nat} {a : InAnswer}, s.mode = .dec →
    AsksFor s k a ((coderSteps s.P fuel s.low s.high).1 + (coderSteps s.P fuel s.low s.high).2) →
    ∃ u, normalizeLoop fuel s = .stop a.stop u ∧ AfterAsking s u k
  | 0, s, k, a, _, h => absurd h.asks.2.1 (by simp [coderSteps])
  | fuel + 1, s, k, a, hm, h => by
    rw [coderSteps] at h
    rw [normalizeLoop]
    by_cases ht : sameTop s.P s.low.toNat s.high.toNat = true
    · simp only [if_pos ht] at h ⊢
      rw [Nat.add_right_comm] at h
      rcases takeBit_asks shiftE12 h with ⟨u, h1, h2⟩ | ⟨u, k', h1, hr, h2, h3⟩
      · have : stepE12 s = .stop a.stop u := by
          rw [stepE12, hm]
          simp only [h1, Res.stop_andThen]
        rw [this]
        exact ⟨u, rfl, h2⟩
      · have : stepE12 s = .done () u.shiftInterval12 := by
          rw [stepE12, hm]
          simp only [h1, Res.done_andThen]
        rw [this, Res.done_andThen]
        have e1 : u.P = s.P := (congrArg State.P hr.same).symm
        have e2 : u.low = s.low := (congrArg State.low hr.same).symm
        have e3 : u.high = s.high := (congrArg State.high hr.same).symm
        have e4 : u.mode = s.mode := (congrArg State.mode hr.same).symm
        have e5 : u.shiftInterval12.P = s.P := e1
        have e6 : u.shiftInterval12.low = BitVec.ofNat 32 (shiftE12 s.P s.low.toNat false) := by rw [← e1, ← e2]; rfl
        have e7 : u.shiftInterval12.high = BitVec.ofNat 32 (shiftE12 s.P s.high.toNat true) := by rw [← e1, ← e3]; rfl
        obtain ⟨v, hv, hv2⟩ := normalizeLoop_asks fuel (s := u.shiftInterval12) (k := k') (a := a) (e4.trans hm) (by
          rw [e5, e6, e7]
          exact h2.congr rfl rfl rfl)
        exact ⟨v, hv, h3 v ⟨hv2.input, hv2.calls, hv2.eos, hv2.tailbits⟩⟩
    · simp only [if_neg ht] at h ⊢
      by_cases hs : straddles s.P s.low.toNat s.high.toNat = true
      · simp only [if_pos hs] at h ⊢
        rw [← Nat.add_assoc] at h
        rcases takeBit_asks shiftE3Code h with ⟨u, h1, h2⟩ | ⟨u, k', h1, hr, h2, h3⟩
        · have : stepE3 s = .stop a.stop u := by
            rw [stepE3, hm]
            simp only [h1, Res.stop_andThen]
          rw [this]
          exact ⟨u, rfl, h2⟩
        · have : stepE3 s = .done () u.shiftInterval3 := by
            rw [stepE3, hm]
            simp only [h1, Res.done_andThen]
          rw [this, Res.done_andThen]
          have e1 : u.P = s.P := (congrArg State.P hr.same).symm
          have e2 : u.low = s.low := (congrArg State.low hr.same).symm
          have e3 : u.high = s.high := (congrArg State.high hr.same).symm
          have e4 : u.mode = s.mode := (congrArg State.mode hr.same).symm
          have e5 : u.shiftInterval3.P = s.P := e1
          have e6 : u.shiftInterval3.low = BitVec.ofNat 32 (shiftE3 s.P s.low.toNat false) := by rw [← e1, ← e2]; rfl
          have e7 : u.shiftInterval3.high = BitVec.ofNat 32 (shiftE3 s.P s.high.toNat true) := by rw [← e1, ← e3]; rfl
          obtain ⟨v, hv, hv2⟩ := normalizeLoop_asks fuel (s := u.shiftInterval3) (k := k') (a := a) (e4.trans hm) (by
            rw [e5, e6, e7]
            exact h2.congr rfl rfl rfl)
          exact ⟨v, hv, h3 v ⟨hv2.input, hv2.calls, hv2.eos, hv2.tailbits⟩⟩
      · simp only [if_neg hs] at h
        exact absurd h.asks.2.1 (by omega)

/-- `Normalize` that completes on the decoder's side made the steps that the bounds call for (R165, R177). -/
theorem normalizeLoop_dec_steps {s0 u : State} (hP : 2 ≤ s0.P) (hP' : s0.P ≤ 32) (hm : s0.mode = .dec) :
    ∀ (fuel a b : Nat) (s : State), DecAt s0 a b s → s0.P < a + b + fuel → normalizeLoop fuel s = .done () u →
      DecAt s0 (a + (coderSteps s.P fuel s.low s.high).1) (b + (coderSteps s.P fuel s.low s.high).2) u
  | 0, a, b, s, h, hf, _ => by
    have := h.norm.steps.1
    omega
  | fuel + 1, a, b, s, h, hf, hd => by
    have hPs := h.P
    rw [normalizeLoop] at hd
    rw [coderSteps]
    by_cases ht : sameTop s.P s.low.toNat s.high.toNat = true
    · have hb : b = 0 := by
        by_contra hb
        rw [hPs, h.norm.topsApart hP (by omega)] at ht
        cases ht
      subst hb
      simp only [if_pos ht] at hd ⊢
      obtain ⟨_, v, hv, hd⟩ := Res.andThen_eq_done hd
      obtain ⟨e1, e2, e3⟩ := stepE12_bounds hv
      have ih := normalizeLoop_dec_steps hP hP' hm fuel (a + 1) 0 v (h.e12 hP hP' hm ht hv) (by omega) hd
      rw [e1, e2, e3, Nat.add_right_comm] at ih
      exact ih
    · simp only [if_neg ht] at hd ⊢
      by_cases hs : straddles s.P s.low.toNat s.high.toNat = true
      · simp only [if_pos hs] at hd ⊢
        obtain ⟨_, v, hv, hd⟩ := Res.andThen_eq_done hd
        obtain ⟨e1, e2, e3⟩ := stepE3_bounds hv
        have ih := normalizeLoop_dec_steps hP hP' hm fuel a (b + 1) v
          (h.e3 hP hP' hm (Bool.eq_false_iff.mpr ht) hs hv) (by omega) hd
        rw [e1, e2, e3, Nat.add_right_comm] at ih
        exact ih
      · simp only [if_neg hs] at hd ⊢
        cases hd
        exact h

/-- A decoding step past its checks: with `a` E1/E2 and `b` E3 steps it takes `a + b` code bits; it
completes where the source answers, and stops at a bad answer of the source within them (R173). -/
theorem decodeWith_asks {t : TableRef} {s : State} (hP : 2 ≤ s.P) (hP' : s.P ≤ 32) (hm : s.mode = .dec)
    (hr : s.IntervalAtRest) (hw : Memory.wf s.ctx = true) (h1 : s.low.toNat ≤ s.code.toNat)
    (h2 : s.code.toNat ≤ s.high.toNat) (ht1 : 1 ≤ s.total t) (ht : s.total t ≤ s.quarter) (htr : s.truncated = false) :
    let v := decodeValue s.low.toNat s.high.toNat s.code.toNat (s.total t)
    let l := narrowLow s.low.toNat s.high.toNat (s.total t) (s.cumLow t (s.findSymbol t v))
    let h := narrowHigh s.low.toNat s.high.toNat (s.total t) (s.cumHigh t (s.findSymbol t v))
    ∃ a b, NormSteps s.P l h a b ∧
      (s.sourceAnswers (a + b) → ∃ u, decodeWith t s = .done (s.findSymbol t v) u ∧
        DecAt (s.narrowTo (s.total t) (s.cumLow t (s.findSymbol t v)) (s.cumHigh t (s.findSymbol t v))) a b u) ∧
      ∀ k x, AsksFor s k x (a + b) → ∃ u, decodeWith t s = .stop x.stop u ∧ AfterAsking s u k := by
  intro v l h
  obtain ⟨f1, f2, f3, f4⟩ := s.findSymbol_inside hw h1 h2 ht1
  have hc : s.cumLow t (s.findSymbol t v) < s.cumHigh t (s.findSymbol t v) := Nat.lt_of_le_of_lt f2 f3
  have n := s.narrowed hP hP' hr hw f1 ht hc
  have he := codeStep_eq (t := t) (sym := s.findSymbol t v) (s := s) ht (by omega)
  obtain ⟨s0, hs0⟩ : ∃ s0, s0 = s.narrowTo (s.total t) (s.cumLow t (s.findSymbol t v)) (s.cumHigh t (s.findSymbol t v)) :=
    ⟨_, rfl⟩
  have e1 : s0.P = s.P := by rw [hs0]; rfl
  have e3 : s0.mode = .dec := by rw [hs0]; exact hm
  have e4 : s0.low.toNat = l := by rw [hs0]; exact n.low
  have e5 : s0.high.toNat = h := by rw [hs0]; exact n.high
  have hq := coderSteps_steps (P := s0.P) (low := s0.low) (high := s0.high) (by omega) (by omega)
    (by rw [hs0]; exact n.le) (by rw [hs0]; exact n.lt)
  have htotal := normalizeLoop_answers (2 * s0.P) (s := s0) e3
  have hstop := fun k x => normalizeLoop_asks (2 * s0.P) (s := s0) (k := k) (a := x) e3
  have hdec : DecAt s0 0 0 s0 := DecAt.start (by rw [e4, hs0]; exact f4.1) (by rw [e5, hs0]; exact f4.2)
    (by rw [hs0]; exact n.lt)
  have hdone := fun u => normalizeLoop_dec_steps (u := u) (by omega : 2 ≤ s0.P) (by omega) e3 (2 * s0.P) 0 0 s0 hdec
    (by omega)
  generalize coderSteps s0.P (2 * s0.P) s0.low s0.high = r at *
  simp only [Nat.zero_add] at hdone
  rw [e1, e4, e5] at hq
  refine ⟨r.1, r.2, hq, fun g => ?_, fun k x hx => ?_⟩
  · obtain ⟨u, hu⟩ := htotal (g.congr (by rw [hs0]; rfl) (by rw [hs0]; rfl) (by rw [hs0]; rfl))
    refine ⟨u, ?_, hs0 ▸ hdone u hu⟩
    unfold decodeWith
    simp only [htr, Bool.false_eq_true, if_false]
    rw [if_neg (by omega), he, ← hs0, normalize, hu]
    rfl
  obtain ⟨u, hu, hu2⟩ := hstop k x (hx.congr (by rw [hs0]; rfl) (by rw [hs0]; rfl) (by rw [hs0]; rfl))
  refine ⟨u, ?_, ?_⟩
  · unfold decodeWith
    simp only [htr, Bool.false_eq_true, if_false]
    rw [if_neg (by omega), he, ← hs0, normalize, hu]
    rfl
  · rw [hs0] at hu2
    exact ⟨hu2.input, hu2.calls, hu2.eos, hu2.tailbits⟩

/-! ### Updating contexts where one stands in the way (42_context_tree.md R142, R144) -/

/-- The contexts of a list before its `k`-th can be visited, the `k`-th cannot: the visit stops there. -/
theorem visitAll_stop (sym : Nat) : ∀ (l : List Path) (s : State) (k : Nat), l.Nodup → (hk : k < l.length) →
    (∀ q ∈ l.take k, Memory.has s.ctx q = true → s.total (.context q) ≠ Config.totalMax) →
    (∀ i, (hi : i < l.length) → i < k → Memory.has s.ctx l[i] = false →
      s.params.nodeMax ≠ some (s.nctx + s.missing (l.take i))) →
    (Memory.has s.ctx l[k] = false → s.params.nodeMax = some (s.nctx + s.missing (l.take k)) →
      ∃ u, visitAll sym l s = .stop (.raised .nodes (s.nctx + s.missing (l.take k))) u ∧ Updates s u) ∧
    (Memory.has s.ctx l[k] = true → s.total (.context l[k]) = Config.totalMax →
      ∃ u, visitAll sym l s = .stop (.raised .count sym) u ∧ Updates s u)
  | [], _, _, _, hk, _, _ => absurd hk (by simp)
  | p :: l, s, 0, hn, hk, _, _ => by
    have hm0 : s.missing ((p :: l).take 0) = 0 := rfl
    rw [hm0, Nat.add_zero, visitAll, visitContext_eq]
    refine ⟨fun h1 h2 => ⟨s, ?_, Updates.refl s⟩, fun h1 h2 => ⟨s, ?_, Updates.refl s⟩⟩
    · have h1 : Memory.has s.ctx p = false := h1
      simp only [h1, Bool.false_eq_true, if_false]
      rw [if_pos h2]
      rfl
    · have h1 : Memory.has s.ctx p = true := h1
      have hfull : s.total (.context p) = Config.totalMax := h2
      simp only [h1, if_true]
      rw [if_pos hfull]
      rfl
  | p :: l, s, k + 1, hn, hk, h1, h2 => by
    rw [List.nodup_cons] at hn
    have hoth : ∀ q ∈ l, lookup q (s.visited sym p).ctx = lookup q s.ctx := fun q hq =>
      s.visited_others sym fun e => hn.1 (e ▸ hq)
    have hk' : k < l.length := by simpa using hk
    have hv : visitContext sym p s = .done () (s.visited sym p) := by
      rw [visitContext_eq]
      cases hh : Memory.has s.ctx p
      · have : s.params.nodeMax ≠ some s.nctx := h2 0 (by simp) (by omega) hh
        simp only [Bool.false_eq_true, if_false]
        rw [if_neg this]
      · simp only [if_true]
        rw [if_neg (h1 p (by simp) hh)]
    have hcount : ∀ i, (s.visited sym p).nctx + (s.visited sym p).missing (l.take i) =
        s.nctx + s.missing ((p :: l).take (i + 1)) := fun i => by
      rw [State.missing_congr fun q hq => hoth q (List.mem_of_mem_take hq)]
      simp only [State.missing, List.take_succ_cons, List.filter_cons, State.visited]
      cases Memory.has s.ctx p <;> (simp; try omega)
    have hup := s.visited_updates sym p
    obtain ⟨r1, r2⟩ := visitAll_stop sym l (s.visited sym p) k hn.2 hk'
      (fun q hq hh => by
        have hq' := List.mem_of_mem_take hq
        have := h1 q (by rw [List.take_succ_cons]; exact List.mem_cons_of_mem _ hq)
          (by rw [← has_of_lookup (hoth q hq')]; exact hh)
        intro ht
        apply this
        simp only [State.total] at ht ⊢
        rw [← table_of_lookup (hoth q hq')]
        exact ht)
      (fun i hi hik hh => by
        rw [hcount i]
        exact h2 (i + 1) (by simpa using hi) (by omega) (by
          show Memory.has s.ctx l[i] = false
          rw [← has_of_lookup (hoth l[i] (List.getElem_mem hi))]
          exact hh))
    have hmem := List.getElem_mem hk'
    rw [visitAll, hv, Res.done_andThen, ← hcount k]
    refine ⟨fun g1 g2 => ?_, fun g1 g2 => ?_⟩
    · obtain ⟨u, u1, u2⟩ := r1 (by rw [has_of_lookup (hoth _ hmem)]; exact g1) g2
      exact ⟨u, u1, hup.trans u2⟩
    · obtain ⟨u, u1, u2⟩ := r2 (by rw [has_of_lookup (hoth _ hmem)]; exact g1) (by
        simp only [State.total]
        rw [table_of_lookup (hoth _ hmem)]
        exact g2)
      exact ⟨u, u1, hup.trans u2⟩

end Sys2Proof.Machine
end

