-- ==== Sys2Proof/Tests/Slice0.lean ====
section
/-! SUPPORT. The author's tests: the legality checks, the decoding of words written out from the spec, one step per
command with the values of 95_test_vectors.md, and for every statement of the certificate with hypotheses a witness
that meets them. -/

namespace Sys2Proof.Tests

open Sys2Proof.Machine

/-! ### Legality (30_encoding.md R82, R86): a term that each check refuses -/

theorem test_order_below_minus_one_is_illegal : (Instr.ftot 0xFE).wellFormed = false := by decide
theorem test_every_order_operand_is_checked :
    [Instr.fget 0x80 0, .flow 0xFE 0, .fhigh 0xFE 0, .finc 0xFE 0, .fset 0xFE 0 0, .cwalk 0xFE, .narrow 0xFE 0,
      .decode 0xFE].all (fun i => !i.wellFormed) = true := by decide
theorem test_crw_to_a_read_only_register_is_illegal :
    (Instr.crw 8 0).wellFormed = false ∧ (Instr.crw 4 0).wellFormed = false := by decide
theorem test_crr_of_an_unassigned_register_is_illegal :
    (Instr.crr 4).wellFormed = false ∧ (Instr.crr 7).wellFormed = false ∧ (Instr.crr 13).wellFormed = false := by
  decide
theorem test_rcrd_of_index_four_is_illegal : (Instr.rcrd 4).wellFormed = false := by decide
theorem test_legal_boundaries :
    [Instr.ftot 0xFF, .ftot 0x7F, .crw 3 0, .crr 3, .crr 8, .crr 12, .rcrd 3].all Instr.wellFormed = true := by
  decide

/-! ### Decoding: words written out from the fields of R80 and the rows of R84 -/

theorem test_decode_system_control :
    decode 0x0100000800000000 = .error (.operand 0x01) ∧
    decode 0x0100000000000008 = .ok (.crw 0 8) ∧
    decode 0x0100000300000100 = .ok (.crw 3 256) ∧
    decode 0x0200000C00000000 = .ok (.crr 12) ∧
    decode 0x0300000000000000 = .ok (.start .enc) ∧
    decode 0x0300000000000001 = .ok (.start .dec) := by decide
theorem test_decode_bit_channel :
    decode 0x1000000000000000 = .ok .brd ∧
    decode 0x1100000000000000 = .ok (.bwr false) ∧
    decode 0x1100000000000001 = .ok (.bwr true) ∧
    decode 0x1200000000000000 = .ok .bclose := by decide
theorem test_decode_frequency_table :
    decode 0x20FF000000000000 = .ok (.ftot 0xFF) ∧
    decode 0x2101004200000000 = .ok (.fget 1 66) ∧
    decode 0x227FFFFF00000000 = .ok (.flow 127 65535) ∧
    decode 0x2300010000000000 = .ok (.fhigh 0 256) ∧
    decode 0x24FF004100000000 = .ok (.finc 0xFF 65) ∧
    decode 0x2500004200000007 = .ok (.fset 0 66 7) := by decide
theorem test_decode_context_tree :
    decode 0x3003000000000000 = .ok (.cwalk 3) ∧
    decode 0x3100004100000000 = .ok (.cinc 65) ∧
    decode 0x3200004100000000 = .ok (.hpush 65) ∧
    decode 0x3300000200000000 = .ok (.hrd 2) := by decide
theorem test_decode_range_coder :
    decode 0x40FF004100000000 = .ok (.narrow 0xFF 65) ∧
    decode 0x4100000000000000 = .ok .finish ∧
    decode 0x4200000000000000 = .ok .dinit ∧
    decode 0x4301000000000000 = .ok (.decode 1) ∧
    decode 0x4400000300000000 = .ok (.rcrd 3) := by decide
theorem test_decode_symbol_driver :
    decode 0x5000010000000000 = .ok (.encsym 256) ∧
    decode 0x5100000000000000 = .ok .decsym := by decide
theorem test_illegal_words :
    decode 0 = .error (.unknownOpcode 0) ∧
    decode 0xFFFFFFFFFFFFFFFF = .error (.unknownOpcode 0xFF) ∧
    decode 0x5100000000000001 = .error (.mustBeZero 0x51) ∧
    decode 0x1100000000000002 = .error (.mustBeZero 0x11) ∧
    decode 0x5001004100000000 = .error (.mustBeZero 0x50) ∧
    decode 0x0200000400000000 = .error (.operand 0x02) ∧
    decode 0x4400000400000000 = .error (.operand 0x44) := by decide
theorem test_bytes_of_a_word_come_most_significant_first :
    decodeBytes [0x21, 0x01, 0x00, 0x42, 0, 0, 0, 0] = .ok (.fget 1 66) ∧
    decodeBytes [0x21] = .error (.length 1) := by decide
theorem test_table_word :
    decodeTableWord 64 0x2500004200000007 = some (.fset 0 66 7) ∧
    decodeTableWord 64 0x20FE000000000000 = none := by decide

/-! ### States to start from -/

/-- A run of mode ENC just opened, with the configuration that reset leaves. -/
def enc : State := State.reset.openRun .enc
/-- A run of mode DEC just opened. -/
def dec : State := State.reset.openRun .dec
/-- A run of mode DEC after `DINIT` of an empty source (vector R10). -/
def loaded : State := { dec with codeValid := true, eos := true, tailbits := 32 }
/-- A closed run. -/
def closed : State := { enc with phase := .closed }
/-- A state in phase FAULT, with cause E_FLATMUT (vector P5). -/
def faulted : State := { enc with phase := .fault, faultCause := 10, faultInfo := 0x24 }
/-- The tables of vectors F1 to F5: root counts 65:4, 66:3, 256:1. -/
def counts : State := { enc with ctx := [([], [(65, 4), (66, 3), (256, 1)])] }
/-- The history of vector C1 under `K = 2`. -/
def pushed : State := { enc with crK := 2, hist := [66, 65] }
/-- The state after a command. -/
def after (i : Instr) (s : State) : State :=
  match exec i s with
  | .next t => t
  | _ => s
/-- The responses after a command, as numbers (R88). -/
def replies (i : Instr) (s : State) : List (Nat × Nat) :=
  (after i s).responses.map fun r => (r.kind.code, r.value.toNat)

/-! ### System control (vectors S1 to S11, P5) -/

theorem test_crw_stores_minus_one : (after (.crw 1 0xFFFFFFFF) State.reset).K = -1 := by decide
theorem test_crw_is_refused_in_a_run :
    replies (.crw 1 1) enc = [(2, 9)] ∧ (after (.crw 1 1) enc).faultInfo = 1 := by decide
theorem test_crr_reads_status : replies (.crr 8) { enc with wbuf := 5, wcnt := 3 } = [(0, 0x05000301)] := by decide
theorem test_crr_reads_the_cause_in_fault : replies (.crr 9) faulted = [(0, 10)] ∧ replies (.crr 10) faulted = [(0, 0x24)] := by
  decide
theorem test_start_checks_sl_against_p :
    (after (.start .enc) { State.reset with crSl := 300, crP := 8 }).faultInfo = 2 := by decide
theorem test_start_seeds_the_root :
    (after (.start .dec) State.reset).ctx = [([], [(256, 1)])] ∧ (after (.start .dec) State.reset).nctx = 1 := by decide

/-! ### Bit channel (vectors B2, B3, B5, B7) -/

theorem test_bwr_hands_over_the_eighth_bit :
    (after (.bwr false) { enc with wbuf := 0x50, wcnt := 7 }).calls = [.outByte 0xA0 .ok] := by decide
theorem test_bclose_completes_the_byte :
    (after .bclose { enc with wbuf := 5, wcnt := 3 }).calls = [.outByte 0xA0 .ok, .outClose] := by decide
theorem test_brd_takes_the_top_bit_first :
    (after .brd { dec with input := [.byte 0x80, .byte 1] }).status = 0x80000705 := by decide
theorem test_brd_answers_two_at_the_end :
    replies .brd { dec with eos := true } = [(0, 2)] ∧ (after .brd { dec with eos := true }).calls = [] := by decide

/-! ### Frequency table (vectors V1, F1 to F5, F7, F8, F10, F11) -/

theorem test_ftot : replies (.ftot 0) counts = [(0, 8)] ∧ replies (.ftot 0xFF) counts = [(0, 257)] := by decide
theorem test_fget : replies (.fget 0 66) counts = [(0, 3)] ∧ replies (.fget 1 65) counts = [(1, 0)] := by decide
theorem test_flow : replies (.flow 0 67) counts = [(0, 7)] ∧ replies (.flow 0xFF 256) counts = [(0, 256)] := by decide
theorem test_fhigh : replies (.fhigh 0 65) counts = [(0, 4)] ∧ replies (.fhigh 0 256) counts = [(0, 8)] := by decide
theorem test_finc : (after (.finc 0 0) counts).ctx = [([], [(0, 1), (65, 4), (66, 3), (256, 1)])] := by decide
theorem test_finc_of_the_flat_table : (after (.finc 0xFF 65) enc).faultInfo = 0x24 := by decide
theorem test_fset_of_zero : (after (.fset 0 66 0) counts).ctx = [([], [(65, 4), (256, 1)])] := by decide
theorem test_fset_bounds :
    (after (.fset 0 256 0) enc).faultCause = 11 ∧ (after (.fset 0 0 0xFFFFFFFF) enc).faultCause = 11 ∧
      (after (.fset 0 0 0xFFFFFFFE) enc).faultCause = 0 := by decide

/-! ### Context tree and history (vectors C1 to C9) -/

theorem test_cwalk : replies (.cwalk 0) pushed = [(0, 0)] ∧ replies (.cwalk 1) pushed = [(1, 0)] := by decide
theorem test_cinc :
    (after (.cinc 67) pushed).ctx =
      [([], [(67, 1), (256, 1)]), ([66], [(67, 1), (256, 1)]), ([66, 65], [(67, 1), (256, 1)])] := by decide
theorem test_cinc_without_room :
    (after (.cinc 67) { pushed with params := { nodeMax := some 2, truncLimit := none } }).faultInfo = 2 := by decide
theorem test_hpush : (after (.hpush 68) { enc with hist := [67, 66, 65] }).hist = [68, 67, 66] := by decide
theorem test_hpush_at_order_zero : (after (.hpush 65) { enc with crK := 0 }).hist = [] := by decide
theorem test_hrd : replies (.hrd 1) pushed = [(0, 65)] ∧ replies (.hrd 2) pushed = [(1, 0)] := by decide

/-! ### Range coder (vectors R1, R3, R5, R9, R11, R12; P4 ci 13) -/

theorem test_narrow_flat :
    (after (.narrow 0xFF 65) enc).low = 0x5FA05F80 ∧ (after (.narrow 0xFF 65) enc).high = 0xDF20DEFF ∧
      (after (.narrow 0xFF 65) enc).wbuf = 32 ∧ (after (.narrow 0xFF 65) enc).wcnt = 7 := by decide
theorem test_narrow_of_count_zero :
    (after (.narrow 0 65) enc).faultCause = 7 ∧ (after (.narrow 0 65) enc).faultInfo = 65 := by decide
theorem test_finish : (after .finish { enc with wbuf := 14, wcnt := 4, pending := 4 }).wbuf = 29 := by decide
theorem test_dinit :
    (after .dinit { dec with crP := 8, high := 255, input := [.byte 0x2A] }).code = 42 := by decide
theorem test_decode_flat :
    replies (.decode 0xFF) { loaded with code := 0x41BE0000, tailbits := 16 } = [(0, 65)] ∧
      (after (.decode 0xFF) { loaded with code := 0x41BE0000, tailbits := 16 }).code = 0xDF000000 := by decide
theorem test_decode_before_dinit : (after (.decode 0xFF) dec).faultInfo = 0x43 := by decide
theorem test_rcrd : replies (.rcrd 1) enc = [(0, 0xFFFFFFFF)] ∧ replies (.rcrd 3) enc = [(0, 0)] := by decide

/-! ### Symbol driver (vectors D1, D2; P4 ci 12) -/

theorem test_encsym_escapes :
    (after (.encsym 65) enc).low = 0x5FA05F80 ∧ (after (.encsym 65) enc).hist = [65] ∧
      (after (.encsym 65) enc).ctx = [([], [(65, 1), (256, 1)])] := by decide
theorem test_decsym :
    replies .decsym { loaded with code := 0x41BE0000, tailbits := 16 } = [(0, 65)] ∧
      (after .decsym { loaded with code := 0x41BE0000, tailbits := 16 }).hist = [65] := by decide

/-! ### The machine -/

theorem test_fetched_word_runs :
    step (State.reset.withFetchWord 64 0x0300000000000001) = exec (.start .dec) State.reset := by rfl
theorem test_phase_fault_refuses : replies (.encsym 66) faulted = [(3, 10)] ∧ replies .bclose faulted = [(3, 10)] := by
  decide
theorem test_second_command_while_busy :
    step { enc with busy := some .output, host := [.command 0x4100000000000000] } = .fault .commandWhileBusy := by
  rfl

/-! ### Witnesses: for every statement with hypotheses, states and operands that meet them, clause by clause -/

/-- A small run, `P = 8`, `SL = 4`, `ESC = 3`, `K = 0` (program P4). -/
def small (m : Mode) : State := { State.reset with crP := 8, crK := 0, crSl := 4, crEsc := 3 }.openRun m
/-- A state in which the host presents a word. -/
def presents (w : Command) (s : State) : State := { s with host := [.command w] }
/-- A sink or a source that answers once. -/
def sinkAt7 (a : OutAnswer) : State := { enc with wcnt := 7, sink := [a] }
def sourceAt0 (a : InAnswer) : State := { dec with input := [a] }

theorem test_witness_DecodeEncodeRoundTrip :
    (Instr.ftot 0xFF).wellFormed = true ∧ (Instr.ftot 0x7F).wellFormed = true ∧ (Instr.crw 3 0).wellFormed = true ∧
      (Instr.crr 12).wellFormed = true ∧ (Instr.rcrd 0).wellFormed = true ∧ Instr.decsym.wellFormed = true := by decide

theorem test_witness_DecodedWordIsItsEncoding : decode 0x257FFFFFFFFFFFFF = .ok (.fset 127 65535 0xFFFFFFFF) := by decide

theorem test_witness_IllegalWordsRaiseIllegal :
    ((presents 0x1300000000000000 enc).busy = none ∧ (presents 0x1300000000000000 enc).phase ≠ .fault) ∧
    (∀ op ∈ Opcode.all, op.byte ≠ opcodeField 0x1300000000000000) ∧
    (Opcode.decsym.byte = opcodeField 0x5100000000000001 ∧
      (0x5100000000000001 : Command) &&& Opcode.decsym.format.mask ≠ Opcode.decsym.byte.zeroExtend 64 <<< 56) ∧
    (Opcode.ftot.byte = opcodeField 0x20FE000000000000 ∧
      (Opcode.ftot.build 0x20FE000000000000).wellFormed = false) := by decide

theorem test_witness_StepRunsTheDecodedCommand :
    decode 0x5000010000000000 = .ok (.encsym 256) ∧
      (presents 0x5000010000000000 enc).host = .command 0x5000010000000000 :: [] ∧
      (presents 0x5000010000000000 enc).busy = none := by decide

theorem test_witness_ResetFromAnyState :
    ({ faulted with host := [.reset [.eos] [], .command 0] } : State).host = .reset [.eos] [] :: [.command 0] ∧
      ({ enc with host := [.resetDuring 0x1200000000000000 0 [] []] } : State).host =
        .resetDuring 0x1200000000000000 0 [] [] :: [] ∧ enc.busy = none := by decide

theorem test_witness_FaultPhaseRefusesAllButCrr :
    ((presents 0 faulted).phase = .fault ∧ (presents 0 faulted).busy = none ∧
      (∀ r, decode 0 ≠ .ok (.crr r)) ∧ ∀ r, decode 0x0200000400000000 ≠ .ok (.crr r)) ∧
    (decode 0x0200000C00000000 = .ok (.crr 12) ∧ decode 0x0200000000000000 = .ok (.crr 0)) := by
  refine ⟨⟨by decide, by decide, fun r h => ?_, fun r h => ?_⟩, by decide⟩
  · rw [show decode 0 = .error (.unknownOpcode 0) by decide] at h
    cases h
  · rw [show decode 0x0200000400000000 = .error (.operand 2) by decide] at h
    cases h

theorem test_witness_AcceptanceByPhaseAndMode :
    (¬ State.reset.InAcceptanceTable .rcrd ∧ State.reset.InAcceptanceTable .start) ∧
    (¬ dec.InAcceptanceTable .decode ∧ dec.InAcceptanceTable .dinit ∧ dec.InAcceptanceTable .brd) ∧
    (¬ loaded.InAcceptanceTable .dinit ∧ loaded.InAcceptanceTable .decsym) ∧
    (¬ enc.InAcceptanceTable .brd ∧ enc.InAcceptanceTable .finish ∧ enc.InAcceptanceTable .hpush) ∧
    (¬ closed.InAcceptanceTable .bclose ∧ closed.InAcceptanceTable .hrd) ∧
    (State.reset.phase ≠ .fault ∧ closed.phase ≠ .fault ∧ (Instr.rcrd 0).wellFormed = true ∧
      (Instr.decode 0xFF).wellFormed = true) ∧ faulted.phase = .fault ∧ Instr.bclose.opcode ≠ .crr := by
  refine ⟨⟨?_, ?_⟩, ⟨?_, ?_, ?_⟩, ⟨?_, ?_⟩, ⟨?_, ?_, ?_⟩, ⟨?_, ?_⟩, ?_⟩ <;>
    (try unfold State.InAcceptanceTable) <;> decide

theorem test_witness_ChecksComeInOrder :
    (0xFE : Order).toInt < -1 ∧ -1 ≤ (0xFF : Order).toInt ∧ closed.phase ≠ .run ∧ closed.phase ≠ .fault ∧
      enc.phase = .run ∧ enc.SL ≤ (257 : SymField).toNat ∧ (256 : SymField).toNat < enc.SL ∧
      enc.resolve (1 : Order).toInt = none ∧ enc.resolve (0xFF : Order).toInt = some .flat := by decide

theorem test_witness_SymbolOutOfRangeRaises :
    [Instr.fget 0xFF 257, .flow 0 257, .fhigh 0 257, .finc 0xFF 257, .fset 0 257 0, .cinc 257, .hpush 257,
        .narrow 0xFF 257, .encsym 257].all (fun i => i.wellFormed && enc.accepts i.opcode) = true ∧
      enc.phase ≠ .fault ∧ enc.SL ≤ (257 : SymField).toNat := by decide

theorem test_witness_CrwStoresTheValue :
    State.reset.phase = .unconf ∧ closed.phase ≠ .fault ∧ 3 < (4 : SymField).toNat ∧ closed.phase = .closed ∧
      enc.phase = .run ∧ (3 : SymField).toNat ≤ 3 := by decide

theorem test_witness_CrrReadsTheRegisters :
    enc.phase ≠ .fault ∧ enc.nctx < 2 ^ 32 ∧ faulted.phase = .fault ∧
      [(4 : SymField), 7, 13, 65535].all (fun r => decide (r.toNat ∉ [0, 1, 2, 3, 8, 9, 10, 11, 12])) = true := by
  decide

theorem test_witness_StatusShowsTheLiveState :
    ({ enc with hist := List.replicate 255 0 } : State).hlen < 256 ∧ enc.phase ≠ .fault ∧ faulted.hlen < 256 ∧
      faulted.phase = .fault := by
  refine ⟨?_, by decide⟩
  rw [State.hlen, List.length_replicate]
  decide

theorem test_witness_StartOpensTheRun :
    (State.reset.LegalConfig ∧ { State.reset with crP := 2, crK := 127, crSl := 1, crEsc := 0 }.LegalConfig) ∧
    ({ State.reset with crP := 1 } : State).P < 2 ∧ 32 < ({ State.reset with crP := 33 } : State).P ∧
    ({ State.reset with crK := 0xFFFFFFFE } : State).K < -1 ∧ 127 < ({ State.reset with crK := 128 } : State).K ∧
    ({ State.reset with crSl := 0 } : State).SL < 1 ∧ 65536 < ({ State.reset with crSl := 65537 } : State).SL ∧
    (2 ^ (({ State.reset with crP := 10 } : State).P - 2) < ({ State.reset with crP := 10 } : State).SL) ∧
    ({ State.reset with crEsc := 257 } : State).SL ≤ ({ State.reset with crEsc := 257 } : State).ESC := by
  simp only [State.LegalConfig]
  decide

theorem test_witness_BwrWritesOneBit :
    (enc.phase = .run ∧ enc.mode = .enc ∧ ({ enc with wcnt := 6 } : State).wcnt.toNat < 7) ∧
      (sinkAt7 .ok).sink.headD .ok = .ok ∧ (sinkAt7 .err).sink.headD .ok = .err ∧
      (sinkAt7 .never).sink.headD .ok = .never ∧ (sinkAt7 .ok).wcnt = 7 := by decide

theorem test_witness_FinishWritesOneBit :
    (enc.phase = .run ∧ enc.mode = .enc ∧ enc.wcnt.toNat < 7) ∧ (sinkAt7 .err).wcnt = 7 ∧
      (sinkAt7 .ok).sink.headD .ok = .ok ∧ (sinkAt7 .err).sink.headD .ok = .err ∧
      (sinkAt7 .never).sink.headD .ok = .never := by decide

theorem test_witness_BrdReadsOneBit :
    (dec.phase = .run ∧ dec.mode = .dec ∧ 0 < ({ dec with rcnt := 1 } : State).rcnt.toNat) ∧
      (loaded.rcnt = 0 ∧ loaded.eos = true) ∧ (sourceAt0 (.byte 0xA5)).input.headD .eos = .byte 0xA5 ∧
      dec.input.headD .eos = .eos ∧ (sourceAt0 .err).input.headD .eos = .err ∧
      (sourceAt0 .never).input.headD .eos = .never ∧ dec.rcnt = 0 ∧ dec.eos = false := by decide

theorem test_witness_BcloseFlushesAndCloses :
    (enc.phase = .run ∧ enc.mode = .enc ∧ enc.wcnt = 0) ∧ ((sinkAt7 .ok).wcnt ≠ 0 ∧ dec.mode = .dec) ∧
      ({ enc with wcnt := 1, sink := [.err] } : State).sink.headD .ok = .err ∧
      (sinkAt7 .never).sink.headD .ok = .never := by decide

/-- A source that gives some bytes answers their bits, whatever it would answer next. -/
theorem answers_bytes {s : State} (l : List Byte) {rest : List InAnswer} (h : s.input = l.map .byte ++ rest) :
    s.sourceAnswers (8 * l.length) := by
  intro k hk
  have hk : s.rcnt.toNat + 8 * k < 8 * l.length := hk.2.1
  have hl : k < l.length := by omega
  simp [h, List.getElem?_append_left, hl]

/-- A source that ends after some bytes answers any number of bits, whatever it would answer after its end. -/
theorem answers_to_the_end {s : State} (l : List Byte) {rest : List InAnswer} (h : s.input = l.map .byte ++ .eos :: rest)
    (n : Nat) : s.sourceAnswers n := by
  intro k hk
  rcases Nat.lt_trichotomy k l.length with hl | rfl | hl
  · simp [h, List.getElem?_append_left, hl]
  · simp [h]
  · obtain ⟨x, hx⟩ := hk.2.2 l.length hl
    simp [h] at hx

/-- The sink may fail beyond the bytes the bits fill. -/
theorem test_witness_WrittenBitsReachTheSinkPacked :
    enc.phase = .run ∧ enc.mode = .enc ∧ enc.busy = none ∧
      ({ enc with sink := [.ok, .err] } : State).sinkTakes (packBits (enc.buffered ++ List.replicate 8 true)).length := by
  refine ⟨by decide, by decide, by decide, fun i hi => ?_⟩
  obtain rfl : i = 0 := by
    have : (packBits (enc.buffered ++ List.replicate 8 true)).length = 1 := by decide
    omega
  rfl

/-- The source may fail beyond the byte asked for, and beyond its end. -/
theorem test_witness_BitsAreReadInOrder :
    dec.phase = .run ∧ dec.mode = .dec ∧ dec.busy = none ∧
      ({ dec with input := [.byte 0xA5, .err] } : State).sourceAnswers 8 ∧
      ({ dec with input := [.byte 0xA5, .eos, .err] } : State).sourceAnswers 17 :=
  ⟨by decide, by decide, by decide, answers_bytes [0xA5] rfl, answers_to_the_end [0xA5] rfl 17⟩

theorem test_witness_TableFunctionsAreTheirSums : Memory.wf counts.ctx = true := by decide

theorem test_witness_TablesPartitionTheirRange :
    Memory.wf counts.ctx = true ∧ 1 ≤ counts.SL ∧ counts.get (.context []) 67 = 0 ∧
      7 < counts.total (.context []) ∧ 256 < counts.total .flat := by decide

theorem test_witness_TableReadsAnswer :
    (closed.phase = .run ∨ closed.phase = .closed) ∧ -1 ≤ (0xFF : Order).toInt ∧
      closed.resolve (0xFF : Order).toInt = some .flat ∧ closed.resolve (0 : Order).toInt = some (.context []) ∧
      Memory.table closed.ctx [] = Table.fresh closed.ESC ∧
      closed.resolve (1 : Order).toInt = none ∧ (256 : SymField).toNat < closed.SL ∧
      closed.SL ≤ (257 : SymField).toNat := by decide

theorem test_witness_FincAddsOne :
    counts.phase = .run ∧ -1 ≤ (0 : Order).toInt ∧ (256 : SymField).toNat < counts.SL ∧ Memory.wf counts.ctx = true ∧
      counts.resolve (0 : Order).toInt = some (.context []) ∧ counts.total (.context []) ≠ 2 ^ 32 - 1 ∧
      ({ enc with ctx := [([], [(256, 4294967295)])] } : State).total (.context []) = 2 ^ 32 - 1 ∧
      counts.SL ≤ (257 : SymField).toNat ∧ counts.resolve (1 : Order).toInt = none ∧
      counts.resolve (0xFF : Order).toInt = some .flat := by decide

theorem test_witness_FsetReplacesTheCount :
    enc.phase = .run ∧ (256 : SymField).toNat < enc.SL ∧ Memory.wf enc.ctx = true ∧
      enc.resolve (0 : Order).toInt = some (.context []) ∧
      (enc.total (.context []) - enc.get (.context []) 256 + 0 = 0) ∧
      (2 ^ 32 - 1 < enc.total (.context []) - enc.get (.context []) 0 + (0xFFFFFFFF : Word).toNat) ∧
      (enc.total (.context []) - enc.get (.context []) 0 + (0xFFFFFFFE : Word).toNat ≤ 2 ^ 32 - 1) ∧
      enc.SL ≤ (257 : SymField).toNat ∧ enc.resolve (1 : Order).toInt = none ∧
      enc.resolve (0xFF : Order).toInt = some .flat := by decide

theorem test_witness_FlatTableCannotBeWritten : enc.phase = .run ∧ (256 : SymField).toNat < enc.SL := by decide

theorem test_witness_tree_at_rest (m : Mode) : (State.reset.openRun m).TreeAtRest := by
  refine ⟨by cases m <;> decide, by cases m <;> decide, by cases m <;> decide, by cases m <;> decide, ?_, ?_, ?_,
    by cases m <;> decide, ?_⟩
  · intro p x h
    cases p <;> simp [State.openRun, State.K, State.reset, Memory.has, lookup] at h
  · intro p h
    cases p with
    | nil => cases m <;> decide
    | cons a p => simp [State.openRun, State.K, State.reset, Memory.has, lookup] at h
  · simp only [TableInRange]
    cases m <;> decide
  · intro n h
    cases h

theorem test_witness_no_tree_at_rest (m : Mode) :
    (({ State.reset with crK := 0xFFFFFFFF } : State).openRun m).TreeAtRest := by
  refine ⟨by cases m <;> decide, by cases m <;> decide, by cases m <;> decide, by cases m <;> decide, ?_, ?_,
    by cases m <;> simp [State.openRun, State.K, State.reset], by cases m <;> decide, ?_⟩
  · intro p x h
    cases m <;> simp [State.openRun, State.K, State.reset, Memory.has, lookup] at h
  · intro p h
    cases m <;> simp [State.openRun, State.K, State.reset, Memory.has, lookup] at h
  · intro n h
    cases h

theorem test_witness_CwalkTellsWhetherAContextExists :
    ((closed.phase = .run ∨ closed.phase = .closed) ∧ (0xFF : Order).toInt = -1 ∧ (0 : Order).toInt = (0 : Nat) ∧
      0 ≤ closed.hlen ∧ Memory.has closed.ctx (closed.hist.take 0) = true ∧ (2 : Order).toInt = (2 : Nat) ∧
      2 ≤ pushed.hlen ∧ Memory.has pushed.ctx (pushed.hist.take 2) = false ∧ closed.hlen < 1 ∧
      closed.resolve (0 : Order).toInt ≠ none ∧ closed.resolve (1 : Order).toInt = none) ∧
    (enc.TreeAtRest ∧ 0 ≤ enc.K) ∧
    let s := ({ State.reset with crK := 0xFFFFFFFF } : State).openRun .enc
    s.TreeAtRest ∧ s.K = -1 ∧ s.phase = .run :=
  ⟨by decide, ⟨test_witness_tree_at_rest .enc, by decide⟩, test_witness_no_tree_at_rest .enc, by decide⟩

theorem test_witness_CincUpdatesThePath :
    (({ State.reset with crK := 0xFFFFFFFF } : State).openRun .enc).K = -1 ∧ pushed.phase = .run ∧
      (256 : SymField).toNat < pushed.SL ∧ Memory.wf pushed.ctx = true ∧ 0 ≤ pushed.K ∧
      Memory.has pushed.ctx [] = true ∧
      (∀ p ∈ (List.range (min pushed.hlen pushed.K.toNat + 1)).map (fun n => pushed.hist.take n),
        Memory.has pushed.ctx p = true → pushed.total (.context p) ≠ Config.totalMax) ∧
      ∀ n, pushed.params.nodeMax = some n → pushed.nctx + 2 ≤ n := by
  refine ⟨by decide, by decide, by decide, by decide, by decide, by decide, by decide, fun n h => ?_⟩
  cases h

/-- The clause of E_COUNT, at the last context of the path. -/
theorem test_witness_CincOfAFullContext :
    let s : State := { pushed with ctx := [([], [(256, 1)]), ([66, 65], [(65, 4294967295)])], nctx := 2 }
    s.phase = .run ∧ Memory.wf s.ctx = true ∧ 0 ≤ s.K ∧ Memory.has s.ctx [] = true ∧ 2 ≤ min s.hlen s.K.toNat ∧
      s.total (.context []) ≠ Config.totalMax ∧ Memory.has s.ctx [66] = false ∧ s.params.nodeMax = none ∧
      Memory.has s.ctx (s.hist.take 2) = true ∧ s.total (.context (s.hist.take 2)) = Config.totalMax := by decide

theorem test_witness_CincDependsOnTheModelAlone :
    enc.phase = .run ∧ loaded.phase = .run ∧ enc.crK = loaded.crK ∧ enc.crSl = loaded.crSl ∧
      enc.crEsc = loaded.crEsc ∧ enc.params = loaded.params ∧ enc.hist = loaded.hist ∧ enc.ctx = loaded.ctx ∧
      enc.nctx = loaded.nctx ∧ enc.mode ≠ loaded.mode := by decide

theorem test_witness_CincWithoutRoomRaisesNodes :
    (let s : State := { pushed with params := { nodeMax := some 1, truncLimit := none } }
     s.phase = .run ∧ (67 : SymField).toNat < s.SL ∧ 0 ≤ s.K ∧ Memory.has s.ctx [] = true ∧
       1 ≤ min s.hlen s.K.toNat ∧ s.total (.context []) ≠ Config.totalMax ∧
       Memory.has s.ctx (s.hist.take 1) = false ∧ s.params.nodeMax = some (s.nctx + 0)) ∧
    -- vector C9: the room runs out on the way
    let s : State := { pushed with crK := 3, params := { nodeMax := some 2, truncLimit := none } }
    2 ≤ min s.hlen s.K.toNat ∧ Memory.has s.ctx (s.hist.take 2) = false ∧
      ((List.range 2).map (fun n => s.hist.take n)).filter (fun p => !Memory.has s.ctx p) = [[66]] ∧
      s.params.nodeMax = some (s.nctx + 1) ∧ (after (.cinc 67) s).faultCause = 13 ∧ (after (.cinc 67) s).faultInfo = 2 := by
  decide

theorem test_witness_HpushShiftsTheHistory :
    pushed.phase = .run ∧ (256 : SymField).toNat < pushed.SL ∧ pushed.SL ≤ (257 : SymField).toNat ∧
      (small .enc).K ≤ 0 ∧ (3 : SymField).toNat < (small .enc).SL ∧ pushed.K = (1 : Nat) + 1 ∧
      ({ pushed with crK := 1 } : State).K = (0 : Nat) + 1 := by decide

theorem test_witness_HrdReadsTheHistory :
    (closed.phase = .run ∨ closed.phase = .closed) ∧ closed.hlen ≤ (0 : SymField).toNat ∧ pushed.phase = .run ∧
      pushed.hlen ≤ (2 : SymField).toNat ∧ (1 : SymField).toNat < pushed.hist.length := by decide

theorem test_witness_NarrowingStaysInside :
    RestInterval 8 0 255 ∧ RestInterval 8 63 128 ∧ RestInterval 8 127 192 ∧ 63 < 64 ∧ 64 ≤ 2 ^ (8 - 2) ∧ 2 ≤ 8 := by
  simp only [RestInterval]
  decide

theorem test_witness_FindSymbolIsTheUniqueOne :
    Memory.wf counts.ctx = true ∧ 0 < counts.total (.context []) ∧ 7 < counts.total (.context []) ∧
      256 < counts.total .flat ∧ 66 < counts.SL ∧ counts.cumLow (.context []) 66 ≤ 6 ∧
      6 < counts.cumHigh (.context []) 66 := by decide

theorem test_witness_DecodedValueKeepsCodeInside :
    RestInterval 8 0 169 ∧ 0 ≤ 149 ∧ 149 ≤ 169 ∧ 1 ≤ 4 ∧ 4 ≤ 2 ^ (8 - 2) ∧ decodeValue 0 169 149 4 = 3 ∧
      RestInterval 2 0 2 ∧ decodeValue 0 2 2 1 = 0 := by
  simp only [RestInterval]
  decide

theorem test_witness_UnderflowStepOfTheEncoder :
    let s : State := { small .enc with low := 127, high := 169 }
    s.mode = .enc ∧ 2 ≤ s.P ∧ s.P ≤ 32 ∧ s.pending.toNat ≠ 2 ^ 32 - 1 ∧ 2 ^ (s.P - 2) ≤ s.low.toNat ∧
      s.low.toNat < 2 ^ (s.P - 1) ∧ 2 ^ (s.P - 1) ≤ s.high.toNat ∧ s.high.toNat < 3 * 2 ^ (s.P - 2) ∧
      ({ s with pending := 0xFFFFFFFF } : State).pending.toNat = 2 ^ 32 - 1 := by decide

theorem test_witness_TailBitsAreZerosAndCounted :
    loaded.rcnt = 0 ∧ loaded.eos = true ∧ loaded.tailbits.toNat < 2 ^ 64 - 1 ∧
      ({ loaded with tailbits := 0xFFFFFFFFFFFFFFFF } : State).tailbits.toNat = 2 ^ 64 - 1 := by decide

/-- A run that a symbol leaves straddling the middle, twice. -/
def straddling : State :=
  { small .enc with ctx := [([], [(0, 3), (1, 2), (3, 3)])], pending := 0xFFFFFFFE }

theorem test_witness_NarrowEncodesTheSymbol :
    (enc.phase = .run ∧ enc.mode = .enc ∧ -1 ≤ (0xFF : Order).toInt ∧ (256 : SymField).toNat < enc.SL ∧
      enc.LegalConfig ∧ enc.IntervalAtRest ∧ Memory.wf enc.ctx = true ∧
      enc.resolve (0xFF : Order).toInt = some .flat ∧ enc.total .flat ≤ enc.quarter ∧ 0 < enc.get .flat 256) ∧
    (straddling.phase = .run ∧ straddling.mode = .enc ∧ straddling.LegalConfig ∧ straddling.IntervalAtRest ∧
      Memory.wf straddling.ctx = true ∧ straddling.resolve (0 : Order).toInt = some (.context []) ∧
      straddling.total (.context []) ≤ straddling.quarter ∧ 0 < straddling.get (.context []) 1) := by
  simp only [State.LegalConfig, State.IntervalAtRest, RestInterval]
  decide

/-- The steps the bounds call for are pinned: two E3 steps from 96 and 159 (P = 8), none from 0 and 130, where `low`
does not begin 01; seven E1/E2 steps in the example of R170. -/
theorem test_witness_NormSteps :
    NormSteps 8 96 159 0 2 ∧ NormSteps 8 0 130 0 0 ∧ (∀ b, 0 < b → ¬ NormSteps 8 0 130 0 b) ∧
      NormSteps 32 0x40BF40BF 0x41BE41BD 7 0 := by
  refine ⟨⟨by decide, by decide, fun j hj => ?_, ?_⟩, ⟨by decide, by decide, fun j hj => absurd hj (Nat.not_lt_zero j), ?_⟩,
    fun b hb h => ?_, ⟨by decide, by decide, fun j hj => absurd hj (Nat.not_lt_zero j), ?_⟩⟩
  · obtain rfl | rfl : j = 0 ∨ j = 1 := by omega
    all_goals simp only [Straddle]; decide
  · simp only [RestInterval]; decide
  · simp only [RestInterval]; decide
  · exact absurd (h.straddle 0 hb).2.2.1 (by decide)
  · simp only [RestInterval]; decide

/-- Each ending of it: the byte is taken, refused, not answered; the owed bits run out. -/
theorem test_witness_NarrowEndings :
    (enc.bytesDue (emitted 32 7 0x40BF40BF 0) = [] ∧
      (sinkAt7 .err).bytesDue (emitted 32 7 0x40BF40BF 0) = [0]) ∧
    (after (.narrow 0xFF 65) (sinkAt7 .ok)).calls = [.outByte 0 .ok] ∧
    (after (.narrow 0xFF 65) (sinkAt7 .err)).faultCause = 5 ∧
    (after (.narrow 0xFF 65) (sinkAt7 .never)).busy = some .output ∧
    (after (.narrow 0 1) straddling).faultCause = 12 := by decide

theorem test_witness_CodingStepChecks :
    let big : State := { enc with ctx := [([], [(65, 1073741824), (256, 1)])] }
    let late : State := { loaded with params := { nodeMax := none, truncLimit := some 32 } }
    let stuck : State := { enc with ctx := [([], [(65, 1)])] }
    (-1 ≤ (1 : Order).toInt ∧ enc.resolve (1 : Order).toInt = none ∧ replies (.narrow 1 65) enc = [(1, 0)] ∧
      late.resolve (1 : Order).toInt = none ∧ replies (.decode 1) late = [(1, 0)] ∧
      after (.decode 1) loaded = loaded.respond .absent) ∧
    (big.phase = .run ∧ big.mode = .enc ∧ big.resolve (0 : Order).toInt = some (.context []) ∧
      big.quarter < big.total (.context [])) ∧
    (enc.total (.context []) ≤ enc.quarter ∧ enc.get (.context []) 65 = 0 ∧ (65 : SymField).toNat < enc.SL) ∧
    (late.phase = .run ∧ late.mode = .dec ∧ late.codeValid = true ∧ late.params.truncLimit = some 32 ∧
      32 ≤ late.tailbits.toNat) ∧
    ((∀ n, loaded.params.truncLimit = some n → loaded.tailbits.toNat < n) ∧
      ({ loaded with ctx := big.ctx } : State).quarter < ({ loaded with ctx := big.ctx } : State).total (.context [])) ∧
    (0 ≤ big.hlen ∧ big.resolve (0 : Nat) = some (.context []) ∧ ∀ m : Nat, 0 < m → m ≤ big.hlen → big.resolve m = none) ∧
    (stuck.resolve (0 : Nat) = some (.context []) ∧ stuck.total (.context []) ≤ stuck.quarter ∧
      stuck.get (.context []) 66 = 0 ∧ stuck.get (.context []) stuck.ESC = 0) := by
  refine ⟨by decide, by decide, by decide, by decide, ⟨fun n h => ?_, by decide⟩,
    ⟨by decide, by decide, fun m h1 h2 => ?_⟩, by decide⟩
  · cases h
  · exact absurd h2 (by show ¬ m ≤ 0; omega)

/-- The source may fail beyond the byte asked for (P = 8), and beyond its end; a failure within them is met. -/
theorem test_witness_DinitLoadsTheCode :
    let s : List InAnswer → State := fun l => { dec with input := l }
    let p : State := { small .dec with input := [.byte 0xA7, .err] }
    (dec.phase = .run ∧ dec.mode = .dec ∧ dec.P = 8 * 4 ∧ loaded.codeValid = true ∧ dec.codeValid = false) ∧
    (p.phase = .run ∧ p.mode = .dec ∧ p.codeValid = false ∧ p.P = 8 * 1 ∧ p.sourceAnswers (8 * 1) ∧
      (after .dinit p).code = 0xA7 ∧ (after .dinit p).calls = [.inByte (.byte 0xA7)]) ∧
    ((s [.byte 0xAB, .eos, .err]).sourceAnswers (8 * 4) ∧ (after .dinit (s [.byte 0xAB, .eos, .err])).tailbits = 24) ∧
    ((s [.byte 0xAB, .err]).asks (8 * 4) 1 ∧ (s [.byte 0xAB, .err]).input[1]? = some .err ∧
      (after .dinit (s [.byte 0xAB, .err])).calls = [.inByte (.byte 0xAB), .inByte .err]) ∧
    (s [.never]).asks (8 * 4) 0 ∧ (s [.never]).input[0]? = some .never := by
  refine ⟨by decide, ⟨by decide, by decide, by decide, by decide, answers_bytes [0xA7] rfl, by decide⟩, ⟨answers_to_the_end [0xAB] rfl _, by decide⟩,
    ⟨⟨by decide, by decide, fun i h => ⟨0xAB, ?_⟩⟩, by decide, by decide⟩, ⟨by decide, by decide, by decide⟩, by decide⟩
  obtain rfl : i = 0 := by omega
  rfl

theorem test_witness_DecodeFindsTheSymbol :
    (loaded.phase = .run ∧ loaded.mode = .dec ∧ loaded.codeValid = true ∧ -1 ≤ (0xFF : Order).toInt ∧
      loaded.LegalConfig ∧ loaded.IntervalAtRest ∧ loaded.CodeAtRest ∧ Memory.wf loaded.ctx = true ∧
      loaded.resolve (0xFF : Order).toInt = some .flat ∧ 1 ≤ loaded.total .flat ∧
      loaded.total .flat ≤ loaded.quarter) ∧
      ∀ n, loaded.params.truncLimit = some n → loaded.tailbits.toNat < n := by
  refine ⟨?_, fun n h => by cases h⟩
  simp only [State.LegalConfig, State.IntervalAtRest, RestInterval, State.CodeAtRest]
  decide

/-- Symbol 0 takes eight bits: the source may fail beyond that byte; it may fail, or not answer, at it. -/
theorem test_witness_DecodeEndings :
    let s : List InAnswer → State := fun l => { loaded with eos := false, tailbits := 0, input := l }
    NormSteps 32 0 0xFF00FE 8 0 ∧
    ((s [.byte 0xFF, .err]).sourceAnswers (8 * 1) ∧ (after (.decode 0xFF) (s [.byte 0xFF, .err])).code = 0xFF) ∧
    ((s [.err]).asks (8 * 1) 0 ∧ (s [.err]).input[0]? = some .err ∧
      (after (.decode 0xFF) (s [.err])).faultCause = 4) ∧
    (s [.never]).asks (8 * 1) 0 ∧ (s [.never]).input[0]? = some .never ∧
      (after (.decode 0xFF) (s [.never])).busy = some .input := by
  refine ⟨⟨by decide, by decide, fun j hj => absurd hj (Nat.not_lt_zero j), ?_⟩,
    ⟨answers_bytes [0xFF] rfl, by decide⟩, ⟨⟨by decide, by decide, by decide⟩, by decide, by decide⟩,
    ⟨by decide, by decide, by decide⟩, by decide, by decide⟩
  simp only [RestInterval]
  decide

theorem test_witness_RcrdReadsTheCoder :
    (closed.phase = .run ∨ closed.phase = .closed) ∧ (dec.phase = .run ∨ dec.phase = .closed) ∧
      3 < (4 : SymField).toNat ∧ closed.CodeAtRest ∧ closed.mode = .enc ∧ dec.CodeAtRest ∧ dec.mode = .dec := by
  simp only [State.CodeAtRest]
  decide

/-- The decoder's source has ended, so it is asked nothing more. -/
theorem test_witness_DecodeMirrorsNarrow :
    let d : State := { loaded with code := 0x41BE0000 }
    (exec (.narrow 0xFF 65) enc = .next (after (.narrow 0xFF 65) enc) ∧ (after (.narrow 0xFF 65) enc).phase = .run ∧
      (after (.narrow 0xFF 65) enc).busy = none ∧ enc.busy = none ∧ enc.phase = .run ∧ enc.mode = .enc) ∧
    (d.phase = .run ∧ d.mode = .dec ∧ d.codeValid = true ∧ -1 ≤ (0xFF : Order).toInt ∧ enc.crP = d.crP ∧
      enc.crK = d.crK ∧ enc.crSl = d.crSl ∧ enc.crEsc = d.crEsc ∧ enc.low = d.low ∧ enc.high = d.high ∧
      enc.hist = d.hist ∧ enc.ctx = d.ctx ∧ enc.LegalConfig ∧ enc.IntervalAtRest ∧ Memory.wf enc.ctx = true ∧
      enc.resolve (0xFF : Order).toInt = some .flat ∧
      narrowLow enc.low.toNat enc.high.toNat (enc.total .flat) (enc.cumLow .flat 65) ≤ d.code.toNat ∧
      d.code.toNat ≤ narrowHigh enc.low.toNat enc.high.toNat (enc.total .flat) (enc.cumHigh .flat 65)) ∧
    (∀ n, d.params.truncLimit = some n → d.tailbits.toNat < n) ∧ ∀ a b, d.sourceAnswers (a + b) := by
  refine ⟨⟨rfl, by decide⟩, ?_, fun n h => (by cases h), fun a b k hk => absurd hk.1 (by decide)⟩
  simp only [State.LegalConfig, State.IntervalAtRest, RestInterval]
  decide

theorem test_witness_coder_invariant : enc.CoderInv ∧ loaded.CoderInv := by
  refine ⟨⟨by decide, fun _ => ?_, fun _ => ?_, fun _ => ?_, ?_⟩, ⟨by decide, fun _ => ?_, fun _ => ?_, fun _ => ?_, ?_⟩⟩
  · simp only [State.LegalConfig]; decide
  · simp only [State.IntervalAtRest, RestInterval]; decide
  · simp only [State.CodeAtRest]; decide
  · intro _; decide
  · simp only [State.LegalConfig]; decide
  · simp only [State.IntervalAtRest, RestInterval]; decide
  · simp only [State.CodeAtRest]; decide
  · intro _; decide

theorem test_witness_tree_invariant : enc.TreeInv ∧ loaded.TreeInv := by
  refine ⟨⟨by decide, by decide, fun _ => ?_, fun _ => test_witness_tree_at_rest .enc⟩,
    ⟨by decide, by decide, fun _ => ?_, fun _ => ?_⟩⟩
  · simp only [State.LegalConfig]; decide
  · simp only [State.LegalConfig]; decide
  · have h := test_witness_tree_at_rest .dec
    exact ⟨h.histLen, h.histSyms, h.noModel, h.root, h.parents, h.depth, h.tables, h.counted, h.capacity⟩

/-- A table that an order designator names while the history is empty and only the root exists is the root's. -/
theorem test_only_the_root_exists {s : State} (hh : s.hist = []) (hc : s.ctx = [([], [(256, 1)])]) {n : Nat}
    {t : TableRef} (h : s.resolve n = some t) : t = .context [] := by
  have hn : ¬ (n : Int) = -1 := by omega
  simp only [State.resolve, State.hlen, hh, hc, if_neg hn, List.length_nil, List.take_nil] at h
  split at h
  · cases h
  · exact (Option.some.inj h).symm

theorem test_witness_EncsymCodesAndUpdates :
    (enc.phase = .run ∧ enc.mode = .enc ∧ enc.busy = none ∧ (256 : SymField).toNat < enc.SL ∧ enc.CoderInv ∧
      enc.TreeInv ∧ enc.sinkGood) ∧
    (∀ (n : Nat) (t : TableRef), enc.resolve n = some t → enc.total t ≤ enc.quarter ∧ 0 < enc.get t enc.ESC) ∧
    enc.pending.toNat + (enc.hlen + 2) * enc.P ≤ Config.pendMax ∧
    ∀ n, enc.params.nodeMax = some n → enc.nctx + enc.hlen ≤ n := by
  refine ⟨⟨by decide, by decide, by decide, by decide, test_witness_coder_invariant.1, test_witness_tree_invariant.1,
    ?_⟩, fun n t h => ?_, by decide, fun n h => by cases h⟩
  · simp only [State.sinkGood]; decide
  · rw [test_only_the_root_exists rfl rfl h]; decide

theorem test_witness_DecsymDecodesAndUpdates :
    (loaded.phase = .run ∧ loaded.mode = .dec ∧ loaded.codeValid = true ∧ loaded.busy = none ∧ loaded.CoderInv ∧
      loaded.TreeInv ∧ loaded.sourceGood) ∧
    (∀ (n : Nat) (t : TableRef), loaded.resolve n = some t → loaded.total t ≤ loaded.quarter) ∧
    (∀ n, loaded.params.truncLimit = some n → loaded.tailbits.toNat + (loaded.hlen + 1) * (2 * loaded.P) < n) ∧
    ∀ n, loaded.params.nodeMax = some n → loaded.nctx + loaded.hlen ≤ n := by
  refine ⟨⟨by decide, by decide, by decide, by decide, test_witness_coder_invariant.2, test_witness_tree_invariant.2,
    ?_⟩, fun n t h => ?_, fun n h => ?_, fun n h => ?_⟩
  · simp only [State.sourceGood]; decide
  · rw [test_only_the_root_exists rfl rfl h]; decide
  · cases h
  · cases h

theorem test_witness_EncsymIsItsPrimitives :
    (enc.LegalConfig ∧ enc.hlen ≤ 127 ∧ enc.phase = .run ∧ enc.mode = .enc ∧ enc.busy = none) ∧
    (exec (.encsym 65) enc = .next (after (.encsym 65) enc) ∧ (after (.encsym 65) enc).phase = .run) ∧
    ((after (.encsym 257) enc).faultCause = 2 ∧ (after (.encsym 65) (sinkAt7 .err)).faultCause = 5) ∧
    (after (.encsym 65) (sinkAt7 .never)).busy = some .output := by
  refine ⟨⟨?_, by decide⟩, ⟨rfl, by decide⟩, by decide, by decide⟩
  simp only [State.LegalConfig]; decide

theorem test_witness_DecsymIsItsPrimitives :
    (loaded.LegalConfig ∧ loaded.hlen ≤ 127 ∧ loaded.phase = .run ∧ loaded.mode = .dec ∧ loaded.codeValid = true ∧
      loaded.busy = none) ∧
    (exec .decsym loaded = .next (after .decsym loaded) ∧ (after .decsym loaded).phase = .run) ∧
    (after .decsym { loaded with eos := false, input := [.err] }).faultCause = 4 ∧
    (after .decsym { loaded with eos := false, input := [.never] }).busy = some .input := by
  refine ⟨⟨?_, by decide⟩, ⟨rfl, by decide⟩, by decide, by decide⟩
  simp only [State.LegalConfig]; decide

theorem test_witness_StepKeepsMemoryCanonical :
    Memory.wf (presents 0x3100004100000000 enc).ctx = true ∧
      step (presents 0x3100004100000000 enc) = exec (.cinc 65) enc := ⟨by decide, rfl⟩

theorem test_witness_channel_invariant : enc.ChannelInv ∧ loaded.ChannelInv := by
  simp only [State.ChannelInv, State.ChannelAtRest]
  exact ⟨fun _ => by decide, fun _ => by decide⟩

theorem test_witness_StepKeepsTheCoderAtRest :
    (presents 0x40FF004100000000 enc).CoderInv ∧ (presents 0x40FF004100000000 enc).ChannelInv ∧
      (presents 0x40FF004100000000 enc).atRest ∧
      step (presents 0x40FF004100000000 enc) = .next (after (.narrow 0xFF 65) enc) :=
  ⟨⟨test_witness_coder_invariant.1.canonical, test_witness_coder_invariant.1.config,
    test_witness_coder_invariant.1.interval, test_witness_coder_invariant.1.code,
    test_witness_coder_invariant.1.full⟩, test_witness_channel_invariant.1, ⟨.inl (by decide), by decide⟩, rfl⟩

theorem test_witness_StepKeepsTheTree :
    (presents 0x3100004100000000 enc).TreeInv ∧
      step (presents 0x3100004100000000 enc) = .next (after (.cinc 65) enc) := by
  refine ⟨⟨test_witness_tree_invariant.1.canonical, test_witness_tree_invariant.1.params,
    test_witness_tree_invariant.1.config, fun _ => ?_⟩, rfl⟩
  have h := test_witness_tree_at_rest .enc
  exact ⟨h.histLen, h.histSyms, h.noModel, h.root, h.parents, h.depth, h.tables, h.counted, h.capacity⟩

theorem test_witness_StepKeepsTheFaultRecord :
    (presents 0 enc).FaultInv ∧ (presents 0 faulted).FaultInv ∧
      step (presents 0 enc) = .next (enc.raise .illegal 0) := by
  refine ⟨?_, ?_, rfl⟩ <;> simp only [State.FaultInv] <;> decide

theorem test_witness_PhaseTransitions :
    (exec .bclose enc = .next (after .bclose enc) ∧ (after .bclose enc).phase = .closed) ∧
    (exec (.start .dec) State.reset = .next (after (.start .dec) State.reset) ∧
      (after (.start .dec) State.reset).phase = .run) ∧
    (exec .brd enc = .next (enc.raise .sequence 0x10) ∧ enc.phase ≠ .fault) ∧
    exec (.crr 12) faulted = .next (after (.crr 12) faulted) ∧ faulted.phase = .fault :=
  ⟨⟨rfl, by decide⟩, ⟨rfl, by decide⟩, ⟨rfl, by decide⟩, rfl, by decide⟩

theorem test_witness_ConfigurationIsFixedInARun :
    (exec (.encsym 65) enc = .next (after (.encsym 65) enc) ∧ enc.phase ≠ .unconf ∧
      (after (.encsym 65) enc).phase ≠ .fault) ∧
    (exec (.crr 0) State.reset = .next (after (.crr 0) State.reset) ∧ ∀ r v, Instr.crr 0 ≠ .crw r v) :=
  ⟨⟨rfl, by decide⟩, rfl, fun r v h => by cases h⟩

theorem test_witness_CoderRegisterWriters :
    (exec .dinit dec = .next (after .dinit dec) ∧ (after .dinit dec).phase ≠ .fault ∧
      Instr.dinit.opcode ∉ [Opcode.start, .narrow, .encsym, .decode, .decsym]) ∧
    (exec .decsym loaded = .next (after .decsym loaded) ∧ (after .decsym loaded).phase ≠ .fault ∧
      Instr.decsym.opcode ∉ [Opcode.start, .narrow, .encsym]) ∧
    (exec (.narrow 0xFF 65) enc = .next (after (.narrow 0xFF 65) enc) ∧ (after (.narrow 0xFF 65) enc).phase ≠ .fault ∧
      (Instr.narrow 0xFF 65).opcode ∉ [Opcode.start, .dinit, .decode, .decsym]) :=
  ⟨⟨rfl, by decide⟩, ⟨rfl, by decide⟩, rfl, by decide⟩

theorem test_witness_ReadingCommandsChangeNothing :
    (Instr.ftot 0).opcode ∈ [Opcode.ftot, .fget, .flow, .fhigh, .cwalk, .hrd, .rcrd, .crr] ∧
      exec (.ftot 0) closed = .next (after (.ftot 0) closed) ∧ (after (.ftot 0) closed).phase = closed.phase :=
  ⟨by decide, rfl, by decide⟩

theorem test_witness_OneResponsePerCommand :
    (sinkAt7 .never).busy = none ∧ (after .finish (sinkAt7 .never)).busy = some .output ∧
      (after .finish (sinkAt7 .never)).responses = [] := by decide

theorem test_witness_ContextsAreNeverRemoved :
    exec (.cinc 67) pushed = .next (after (.cinc 67) pushed) ∧ (after (.cinc 67) pushed).phase ≠ .fault ∧
      (∀ m, Instr.cinc 67 ≠ .start m) ∧ Memory.has pushed.ctx [] = true :=
  ⟨rfl, by decide, fun m h => (by cases h), by decide⟩

end Sys2Proof.Tests
end

section
/-! SUPPORT. What a command can do to the state, said once for the rules of the whole machine: the parts of the state
each command's body works on, what every body leaves alone, and the ways a command ends. -/

namespace Sys2Proof.Machine

/-! ### The parts of the state a body works on -/

/-- What the body of a command, legal and accepted, does to the state, wherever it ends (30_encoding.md R90 for the
modes). -/
inductive WorksOn (s : State) : Instr → State → Prop
  | nothing {i : Instr} (n : Nat) : acceptsClosed i.opcode = true → WorksOn s i { s with freeCount := n }
  | config (r : SymField) (v : Word) : s.phase = .unconf → WorksOn s (.crw r v) (s.setConfig r v)
  | rejected (m : Mode) : WorksOn s (.start m) s
  | opened (m : Mode) : s.phase = .unconf → s.LegalConfig → WorksOn s (.start m) (s.openRun m)
  | model {i : Instr} {u : State} : i.opcode ∈ [.finc, .fset, .cinc, .hpush] → Models s u → WorksOn s i u
  | writer {i : Instr} {u : State} : i.opcode ∈ [.bwr, .finish] → s.mode = .enc → Writes s u → WorksOn s i u
  | reader {u : State} : s.mode = .dec → Reads s u → WorksOn s .brd u
  | flushing {u : State} : s.mode = .enc → Writes s u → WorksOn s .bclose u
  | closed {u : State} (l : List PortCall) : s.phase = .run → (s.mode = .enc ∧ Writes s u ∨ u = s) →
      WorksOn s .bclose { u with phase := .closed, calls := l }
  | encoder {o : Order} {sym : SymField} {u : State} : s.mode = .enc → Encodes s u → WorksOn s (.narrow o sym) u
  | loader {u : State} (b : Bool) : s.mode = .dec → Decodes s u → u.low = s.low → u.high = s.high →
      WorksOn s .dinit { u with codeValid := b }
  | decoder {o : Order} {u : State} : s.mode = .dec → Decodes s u → WorksOn s (.decode o) u
  | encDriver {sym : SymField} {v u : State} : s.mode = .enc → Encodes s v → Models v u → WorksOn s (.encsym sym) u
  | decDriver {v u : State} : s.mode = .dec → Decodes s v → Models v u → WorksOn s .decsym u

/-- The checks of `START` pass exactly for a legal configuration (45_system_control.md R214; 00_scope.md R5). -/
theorem State.legalConfig_of_configError {s : State} (h : s.configError = none) : s.LegalConfig := by
  unfold State.configError at h
  split at h
  · cases h
  · split at h
    · cases h
    · split at h
      · cases h
      · split at h
        · cases h
        · simp only [State.LegalConfig, State.quarter]
          omega

/-- The commands of phase CLOSED change nothing (30_encoding.md R90), but for the free-value counter of `CRR`. -/
theorem body_query {i : Instr} {s : State} (h : acceptsClosed i.opcode = true) :
    ∃ n, (body i s).final = { s with freeCount := n } := by
  have same : (body i s).final = s → ∃ n, (body i s).final = { s with freeCount := n } := fun e => ⟨s.freeCount, e⟩
  have read : ∀ (o : Order) (v : State → TableRef → Nat),
      (withTable o s fun t s => .done (.okNat (v s t)) s).final = s :=
    fun o v => withTable_rel (R := fun a b => b = a) rfl fun _ _ => rfl
  have readAt : ∀ (sym : SymField) (o : Order) (v : State → TableRef → Nat),
      (withSymbol sym s fun s => withTable o s fun t s => .done (.okNat (v s t)) s).final = s :=
    fun sym o v => withSymbol_rel (R := fun a b => b = a) rfl fun _ => read o v
  cases i <;> simp only [Instr.opcode, acceptsClosed, Bool.false_eq_true] at h
  case crr r =>
    obtain ⟨v, n, hb⟩ := body_crr r s
    exact ⟨n, by rw [hb, Res.final_done]⟩
  case ftot o => exact same (read o _)
  case cwalk o => exact same (read o fun _ _ => 0)
  case fget o sym => exact same (readAt sym o _)
  case flow o sym => exact same (readAt sym o _)
  case fhigh o sym => exact same (readAt sym o _)
  case hrd idx =>
    refine same ?_
    simp only [body]
    split <;> rfl
  case rcrd r => exact same rfl

/-- A body followed by its response ends where its work ends. -/
theorem Res.final_respond {α β : Type} (r : Res α) (f : α → β) :
    (r.andThen fun a s => .done (f a) s).final = r.final := by
  cases r <;> rfl

/-- What the body of every command, legal and accepted, does to the state. -/
theorem body_worksOn {i : Instr} {s : State} (ha : s.accepts i.opcode = true) : WorksOn s i (body i s).final := by
  by_cases hq : acceptsClosed i.opcode = true
  · obtain ⟨n, hn⟩ := body_query (s := s) hq
    rw [hn]
    exact .nothing n hq
  cases i with
  | crr | ftot | fget | flow | fhigh | cwalk | hrd | rcrd => exact absurd rfl hq
  | crw r v => exact .config r v (State.accepts_crw ha)
  | start m =>
    simp only [body]
    split
    · exact .rejected m
    · next h => exact .opened m (State.accepts_start ha) (State.legalConfig_of_configError h)
  | brd =>
    have hm := (State.accepts_decMode ha (.inl rfl)).2.1
    refine .reader hm (Res.final_andThen Reads (fun _ _ _ => Reads.trans) (readBit_reads s) fun r v _ => ?_)
    cases r <;> exact Reads.refl v
  | bwr b =>
    refine .writer (by simp [Instr.opcode]) (State.accepts_encMode ha (.inl rfl)).2 ?_
    simp only [body, Res.final_respond]
    exact writeBit_writes b s
  | finish =>
    refine .writer (by simp [Instr.opcode]) (State.accepts_encMode ha (.inr (.inr (.inl rfl)))).2 ?_
    simp only [body, Res.final_respond]
    exact writeBit_writes true s
  | bclose =>
    have hp := State.accepts_bclose ha
    obtain ⟨u, hm, hw, hb⟩ | ⟨hm, hb⟩ | ⟨w, u, hm, hw, hb⟩ := body_bclose s <;> rw [hb]
    · exact .closed (u := u) _ hp (.inl ⟨hm, hw⟩)
    · exact .closed (u := s) _ hp (.inr rfl)
    · exact .flushing hm hw
  | finc o sym =>
    refine .model (by simp [Instr.opcode]) ?_
    simp only [body]
    refine withSymbol_rel (Models.refl s) fun _ => withTable_rel (Models.refl s) fun t _ => ?_
    cases t with
    | flat => exact Models.refl s
    | context p =>
      simp only [withWritable, Res.final_respond]
      exact (increment_updates p _ s).models
  | fset o sym c =>
    refine .model (by simp [Instr.opcode]) ?_
    simp only [body]
    refine withSymbol_rel (Models.refl s) fun _ => withTable_rel (Models.refl s) fun t _ => ?_
    cases t with
    | flat => exact Models.refl s
    | context p =>
      simp only [withWritable, Res.final_respond]
      exact (assignCount_updates p _ _ s).models
  | cinc sym =>
    simp only [body]
    refine .model (by simp [Instr.opcode]) (withSymbol_rel (Models.refl s) fun _ => ?_)
    rw [Res.final_respond]
    exact (updateContexts_updates _ s).models
  | hpush sym =>
    simp only [body]
    exact .model (by simp [Instr.opcode]) (withSymbol_rel (Models.refl s) fun _ => s.pushHistory_models _)
  | narrow o sym =>
    have hm := (State.accepts_encMode ha (.inr (.inl rfl))).2
    simp only [body]
    refine .encoder hm (withSymbol_rel (Encodes.refl s) fun _ => withTable_rel (Encodes.refl s) fun t _ => ?_)
    rw [Res.final_respond]
    exact codeStep_encodes t _ hm
  | dinit =>
    have hm := (State.accepts_decMode ha (.inr (.inl rfl))).2.1
    have h0 : Decodes s (s.setCode 0) := ⟨rfl, [], by simp⟩
    have hd := h0.trans (loadCode_decodes s.P (s.setCode 0))
    have hb := loadCode_bounds s.P (s.setCode 0)
    simp only [body]
    cases hx : loadCode s.P (s.setCode 0) with
    | done a u =>
      rw [hx] at hd hb
      exact .loader true hm hd hb.1 hb.2
    | stop w u =>
      rw [hx] at hd hb
      exact .loader (u := u) u.codeValid hm hd hb.1 hb.2
  | decode o =>
    have hm := (State.accepts_decMode ha (.inr (.inr (.inl rfl)))).2.1
    simp only [body]
    refine .decoder hm (withTable_rel (Decodes.refl s) fun t _ => ?_)
    rw [Res.final_respond]
    exact decodeWith_decodes t hm
  | encsym sym =>
    have hm := (State.accepts_encMode ha (.inr (.inr (.inr rfl)))).2
    have he := encodeSearch_encodes sym.toNat (s.hlen + 1) hm
    simp only [body]
    by_cases hs : sym.toNat < s.SL
    · rw [withSymbol_lt hs]
      cases hx : encodeSearch sym.toNat (s.hlen + 1) s with
      | done a v =>
        rw [hx] at he
        rw [Res.done_andThen, Res.final_respond]
        exact .encDriver hm he (updateModel_models _ v)
      | stop w v =>
        rw [hx] at he
        exact .encDriver hm he (Models.refl v)
    · rw [withSymbol_ge (by omega)]
      exact .encDriver hm (Encodes.refl s) (Models.refl s)
  | decsym =>
    have hm := (State.accepts_decMode ha (.inr (.inr (.inr rfl)))).2.1
    have hd := decodeSearch_decodes (s.hlen + 1) hm
    simp only [body]
    cases hx : decodeSearch (s.hlen + 1) s with
    | done y v =>
      rw [hx] at hd
      rw [Res.done_andThen, Res.final_respond]
      exact .decDriver hm hd (updateModel_models y v)
    | stop w v =>
      rw [hx] at hd
      exact .decDriver hm hd (Models.refl v)

/-- `START` opens the run or leaves the state as it is (45_system_control.md R214). -/
theorem WorksOn.start_cases {s u : State} {m : Mode} (h : WorksOn s (.start m) u) :
    u = s ∨ (s.phase = .unconf ∧ s.LegalConfig ∧ u = s.openRun m) := by
  cases h with
  | nothing n hq => cases hq
  | rejected => exact .inl rfl
  | opened _ hp hc => exact .inr ⟨hp, hc, rfl⟩
  | model hm _ => simp [Instr.opcode] at hm
  | writer hm _ _ => simp [Instr.opcode] at hm

end Sys2Proof.Machine
end

section
/-! SUPPORT. The frame of every command's body, the ways a command ends, and the induction over steps in the form the
invariants use it. -/

namespace Sys2Proof.Machine

/-! ### Phases without a run -/

theorem not_hasRun_of_fault {s : State} (h : s.phase = .fault) : ¬ s.hasRun := by
  rintro (e | e) <;> rw [h] at e <;> cases e

theorem not_hasRun_of_unconf {s : State} (h : s.phase = .unconf) : ¬ s.hasRun := by
  rintro (e | e) <;> rw [h] at e <;> cases e

/-! ### What every body leaves alone -/

/-- What the body of the command `i` leaves alone, from `s` to where it ends in `u`. -/
structure BodyFrame (i : Instr) (s u : State) : Prop where
  params    : u.params = s.params
  responses : u.responses = s.responses
  busy      : u.busy = s.busy
  cause     : u.faultCause = s.faultCause
  info      : u.faultInfo = s.faultInfo
  canonical : Memory.wf s.ctx = true → Memory.wf u.ctx = true
  config    : (s.phase ≠ .unconf ∨ ∀ r v, i ≠ .crw r v) →
                u.crP = s.crP ∧ u.crK = s.crK ∧ u.crSl = s.crSl ∧ u.crEsc = s.crEsc
  legal     : (s.hasRun → s.LegalConfig) → u.hasRun → u.LegalConfig
  mode      : (∀ m, i ≠ .start m) → u.mode = s.mode
  kept      : (∀ m, i ≠ .start m) → s.nctx ≤ u.nctx ∧ ∀ p, Memory.has s.ctx p = true → Memory.has u.ctx p = true
  phase     : u.phase = s.phase ∨ (s.phase = .unconf ∧ u.phase = .run ∧ ∃ m, i = .start m) ∨
                (s.phase = .run ∧ u.phase = .closed ∧ i = .bclose)

/-- Work inside a run has the frame of every command. -/
theorem Runs.frame {s u : State} (h : Runs s u) (i : Instr) : BodyFrame i s u where
  params := (congrArg State.params h.same).symm
  responses := (congrArg State.responses h.same).symm
  busy := (congrArg State.busy h.same).symm
  cause := (congrArg State.faultCause h.same).symm
  info := (congrArg State.faultInfo h.same).symm
  canonical := h.wf
  config _ := ⟨(congrArg State.crP h.same).symm, (congrArg State.crK h.same).symm, (congrArg State.crSl h.same).symm,
    (congrArg State.crEsc h.same).symm⟩
  legal hc := by
    have e := congrArg (fun s : State => s.hasRun → s.LegalConfig) h.same
    exact e.mp hc
  mode _ := (congrArg State.mode h.same).symm
  kept _ := ⟨h.nctx, h.has⟩
  phase := .inl (congrArg State.phase h.same).symm

theorem BodyFrame.refl (i : Instr) (s : State) : BodyFrame i s s := (Runs.refl s).frame i

/-- Closing a run that stood open (40_bit_channel.md R105). -/
theorem Runs.frame_closed {s u : State} (h : Runs s u) (hp : s.phase = .run) (l : List PortCall) :
    BodyFrame .bclose s { u with phase := .closed, calls := l } :=
  have f := h.frame .bclose
  have e := congrArg State.LegalConfig h.same
  { params := f.params, responses := f.responses, busy := f.busy, cause := f.cause, info := f.info,
    canonical := f.canonical, config := f.config, mode := f.mode, kept := f.kept,
    legal := fun hc _ => e.mp (hc (.inl hp)), phase := .inr (.inr ⟨hp, rfl, rfl⟩) }

/-- Writing a configuration register before a run (45_system_control.md R210). -/
theorem State.setConfig_frame {s : State} (hp : s.phase = .unconf) (r : SymField) (v : Word) :
    BodyFrame (.crw r v) s (s.setConfig r v) := by
  have noConfig : ¬ (s.phase ≠ .unconf ∨ ∀ r' v', Instr.crw r v ≠ .crw r' v') := by
    rintro (h | h)
    · exact h hp
    · exact h r v rfl
  unfold State.setConfig
  split_ifs <;> exact
    { params := rfl, responses := rfl, busy := rfl, cause := rfl, info := rfl, canonical := id,
      config := fun h => absurd h noConfig, legal := fun _ hr => absurd hr (not_hasRun_of_unconf hp), mode := fun _ => rfl,
      kept := fun _ => ⟨le_refl _, fun _ => id⟩, phase := .inl rfl }

/-- Opening a run (45_system_control.md R214). -/
theorem State.openRun_frame {s : State} (hp : s.phase = .unconf) (hc : s.LegalConfig) (m : Mode) :
    BodyFrame (.start m) s (s.openRun m) where
  params := rfl
  responses := rfl
  busy := rfl
  cause := rfl
  info := rfl
  canonical _ := by
    simp only [State.openRun]
    split
    · simp [Memory.wf, sortedKeys]
    · rfl
  config _ := ⟨rfl, rfl, rfl, rfl⟩
  legal _ _ := hc
  mode h := absurd rfl (h m)
  kept h := absurd rfl (h m)
  phase := .inr (.inl ⟨hp, rfl, m, rfl⟩)

/-- What the body of every command leaves alone, wherever it ends. -/
theorem body_frame {i : Instr} {s : State} (ha : s.accepts i.opcode = true) : BodyFrame i s (body i s).final := by
  cases hi : worksInRun i.opcode with
  | true => exact (body_runs ha hi).frame i
  | false =>
    obtain ⟨r, v, rfl⟩ | ⟨r, rfl⟩ | ⟨m, rfl⟩ | rfl := worksInRun_false hi
    · exact State.setConfig_frame (State.accepts_crw ha) r v
    · obtain ⟨v, n, hb⟩ := body_crr r s
      rw [hb]
      exact { BodyFrame.refl (.crr r) s with }
    · simp only [body]
      split
      · exact BodyFrame.refl _ s
      · next h => exact State.openRun_frame (State.accepts_start ha) (State.legalConfig_of_configError h) m
    · have hp := State.accepts_bclose ha
      obtain ⟨u, hm, hw, hb⟩ | ⟨hm, hb⟩ | ⟨w, u, hm, hw, hb⟩ := body_bclose s <;> rw [hb]
      · exact (hw.encodes.runs hm).frame_closed hp _
      · exact (Runs.refl s).frame_closed hp _
      · exact (hw.encodes.runs hm).frame .bclose

/-! ### At rest before and after -/

/-- A state at rest after a command that did not open the run was at rest in it before. -/
theorem BodyFrame.atRest {i : Instr} {s u : State} (h : BodyFrame i s u) (hi : ∀ m, i ≠ .start m) (hr : u.atRest) :
    s.atRest := by
  refine ⟨?_, h.busy ▸ hr.2⟩
  obtain e | ⟨-, -, m, e⟩ | ⟨e, -, -⟩ := h.phase
  · have := hr.1
    rwa [State.hasRun, e] at this
  · exact absurd e (hi m)
  · exact .inl e

/-! ### What an operand or a write of a count let pass -/

theorem withSymbol_done {sym : SymField} {s u : State} {r : Response} {k : State → Res Response}
    (h : withSymbol sym s k = .done r u) : sym.toNat < s.SL ∧ k s = .done r u := by
  unfold withSymbol at h
  split at h
  · cases h
  · exact ⟨by omega, h⟩

theorem withTable_done {o : Order} {s u : State} {r : Response} {k : TableRef → State → Res Response}
    (h : withTable o s k = .done r u) : u = s ∨ ∃ t, s.resolve o.toInt = some t ∧ k t s = .done r u := by
  unfold withTable at h
  split at h
  · cases h
    exact .inl rfl
  · next t ht => exact .inr ⟨t, ht, h⟩

/-- A write of a count completes on the table of a context alone (41_frequency_table.md R130). -/
theorem withWritable_done {i : Instr} {t : TableRef} {s u : State} {r : Response} {k : Path → State → Res Unit}
    (h : withWritable i t s k = .done r u) : ∃ p, t = .context p ∧ k p s = .done () u := by
  cases t with
  | flat => cases h
  | context p =>
    obtain ⟨_, v, hv, h⟩ := Res.andThen_eq_done h
    cases h
    exact ⟨p, rfl, hv⟩

theorem increment_done {p : Path} {sym : Nat} {s u : State} (h : increment p sym s = .done () u) :
    s.total (.context p) ≠ Config.totalMax ∧ u = s.setCount p sym (s.get (.context p) sym + 1) := by
  unfold increment at h
  split at h
  · cases h
  · next hm =>
    cases h
    exact ⟨hm, rfl⟩

theorem assignCount_done {p : Path} {sym c : Nat} {s u : State} (h : assignCount p sym c s = .done () u) :
    1 ≤ s.total (.context p) - s.get (.context p) sym + c ∧
      s.total (.context p) - s.get (.context p) sym + c ≤ Config.totalMax ∧ u = s.setCount p sym c := by
  unfold assignCount at h
  simp only at h
  split at h
  · cases h
  · cases h
    exact ⟨by omega, by omega, rfl⟩

/-! ### How a command ends -/

/-- The ways a command ends: refused in phase FAULT; a fault raised before its body or in it; its body complete and
answered; its body waiting for a byte port (60_exceptions.md R235, R240, R241, R249). -/
inductive Ends (i : Instr) (s : State) : State → Prop
  | refused : s.phase = .fault → Ends i s s.refuse
  | raised {u : State} (c : Cause) (n : Nat) : s.phase ≠ .fault → BodyFrame i s u → Ends i s (u.raise c n)
  | answered {u : State} (r : Response) : s.accepts i.opcode = true → body i s = .done r u → BodyFrame i s u →
      WorksOn s i u → Ends i s (u.respond r)
  | waiting {u : State} (p : Port) : BodyFrame i s u → WorksOn s i u → Ends i s { u with busy := some p }

/-- Every command ends in one of these ways. -/
theorem exec_ends {i : Instr} {s t : State} (h : exec i s = .next t) : Ends i s t := by
  obtain ⟨hp, rfl⟩ | ⟨hp, c, n, rfl⟩ | ⟨-, ha, rfl⟩ := exec_next h
  · exact .refused hp
  · exact .raised c n hp (BodyFrame.refl i s)
  have hf := body_frame ha
  have hw := body_worksOn ha
  obtain ⟨r, u, hb, he⟩ | ⟨c, n, u, hb, he⟩ | ⟨p, u, hb, he⟩ := finishCommand_cases (body i s) <;> rw [he] <;>
    rw [hb] at hf hw
  · exact .answered r ha hb hf hw
  · refine .raised c n (fun hp => ?_) hf
    -- phase FAULT runs `CRR` alone, which raises nothing
    have hi := State.accepts_fault hp ha
    cases i <;> cases hi
    next r =>
      obtain ⟨v, k, hc⟩ := body_crr r s
      rw [hc] at hb
      cases hb
  · exact .waiting p hf hw

/-- A word that is no command is refused in phase FAULT and raises E_ILLEGAL elsewhere (30_encoding.md R86). -/
theorem illegalWord_cases (w : Command) (s : State) :
    illegalWord w s = s.refuse ∨ ∃ n, illegalWord w s = s.raise .illegal n := by
  unfold illegalWord
  split
  · exact .inl rfl
  · exact .inr ⟨_, rfl⟩

/-- An invariant is kept by every step if it does not look at the host's side and the responses, holds after reset and
fault entry, and is kept by the opening of a run and by any other body that waits or completes. -/
theorem step_keeps_of_body {Inv : State → Prop} (hhost : ∀ s r, Inv s → Inv { s with host := r })
    (hreset : ∀ s i o l n, Inv s → Inv { s.resetBlock i o with calls := l, freeCount := n })
    (hrespond : ∀ s r, Inv s → Inv (s.respond r))
    (hraise : ∀ i s u c n, Inv s → BodyFrame i s u → Inv (u.raise c n))
    (hwait : ∀ i s u p, Inv s → BodyFrame i s u → Inv { u with busy := some p })
    (hopen : ∀ s m, Inv s → s.LegalConfig → BodyFrame (.start m) s (s.openRun m) → Inv (s.openRun m))
    (hdone : ∀ i s u r, Inv s → (∀ m, i ≠ .start m) → s.accepts i.opcode = true → body i s = .done r u →
      BodyFrame i s u → WorksOn s i u → Inv u)
    (s t : State) (hs : Inv s) (h : step s = .next t) : Inv t := by
  refine step_keeps hhost (fun s i o hs => hreset s i o s.calls s.freeCount hs)
    (fun s t k i o hs => hreset s i o _ _ hs) (fun s w hs _ => ?_) (fun i s t hs _ h => ?_) s t hs h
  · rcases illegalWord_cases w s with e | ⟨n, e⟩ <;> rw [e]
    · exact hrespond s _ hs
    · exact hraise .brd s s _ n hs (BodyFrame.refl _ s)
  · cases exec_ends h with
    | refused _ => exact hrespond s _ hs
    | raised c n _ hf => exact hraise i s _ c n hs hf
    | answered r ha hb hf hw =>
      refine hrespond _ r ?_
      by_cases hi : ∃ m, i = .start m
      · obtain ⟨m, rfl⟩ := hi
        obtain rfl | ⟨-, hc, rfl⟩ := hw.start_cases
        · exact hs
        · exact hopen s m hs hc hf
      · exact hdone i s _ r hs (not_exists.mp hi) ha hb hf hw
    | waiting p hf _ => exact hwait i s _ p hs hf

end Sys2Proof.Machine
end

section
/-! The rules of the whole machine: canonical memory, the fault record, the phases, the configuration, who writes the
coder registers, contexts that stay (10_state.md R23, R33, R34, R41, R43, R45, R48). -/

namespace Sys2Proof.Machine

/-- Settles O51: every operation writes the tree through canonical insertion, and the tree that a fault leaves is put in
canonical form. -/
theorem stepKeepsMemoryCanonical : Obligations.StepKeepsMemoryCanonical :=
  step_keeps_of_body (Inv := fun s => Memory.wf s.ctx = true)
    (hhost := fun _ _ h => h)
    (hreset := fun _ _ _ _ _ _ => State.reset_memory_wf)
    (hrespond := fun _ _ h => h)
    (hraise := fun _ _ _ _ _ _ _ => Memory.wf_ofList _)
    (hwait := fun _ _ _ _ h hf => hf.canonical h)
    (hopen := fun _ _ h _ hf => hf.canonical h)
    (hdone := fun _ _ _ _ h _ _ _ hf _ => hf.canonical h)

/-! ### The fault record -/

/-- The codes of R231 are the numbers 1 to 13. -/
theorem Cause.code_range (c : Cause) : c.code ≠ 0 ∧ c.code.toNat ≤ 13 := by
  cases c <;> decide

/-- The fault record speaks of the phase, the cause and the information alone. -/
theorem State.FaultInv.congr {s u : State} (h : s.FaultInv) (hp : u.phase = .fault ↔ s.phase = .fault)
    (hc : u.faultCause = s.faultCause) (hi : u.faultInfo = s.faultInfo) : u.FaultInv := by
  obtain ⟨h1, h2, h3⟩ := h
  exact ⟨by rw [hp, hc]; exact h1, by rw [hc]; exact h2, fun hn => by rw [hi]; exact h3 (mt hp.mpr hn)⟩

/-- Fault entry makes the record (60_exceptions.md R240). -/
theorem State.raise_faultInv (s : State) (c : Cause) (n : Nat) : (s.raise c n).FaultInv :=
  ⟨⟨fun _ => c.code_range.1, fun _ => rfl⟩, c.code_range.2, fun h => absurd rfl h⟩

/-- A body never enters or leaves phase FAULT. -/
theorem BodyFrame.fault_iff {i : Instr} {s u : State} (h : BodyFrame i s u) : u.phase = .fault ↔ s.phase = .fault := by
  obtain e | ⟨e1, e2, -⟩ | ⟨e1, e2, -⟩ := h.phase
  · rw [e]
  all_goals rw [e1, e2]; decide

/-- Settles O54: only fault entry writes the record, and only fault entry and reset cross the border of phase FAULT. -/
theorem stepKeepsTheFaultRecord : Obligations.StepKeepsTheFaultRecord :=
  step_keeps_of_body (Inv := State.FaultInv)
    (hhost := fun _ _ h => h)
    (hreset := fun _ _ _ _ _ _ => ⟨by simp [State.reset], by simp [State.reset], fun _ => rfl⟩)
    (hrespond := fun _ _ h => h)
    (hraise := fun _ _ u c n _ _ => u.raise_faultInv c n)
    (hwait := fun _ _ _ _ h hf => h.congr hf.fault_iff hf.cause hf.info)
    (hopen := fun _ _ h _ hf => h.congr hf.fault_iff hf.cause hf.info)
    (hdone := fun _ _ _ _ h _ _ _ hf _ => h.congr hf.fault_iff hf.cause hf.info)

/-! ### Rules of one command -/

/-- Settles O55, by the ways a command ends. -/
theorem phaseTransitions : Obligations.PhaseTransitions := by
  intro s t i h
  cases exec_ends h with
  | refused hp => exact ⟨.inl rfl, fun _ => ⟨hp, rfl, rfl⟩⟩
  | raised c n hp hf => exact ⟨.inr (.inr (.inr ⟨hp, c, n, _, rfl, hf.responses⟩)), fun h => absurd h hp⟩
  | answered r _ _ hf _ =>
    exact ⟨hf.phase.imp_right (.imp_right .inl), fun hp => ⟨hf.fault_iff.mpr hp, hf.cause, hf.info⟩⟩
  | waiting p hf _ =>
    exact ⟨hf.phase.imp_right (.imp_right .inl), fun hp => ⟨hf.fault_iff.mpr hp, hf.cause, hf.info⟩⟩

/-- Settles O56, by the ways a command ends. -/
theorem configurationIsFixedInARun : Obligations.ConfigurationIsFixedInARun := by
  intro s t i h
  cases exec_ends h with
  | refused _ => exact ⟨rfl, fun _ => ⟨rfl, rfl, rfl, rfl⟩, fun _ _ => rfl⟩
  | raised c n _ hf => exact ⟨hf.params, hf.config, fun hp => absurd rfl hp⟩
  | answered r _ _ hf _ => exact ⟨hf.params, hf.config, fun _ => hf.mode⟩
  | waiting p hf _ => exact ⟨hf.params, hf.config, fun _ => hf.mode⟩

/-- Settles O60, by the ways a command ends. -/
theorem contextsAreNeverRemoved : Obligations.ContextsAreNeverRemoved := by
  intro s t i h hp hi
  cases exec_ends h with
  | refused _ => exact ⟨le_refl _, fun _ => id⟩
  | raised c n _ hf => exact absurd rfl hp
  | answered r _ _ hf _ => exact hf.kept hi
  | waiting p hf _ => exact hf.kept hi

/-! ### The coder registers -/

/-- R23, with CODE_VALID beside it (R35): who may change the coder registers from `s` to `u`. -/
structure CoderWriters (op : Opcode) (s u : State) : Prop where
  bounds    : op ∉ [.start, .narrow, .encsym, .decode, .decsym] → u.low = s.low ∧ u.high = s.high
  pending   : op ∉ [.start, .narrow, .encsym] → u.pending = s.pending
  code      : op ∉ [.start, .dinit, .decode, .decsym] → u.code = s.code
  codeValid : op ∉ [.start, .dinit] → u.codeValid = s.codeValid

/-- The coder registers in one value. -/
def State.coderRegs (s : State) : Word × Word × Word × Word × Bool := (s.low, s.high, s.pending, s.code, s.codeValid)

theorem CoderWriters.of_same {op : Opcode} {s u : State} (h : u.coderRegs = s.coderRegs) : CoderWriters op s u := by
  simp only [State.coderRegs, Prod.mk.injEq] at h
  obtain ⟨h1, h2, h3, h4, h5⟩ := h
  exact ⟨fun _ => ⟨h1, h2⟩, fun _ => h3, fun _ => h4, fun _ => h5⟩

/-- The commands that R23 does not name and that load no code leave the registers alone. -/
theorem CoderWriters.same {op : Opcode} {s u : State} (h : CoderWriters op s u)
    (hi : op ∉ [.start, .narrow, .encsym, .decode, .decsym, .dinit]) : u.coderRegs = s.coderRegs := by
  have notIn : ∀ l : List Opcode, l ⊆ [.start, .narrow, .encsym, .decode, .decsym, .dinit] → op ∉ l :=
    fun l hl hm => hi (hl hm)
  obtain ⟨hl, hh⟩ := h.bounds (notIn _ (by simp))
  have hp := h.pending (notIn _ (by simp))
  have hc := h.code (notIn _ (by simp))
  have hv := h.codeValid (notIn _ (by simp))
  simp only [State.coderRegs, hl, hh, hp, hc, hv]

theorem Models.coderRegs {s u : State} (h : Models s u) : u.coderRegs = s.coderRegs :=
  (congrArg State.coderRegs h.same).symm

/-- The bodies follow R23. -/
theorem WorksOn.coderWriters {i : Instr} {s u : State} (h : WorksOn s i u) : CoderWriters i.opcode s u := by
  cases h with
  | nothing n _ => exact .of_same rfl
  | config r v _ =>
    unfold State.setConfig
    split_ifs <;> exact .of_same rfl
  | rejected m => exact .of_same rfl
  | opened m _ _ => exact ⟨by simp [Instr.opcode], by simp [Instr.opcode], by simp [Instr.opcode], by simp [Instr.opcode]⟩
  | model _ hm => exact .of_same hm.coderRegs
  | writer _ _ hw => exact .of_same (congrArg State.coderRegs hw.same).symm
  | reader _ hr => exact .of_same (congrArg State.coderRegs hr.same).symm
  | flushing _ hw => exact .of_same (congrArg State.coderRegs hw.same).symm
  | closed l _ h =>
    obtain ⟨-, hw⟩ | rfl := h
    · exact .of_same (congrArg State.coderRegs hw.same).symm
    · exact .of_same rfl
  | encoder _ he => exact ⟨by simp [Instr.opcode], by simp [Instr.opcode], fun _ => he.code, fun _ => he.codeValid⟩
  | loader b _ hd hl hh => exact ⟨fun _ => ⟨hl, hh⟩, fun _ => hd.pending, by simp [Instr.opcode], by simp [Instr.opcode]⟩
  | decoder _ hd => exact ⟨by simp [Instr.opcode], fun _ => hd.pending, by simp [Instr.opcode], fun _ => hd.codeValid⟩
  | encDriver _ he hm =>
    exact ⟨by simp [Instr.opcode], by simp [Instr.opcode], fun _ => (congrArg State.code hm.same).symm.trans he.code,
      fun _ => (congrArg State.codeValid hm.same).symm.trans he.codeValid⟩
  | decDriver _ hd hm =>
    exact ⟨by simp [Instr.opcode], fun _ => (congrArg State.pending hm.same).symm.trans hd.pending,
      by simp [Instr.opcode], fun _ => (congrArg State.codeValid hm.same).symm.trans hd.codeValid⟩

/-- Settles O57, by the ways a command ends. -/
theorem coderRegisterWriters : Obligations.CoderRegisterWriters := by
  intro s t i h hp
  cases exec_ends h with
  | refused _ => exact ⟨fun _ => ⟨rfl, rfl⟩, fun _ => rfl, fun _ => rfl⟩
  | raised c n _ hf => exact absurd rfl hp
  | answered r _ _ _ hw => exact ⟨hw.coderWriters.bounds, hw.coderWriters.pending, hw.coderWriters.code⟩
  | waiting p _ hw => exact ⟨hw.coderWriters.bounds, hw.coderWriters.pending, hw.coderWriters.code⟩

end Sys2Proof.Machine
end

section
/-! The tree and the history are kept by every step (10_state.md R45, R47, R48; 20_memory.md R62). -/

namespace Sys2Proof.Machine

/-- What the tree's invariant at rest speaks of. -/
def State.treePart (s : State) : Word × Word × Config.Params × List Nat × Memory × Nat :=
  (s.crK, s.crSl, s.params, s.hist, s.ctx, s.nctx)

theorem State.TreeAtRest.congr {s u : State} (ht : s.TreeAtRest) (h : u.treePart = s.treePart) : u.TreeAtRest := by
  simp only [State.treePart, Prod.mk.injEq] at h
  obtain ⟨hK, hSL, hparams, hhist, hctx, hnctx⟩ := h
  have eK : u.K = s.K := by rw [State.K, hK, State.K]
  have eSL : u.SL = s.SL := by rw [State.SL, hSL, State.SL]
  constructor
  · rw [State.hlen, hhist, eK]; exact ht.histLen
  · rw [hhist, eSL]; exact ht.histSyms
  · rw [eK, hctx]; exact ht.noModel
  · rw [eK, hctx]; exact ht.root
  · rw [hctx]; exact ht.parents
  · rw [eK, hctx]; exact ht.depth
  · rw [eSL, hctx]; exact ht.tables
  · rw [hnctx, hctx]; exact ht.counted
  · rw [hnctx, hparams]; exact ht.capacity

/-- The commands that neither open a run nor write the configuration, the tree or the history. -/
theorem WorksOn.treePart {i : Instr} {s u : State} (h : WorksOn s i u)
    (hi : i.opcode ∉ [.crw, .start, .encsym, .decsym, .finc, .fset, .cinc, .hpush]) : u.treePart = s.treePart := by
  cases h with
  | nothing n _ => rfl
  | config r v _ => simp [Instr.opcode] at hi
  | rejected m => rfl
  | opened m _ _ => simp [Instr.opcode] at hi
  | model hm _ => exact (hi (List.mem_append_right [Opcode.crw, .start, .encsym, .decsym] hm)).elim
  | writer _ _ hw => exact (congrArg State.treePart hw.same).symm
  | reader _ hr => exact (congrArg State.treePart hr.same).symm
  | flushing _ hw => exact (congrArg State.treePart hw.same).symm
  | closed l _ h =>
    obtain ⟨-, hw⟩ | rfl := h
    · exact (congrArg State.treePart hw.same).symm
    · rfl
  | encoder _ he => exact (congrArg State.treePart he.same).symm
  | loader b _ hd _ _ => exact (congrArg State.treePart hd.same).symm
  | decoder _ hd => exact (congrArg State.treePart hd.same).symm
  | encDriver _ _ _ => simp [Instr.opcode] at hi
  | decDriver _ _ _ => simp [Instr.opcode] at hi

/-! ### The commands that write the tree or the history -/

/-- The tree that `START` creates (45_system_control.md R214). -/
theorem State.openRun_tree {s : State} (hc : s.LegalConfig) (hp : s.params.Legal) (m : Mode) :
    (s.openRun m).TreeAtRest := by
  obtain ⟨-, -, hK, -, -, -, -, hE⟩ := hc
  have root : ∀ q, Memory.has (s.openRun m).ctx q = true → q = [] ∧ 0 ≤ s.K := fun q hq => by
    simp only [State.openRun] at hq
    split at hq
    · next h0 =>
      simp only [Memory.has, lookup_cons, lookup_nil] at hq
      split at hq
      · next e => exact ⟨e, h0⟩
      · cases hq
    · cases hq
  refine ⟨by simp [State.openRun, State.hlen], by simp [State.openRun], fun h => ?_, fun h => ?_, fun p x h => ?_,
    fun p h => ?_, fun e he => ?_, ?_, fun n hn => ?_⟩
  · exact if_neg (show ¬ 0 ≤ s.K by rw [show s.K = -1 from h]; decide)
  · simp only [State.openRun, if_pos (show 0 ≤ s.K from h)]
    rfl
  · exact absurd (root _ h).1 (by simp)
  · obtain ⟨rfl, h0⟩ := root p h
    exact h0
  · simp only [State.openRun] at he
    split at he
    · rw [List.mem_singleton.mp he]
      exact tableInRange_fresh hE
    · cases he
  · simp only [State.openRun]
    split <;> rfl
  · have h0 : n ≠ 0 := fun e => hp (by rw [← e]; exact hn)
    simp only [State.openRun]
    split <;> omega

/-- The total of a context that exists is at most TOTAL_MAX (41_frequency_table.md R128). -/
theorem State.TreeAtRest.total_le {s : State} (ht : s.TreeAtRest) (hw : Memory.wf s.ctx = true) {p : Path}
    (hp : Memory.has s.ctx p = true) : s.total (.context p) ≤ Config.totalMax := by
  obtain ⟨t, hx⟩ := Option.isSome_iff_exists.mp hp
  have := (ht.tables (p, t) ((Memory.mem_iff hw).mpr hx)).2.2
  rwa [State.total, Memory.table_of_some hx]

/-- Incrementing a count keeps the tree's invariants (41_frequency_table.md R127). -/
theorem increment_tree {p : Path} {sym : Nat} {s u : State} (hw : Memory.wf s.ctx = true) (ht : s.TreeAtRest)
    (hp : Memory.has s.ctx p = true) (hs : sym < s.SL) (h : increment p sym s = .done () u) : u.TreeAtRest := by
  obtain ⟨hm, rfl⟩ := increment_done h
  have hle := ht.total_le hw hp
  have hget := State.cumHigh_le_total s (.context p) hw hs
  rw [State.cumHigh_eq] at hget
  exact State.setCount_tree hw ht hp hs (by omega) (by omega)

/-- The update of the model keeps the tree's invariants (44_symbol_driver.md R196). -/
theorem updateModel_tree {sym : Nat} {s u : State} (hw : Memory.wf s.ctx = true) (hc : s.LegalConfig)
    (hs : sym < s.SL) (ht : s.TreeAtRest) (h : updateModel sym s = .done () u) : u.TreeAtRest := by
  obtain ⟨_, v, hv, h⟩ := Res.andThen_eq_done h
  cases h
  have hu := (updateContexts_updates sym s).same
  rw [hv] at hu
  have hSL : s.SL = v.SL := by have := congrArg State.SL hu; exact this
  exact State.pushHistory_tree (by rwa [← hSL]) (updateContexts_tree hw hc hs ht hv)

/-- At rest, every command but `START` that completes keeps the tree's invariants. -/
theorem body_tree {i : Instr} {s u : State} {r : Response} (ha : s.accepts i.opcode = true)
    (hi : ∀ m, i ≠ .start m) (hr : s.atRest) (hw : Memory.wf s.ctx = true) (hc : s.LegalConfig) (ht : s.TreeAtRest)
    (h : body i s = .done r u) (hwork : WorksOn s i u) : u.TreeAtRest := by
  have quiet : i.opcode ∉ [.crw, .start, .encsym, .decsym, .finc, .fset, .cinc, .hpush] → u.TreeAtRest :=
    fun hq => ht.congr (hwork.treePart hq)
  cases i with
  | start m => exact absurd rfl (hi m)
  | crw => exact absurd hr.1 (not_hasRun_of_unconf (State.accepts_crw ha))
  | crr | brd | bwr | bclose | ftot | fget | flow | fhigh | cwalk | hrd | narrow | finish | dinit | decode | rcrd =>
    exact quiet (by simp [Instr.opcode])
  | finc o sym =>
    simp only [body] at h
    obtain ⟨hs, h⟩ := withSymbol_done h
    obtain rfl | ⟨t, hres, h⟩ := withTable_done h
    · exact ht
    obtain ⟨p, rfl, hk⟩ := withWritable_done h
    exact increment_tree hw ht (State.resolve_has hres) hs hk
  | fset o sym c =>
    simp only [body] at h
    obtain ⟨hs, h⟩ := withSymbol_done h
    obtain rfl | ⟨t, hres, h⟩ := withTable_done h
    · exact ht
    obtain ⟨p, rfl, hk⟩ := withWritable_done h
    obtain ⟨h1, h2, rfl⟩ := assignCount_done hk
    exact State.setCount_tree hw ht (State.resolve_has hres) hs h1 h2
  | cinc sym =>
    simp only [body] at h
    obtain ⟨hs, h⟩ := withSymbol_done h
    obtain ⟨_, v, hv, h⟩ := Res.andThen_eq_done h
    cases h
    exact updateContexts_tree hw hc hs ht hv
  | hpush sym =>
    simp only [body] at h
    obtain ⟨hs, h⟩ := withSymbol_done h
    cases h
    exact State.pushHistory_tree hs ht
  | encsym sym =>
    simp only [body] at h
    obtain ⟨hs, h⟩ := withSymbol_done h
    obtain ⟨_, v, hv, h⟩ := Res.andThen_eq_done h
    obtain ⟨_, w, hw', h⟩ := Res.andThen_eq_done h
    cases h
    have he := encodeSearch_encodes sym.toNat (s.hlen + 1) (State.accepts_encMode ha (.inr (.inr (.inr rfl)))).2
    rw [hv, Res.final_done] at he
    exact updateModel_tree (he.ctx ▸ hw) (he.LegalConfig ▸ hc) (he.SL ▸ hs)
      (ht.congr (u := v) (congrArg State.treePart he.same).symm) hw'
  | decsym =>
    obtain ⟨sym, v, hv, h⟩ := Res.andThen_eq_done h
    obtain ⟨_, w, hw', h⟩ := Res.andThen_eq_done h
    cases h
    have hm := (State.accepts_decMode ha (.inr (.inr (.inr rfl)))).2.1
    have hs := decodeSearch_lt hm hc.2.2.2.2.1 hv
    have hd := decodeSearch_decodes (s.hlen + 1) hm
    rw [hv, Res.final_done] at hd
    exact updateModel_tree (hd.ctx ▸ hw) (hd.LegalConfig ▸ hc) (hd.SL ▸ hs)
      (ht.congr (u := v) (congrArg State.treePart hd.same).symm) hw'

/-! ### The step -/

/-- Settles O53: the commands that write the tree or the history keep R45 to R48, the others leave both alone, and
`START` makes the tree of the root alone. -/
theorem stepKeepsTheTree : Obligations.StepKeepsTheTree := fun s t hs h =>
  step_keeps_of_body (Inv := State.TreeInv)
    (hhost := fun _ _ h => ⟨h.canonical, h.params, h.config, fun hr => (h.tree hr).congr rfl⟩)
    (hreset := fun _ _ _ _ _ h => ⟨State.reset_memory_wf, h.params, fun hr => absurd hr (not_hasRun_of_unconf rfl),
      fun hr => absurd hr.1 (not_hasRun_of_unconf rfl)⟩)
    (hrespond := fun _ _ h => ⟨h.canonical, h.params, h.config, fun hr => (h.tree hr).congr rfl⟩)
    (hraise := fun _ _ _ _ _ h hf => ⟨Memory.wf_ofList _, hf.params ▸ h.params,
      fun hr => absurd hr (not_hasRun_of_fault rfl), fun hr => absurd hr.1 (not_hasRun_of_fault rfl)⟩)
    (hwait := fun _ _ _ _ h hf => ⟨hf.canonical h.canonical, hf.params ▸ h.params, hf.legal h.config,
      fun hr => by cases hr.2⟩)
    (hopen := fun _ m h hc hf => ⟨hf.canonical h.canonical, h.params, fun _ => hc,
      fun _ => State.openRun_tree hc h.params m⟩)
    (hdone := fun _ _ _ _ h hi ha hb hf hw => ⟨hf.canonical h.canonical, hf.params ▸ h.params, hf.legal h.config,
      fun hr =>
        have hrs := hf.atRest hi hr
        body_tree ha hi hrs h.canonical (h.config hrs.1) (h.tree hrs) hb hw⟩)
    s t hs h

end Sys2Proof.Machine
end

section
/-! The coder at rest is kept by every step (10_state.md R21, R22). -/

namespace Sys2Proof.Machine

/-- What the coder's invariant says at rest: R21, R22, and the whole interval before `code` is loaded. -/
structure State.CoderAtRest (s : State) : Prop where
  interval : s.IntervalAtRest
  code     : s.CodeAtRest
  full     : s.mode = .dec → s.codeValid = false → s.low = 0 ∧ s.high.toNat = 2 ^ s.P - 1

theorem State.CoderInv.atRest {s : State} (h : s.CoderInv) (hr : s.atRest) : s.CoderAtRest :=
  ⟨h.interval hr, h.code hr, h.full hr⟩

theorem State.CoderInv.of_atRest {s : State} (hw : Memory.wf s.ctx = true) (hc : s.hasRun → s.LegalConfig)
    (h : s.atRest → s.CoderAtRest) : s.CoderInv :=
  ⟨hw, hc, fun hr => (h hr).interval, fun hr => (h hr).code, fun hr => (h hr).full⟩

/-- The coder at rest is a matter of P, the mode and the coder registers. -/
theorem State.CoderAtRest.congr {s u : State} (h : s.CoderAtRest) (hP : u.crP = s.crP) (hm : u.mode = s.mode)
    (hr : u.coderRegs = s.coderRegs) : u.CoderAtRest := by
  simp only [State.coderRegs, Prod.mk.injEq] at hr
  obtain ⟨hl, hh, hp, hc, hv⟩ := hr
  have eP : u.P = s.P := by rw [State.P, hP, State.P]
  obtain ⟨h1, h2, h3⟩ := h
  simp only [State.IntervalAtRest, State.CodeAtRest] at h1 h2
  constructor <;> simp only [State.IntervalAtRest, State.CodeAtRest, eP, hm, hl, hh, hp, hc, hv] <;> assumption

/-- Encoding that ends at rest keeps R22, which says of mode ENC that `code` is not used. -/
theorem State.CoderAtRest.encoded {s u : State} (h : s.CoderAtRest) (hs : s.mode = .enc) (hm : u.mode = s.mode)
    (hc : u.code = s.code) (hv : u.codeValid = s.codeValid) (hi : u.IntervalAtRest) : u.CoderAtRest := by
  have he : u.mode ≠ .dec := by rw [hm, hs]; decide
  refine ⟨hi, ⟨fun _ => ?_, fun hd => absurd hd he, fun hd => absurd hd he⟩, fun hd => absurd hd he⟩
  rw [hc, hv]
  exact h.code.1 hs

/-- Decoding that ends at rest with `code` inside keeps R22. -/
theorem State.CoderAtRest.decoded {s u : State} (h : s.CoderAtRest) (hs : s.mode = .dec) (hm : u.mode = s.mode)
    (hp : u.pending = s.pending) (hv : u.codeValid = true) (hi : u.IntervalAtRest)
    (hin : u.low.toNat ≤ u.code.toNat ∧ u.code.toNat ≤ u.high.toNat) : u.CoderAtRest := by
  have hd : u.mode = .dec := hm.trans hs
  refine ⟨hi, ⟨fun he => ?_, fun _ _ => hin, fun _ => ?_⟩, fun _ hf => ?_⟩
  · rw [hd] at he
    cases he
  · rw [hp]
    exact h.code.2.2 hs
  · rw [hv] at hf
    cases hf

/-- The whole interval is at rest (R21). -/
theorem restInterval_full {P : Nat} (hP : 2 ≤ P) : RestInterval P 0 (2 ^ P - 1) := by
  obtain ⟨p, rfl⟩ : ∃ p, P = p + 2 := ⟨P - 2, by omega⟩
  have h4 : 2 ^ (p + 2) = 4 * 2 ^ p := by rw [pow_add]; omega
  have := Nat.two_pow_pos p
  rw [restInterval_iff, h4]
  omega

/-- The coder that `START` sets up (45_system_control.md R214). -/
theorem State.openRun_coder {s : State} (hc : s.LegalConfig) (m : Mode) : (s.openRun m).CoderAtRest := by
  have hP := hc.1
  have hH : (s.openRun m).high.toNat = 2 ^ s.P - 1 :=
    toNat_ofNat32 hc.2.1 (Nat.sub_lt (Nat.two_pow_pos _) Nat.one_pos)
  refine ⟨?_, ⟨fun _ => ⟨rfl, rfl⟩, fun _ h => (by cases h), fun _ => rfl⟩, fun _ _ => ⟨rfl, hH⟩⟩
  rw [State.IntervalAtRest, hH]
  exact restInterval_full hP

/-- `DINIT` loads `code` into the whole interval (43_range_coder.md R172). -/
theorem loadCode_inside {s u : State} (hP : s.P ≤ 32) (h : loadCode s.P (s.setCode 0) = .done () u)
    (hl : s.low = 0) (hh : s.high.toNat = 2 ^ s.P - 1) :
    s.low.toNat ≤ u.code.toNat ∧ u.code.toNat ≤ s.high.toNat := by
  obtain ⟨hcode, -⟩ := loadCode_done s.P (s.setCode 0) u h hP (by simp)
  have hlt := numOfBits_lt ((s.setCode 0).codeBits s.P)
  rw [State.length_codeBits] at hlt
  have h0 : (s.setCode 0).code.toNat = 0 := rfl
  rw [hcode, hl, hh, h0, Nat.zero_mul, Nat.zero_add]
  exact ⟨Nat.zero_le _, by omega⟩

/-- The update of the model leaves the interval alone. -/
theorem Models.IntervalAtRest {s u : State} (h : Models s u) (hi : s.IntervalAtRest) : u.IntervalAtRest := by
  have e := congrArg State.IntervalAtRest h.same
  exact e.mp hi

/-- At rest, every command but `START` that completes leaves the coder at rest. -/
theorem body_coder {i : Instr} {s u : State} {r : Response} (ha : s.accepts i.opcode = true)
    (hi : ∀ m, i ≠ .start m) (hr : s.atRest) (hw : Memory.wf s.ctx = true) (hlegal : s.LegalConfig) (hs : s.CoderAtRest)
    (h : body i s = .done r u) (hf : BodyFrame i s u) (hwork : WorksOn s i u) : u.CoderAtRest := by
  have hm := hf.mode hi
  obtain ⟨hbounds, hpending, hcode, hvalid⟩ := hwork.coderWriters
  have hcrP := (hf.config (.inl fun hp => not_hasRun_of_unconf hp hr.1)).1
  have eP : u.P = s.P := by rw [State.P, hcrP, State.P]
  have ⟨hP, hP', _, _, hSL, _⟩ := hlegal
  have quiet : i.opcode ∉ [.start, .narrow, .encsym, .decode, .decsym, .dinit] → u.CoderAtRest := fun hq =>
    hs.congr hcrP hm (hwork.coderWriters.same hq)
  cases i with
  | start m => exact absurd rfl (hi m)
  | crw | crr | brd | bwr | bclose | ftot | fget | flow | fhigh | finc | fset | cwalk | cinc | hpush | hrd | finish
    | rcrd => exact quiet (by simp [Instr.opcode])
  | narrow o sym =>
    simp only [body] at h
    obtain ⟨hsym, h⟩ := withSymbol_done h
    obtain rfl | ⟨t, -, h⟩ := withTable_done h
    · exact hs
    obtain ⟨_, v, hv, h⟩ := Res.andThen_eq_done h
    cases h
    have henc := (State.accepts_encMode ha (.inr (.inl rfl))).2
    obtain ⟨a, b, -, hrest⟩ := codeStep_enc_done hP hP' henc hs.interval hw hsym hv
    exact hs.encoded henc hm (hcode (by simp [Instr.opcode])) (hvalid (by simp [Instr.opcode])) hrest
  | encsym sym =>
    simp only [body] at h
    obtain ⟨hsym, h⟩ := withSymbol_done h
    obtain ⟨_, v, hv, h⟩ := Res.andThen_eq_done h
    obtain ⟨_, w, hw', h⟩ := Res.andThen_eq_done h
    cases h
    have henc := (State.accepts_encMode ha (.inr (.inr (.inr rfl)))).2
    have hrest := encodeSearch_rest henc hlegal hs.interval hw hsym hv
    have hmod := updateModel_models sym.toNat v
    rw [hw'] at hmod
    exact hs.encoded henc hm (hcode (by simp [Instr.opcode])) (hvalid (by simp [Instr.opcode]))
      (hmod.IntervalAtRest hrest)
  | dinit =>
    obtain ⟨_, v, hv, h⟩ := Res.andThen_eq_done h
    cases h
    obtain ⟨-, hdec, hcv, -⟩ := State.accepts_decMode ha (.inr (.inl rfl))
    obtain ⟨hl, hh⟩ := hbounds (by simp [Instr.opcode])
    obtain ⟨hl0, hh0⟩ := hs.full hdec (hcv rfl)
    refine hs.decoded hdec hm (hpending (by simp [Instr.opcode])) rfl ?_ ?_
    · have := hs.interval
      rwa [State.IntervalAtRest, ← eP, ← hl, ← hh] at this
    · rw [hl, hh]
      exact loadCode_inside (u := v) hP' hv hl0 hh0
  | decode o =>
    simp only [body] at h
    obtain rfl | ⟨t, -, h⟩ := withTable_done h
    · exact hs
    obtain ⟨sym, v, hv, h⟩ := Res.andThen_eq_done h
    cases h
    obtain ⟨-, hdec, -, hcv⟩ := State.accepts_decMode ha (.inr (.inr (.inl rfl)))
    have hcv := hcv (.inl rfl)
    obtain ⟨h1, h2⟩ := hs.code.2.1 hdec hcv
    obtain ⟨-, hrest, hin⟩ := decodeWith_rest hP hP' hdec hs.interval hw hSL h1 h2 hv
    exact hs.decoded hdec hm (hpending (by simp [Instr.opcode])) ((hvalid (by simp [Instr.opcode])).trans hcv) hrest hin
  | decsym =>
    obtain ⟨sym, v, hv, h⟩ := Res.andThen_eq_done h
    obtain ⟨_, w, hw', h⟩ := Res.andThen_eq_done h
    cases h
    obtain ⟨-, hdec, -, hcv⟩ := State.accepts_decMode ha (.inr (.inr (.inr rfl)))
    have hcv := hcv (.inr rfl)
    obtain ⟨h1, h2⟩ := hs.code.2.1 hdec hcv
    obtain ⟨-, hrest, hin⟩ := decodeSearch_rest hdec hlegal hs.interval hw h1 h2 hv
    have hmod := updateModel_models sym v
    rw [hw'] at hmod
    have hlow : u.low = v.low := (congrArg State.low hmod.same).symm
    have hhigh : u.high = v.high := (congrArg State.high hmod.same).symm
    have hcodev : u.code = v.code := (congrArg State.code hmod.same).symm
    exact hs.decoded hdec hm (hpending (by simp [Instr.opcode])) ((hvalid (by simp [Instr.opcode])).trans hcv)
      (hmod.IntervalAtRest hrest) (by rw [hlow, hhigh, hcodev]; exact hin)

end Sys2Proof.Machine
end

section
/-! The bit channel at rest is kept by every step (40_bit_channel.md R101, R102; 43_range_coder.md R167). -/

namespace Sys2Proof.Machine

/-! ### The buffers, in either mode -/

/-- What the bit channel's invariant says whatever the mode: `wbuf` holds nothing above its bits, EOS leaves no bit
buffered, a tail bit is counted only after EOS. -/
structure State.BuffersFit (s : State) : Prop where
  wbuf : s.wbuf.toNat < 2 ^ s.wcnt.toNat
  eos  : s.eos = true → s.rcnt = 0
  tail : s.tailbits ≠ 0 → s.eos = true

/-- The registers of the bit channel that `BuffersFit` speaks of. -/
def State.buffers (s : State) : Byte × BitVec 3 × Bool × BitVec 64 × BitVec 3 :=
  (s.wbuf, s.wcnt, s.eos, s.tailbits, s.rcnt)

theorem State.BuffersFit.congr {s u : State} (h : s.BuffersFit) (e : u.buffers = s.buffers) : u.BuffersFit := by
  simp only [State.buffers, Prod.mk.injEq] at e
  obtain ⟨h1, h2, h3, h4, h5⟩ := e
  exact ⟨by rw [h1, h2]; exact h.wbuf, by rw [h3, h5]; exact h.eos, by rw [h4, h3]; exact h.tail⟩

/-- The operation keeps the buffers fit, wherever it ends. -/
def KeepsBuffers {α : Type} (f : State → Res α) : Prop := ∀ s, s.BuffersFit → (f s).final.BuffersFit

theorem Res.final_andThen_buffersFit {α β : Type} {r : Res α} {g : α → State → Res β} (hr : r.final.BuffersFit)
    (hg : ∀ a, KeepsBuffers (g a)) : (r.andThen g).final.BuffersFit := by
  cases r with
  | done a v => exact hg a v hr
  | stop w v => exact hr

theorem KeepsBuffers.andThen {α β : Type} {f : State → Res α} {g : α → State → Res β} (hf : KeepsBuffers f)
    (hg : ∀ a, KeepsBuffers (g a)) : KeepsBuffers fun s => (f s).andThen g := fun s hs =>
  Res.final_andThen_buffersFit (hf s hs) hg

theorem KeepsBuffers.of_buffers {α : Type} {f : State → Res α} (h : ∀ s, (f s).final.buffers = s.buffers) :
    KeepsBuffers f := fun s hs => hs.congr (h s)

theorem outByte_buffers (b : Byte) (s : State) : (outByte b s).final.buffers = s.buffers := by
  unfold outByte
  cases s.sink.headD .ok <;> rfl

theorem inByte_buffers (s : State) : (inByte s).final.buffers = s.buffers := by
  unfold inByte
  cases s.input.headD .eos <;> rfl

/-- Emptying the bit buffer leaves it fit. -/
theorem State.BuffersFit.emptied {s : State} (h : s.BuffersFit) : ({ s with wbuf := 0, wcnt := 0 } : State).BuffersFit :=
  ⟨Nat.one_pos, h.eos, h.tail⟩

theorem writeBit_keepsBuffers (b : Bool) : KeepsBuffers (writeBit b) := by
  intro s hs
  unfold writeBit
  simp only
  split
  · exact Res.final_andThen_buffersFit (hs.congr (outByte_buffers _ s)) fun _ _ hv => hv.emptied
  · next h8 =>
    -- the bit does not fill the buffer, so one more bit bounds it
    have hn : (BitVec.ofNat 3 (s.wcnt.toNat + 1)).toNat = s.wcnt.toNat + 1 := by
      rw [BitVec.toNat_ofNat, Nat.mod_eq_of_lt (by have := s.wcnt.isLt; omega)]
    refine ⟨?_, hs.eos, hs.tail⟩
    simp only [Res.final_done, hn, BitVec.toNat_ofNat, pow_succ]
    have := hs.wbuf
    have := Bool.toNat_lt b
    exact Nat.lt_of_le_of_lt (Nat.mod_le _ _) (by omega)

theorem writeBits_keepsBuffers (b : Bool) : ∀ n, KeepsBuffers (writeBits b n)
  | 0 => fun _ hs => hs
  | n + 1 => (writeBit_keepsBuffers b).andThen fun _ => writeBits_keepsBuffers b n

theorem flushBits_keepsBuffers : KeepsBuffers flushBits := by
  intro s hs
  unfold flushBits
  split
  · exact Res.final_andThen_buffersFit (hs.congr (outByte_buffers _ s)) fun _ _ hv => hv.emptied
  · exact hs

theorem closeStream_keepsBuffers : KeepsBuffers closeStream := by
  intro s hs
  unfold closeStream
  split
  · exact Res.final_andThen_buffersFit (flushBits_keepsBuffers s hs) fun _ _ hv => hv.congr rfl
  · exact hs.congr rfl

/-- Taking one bit out of the byte read, which is not the last: EOS was not seen. -/
theorem State.BuffersFit.taken {s : State} (h : s.BuffersFit) (h0 : s.rcnt ≠ 0) (n : BitVec 3) :
    ({ s with rcnt := n } : State).BuffersFit :=
  ⟨h.wbuf, fun he => absurd (h.eos he) h0, h.tail⟩

theorem readBit_keepsBuffers : KeepsBuffers readBit := by
  intro s hs
  unfold readBit
  split
  · next h0 =>
    split
    · exact hs
    · next he =>
      have hi := inByte_buffers s
      cases hb : inByte s with
      | stop w v =>
        rw [hb] at hi
        exact hs.congr hi
      | done r v =>
        rw [hb] at hi
        have hv := hs.congr hi
        have hr : v.rcnt = s.rcnt := congrArg (fun x => x.2.2.2.2) hi
        have hve : v.eos = s.eos := congrArg (fun x => x.2.2.1) hi
        cases r with
        | none => exact ⟨hv.wbuf, fun _ => hr.trans h0, fun _ => rfl⟩
        | some x => exact ⟨hv.wbuf, fun h => absurd (hve.symm.trans h) he, hv.tail⟩
  · next h0 => exact hs.taken h0 _

/-- `ReadBit` finds no bit only after EOS (R102). -/
theorem readBit_none_eos {s u : State} (h : readBit s = .done none u) : u.eos = true := by
  unfold readBit at h
  split at h
  · split at h
    · next he =>
      cases h
      exact he
    · obtain ⟨r, v, hv, h⟩ := Res.andThen_eq_done h
      cases r <;> cases h
      rfl
  · cases h

theorem readCodeBit_keepsBuffers : KeepsBuffers readCodeBit := by
  intro s hs
  have hr := readBit_keepsBuffers s hs
  unfold readCodeBit
  cases hb : readBit s with
  | stop w v =>
    rw [hb] at hr
    exact hr
  | done r v =>
    rw [hb] at hr
    cases r with
    | none => exact ⟨hr.wbuf, hr.eos, fun _ => (readBit_none_eos hb : v.eos = true)⟩
    | some b => exact hr

/-! ### The buffers through the coder -/

theorem takeBit_keepsBuffers (f : Nat → Nat → Bool → Nat) : KeepsBuffers (takeBit f) :=
  readCodeBit_keepsBuffers.andThen fun _ _ hv => hv.congr rfl

theorem emitBit_keepsBuffers (b : Bool) : KeepsBuffers (emitBit b) :=
  (writeBit_keepsBuffers b).andThen fun _ s hs =>
    Res.final_andThen_buffersFit (writeBits_keepsBuffers (!b) s.pending.toNat s hs) fun _ _ hv => hv.congr rfl

theorem deferBit_keepsBuffers : KeepsBuffers deferBit := by
  intro s hs
  unfold deferBit
  split
  · exact hs
  · exact hs.congr rfl

theorem stepE12_keepsBuffers : KeepsBuffers stepE12 := by
  intro s hs
  unfold stepE12
  cases s.mode with
  | enc => exact Res.final_andThen_buffersFit ((emitBit_keepsBuffers _) s hs) fun _ _ hv => hv.congr rfl
  | dec => exact Res.final_andThen_buffersFit ((takeBit_keepsBuffers _) s hs) fun _ _ hv => hv.congr rfl

theorem stepE3_keepsBuffers : KeepsBuffers stepE3 := by
  intro s hs
  unfold stepE3
  cases s.mode with
  | enc => exact Res.final_andThen_buffersFit (deferBit_keepsBuffers s hs) fun _ _ hv => hv.congr rfl
  | dec => exact Res.final_andThen_buffersFit ((takeBit_keepsBuffers _) s hs) fun _ _ hv => hv.congr rfl

theorem normalizeLoop_keepsBuffers : ∀ n, KeepsBuffers (normalizeLoop n)
  | 0 => fun _ hs => hs
  | n + 1 => fun s hs => by
    unfold normalizeLoop
    split
    · exact Res.final_andThen_buffersFit (stepE12_keepsBuffers s hs) fun _ => normalizeLoop_keepsBuffers n
    · split
      · exact Res.final_andThen_buffersFit (stepE3_keepsBuffers s hs) fun _ => normalizeLoop_keepsBuffers n
      · exact hs

theorem codeStep_keepsBuffers (t : TableRef) (sym : Nat) : KeepsBuffers (codeStep t sym) := by
  intro s hs
  unfold codeStep
  simp only
  split
  · exact hs
  · split
    · exact hs
    · exact normalizeLoop_keepsBuffers _ _ (hs.congr rfl)

theorem decodeWith_keepsBuffers (t : TableRef) : KeepsBuffers (decodeWith t) := by
  intro s hs
  unfold decodeWith
  simp only
  split
  · exact hs
  · split
    · exact hs
    · exact Res.final_andThen_buffersFit ((codeStep_keepsBuffers t _) s hs) fun _ _ hv => hv

theorem loadCode_keepsBuffers : ∀ n, KeepsBuffers (loadCode n)
  | 0 => fun _ hs => hs
  | n + 1 => (takeBit_keepsBuffers shiftE12).andThen fun _ => loadCode_keepsBuffers n

theorem encodeSearch_keepsBuffers (sym : Nat) : ∀ n, KeepsBuffers (encodeSearch sym n)
  | 0 => codeStep_keepsBuffers .flat sym
  | n + 1 => fun s hs => by
    rw [encodeSearch]
    split
    · exact encodeSearch_keepsBuffers sym n s hs
    · split
      · exact codeStep_keepsBuffers _ sym s hs
      · exact Res.final_andThen_buffersFit ((codeStep_keepsBuffers _ _) s hs) fun _ => encodeSearch_keepsBuffers sym n

theorem decodeSearch_keepsBuffers : ∀ n, KeepsBuffers (decodeSearch n)
  | 0 => decodeWith_keepsBuffers .flat
  | n + 1 => fun s hs => by
    rw [decodeSearch]
    split
    · exact decodeSearch_keepsBuffers n s hs
    · refine Res.final_andThen_buffersFit (decodeWith_keepsBuffers _ s hs) fun y v hv => ?_
      split
      · exact hv
      · exact decodeSearch_keepsBuffers n v hv

theorem updateModel_keepsBuffers (sym : Nat) : KeepsBuffers (updateModel sym) := fun s hs =>
  hs.congr (congrArg State.buffers (updateModel_models sym s).same).symm

/-! ### The buffers through a command -/

theorem withSymbol_keepsBuffers {sym : SymField} {k : State → Res Response} (h : KeepsBuffers k) :
    KeepsBuffers fun s => withSymbol sym s k := fun s hs =>
  withSymbol_rel (R := fun _ b => b.BuffersFit) hs fun _ => h s hs

theorem withTable_keepsBuffers {o : Order} {k : TableRef → State → Res Response} (h : ∀ t, KeepsBuffers (k t)) :
    KeepsBuffers fun s => withTable o s k := fun s hs =>
  withTable_rel (R := fun _ b => b.BuffersFit) hs fun t _ => h t s hs

/-- A response after an operation leaves the buffers alone. -/
theorem KeepsBuffers.respond {α : Type} {f : State → Res α} (hf : KeepsBuffers f) (r : α → Response) :
    KeepsBuffers fun s => (f s).andThen fun a s => .done (r a) s :=
  hf.andThen fun _ _ hv => hv

/-- The commands that write or read no bit leave the buffers alone. -/
theorem WorksOn.buffers {i : Instr} {s u : State} (h : WorksOn s i u)
    (hi : i.opcode ∉ [.start, .brd, .bwr, .finish, .bclose, .narrow, .dinit, .decode, .encsym, .decsym]) :
    u.buffers = s.buffers := by
  cases h with
  | nothing n _ => rfl
  | config r v _ =>
    unfold State.setConfig
    split_ifs <;> rfl
  | model _ hm => exact (congrArg State.buffers hm.same).symm
  | writer hm _ _ =>
    have : i.opcode = .bwr ∨ i.opcode = .finish := by simpa using hm
    rcases this with e | e <;> rw [e] at hi <;> simp at hi
  | rejected | opened | reader | flushing | closed | encoder | loader | decoder | encDriver | decDriver =>
    simp [Instr.opcode] at hi

/-- A command other than `START` that completes keeps the buffers fit. -/
theorem body_buffersFit {i : Instr} {s u : State} {r : Response} (hi : ∀ m, i ≠ .start m) (hs : s.BuffersFit)
    (h : body i s = .done r u) (hw : WorksOn s i u) : u.BuffersFit := by
  have quiet : i.opcode ∉ [.start, .brd, .bwr, .finish, .bclose, .narrow, .dinit, .decode, .encsym, .decsym] →
      u.BuffersFit := fun hq => hs.congr (hw.buffers hq)
  have kept : KeepsBuffers (body i) → u.BuffersFit := fun hk => by
    have := hk s hs
    rwa [h] at this
  cases i with
  | crw | crr | ftot | fget | flow | fhigh | finc | fset | cwalk | cinc | hpush | hrd | rcrd =>
    exact quiet (by simp [Instr.opcode])
  | start m => exact absurd rfl (hi m)
  | brd => exact kept (readBit_keepsBuffers.andThen fun r _ hv => by cases r <;> exact hv)
  | bwr b => exact kept ((writeBit_keepsBuffers b).respond _)
  | finish => exact kept ((writeBit_keepsBuffers true).respond _)
  | bclose => exact kept (closeStream_keepsBuffers.andThen fun _ _ hv => hv.congr rfl)
  | narrow o sym =>
    exact kept (withSymbol_keepsBuffers (withTable_keepsBuffers fun t => (codeStep_keepsBuffers t _).respond _))
  | dinit =>
    exact kept fun s hs => (loadCode_keepsBuffers s.P).andThen (fun _ _ hv => hv.congr rfl) _ (hs.congr rfl)
  | decode o => exact kept (withTable_keepsBuffers fun t => (decodeWith_keepsBuffers t).respond _)
  | encsym sym =>
    exact kept (withSymbol_keepsBuffers fun s hs =>
      (encodeSearch_keepsBuffers _ _).andThen (fun _ => (updateModel_keepsBuffers _).respond _) s hs)
  | decsym =>
    exact kept fun s hs =>
      (decodeSearch_keepsBuffers _).andThen (fun sym => (updateModel_keepsBuffers sym).respond _) s hs

/-! ### The registers of the other mode -/

/-- The reader's registers (R44, R46). -/
def State.readerRegs (s : State) : Bool × BitVec 64 × Byte × BitVec 3 := (s.eos, s.tailbits, s.rbuf, s.rcnt)

/-- The writer's registers (R46). -/
def State.writerRegs (s : State) : Byte × BitVec 3 := (s.wbuf, s.wcnt)

/-- In mode ENC the reader stands, in mode DEC the writer. -/
structure OtherModeKept (s u : State) : Prop where
  reader : s.mode = .enc → u.readerRegs = s.readerRegs
  writer : s.mode = .dec → u.writerRegs = s.writerRegs

theorem OtherModeKept.refl (s : State) : OtherModeKept s s := ⟨fun _ => rfl, fun _ => rfl⟩

theorem Encodes.otherMode {s u : State} (h : Encodes s u) (hm : s.mode = .enc) : OtherModeKept s u :=
  ⟨fun _ => (congrArg State.readerRegs h.same).symm, fun hd => by rw [hm] at hd; cases hd⟩

theorem Decodes.otherMode {s u : State} (h : Decodes s u) (hm : s.mode = .dec) : OtherModeKept s u :=
  ⟨fun he => (by rw [hm] at he; cases he), fun _ => (congrArg State.writerRegs h.same).symm⟩

/-- The update of the model leaves both sides of the bit channel alone. -/
theorem OtherModeKept.models {s v u : State} (h : OtherModeKept s v) (hm : Models v u) : OtherModeKept s u :=
  ⟨fun he => (congrArg State.readerRegs hm.same).symm.trans (h.reader he),
    fun hd => (congrArg State.writerRegs hm.same).symm.trans (h.writer hd)⟩

/-- A command other than `START` leaves the registers of the other mode alone. -/
theorem WorksOn.otherMode {i : Instr} {s u : State} (h : WorksOn s i u) (hi : ∀ m, i ≠ .start m) :
    OtherModeKept s u := by
  cases h with
  | nothing n _ => exact ⟨fun _ => rfl, fun _ => rfl⟩
  | config r v _ =>
    unfold State.setConfig
    split_ifs <;> exact ⟨fun _ => rfl, fun _ => rfl⟩
  | rejected m => exact absurd rfl (hi m)
  | opened m _ _ => exact absurd rfl (hi m)
  | model _ hm => exact (OtherModeKept.refl s).models hm
  | writer _ hm hw => exact hw.encodes.otherMode hm
  | reader hm hr => exact hr.decodes.otherMode hm
  | flushing hm hw => exact hw.encodes.otherMode hm
  | closed l _ h =>
    obtain ⟨hm, hw⟩ | rfl := h
    · exact { hw.encodes.otherMode hm with }
    · exact ⟨fun _ => rfl, fun _ => rfl⟩
  | encoder hm he => exact he.otherMode hm
  | loader b hm hd _ _ => exact { hd.otherMode hm with }
  | decoder hm hd => exact hd.otherMode hm
  | encDriver hm he hmod => exact (he.otherMode hm).models hmod
  | decDriver hm hd hmod => exact (hd.otherMode hm).models hmod

/-- The bit channel at rest, in parts: the buffers, and the other mode's registers. -/
theorem State.channelAtRest_iff {s : State} :
    s.ChannelAtRest ↔ s.BuffersFit ∧ (s.mode = .enc → s.readerRegs = (false, 0, 0, 0)) ∧
      (s.mode = .dec → s.writerRegs = (0, 0)) := by
  simp only [State.readerRegs, State.writerRegs, Prod.mk.injEq]
  constructor
  · rintro ⟨he, hd⟩
    refine ⟨?_, fun hm => (he hm).2, fun hm => (hd hm).2.2⟩
    cases hm : s.mode with
    | enc =>
      obtain ⟨h1, h2, h3, -, -⟩ := he hm
      exact ⟨h1, fun h => absurd h (by simp [h2]), fun h => absurd h3 h⟩
    | dec =>
      obtain ⟨h1, h2, h3, h4⟩ := hd hm
      exact ⟨by rw [h3, h4]; decide, h1, h2⟩
  · rintro ⟨hb, he, hd⟩
    exact ⟨fun hm => ⟨hb.wbuf, he hm⟩, fun hm => ⟨hb.eos, hb.tail, hd hm⟩⟩

/-- A command other than `START` that completes leaves the bit channel at rest. -/
theorem body_channel {i : Instr} {s u : State} {r : Response} (hi : ∀ m, i ≠ .start m) (hs : s.ChannelAtRest)
    (h : body i s = .done r u) (hf : BodyFrame i s u) (hw : WorksOn s i u) : u.ChannelAtRest := by
  obtain ⟨hb, henc, hdec⟩ := State.channelAtRest_iff.mp hs
  obtain ⟨hreader, hwriter⟩ := hw.otherMode hi
  rw [State.channelAtRest_iff, hf.mode hi]
  exact ⟨body_buffersFit hi hb h hw, fun hm => (hreader hm).trans (henc hm), fun hm => (hwriter hm).trans (hdec hm)⟩

/-- The bit channel that `START` sets up (45_system_control.md R214). -/
theorem State.openRun_channel (s : State) (m : Mode) : (s.openRun m).ChannelAtRest :=
  ⟨fun _ => ⟨Nat.one_pos, rfl, rfl, rfl, rfl⟩, fun _ => ⟨fun h => (by cases h), fun h => absurd rfl h, rfl, rfl⟩⟩

/-! ### The step -/

/-- A step keeps the coder's invariant. -/
theorem step_keeps_coder (s t : State) (hs : s.CoderInv) (h : step s = .next t) : t.CoderInv :=
  step_keeps_of_body (Inv := State.CoderInv)
    (hhost := fun _ _ h => .of_atRest h.canonical h.config fun hr => (h.atRest hr).congr rfl rfl rfl)
    (hreset := fun _ _ _ _ _ _ => .of_atRest State.reset_memory_wf (fun hr => absurd hr (not_hasRun_of_unconf rfl))
      fun hr => absurd hr.1 (not_hasRun_of_unconf rfl))
    (hrespond := fun _ _ h => .of_atRest h.canonical h.config fun hr => (h.atRest hr).congr rfl rfl rfl)
    (hraise := fun _ _ _ _ _ _ _ => .of_atRest (Memory.wf_ofList _) (fun hr => absurd hr (not_hasRun_of_fault rfl))
      fun hr => absurd hr.1 (not_hasRun_of_fault rfl))
    (hwait := fun _ _ _ _ h hf => .of_atRest (hf.canonical h.canonical) (hf.legal h.config) fun hr => by cases hr.2)
    (hopen := fun _ m h hc hf => .of_atRest (hf.canonical h.canonical) (fun _ => hc) fun _ => State.openRun_coder hc m)
    (hdone := fun _ _ _ _ h hi ha hb hf hw => .of_atRest (hf.canonical h.canonical) (hf.legal h.config) fun hr =>
      have hrs := hf.atRest hi hr
      body_coder ha hi hrs h.canonical (h.config hrs.1) (h.atRest hrs) hb hf hw)
    s t hs h

/-- A step keeps the bit channel's invariant. -/
theorem step_keeps_channel (s t : State) (hs : s.ChannelInv) (h : step s = .next t) : t.ChannelInv :=
  step_keeps_of_body (Inv := State.ChannelInv)
    (hhost := fun _ _ h => h)
    (hreset := fun _ _ _ _ _ _ hr => absurd hr.1 (not_hasRun_of_unconf rfl))
    (hrespond := fun _ _ h => h)
    (hraise := fun _ _ _ _ _ _ _ hr => absurd hr.1 (not_hasRun_of_fault rfl))
    (hwait := fun _ _ _ _ _ _ hr => by cases hr.2)
    (hopen := fun s m _ _ _ _ => s.openRun_channel m)
    (hdone := fun _ _ _ _ h hi _ hb hf hw hr => body_channel hi (h (hf.atRest hi hr)) hb hf hw)
    s t hs h

/-- Settles O52: both invariants are kept, each by what the bodies leave at rest. -/
theorem stepKeepsTheCoderAtRest : Obligations.StepKeepsTheCoderAtRest := fun s t h =>
  ⟨fun hs => step_keeps_coder s t hs h, fun hs => step_keeps_channel s t hs h⟩

end Sys2Proof.Machine
end

section
/-! The state after reset (10_state.md R40, R55) and the STATUS register (10_state.md R42). -/

namespace Sys2Proof.Machine

/-- Settles O6: the values stand in the definition of the reset state, and STATUS is assembled from zeros. -/
theorem resetHasTheSpecValues : Obligations.ResetHasTheSpecValues := by
  refine ⟨rfl, rfl, rfl, rfl, rfl, rfl, rfl, rfl, rfl, rfl, rfl, rfl, rfl, rfl, ?_, ?_⟩
  · exact decide_eq_false (by decide)
  · decide

/-- There is no run after reset, so what holds at rest in a run holds of nothing there. -/
theorem State.reset_not_atRest : ¬ State.reset.atRest := fun h => not_hasRun_of_unconf rfl h.1

/-- Settles O50: no run is open, the tree is empty, no fault is recorded. -/
theorem resetMeetsTheInvariants : Obligations.ResetMeetsTheInvariants := by
  have noRun : ¬ State.reset.hasRun := not_hasRun_of_unconf rfl
  refine ⟨.of_atRest State.reset_memory_wf (fun hr => absurd hr noRun) fun hr => absurd hr State.reset_not_atRest,
    fun hr => absurd hr State.reset_not_atRest, ⟨State.reset_memory_wf, ?_, fun hr => absurd hr noRun,
      fun hr => absurd hr State.reset_not_atRest⟩, ?_⟩
  · simp [Config.Params.Legal, State.reset]
  · exact ⟨by simp [State.reset], by simp [State.reset], fun _ => rfl⟩

/-! ### STATUS -/

/-- The fields of a word laid out as STATUS is (R42): each is read back from its bits. -/
theorem statusFields (bbuf hlen : BitVec 8) (bcnt : BitVec 3) (eos valid mode : Bool) (phase : BitVec 2) :
    let w := bbuf ++ hlen ++ (0 : BitVec 4) ++ bcnt.zeroExtend 4 ++ (0 : BitVec 3) ++
      BitVec.ofBool eos ++ BitVec.ofBool valid ++ BitVec.ofBool mode ++ phase
    w.extractLsb' 0 2 = phase ∧ w.getLsbD 2 = mode ∧ w.getLsbD 3 = valid ∧ w.getLsbD 4 = eos ∧
      w.extractLsb' 5 3 = 0 ∧ w.extractLsb' 8 4 = bcnt.zeroExtend 4 ∧ w.extractLsb' 12 4 = 0 ∧
      w.extractLsb' 16 8 = hlen ∧ w.extractLsb' 24 8 = bbuf := by
  refine ⟨?_, ?_, ?_, ?_, ?_, ?_, ?_, ?_, ?_⟩
  case refine_2 | refine_3 | refine_4 =>
    simp only [BitVec.getLsbD_append]
    simp
  -- the parts below the field fall away, then the parts above it
  case refine_9 =>
    repeat rw [BitVec.extractLsb'_append_eq_of_le (by decide)]
    exact BitVec.extractLsb'_eq_self
  all_goals
    repeat rw [BitVec.extractLsb'_append_eq_of_le (by decide)]
    rw [BitVec.extractLsb'_append_eq_of_add_le (by decide)]
    exact BitVec.extractLsb'_eq_self

/-- `CRR` is accepted in every phase and mode (30_encoding.md R90, R241). -/
theorem State.accepts_crr (s : State) : s.accepts .crr = true := by
  unfold State.accepts
  cases s.phase <;> rfl

/-- The kept PHASE bits of a free value read back (R42). -/
theorem phaseBits_of_free (v : BitVec 30) (p : BitVec 2) : ((v ++ p).zeroExtend 64).extractLsb' 0 2 = p := by
  rw [BitVec.zeroExtend_eq_setWidth, BitVec.extractLsb'_setWidth_of_le (by decide),
    BitVec.extractLsb'_append_eq_of_add_le (by decide)]
  exact BitVec.extractLsb'_eq_self

/-- In phase FAULT a `CRR` of STATUS answers a value that is true in PHASE alone (R42, R240). -/
theorem crrStatus_fault {s : State} (hp : s.phase = .fault) :
    ∃ v n, exec (.crr 8) s = .next { s with freeCount := n, responses := s.responses ++ [.ok v] } ∧
      v.extractLsb' 0 2 = 3 := by
  have hb : body (.crr 8) s = .done (.ok (s.lostReg 8)) { s with freeCount := s.freeCount + 1 } :=
    if_pos ⟨hp, by decide⟩
  refine ⟨s.lostReg 8, s.freeCount + 1, exec_done (by decide) s.accepts_crr hb, ?_⟩
  have h3 : s.phase.code = 3 := by rw [hp]; rfl
  rw [← h3]
  exact phaseBits_of_free _ _

/-- Outside phase FAULT a `CRR` of STATUS answers STATUS and changes nothing (45_system_control.md R212). -/
theorem crrStatus_live {s : State} (hp : s.phase ≠ .fault) :
    exec (.crr 8) s = .next (s.respond (.ok (s.status.zeroExtend 64))) :=
  exec_done (by decide) s.accepts_crr (if_neg fun h => hp h.1)

/-- Settles O15, by the fields of the layout and the two reads of `CRR`. -/
theorem statusShowsTheLiveState : Obligations.StatusShowsTheLiveState := by
  intro s hlen
  obtain ⟨hphase, hmode, hvalid, heos, hlow, hcnt, hhigh, hhlen, hbuf⟩ := statusFields s.bbuf (BitVec.ofNat 8 s.hlen)
    s.bcnt s.eos s.codeValid (bitOfMode s.mode) s.phase.code
  refine ⟨hphase.trans ?_, hmode.trans ?_, hvalid, heos, hlow, (congrArg BitVec.toNat hcnt).trans ?_, hhigh,
    (congrArg BitVec.toNat hhlen).trans ?_, hbuf.trans ?_, crrStatus_live, crrStatus_fault⟩
  · cases s.phase <;> rfl
  · cases s.mode <;> rfl
  · rw [State.bcnt, BitVec.zeroExtend_eq_setWidth, BitVec.toNat_setWidth_of_le (by decide)]
    cases s.mode <;> rfl
  · rw [BitVec.toNat_ofNat, Nat.mod_eq_of_lt hlen]
  · rw [State.bbuf]
    cases s.mode <;> rfl

end Sys2Proof.Machine
end

section
/-! The command port (20_memory.md R69) and the commands that only read (20_memory.md R71). -/

namespace Sys2Proof.Machine

/-! ### Taking a word -/

/-- A word presented while no command waits is taken and executed (20_memory.md R69). -/
theorem step_command {s : State} {w : Command} {rest : List HostAction} (hh : s.host = .command w :: rest)
    (hb : s.busy = none) : step s = execWord w { s with host := rest } := by
  simp only [step, hh, hb]

/-- Executing a word that decodes is executing its command (30_encoding.md R86). -/
theorem execWord_ok {w : Command} {i : Instr} (hd : decode w = .ok i) (s : State) : execWord w s = exec i s := by
  simp only [execWord, hd]

/-- Settles O5: the word is taken, and what it decodes to is executed. -/
theorem stepRunsTheDecodedCommand : Obligations.StepRunsTheDecodedCommand := fun _ _ _ _ hd hh hb =>
  (step_command hh hb).trans (execWord_ok hd _)

/-! ### The reading commands -/

/-- A symbol check never waits for a byte port: if the command waits, its further steps do. -/
theorem withSymbol_waiting {sym : SymField} {s u : State} {p : Port} {k : State → Res Response}
    (h : withSymbol sym s k = .stop (.waiting p) u) : k s = .stop (.waiting p) u := by
  unfold withSymbol at h
  split at h
  · cases h
  · exact h

/-- Resolving a designator never waits for a byte port: if the command waits, its work on the table does. -/
theorem withTable_waiting {o : Order} {s u : State} {p : Port} {k : TableRef → State → Res Response}
    (h : withTable o s k = .stop (.waiting p) u) : ∃ t, k t s = .stop (.waiting p) u := by
  unfold withTable at h
  split at h
  · cases h
  · next t _ => exact ⟨t, h⟩

/-- The commands of phase CLOSED call no byte port, so they wait for none. -/
theorem body_query_not_waiting {i : Instr} {s u : State} {p : Port} (hq : acceptsClosed i.opcode = true) :
    body i s ≠ .stop (.waiting p) u := by
  intro h
  cases i <;> simp only [Instr.opcode, acceptsClosed, Bool.false_eq_true] at hq
  case crr r =>
    obtain ⟨v, n, hb⟩ := body_crr r s
    rw [hb] at h
    cases h
  case ftot | cwalk =>
    obtain ⟨t, ht⟩ := withTable_waiting h
    cases ht
  case fget | flow | fhigh =>
    simp only [body] at h
    obtain ⟨t, ht⟩ := withTable_waiting (withSymbol_waiting h)
    cases ht
  case hrd idx =>
    simp only [body] at h
    split at h <;> cases h
  case rcrd => cases h

/-- What phase FAULT accepts completes: it is a `CRR` (60_exceptions.md R241). -/
theorem body_done_of_fault {i : Instr} {s : State} (hp : s.phase = .fault) (ha : s.accepts i.opcode = true) :
    ∃ r u, body i s = .done r u := by
  have hi := State.accepts_fault hp ha
  cases i <;> cases hi
  next r =>
    obtain ⟨v, n, hb⟩ := body_crr r s
    exact ⟨_, _, hb⟩

/-- Settles O58: the commands are those of phase CLOSED; one that keeps the phase is refused or completes, since a raise
in its body would enter phase FAULT anew and no body here waits. -/
theorem readingCommandsChangeNothing : Obligations.ReadingCommandsChangeNothing := by
  intro s t i hi h hp
  have closedAccepts : ∀ op ∈ [Opcode.ftot, .fget, .flow, .fhigh, .cwalk, .hrd, .rcrd, .crr],
      acceptsClosed op = true := by decide
  have hq := closedAccepts _ hi
  obtain ⟨-, rfl⟩ | ⟨hf, c, n, rfl⟩ | ⟨-, ha, rfl⟩ := exec_next h
  · exact ⟨_, s.freeCount, rfl⟩
  · exact absurd hp.symm hf
  obtain ⟨r, u, hb, he⟩ | ⟨c, k, u, hb, he⟩ | ⟨p, u, hb, -⟩ := finishCommand_cases (body i s)
  · obtain ⟨n, hn⟩ := body_query (s := s) hq
    obtain rfl := (final_done hb).symm.trans hn
    exact ⟨r, n, he⟩
  · rw [he] at hp
    obtain ⟨r, v, hd⟩ := body_done_of_fault hp.symm ha
    rw [hb] at hd
    cases hd
  · exact absurd hb (body_query_not_waiting hq)

end Sys2Proof.Machine
end

section
/-! The encoding (30_encoding.md R80 to R86): what it is for a word to decode, and that the decoder and the encoder
undo each other. -/

namespace Sys2Proof

/-! ### What decodes -/

/-- A byte selects an opcode exactly when it is the byte of the opcode's row (R84). -/
theorem Opcode.ofByte_eq_some_iff {b : Byte} {op : Opcode} : Opcode.ofByte b = some op ↔ op.byte = b :=
  ⟨Opcode.byte_of_ofByte b op, fun h => h ▸ Opcode.ofByte_byte op⟩

/-- No two rows of R84 have the same opcode byte. -/
theorem Opcode.byte_inj {op op' : Opcode} (h : op.byte = op'.byte) : op = op' := by
  have e := Opcode.ofByte_byte op
  rw [h, Opcode.ofByte_byte] at e
  exact (Option.some.inj e).symm

/-- A word decodes to a command exactly when it has the opcode byte and the fixed bits of a row, its fields are the
command's operands, and the command is legal (R86). -/
theorem decode_eq_ok_iff {w : Command} {i : Instr} : decode w = .ok i ↔
    ∃ op : Opcode, op.byte = opcodeField w ∧ op.fits w = true ∧ op.build w = i ∧ i.wellFormed = true := by
  constructor
  · intro h
    unfold decode at h
    split at h
    · cases h
    next op hop =>
      split_ifs at h with hf hw
      cases h
      exact ⟨op, Opcode.byte_of_ofByte _ _ hop, hf, rfl, hw⟩
  · rintro ⟨op, hb, hf, rfl, hw⟩
    simp only [decode, Opcode.ofByte_eq_some_iff.mpr hb, hf, hw, if_true]

/-! ### Decoding an encoded command -/

/-- The word of every command has the opcode byte and the fixed bits of its row (R81, R84). -/
theorem encode_fits : ∀ i : Instr, Laws.OpcodeFits.Statement i
  | .crw r v      => Laws.OpcodeFits.crw r v
  | .crr r        => Laws.OpcodeFits.crr r
  | .start m      => Laws.OpcodeFits.start m
  | .brd          => Laws.OpcodeFits.brd
  | .bwr b        => Laws.OpcodeFits.bwr b
  | .bclose       => Laws.OpcodeFits.bclose
  | .ftot o       => Laws.OpcodeFits.ftot o
  | .fget o sym   => Laws.OpcodeFits.fget o sym
  | .flow o sym   => Laws.OpcodeFits.flow o sym
  | .fhigh o sym  => Laws.OpcodeFits.fhigh o sym
  | .finc o sym   => Laws.OpcodeFits.finc o sym
  | .fset o sym c => Laws.OpcodeFits.fset o sym c
  | .cwalk o      => Laws.OpcodeFits.cwalk o
  | .cinc sym     => Laws.OpcodeFits.cinc sym
  | .hpush sym    => Laws.OpcodeFits.hpush sym
  | .hrd idx      => Laws.OpcodeFits.hrd idx
  | .narrow o sym => Laws.OpcodeFits.narrow o sym
  | .finish       => Laws.OpcodeFits.finish
  | .dinit        => Laws.OpcodeFits.dinit
  | .decode o     => Laws.OpcodeFits.decode o
  | .rcrd r       => Laws.OpcodeFits.rcrd r
  | .encsym sym   => Laws.OpcodeFits.encsym sym
  | .decsym       => Laws.OpcodeFits.decsym

/-- The fields of a command's word hold its operands (R80, R84). -/
theorem build_encode (i : Instr) : i.opcode.build (encode i) = i := by
  cases i
  case start | bwr =>
    simp only [Instr.opcode, encode, Opcode.build, immBit_packWord, immOfBit_getLsbD, modeOfBit_bitOfMode]
  all_goals simp only [Instr.opcode, encode, Opcode.build, ordField_packWord, symField_packWord, immField_packWord]

/-- Settles O2: the word has the fixed bits of the command's row, and its fields hold the operands. -/
theorem decodeEncodeRoundTrip : Obligations.DecodeEncodeRoundTrip := by
  intro i hw
  obtain ⟨hop, hfits⟩ := encode_fits i
  exact decode_eq_ok_iff.mpr ⟨i.opcode, hop.symm, hfits, build_encode i, hw⟩

/-! ### Encoding a decoded word -/

/-- A field all of whose bits a format fixes is zero. -/
theorem eq_zero_of_fixed {n : Nat} {x : BitVec n} (h : x &&& BitVec.allOnes n = 0) : x = 0 :=
  BitVec.and_allOnes.symm.trans h

/-- The command a fitting word's fields make has that word as its encoding: the fields the format does not use are
zero, and the others are the operands (R81, R86). -/
theorem encode_build_packWord {op : Opcode} {a : Byte} {b : Order} {c : SymField} {d : Word}
    (h : op.fits (packWord a b c d) = true) : encode (op.build (packWord a b c d)) = packWord a b c d := by
  obtain ⟨rfl, hb, hc, hd⟩ := (Opcode.fits_packWord op a b c d).mp h
  cases op
  case crw =>
    cases eq_zero_of_fixed hb
    simp only [Opcode.build, encode, Instr.opcode, symField_packWord, immField_packWord]
  case start | bwr =>
    cases eq_zero_of_fixed hb
    cases eq_zero_of_fixed hc
    simp only [Opcode.build, encode, Instr.opcode, immBit_packWord, bitOfMode_modeOfBit, immOfBit_of_fixed d hd]
  case brd | bclose | finish | dinit | decsym =>
    cases eq_zero_of_fixed hb
    cases eq_zero_of_fixed hc
    cases eq_zero_of_fixed hd
    rfl
  case crr | cinc | hpush | hrd | rcrd | encsym =>
    cases eq_zero_of_fixed hb
    cases eq_zero_of_fixed hd
    simp only [Opcode.build, encode, Instr.opcode, symField_packWord]
  case ftot | cwalk | decode =>
    cases eq_zero_of_fixed hc
    cases eq_zero_of_fixed hd
    simp only [Opcode.build, encode, Instr.opcode, ordField_packWord]
  case fget | flow | fhigh | finc | narrow =>
    cases eq_zero_of_fixed hd
    simp only [Opcode.build, encode, Instr.opcode, ordField_packWord, symField_packWord]
  case fset =>
    simp only [Opcode.build, encode, Instr.opcode, ordField_packWord, symField_packWord, immField_packWord]

/-- The same of any word, which is the packing of its fields. -/
theorem encode_build {op : Opcode} {w : Command} (h : op.fits w = true) : encode (op.build w) = w := by
  rw [← packWord_fields w] at h ⊢
  exact encode_build_packWord h

/-- Settles O3: a word that decodes fits its row, so it is the encoding of the command its fields make. -/
theorem decodedWordIsItsEncoding : Obligations.DecodedWordIsItsEncoding := by
  intro w i h
  obtain ⟨op, -, hfits, rfl, hw⟩ := decode_eq_ok_iff.mp h
  exact ⟨encode_build hfits, hw⟩

/-! ### Illegal words -/

/-- A word that is illegal in one of the three ways of R85 and R86 does not decode. -/
theorem decode_ne_ok_of_illegal {w : Command}
    (h : (∀ op ∈ Opcode.all, op.byte ≠ opcodeField w) ∨
      ∃ op ∈ Opcode.all, op.byte = opcodeField w ∧
        (w &&& op.format.mask ≠ op.byte.zeroExtend 64 <<< 56 ∨ (op.build w).wellFormed = false)) (i : Instr) :
    decode w ≠ .ok i := by
  intro hd
  obtain ⟨op, hop, hfits, rfl, hw⟩ := decode_eq_ok_iff.mp hd
  obtain hnone | ⟨op', -, hop', hbad⟩ := h
  · exact hnone op op.mem_all hop
  obtain rfl := Opcode.byte_inj (hop'.trans hop.symm)
  obtain hbit | hoperand := hbad
  · exact hbit (beq_iff_eq.mp hfits)
  · rw [hw] at hoperand
    cases hoperand

namespace Machine

/-- Outside phase FAULT a word that does not decode raises E_ILLEGAL with its opcode byte (R85, R86). -/
theorem execWord_illegal {w : Command} {s : State} (hd : ∀ i, decode w ≠ .ok i) (hp : s.phase ≠ .fault) :
    execWord w s = .next (s.raise .illegal (opcodeField w).toNat) := by
  cases h : decode w with
  | ok i => exact absurd h (hd i)
  | error e => simp only [execWord, h, illegalWord, if_neg hp]

/-- Settles O4: the block takes the word, and it does not decode. -/
theorem illegalWordsRaiseIllegal : Obligations.IllegalWordsRaiseIllegal := fun s _ rest hh hb hp hill =>
  (step_command hh hb).trans (execWord_illegal (s := { s with host := rest }) (decode_ne_ok_of_illegal hill) hp)

end Machine

/-- Settles O1: the decoder is run on the thirteen words. -/
theorem sampleWordsDecode : Obligations.SampleWordsDecode := by
  refine ⟨?_, ?_, ?_, ?_, ?_, ?_, ?_, ?_, ?_, ?_, ?_, ?_, ?_⟩ <;> decide

end Sys2Proof
end

section
/-! The acceptance table (30_encoding.md R90) and what every command answers (30_encoding.md R88; 20_memory.md R67,
R68). -/

namespace Sys2Proof.Machine

/-! ### The acceptance table -/

theorem acceptsUnconf_iff (op : Opcode) : acceptsUnconf op = true ↔ op ∈ [.crw, .crr, .start] := by
  cases op <;> decide

theorem acceptsRun_iff (op : Opcode) : acceptsRun op = true ↔
    op ∈ [.crr, .bclose, .ftot, .fget, .flow, .fhigh, .finc, .fset, .cwalk, .cinc, .hpush, .hrd, .rcrd] := by
  cases op <;> decide

theorem acceptsEnc_iff (op : Opcode) : acceptsEnc op = true ↔ op ∈ [.bwr, .narrow, .finish, .encsym] := by
  cases op <;> decide

theorem acceptsDec_iff (codeValid : Bool) (op : Opcode) : acceptsDec codeValid op = true ↔
    op = .brd ∨ (op = .dinit ∧ codeValid = false) ∨ (op ∈ [.decode, .decsym] ∧ codeValid = true) := by
  cases codeValid <;> cases op <;> decide

theorem acceptsClosed_iff (op : Opcode) : acceptsClosed op = true ↔
    op ∈ [.crr, .ftot, .fget, .flow, .fhigh, .cwalk, .hrd, .rcrd] := by
  cases op <;> decide

/-- Outside phase FAULT the block accepts what the rows of the table name (R90). -/
theorem State.accepts_iff {s : State} (hp : s.phase ≠ .fault) (op : Opcode) :
    s.accepts op = true ↔ s.InAcceptanceTable op := by
  unfold State.accepts State.InAcceptanceTable
  cases hphase : s.phase with
  | unconf => simp only [acceptsUnconf_iff, reduceCtorEq, true_and, false_and, or_false]
  | run =>
    cases hmode : s.mode <;>
      simp only [Bool.or_eq_true, acceptsRun_iff, acceptsEnc_iff, acceptsDec_iff, reduceCtorEq, true_and, false_and,
        false_or, or_false]
  | closed => simp only [acceptsClosed_iff, reduceCtorEq, true_and, false_and, false_or]
  | fault => exact absurd hphase hp

/-- No other cause of R231 has the code of E_SEQUENCE. -/
theorem Cause.eq_sequence_of_code {c : Cause} (h : c.code = Cause.sequence.code) : c = .sequence := by
  revert h
  cases c <;> decide

/-- An accepted command that ends in phase FAULT, begun outside it, was raised by a cause other than E_SEQUENCE. -/
theorem finishCommand_not_sequence {i : Instr} {s : State} (hp : s.phase ≠ .fault) (ha : s.accepts i.opcode = true)
    (ht : (finishCommand (body i s)).phase = .fault) :
    (finishCommand (body i s)).faultCause ≠ Cause.sequence.code := by
  have hf := body_frame ha
  obtain ⟨r, u, hb, he⟩ | ⟨c, n, u, hb, he⟩ | ⟨p, u, hb, he⟩ := finishCommand_cases (body i s) <;>
    rw [he] at ht ⊢ <;> rw [hb] at hf
  · exact absurd (hf.fault_iff.mp ht) hp
  · intro hc
    obtain rfl := Cause.eq_sequence_of_code hc
    exact body_inSequence i s n u hb
  · exact absurd (hf.fault_iff.mp ht) hp

/-- Settles O10: the checks before the body are the table's, and no body raises E_SEQUENCE. -/
theorem acceptanceByPhaseAndMode : Obligations.AcceptanceByPhaseAndMode := by
  intro s i hw
  refine ⟨fun hp hout => ?_, fun hp hin => ?_, fun hp hcrr => ?_⟩
  · rw [← State.accepts_iff hp, Bool.not_eq_true] at hout
    rw [exec_eq, runCommand_sequence hp hw hout]
    rfl
  · have ha := (State.accepts_iff hp _).mpr hin
    exact ⟨_, exec_accepted hw ha, finishCommand_not_sequence hp ha⟩
  · rw [exec_eq, runCommand_refused hp (.inl hcrr)]
    rfl

/-! ### One response, and the calls of the mode's port -/

/-- From `s` to `u` the calls of the mode's byte port are added, and those in phase RUN only (20_memory.md R67, R68). -/
def PortCalls (s u : State) : Prop :=
  ∃ l, u.calls = s.calls ++ l ∧ ∀ c ∈ l, s.phase = .run ∧
    (s.mode = .enc → (∃ x a, c = .outByte x a) ∨ c = .outClose) ∧
    (s.mode = .dec → (∃ a, c = .inByte a) ∨ c = .inClose)

theorem PortCalls.of_calls_eq {s u : State} (h : u.calls = s.calls) : PortCalls s u :=
  ⟨[], by rw [h, List.append_nil], by simp⟩

/-- Work inside a run calls the mode's port. -/
theorem Runs.portCalls {s u : State} (h : Runs s u) (hp : s.phase = .run) : PortCalls s u := by
  obtain ⟨l, hl, hc⟩ := h.calls
  exact ⟨l, hl, fun c hm => ⟨hp, fun he => .inl ((hc c hm).1 he), fun hd => .inl ((hc c hm).2 hd)⟩⟩

/-- Closing the stream of the mode is one more call of its port (40_bit_channel.md R105). -/
theorem PortCalls.close {s u v : State} {c : PortCall} (h : PortCalls s u) (hp : s.phase = .run)
    (henc : s.mode = .enc → c = .outClose) (hdec : s.mode = .dec → c = .inClose) (hv : v.calls = u.calls ++ [c]) :
    PortCalls s v := by
  obtain ⟨l, hl, hport⟩ := h
  refine ⟨l ++ [c], by rw [hv, hl, List.append_assoc], fun d hd => ?_⟩
  obtain hd | hd := List.mem_append.mp hd
  · exact hport d hd
  · obtain rfl := List.mem_singleton.mp hd
    exact ⟨hp, fun hm => .inr (henc hm), fun hm => .inr (hdec hm)⟩

/-- The calls of a command's body, wherever it ends. -/
theorem body_portCalls {i : Instr} {s : State} (ha : s.accepts i.opcode = true) : PortCalls s (body i s).final := by
  cases hi : worksInRun i.opcode with
  | true =>
    by_cases hp : s.phase = .run
    · exact (body_runs ha hi).portCalls hp
    · exact .of_calls_eq (by rw [body_quiet ha hi hp])
  | false =>
    obtain ⟨r, v, rfl⟩ | ⟨r, rfl⟩ | ⟨m, rfl⟩ | rfl := worksInRun_false hi
    · refine .of_calls_eq ?_
      simp only [body, Res.final_done, State.setConfig]
      split_ifs <;> rfl
    · obtain ⟨v, n, hb⟩ := body_crr r s
      rw [hb]
      exact .of_calls_eq rfl
    · simp only [body]
      split <;> exact .of_calls_eq rfl
    · have hp := State.accepts_bclose ha
      obtain ⟨u, hm, hw, hb⟩ | ⟨hm, hb⟩ | ⟨w, u, hm, hw, hb⟩ := body_bclose s <;> rw [hb]
      · exact ((hw.encodes.runs hm).portCalls hp).close hp (fun _ => rfl) (fun hd => nomatch hm.symm.trans hd) rfl
      · exact (PortCalls.of_calls_eq (u := s) rfl).close hp (fun he => nomatch hm.symm.trans he) (fun _ => rfl) rfl
      · exact (hw.encodes.runs hm).portCalls hp

/-- From `s` to `t` a command gave one response, or waits for a byte port and gave none (R88; 20_memory.md R67). -/
def AnswersOnce (s t : State) : Prop :=
  (t.busy = none ∧ ∃ r, t.responses = s.responses ++ [r]) ∨ (t.busy ≠ none ∧ t.responses = s.responses)

/-- A body that gives no response and waits for nothing is finished by one response or the wait, and no calls. -/
theorem finishCommand_answersOnce {s : State} {r : Res Response} (hb : r.final.busy = none)
    (hr : r.final.responses = s.responses) :
    AnswersOnce s (finishCommand r) ∧ (finishCommand r).calls = r.final.calls := by
  obtain ⟨a, u, rfl, he⟩ | ⟨c, n, u, rfl, he⟩ | ⟨p, u, rfl, he⟩ := finishCommand_cases r <;> rw [he]
  · exact ⟨.inl ⟨hb, a, congrArg (· ++ [a]) hr⟩, rfl⟩
  · exact ⟨.inl ⟨hb, _, congrArg (· ++ [_]) hr⟩, rfl⟩
  · exact ⟨.inr ⟨nofun, hr⟩, rfl⟩

/-- A command issued while none waits answers once, and calls its mode's port. -/
theorem exec_answersOnce {s : State} (i : Instr) (hb : s.busy = none) :
    ∃ t, exec i s = .next t ∧ AnswersOnce s t ∧ PortCalls s t := by
  obtain ⟨-, he⟩ | ⟨-, c, n, he⟩ | ⟨-, ha, he⟩ := exec_cases i s
  · exact ⟨_, he, .inl ⟨hb, _, rfl⟩, .of_calls_eq rfl⟩
  · exact ⟨_, he, .inl ⟨hb, _, rfl⟩, .of_calls_eq rfl⟩
  · have hf := body_frame ha
    obtain ⟨hans, hcalls⟩ := finishCommand_answersOnce (hf.busy.trans hb) hf.responses
    obtain ⟨l, hl, hport⟩ := body_portCalls ha
    exact ⟨_, he, hans, l, hcalls.trans hl, hport⟩

/-- Settles O59: only a command's body calls a byte port, and finishing it gives the response or the wait. -/
theorem oneResponsePerCommand : Obligations.OneResponsePerCommand := by
  intro s i hb
  obtain ⟨t, he, hans, l, hl, hport⟩ := exec_answersOnce i hb
  exact ⟨t, l, he, hl, hans, hport⟩

end Sys2Proof.Machine
end

section
/-! The bit channel (40_bit_channel.md): what `BWR`, `BRD` and `BCLOSE` do for each answer of their byte port, and the
bit-to-byte laws of writing and reading. -/

namespace Sys2Proof.Machine

/-! ### A byte port's calls, answer by answer (20_memory.md R67, R68) -/

/-- The state once the sink has given the answer `a` to the byte `b`. -/
def State.handed (s : State) (b : Byte) (a : OutAnswer) : State :=
  { s with sink := s.sink.tail, calls := s.calls ++ [.outByte b a] }

/-- The state once the source has given the answer `a`. -/
def State.asked (s : State) (a : InAnswer) : State :=
  { s with input := s.input.tail, calls := s.calls ++ [.inByte a] }

theorem outByte_ok {s : State} (b : Byte) (h : s.sink.headD .ok = .ok) : outByte b s = .done () (s.handed b .ok) := by
  simp only [outByte, h, State.handed]

theorem outByte_stop {s : State} {a : OutAnswer} (b : Byte) (h : s.sink.headD .ok = a) (ha : a ≠ .ok) :
    outByte b s = .stop a.stop (s.handed b a) := by
  cases a with
  | ok => exact absurd rfl ha
  | err => simp only [outByte, h, State.handed, OutAnswer.stop]
  | never => simp only [outByte, h, State.handed, OutAnswer.stop]

theorem inByte_byte {s : State} {b : Byte} (h : s.input.headD .eos = .byte b) :
    inByte s = .done (some b) (s.asked (.byte b)) := by
  simp only [inByte, h, State.asked]

theorem inByte_eos {s : State} (h : s.input.headD .eos = .eos) : inByte s = .done none (s.asked .eos) := by
  simp only [inByte, h, State.asked]

theorem inByte_stop {s : State} {a : InAnswer} (h : s.input.headD .eos = a) (hb : ∀ b, a ≠ .byte b) (he : a ≠ .eos) :
    inByte s = .stop a.stop (s.asked a) := by
  cases a with
  | byte b => exact absurd rfl (hb b)
  | eos => exact absurd rfl he
  | err => simp only [inByte, h, State.asked, InAnswer.stop]
  | never => simp only [inByte, h, State.asked, InAnswer.stop]

/-! ### The primitives, case by case (R101, R102, R105) -/

/-- `WriteBit` on a buffer with room. -/
theorem writeBit_room {s : State} (b : Bool) (h : s.wcnt.toNat < 7) :
    writeBit b s = .done () { s with wbuf := BitVec.ofNat 8 (2 * s.wbuf.toNat + b.toNat), wcnt := s.wcnt + 1 } := by
  have hn : BitVec.ofNat 3 (s.wcnt.toNat + 1) = s.wcnt + 1 := by
    apply BitVec.eq_of_toNat_eq
    simp
  rw [writeBit_eq, if_neg (by omega), hn, Nat.mul_comm]

/-- `WriteBit` of the eighth bit. -/
theorem writeBit_eighth {s : State} (b : Bool) (h : s.wcnt = 7) :
    writeBit b s = (outByte (BitVec.ofNat 8 (2 * s.wbuf.toNat + b.toNat)) s).andThen
      fun _ u => .done () { u with wbuf := 0, wcnt := 0 } := by
  have h7 : s.wcnt.toNat + 1 = 8 := by rw [h]; rfl
  simp only [writeBit, h7, if_true, Nat.mul_comm 2]

theorem flushBits_empty {s : State} (h : s.wcnt = 0) : flushBits s = .done () s := by
  rw [flushBits, if_neg (by rw [h]; decide)]

theorem flushBits_partial {s : State} (h : s.wcnt ≠ 0) :
    flushBits s = (outByte (s.wbuf <<< (8 - s.wcnt.toNat)) s).andThen
      fun _ u => .done () { u with wbuf := 0, wcnt := 0 } := by
  have hpos : 0 < s.wcnt.toNat := BitVec.toNat_pos_of_ne_zero h
  have hbyte : BitVec.ofNat 8 (s.wbuf.toNat * 2 ^ (8 - s.wcnt.toNat)) = s.wbuf <<< (8 - s.wcnt.toNat) := by
    apply BitVec.eq_of_toNat_eq
    rw [BitVec.toNat_ofNat, BitVec.toNat_shiftLeft, Nat.shiftLeft_eq]
  rw [flushBits, if_pos hpos, hbyte]

/-- `ReadBit` of a buffered bit. -/
theorem readBit_buffered {s : State} (h : 0 < s.rcnt.toNat) :
    readBit s = .done (some (s.rbuf.getLsbD (s.rcnt.toNat - 1))) { s with rcnt := s.rcnt - 1 } := by
  have h0 : s.rcnt ≠ 0 := fun e => by rw [e] at h; exact absurd h (by decide)
  have hn : BitVec.ofNat 3 (s.rcnt.toNat - 1) = s.rcnt - 1 := by
    have hlt := s.rcnt.isLt
    have h1 : (1 : BitVec 3).toNat = 1 := rfl
    apply BitVec.eq_of_toNat_eq
    rw [BitVec.toNat_ofNat, BitVec.toNat_sub, h1]
    omega
  simp only [readBit, if_neg h0, hn]

theorem readBit_ended {s : State} (h : s.rcnt = 0) (he : s.eos = true) : readBit s = .done none s := by
  simp only [readBit, h, he, if_true]

/-- `ReadBit` that takes a byte. -/
theorem readBit_byte {s : State} {b : Byte} (h : s.rcnt = 0) (he : s.eos = false) (hb : s.input.headD .eos = .byte b) :
    readBit s = .done (some (b.getLsbD 7)) { s.asked (.byte b) with rbuf := b, rcnt := 7 } := by
  simp only [readBit, h, he, inByte_byte hb, if_true, Bool.false_eq_true, if_false, Res.done_andThen]

/-- `ReadBit` that finds the end of the source. -/
theorem readBit_eos {s : State} (h : s.rcnt = 0) (he : s.eos = false) (hb : s.input.headD .eos = .eos) :
    readBit s = .done none { s.asked .eos with eos := true } := by
  simp only [readBit, h, he, inByte_eos hb, if_true, Bool.false_eq_true, if_false, Res.done_andThen]

/-- `ReadBit` of a source that fails or does not answer. -/
theorem readBit_stop {s : State} {a : InAnswer} (h : s.rcnt = 0) (he : s.eos = false) (ha : s.input.headD .eos = a)
    (hbyte : ∀ b, a ≠ .byte b) (heos : a ≠ .eos) : readBit s = .stop a.stop (s.asked a) := by
  simp only [readBit, h, he, inByte_stop ha hbyte heos, if_true, Bool.false_eq_true, if_false, Res.stop_andThen]

/-! ### The commands and how they end (R103 to R105) -/

theorem State.accepts_bwr {s : State} (hp : s.phase = .run) (hm : s.mode = .enc) : s.accepts .bwr = true := by
  simp only [State.accepts, hp, hm, acceptsEnc, Bool.or_true]

theorem State.accepts_brd {s : State} (hp : s.phase = .run) (hm : s.mode = .dec) : s.accepts .brd = true := by
  simp only [State.accepts, hp, hm, acceptsDec, Bool.or_true]

theorem State.accepts_bclose_of_run {s : State} (hp : s.phase = .run) : s.accepts .bclose = true := by
  simp only [State.accepts, hp, acceptsRun, Bool.true_or]

/-- What `BRD` answers for a bit, or for "no more bits" (R103). -/
def brdValue : Option Bool → Nat
  | some b => b.toNat
  | none => 2

theorem body_bwr_done {s u : State} {b : Bool} (h : writeBit b s = .done () u) :
    body (.bwr b) s = .done (.okNat 0) u := by
  simp only [body, h, Res.done_andThen]

theorem body_bwr_stop {s u : State} {b : Bool} {w : Stop} (h : writeBit b s = .stop w u) :
    body (.bwr b) s = .stop w u := by
  simp only [body, h, Res.stop_andThen]

theorem body_brd_done {s u : State} {r : Option Bool} (h : readBit s = .done r u) :
    body .brd s = .done (.okNat (brdValue r)) u := by
  simp only [body, h, Res.done_andThen]
  cases r <;> rfl

theorem body_brd_stop {s u : State} {w : Stop} (h : readBit s = .stop w u) : body .brd s = .stop w u := by
  simp only [body, h, Res.stop_andThen]

theorem body_bclose_enc_done {s u : State} (hm : s.mode = .enc) (h : flushBits s = .done () u) :
    body .bclose s = .done (.okNat 0) { u with phase := .closed, calls := u.calls ++ [.outClose] } := by
  simp only [body, closeStream, hm, h, Res.done_andThen, outClose]

theorem body_bclose_enc_stop {s u : State} {w : Stop} (hm : s.mode = .enc) (h : flushBits s = .stop w u) :
    body .bclose s = .stop w u := by
  simp only [body, closeStream, hm, h, Res.stop_andThen]

theorem body_bclose_dec {s : State} (hm : s.mode = .dec) :
    body .bclose s = .done (.okNat 0) { s with phase := .closed, calls := s.calls ++ [.inClose] } := by
  simp only [body, closeStream, hm, Res.done_andThen, inClose]

/-- A command whose body waits for a byte port is held (20_memory.md R67). -/
theorem exec_waiting {i : Instr} {s u : State} {p : Port} (h : i.wellFormed = true) (ha : s.accepts i.opcode = true)
    (hb : body i s = .stop (.waiting p) u) : exec i s = .next { u with busy := some p } := by
  rw [exec_accepted h ha, hb]
  rfl

/-- Settles O17, by the room in `wbuf` and the sink's answer. -/
theorem bwrWritesOneBit : Obligations.BwrWritesOneBit := by
  intro s b hp hm byte handed
  have ha := State.accepts_bwr hp hm
  have hstop : ∀ a, s.wcnt = 7 → s.sink.headD .ok = a → a ≠ .ok →
      body (.bwr b) s = .stop a.stop (handed a) := fun a h7 hans hne =>
    body_bwr_stop (by rw [writeBit_eighth b h7, outByte_stop _ hans hne]; rfl)
  refine ⟨fun hroom => ?_, fun h7 hok => ?_, fun h7 herr => ?_, fun h7 hnever => ?_⟩
  · exact exec_done rfl ha (body_bwr_done (writeBit_room b hroom))
  · exact exec_done rfl ha (body_bwr_done (by rw [writeBit_eighth b h7, outByte_ok _ hok]; rfl))
  · exact exec_raised rfl ha (hstop .err h7 herr nofun)
  · exact exec_waiting rfl ha (hstop .never h7 hnever nofun)

/-- Settles O18, by what the reader holds and the source's answer. -/
theorem brdReadsOneBit : Obligations.BrdReadsOneBit := by
  intro s hp hm asked
  have ha := State.accepts_brd hp hm
  have hstop : ∀ a, s.rcnt = 0 → s.eos = false → s.input.headD .eos = a → (∀ b, a ≠ .byte b) → a ≠ .eos →
      body .brd s = .stop a.stop (asked a) := fun a h0 he hans hbyte heos =>
    body_brd_stop (readBit_stop h0 he hans hbyte heos)
  refine ⟨fun hpos => ?_, fun h0 he => ?_, fun b h0 he hbyte => ?_, fun h0 he heos => ?_, fun h0 he herr => ?_,
    fun h0 he hnever => ?_⟩
  · exact exec_done rfl ha (body_brd_done (readBit_buffered hpos))
  · exact exec_done rfl ha (body_brd_done (readBit_ended h0 he))
  · exact exec_done rfl ha (body_brd_done (readBit_byte h0 he hbyte))
  · exact exec_done rfl ha (body_brd_done (readBit_eos h0 he heos))
  · exact exec_raised rfl ha (hstop .err h0 he herr nofun nofun)
  · exact exec_waiting rfl ha (hstop .never h0 he hnever nofun nofun)

/-- Settles O19, by the mode, the bits in `wbuf` and the sink's answer. -/
theorem bcloseFlushesAndCloses : Obligations.BcloseFlushesAndCloses := by
  intro s hp byte handed
  have ha := State.accepts_bclose_of_run hp
  have hstop : ∀ a, s.mode = .enc → s.wcnt ≠ 0 → s.sink.headD .ok = a → a ≠ .ok →
      body .bclose s = .stop a.stop (handed a) := fun a hm h0 hans hne =>
    body_bclose_enc_stop hm (by rw [flushBits_partial h0, outByte_stop _ hans hne]; rfl)
  refine ⟨fun hm h0 => ?_, fun hm h0 hok => ?_, fun hm h0 herr => ?_, fun hm h0 hnever => ?_, fun hm => ?_⟩
  · exact exec_done rfl ha (body_bclose_enc_done hm (flushBits_empty h0))
  · have hflush : flushBits s = .done () { s.handed byte .ok with wbuf := 0, wcnt := 0 } := by
      rw [flushBits_partial h0, outByte_ok _ hok]
      rfl
    have hcalls : (s.handed byte .ok).calls ++ [.outClose] = s.calls ++ [.outByte byte .ok, .outClose] :=
      List.append_assoc ..
    rw [exec_done rfl ha (body_bclose_enc_done hm hflush), hcalls]
    rfl
  · exact exec_raised rfl ha (hstop .err hm h0 herr nofun)
  · exact exec_waiting rfl ha (hstop .never hm h0 hnever nofun)
  · exact exec_done rfl ha (body_bclose_dec hm)

/-! ### Packing bits (R106) -/

theorem length_packBits (bits : List Bool) : (packBits bits).length = (bits.length + 7) / 8 := by
  simp only [packBits, List.length_map, List.length_range]

theorem State.length_bytesDue (s : State) (bits : List Bool) :
    (s.bytesDue bits).length = (s.wcnt.toNat + bits.length) / 8 := by
  rw [State.bytesDue, length_packBits, List.length_take, List.length_append, s.length_buffered]
  omega

/-- Zeros that complete the last byte change nothing. -/
theorem packBits_padded {bits : List Bool} {k : Nat} (h : (bits.length + k + 7) / 8 = (bits.length + 7) / 8) :
    packBits (bits ++ List.replicate k false) = packBits bits := by
  have hget : ∀ i, (bits ++ List.replicate k false).getD i false = bits.getD i false := fun i => by
    rcases Nat.lt_or_ge i bits.length with hi | hi
    · rw [List.getD_append _ _ _ _ hi]
    · rw [List.getD_append_right _ _ _ _ hi, List.getD_eq_default _ _ hi,
        List.getD_eq_getElem?_getD, List.getElem?_getD_replicate_default_eq]
  simp only [packBits, hget, List.length_append, List.length_replicate, h]

/-- The byte that `BCLOSE` flushes has the buffered bits, then zeros (R105). -/
theorem State.bitsOfByte_flush (s : State) :
    bitsOfByte (s.wbuf <<< (8 - s.wcnt.toNat)) = s.buffered ++ List.replicate (8 - s.wcnt.toNat) false := by
  have hlt := s.wcnt.isLt
  refine List.ext_getElem ?_ fun i h1 h2 => ?_
  · rw [length_bitsOfByte, List.length_append, s.length_buffered, List.length_replicate]
    omega
  rw [length_bitsOfByte] at h1
  have hbyte : (bitsOfByte (s.wbuf <<< (8 - s.wcnt.toNat)))[i] =
      (decide (i < s.wcnt.toNat) && s.wbuf.getLsbD (s.wcnt.toNat - 1 - i)) := by
    have hin : (decide (7 - i < 8) && !decide (7 - i < 8 - s.wcnt.toNat)) = decide (i < s.wcnt.toNat) := by
      rw [Bool.eq_iff_iff]
      simp only [Bool.and_eq_true, Bool.not_eq_true', decide_eq_true_eq, decide_eq_false_iff_not]
      omega
    have hat : 7 - i - (8 - s.wcnt.toNat) = s.wcnt.toNat - 1 - i := by omega
    simp only [bitsOfByte, List.getElem_map, List.getElem_range, BitVec.getLsbD_shiftLeft, hin, hat]
  refine hbyte.trans ?_
  rcases Nat.lt_or_ge i s.wcnt.toNat with hi | hi
  · rw [List.getElem_append_left (by rwa [s.length_buffered])]
    simp only [State.buffered, List.getElem_map, List.getElem_range, hi, decide_true, Bool.true_and]
  · rw [List.getElem_append_right (by rwa [s.length_buffered]), List.getElem_replicate,
      decide_eq_false (Nat.not_lt.mpr hi), Bool.false_and]

/-- The buffered bits pack into the byte that `BCLOSE` flushes (R105). -/
theorem State.packBits_buffered {s : State} (h : s.wcnt ≠ 0) :
    packBits s.buffered = [s.wbuf <<< (8 - s.wcnt.toNat)] := by
  have hpos : 0 < s.wcnt.toNat := BitVec.toNat_pos_of_ne_zero h
  have hlt := s.wcnt.isLt
  have hpad := packBits_padded (bits := s.buffered) (k := 8 - s.wcnt.toNat) (by rw [s.length_buffered]; omega)
  rw [← hpad, ← s.bitsOfByte_flush]
  exact (congrArg packBits (List.append_nil _).symm).trans (packBits_byte _ [])

/-- The bytes in the sink and the byte that completes the buffered bits are all the bits packed (R106). -/
theorem State.packBits_bitStream (s : State) : packBits s.bitStream = s.out ++ packBits s.buffered :=
  packBits_bytes s.out s.buffered

/-! ### Runs of commands (60_exceptions.md R249) -/

theorem runCommands_cons {i : Instr} {rest : List Instr} {s t : State} (hb : s.busy = none) (h : exec i s = .next t) :
    runCommands (i :: rest) s = runCommands rest t := by
  simp only [runCommands, hb, if_true, h]

theorem runCommands_singleton {i : Instr} {s t : State} (hb : s.busy = none) (h : exec i s = .next t) :
    runCommands [i] s = t :=
  runCommands_cons hb h

/-! ### The bit-to-byte law of writing (R106) -/

/-- An encoder run in which no command waits and whose sink takes the bytes that the buffered bits and `n` more fill, the
last one completed. -/
structure State.CanWrite (s : State) (n : Nat) : Prop where
  phase : s.phase = .run
  mode  : s.mode = .enc
  busy  : s.busy = none
  takes : s.sinkTakes ((s.wcnt.toNat + n + 7) / 8)

/-- What a sink takes after it took some bytes. -/
theorem State.sinkTakes.drop {s u : State} {m n k : Nat} (h : s.sinkTakes n) (hu : u.sink = s.sink.drop m)
    (hk : m + k ≤ n) : u.sinkTakes k := fun i hi => by
  rw [hu, List.getD_eq_getElem?_getD, List.getElem?_drop, ← List.getD_eq_getElem?_getD]
  exact h (m + i) (by omega)

/-- The next answer of a sink that takes a byte. -/
theorem State.sinkTakes.headD {s : State} {n : Nat} (h : s.sinkTakes n) (hn : 0 < n) : s.sink.headD .ok = .ok := by
  have h0 := h 0 hn
  cases hs : s.sink with
  | nil => rfl
  | cons a l => rwa [hs] at h0

/-- `BWR` adds its bit to the stream and leaves the bits that follow their room (R101, R104). -/
theorem exec_bwr_of_canWrite {s : State} {n : Nat} (b : Bool) (h : s.CanWrite (n + 1)) :
    ∃ t, exec (.bwr b) s = .next t ∧ t.CanWrite n ∧ t.bitStream = s.bitStream ++ [b] := by
  obtain ⟨hp, hm, hb, ht⟩ := h
  have hdue : (s.bytesDue [b]).length = (s.wcnt.toNat + 1) / 8 := s.length_bytesDue [b]
  obtain ⟨u, hu⟩ := writeList_total [b] s fun i hi => ht i (by omega)
  obtain ⟨_, v, hv, -⟩ := Res.andThen_eq_done hu
  have hw := writeBit_done hv
  have hwcnt : v.wcnt.toNat = (s.wcnt.toNat + 1) % 8 := by rw [hw.wcnt]; exact BitVec.toNat_ofNat ..
  refine ⟨_, exec_done rfl (State.accepts_bwr hp hm) (body_bwr_done hv), ⟨?_, ?_, ?_, ?_⟩, hw.stream⟩
  · exact (congrArg State.phase hw.same).symm.trans hp
  · exact (congrArg State.mode hw.same).symm.trans hm
  · exact (congrArg State.busy hw.same).symm.trans hb
  · refine ht.drop hw.after.sink ?_
    rw [hdue, State.respond_wcnt, hwcnt]
    omega

/-- `BCLOSE` leaves in the sink the bytes that all bits written pack into (R105). -/
theorem exec_bclose_of_canWrite {s : State} (h : s.CanWrite 0) :
    ∃ t, exec .bclose s = .next t ∧ t.out = packBits s.bitStream ∧ t.phase = .closed := by
  obtain ⟨hp, hm, -, ht⟩ := h
  obtain ⟨hempty, hpartial, -⟩ := bcloseFlushesAndCloses s hp
  rw [s.packBits_bitStream]
  by_cases h0 : s.wcnt = 0
  · refine ⟨_, hempty hm h0, ?_, rfl⟩
    rw [State.buffered_empty h0]
    simp [State.out, State.okNat, packBits]
  · have hpos : 0 < s.wcnt.toNat := BitVec.toNat_pos_of_ne_zero h0
    refine ⟨_, hpartial hm h0 (ht.headD (by omega)), ?_, rfl⟩
    rw [State.packBits_buffered h0]
    simp [State.out, State.okNat]

/-- The law of R106 for any bits still to be written, one `BWR` at a time. -/
theorem runCommands_bwr_bclose : ∀ (bits : List Bool) (s : State), s.CanWrite bits.length →
    (runCommands (bits.map Instr.bwr ++ [.bclose]) s).out = packBits (s.bitStream ++ bits) ∧
      (runCommands (bits.map Instr.bwr ++ [.bclose]) s).phase = .closed
  | [], s, h => by
    obtain ⟨t, he, hout, hphase⟩ := exec_bclose_of_canWrite h
    rw [List.map_nil, List.nil_append, runCommands_singleton h.busy he, List.append_nil]
    exact ⟨hout, hphase⟩
  | b :: bits, s, h => by
    obtain ⟨t, he, ht, hstream⟩ := exec_bwr_of_canWrite b h
    have ih := runCommands_bwr_bclose bits t ht
    rw [hstream, List.append_assoc] at ih
    rw [List.map_cons, List.cons_append, runCommands_cons h.busy he]
    exact ih

/-- Settles O20, by induction on the bits. -/
theorem writtenBitsReachTheSinkPacked : Obligations.WrittenBitsReachTheSinkPacked := by
  intro s bits hp hm hb ht
  rw [length_packBits, List.length_append, s.length_buffered] at ht
  exact runCommands_bwr_bclose bits s ⟨hp, hm, hb, ht⟩

/-! ### The bit-to-byte law of reading (R107) -/

/-- A decoder run in which no command waits and whose source answers what `n` bits ask for. -/
structure State.CanRead (s : State) (n : Nat) : Prop where
  phase   : s.phase = .run
  mode    : s.mode = .dec
  busy    : s.busy = none
  answers : s.sourceAnswers n

/-- `BRD` answers the first bit that is left, or 2, and leaves the others (R102, R103). -/
theorem exec_brd_of_canRead {s : State} {n : Nat} (h : s.CanRead (n + 1)) :
    ∃ t, exec .brd s = .next t ∧ t.CanRead n ∧ t.bitsLeft = s.bitsLeft.tail ∧
      t.responses = s.responses ++ [.okNat (brdValue s.bitsLeft.head?)] := by
  obtain ⟨hp, hm, hb, hans⟩ := h
  obtain ⟨r, u, hr, hu⟩ := readBit_answers hans
  obtain ⟨rfl, hleft, hreads, -, -⟩ := readBit_done hr
  have hsame := hreads.same
  refine ⟨_, exec_done rfl (State.accepts_brd hp hm) (body_brd_done hr), ⟨?_, ?_, ?_, hu.congr rfl rfl rfl⟩, hleft, ?_⟩
  · exact (congrArg State.phase hsame).symm.trans hp
  · exact (congrArg State.mode hsame).symm.trans hm
  · exact (congrArg State.busy hsame).symm.trans hb
  · exact congrArg (· ++ _) (congrArg State.responses hsame).symm

/-- The answers to `n` requests are those to the first and to the rest. -/
theorem map_range_brdValue_succ (bits : List Bool) (n : Nat) :
    (List.range (n + 1)).map (fun i => Response.okNat (brdValue bits[i]?)) =
      .okNat (brdValue bits.head?) :: (List.range n).map (fun i => .okNat (brdValue bits.tail[i]?)) := by
  simp [List.range_succ_eq_map, Function.comp_def, List.head?_eq_getElem?]

/-- The law of R107, one `BRD` at a time. -/
theorem responses_runCommands_brd : ∀ (n : Nat) (s : State), s.CanRead n →
    (runCommands (List.replicate n .brd) s).responses =
      s.responses ++ (List.range n).map (fun i => .okNat (brdValue s.bitsLeft[i]?))
  | 0, s, _ => (List.append_nil _).symm
  | n + 1, s, h => by
    obtain ⟨t, he, ht, hleft, hresp⟩ := exec_brd_of_canRead h
    rw [List.replicate_succ, runCommands_cons h.busy he, responses_runCommands_brd n t ht, hresp, hleft,
      map_range_brdValue_succ, List.append_assoc, List.singleton_append]

/-- Settles O21, by induction on the number of bits. -/
theorem bitsAreReadInOrder : Obligations.BitsAreReadInOrder := by
  intro s n hp hm hb hans
  exact responses_runCommands_brd n s ⟨hp, hm, hb, hans⟩

end Sys2Proof.Machine
end

section
/-! The frequency tables (41_frequency_table.md): the table functions as sums, and what the commands that read a table
or write a count do for each operand. -/

namespace Sys2Proof.Machine

/-! ### The table functions (R121, R122, R131) -/

/-- The last symbol's interval ends at the total (R122). -/
theorem State.cumHigh_last (s : State) (t : TableRef) (hw : Memory.wf s.ctx = true) (hSL : 1 ≤ s.SL) :
    s.cumHigh t (s.SL - 1) = s.total t := by
  rw [← s.cumLow_succ t (s.SL - 1) hw, Nat.sub_add_cancel hSL, s.cumLow_SL]

/-- Settles O22, by the sums of a canonical table's counts. -/
theorem tableFunctionsAreTheirSums : Obligations.TableFunctionsAreTheirSums := by
  intro s hw
  refine ⟨fun sym => ⟨rfl, rfl, rfl, rfl⟩, fun p sym => ?_, Table.get_fresh⟩
  have ht := Memory.wf_table s.ctx p hw
  refine ⟨rfl, Table.cumLow_eq_sum _ sym ht, rfl, ?_, Table.total_eq_sum s.SL _ ht,
    fun hSL => (s.cumHigh_last _ hw hSL).symm⟩
  rw [← s.cumLow_succ _ sym hw]
  exact Table.cumLow_eq_sum _ (sym + 1) ht

/-- Settles O23: the symbol search finds the interval that holds a value, and no other symbol's interval meets it. -/
theorem tablesPartitionTheirRange : Obligations.TablesPartitionTheirRange := by
  intro s t hw hSL
  refine ⟨fun i => s.cumLow_mono t hw (Nat.le_succ i), s.cumHigh_last t hw hSL, s.cumLow_zero t, fun sym h0 => ?_,
    fun v hv => ?_⟩
  · rw [s.cumHigh_eq, h0, Nat.add_zero]
  · have hfound := s.findSymbol_spec t hw hv
    exact ⟨s.findSymbol t v, hfound, fun _ hother => s.interval_unique t hw hother.2 hfound.2⟩

/-! ### A count written, a count incremented (R127, R129) -/

theorem State.lookup_setCount (s : State) {p q : Path} (sym c : Nat) (h : q ≠ p) :
    lookup q (s.setCount p sym c).ctx = lookup q s.ctx := by
  rw [State.setCount_ctx, Memory.lookup_write, if_neg h]

theorem State.has_setCount (s : State) (p : Path) (sym c : Nat) : Memory.has (s.setCount p sym c).ctx p = true := by
  simp only [State.setCount_ctx, Memory.has_write, decide_true, Bool.true_or]

theorem State.table_setCount (s : State) (p : Path) (sym c : Nat) :
    Memory.table (s.setCount p sym c).ctx p = Table.set (Memory.table s.ctx p) sym c := by
  rw [State.setCount_ctx, Memory.table_write, if_pos rfl]

/-- Writing the count of a symbol below SL moves the total by the difference. -/
theorem Table.total_set {t : Table} {sl sym : Nat} (c : Nat) (h : Table.wf t = true) (hs : sym < sl) :
    Table.total sl (Table.set t sym c) = Table.total sl t - Table.get t sym + c := by
  have hset := Table.cumLow_set t sym c sl h
  have hle : Table.cumLow t sym + Table.get t sym ≤ Table.cumLow t sl := Table.cumHigh_le_total t h hs
  rw [if_pos hs, if_pos hs] at hset
  simp only [Table.total]
  omega

/-- The table with the count of one symbol grown by 1 (R127). -/
def Table.incr (t : Table) (sym : Nat) : Table := Table.set t sym (Table.get t sym + 1)

theorem Table.get_incr {t : Table} (sym j : Nat) (h : Table.wf t = true) :
    Table.get (Table.incr t sym) j = Table.get t j + (if j = sym then 1 else 0) := by
  rw [Table.incr, Table.get_set t sym _ j h]
  by_cases hj : j = sym
  · rw [if_pos hj, if_pos hj, hj]
  · rw [if_neg hj, if_neg hj, Nat.add_zero]

theorem Table.cumLow_incr {t : Table} (sym j : Nat) (h : Table.wf t = true) :
    Table.cumLow (Table.incr t sym) j = Table.cumLow t j + (if sym < j then 1 else 0) := by
  have hset := Table.cumLow_set t sym (Table.get t sym + 1) j h
  rw [Table.incr]
  by_cases hj : sym < j
  · rw [if_pos hj, if_pos hj] at hset
    rw [if_pos hj]
    omega
  · rw [if_neg hj, if_neg hj] at hset
    rwa [if_neg hj]

theorem Table.cumHigh_incr {t : Table} (sym j : Nat) (h : Table.wf t = true) :
    Table.cumHigh (Table.incr t sym) j = Table.cumHigh t j + (if sym ≤ j then 1 else 0) := by
  have hlow := Table.cumLow_incr sym (j + 1) h
  rw [Table.cumLow_succ (Table.incr t sym) j (Table.wf_set t sym _ h), Table.cumLow_succ t j h] at hlow
  simpa only [Nat.lt_succ_iff] using hlow

theorem Table.total_incr {t : Table} {sl sym : Nat} (h : Table.wf t = true) (hs : sym < sl) :
    Table.total sl (Table.incr t sym) = Table.total sl t + 1 := by
  have hlow := Table.cumLow_incr sym sl h
  rwa [if_pos hs] at hlow

/-! ### The operand checks of a command (R120, R123 to R126) -/

theorem order_legal_of_le {o : Order} (h : -1 ≤ o.toInt) : Order.legal o = true := decide_eq_true h

/-- What both modes accept in phase RUN, the block accepts there (30_encoding.md R90). -/
theorem State.accepts_of_run {s : State} {op : Opcode} (hp : s.phase = .run) (h : acceptsRun op = true) :
    s.accepts op = true := by
  simp only [State.accepts, hp, h, Bool.true_or]

theorem acceptsRun_of_acceptsClosed {op : Opcode} (h : acceptsClosed op = true) : acceptsRun op = true := by
  revert h
  cases op <;> decide

/-- The commands of phase CLOSED are accepted in phase RUN too (30_encoding.md R90). -/
theorem State.accepts_of_hasRun {s : State} {op : Opcode} (hp : s.hasRun) (h : acceptsClosed op = true) :
    s.accepts op = true := by
  obtain hrun | hclosed := hp
  · exact State.accepts_of_run hrun (acceptsRun_of_acceptsClosed h)
  · simpa only [State.accepts, hclosed] using h

/-- Settles O12: the body of each of the nine commands begins with the symbol check. -/
theorem symbolOutOfRangeRaises : Obligations.SymbolOutOfRangeRaises := by
  intro s o sym c i hi hl ha _ hs
  have hbody : ∃ k, body i s = withSymbol sym s k := by
    simp only [List.mem_cons, List.not_mem_nil, or_false] at hi
    obtain rfl | rfl | rfl | rfl | rfl | rfl | rfl | rfl | rfl := hi <;>
      (simp only [body]; exact ⟨_, rfl⟩)
  obtain ⟨k, hk⟩ := hbody
  exact exec_raised hl ha (hk.trans (withSymbol_ge hs))

/-- A legal, accepted command that checks its symbol, resolves its designator, and does `k` to the table (R120). -/
structure TableCommand (i : Instr) (s : State) (o : Order) (sym : SymField) (k : TableRef → State → Res Response) :
    Prop where
  legal    : i.wellFormed = true
  accepted : s.accepts i.opcode = true
  body_eq  : body i s = withSymbol sym s fun s => withTable o s k

section

variable {i : Instr} {s u : State} {o : Order} {sym : SymField} {k : TableRef → State → Res Response} {t : TableRef}

theorem TableCommand.symbol_ge (h : TableCommand i s o sym k) (hs : s.SL ≤ sym.toNat) :
    exec i s = .next (s.raise .symbol sym.toNat) :=
  exec_raised h.legal h.accepted (h.body_eq.trans (withSymbol_ge hs))

theorem TableCommand.absent (h : TableCommand i s o sym k) (hs : sym.toNat < s.SL) (ht : s.resolve o.toInt = none) :
    exec i s = .next (s.respond .absent) :=
  exec_done h.legal h.accepted (h.body_eq.trans ((withSymbol_lt hs).trans (withTable_none ht)))

theorem TableCommand.body_resolved (h : TableCommand i s o sym k) (hs : sym.toNat < s.SL)
    (ht : s.resolve o.toInt = some t) : body i s = k t s :=
  h.body_eq.trans ((withSymbol_lt hs).trans (withTable_some ht))

theorem TableCommand.done (h : TableCommand i s o sym k) (hs : sym.toNat < s.SL) (ht : s.resolve o.toInt = some t)
    {r : Response} (hk : k t s = .done r u) : exec i s = .next (u.respond r) :=
  exec_done h.legal h.accepted ((h.body_resolved hs ht).trans hk)

theorem TableCommand.raised (h : TableCommand i s o sym k) (hs : sym.toNat < s.SL) (ht : s.resolve o.toInt = some t)
    {c : Cause} {n : Nat} (hk : k t s = .stop (.raised c n) u) : exec i s = .next (u.raise c n) :=
  exec_raised h.legal h.accepted ((h.body_resolved hs ht).trans hk)

end

/-! ### The commands that read a table (R123 to R126) -/

/-- Answering one of a table's values (R124 to R126). -/
def answerValue (f : State → TableRef → Nat → Nat) (sym : SymField) (t : TableRef) (s : State) : Res Response :=
  .done (.okNat (f s t sym.toNat)) s

/-- Settles O24: in phases RUN and CLOSED the commands get past the first checks, and what is left is the symbol and the
table. -/
theorem tableReadsAnswer : Obligations.TableReadsAnswer := by
  intro s o sym hp ho
  have hl := order_legal_of_le ho
  have ha : ∀ op, acceptsClosed op = true → s.accepts op = true := fun _ => State.accepts_of_hasRun hp
  have fget : TableCommand (.fget o sym) s o sym (answerValue State.get sym) := ⟨hl, ha _ rfl, rfl⟩
  have flow : TableCommand (.flow o sym) s o sym (answerValue State.cumLow sym) := ⟨hl, ha _ rfl, rfl⟩
  have fhigh : TableCommand (.fhigh o sym) s o sym (answerValue State.cumHigh sym) := ⟨hl, ha _ rfl, rfl⟩
  refine ⟨fun t ht => exec_done hl (ha .ftot rfl) (withTable_some ht),
    fun ht => exec_done hl (ha .ftot rfl) (withTable_none ht),
    fun hs => ⟨fun t ht => ⟨fget.done hs ht rfl, flow.done hs ht rfl, fhigh.done hs ht rfl⟩, fun p ht hfresh => ?_,
      fun ht => ⟨fget.absent hs ht, flow.absent hs ht, fhigh.absent hs ht⟩⟩,
    fun hs => ⟨fget.symbol_ge hs, flow.symbol_ge hs, fhigh.symbol_ge hs⟩⟩
  have hget : s.get (.context p) sym.toNat = if sym.toNat = s.ESC then 1 else 0 := by
    rw [State.get, hfresh, Table.get_fresh]
  exact hget ▸ fget.done hs ht rfl

/-! ### The commands that write a count (R127, R129, R130) -/

theorem tableCommand_finc {s : State} {o : Order} (sym : SymField) (hp : s.phase = .run) (ho : -1 ≤ o.toInt) :
    TableCommand (.finc o sym) s o sym fun t s =>
      withWritable (.finc o sym) t s fun p s => increment p sym.toNat s :=
  ⟨order_legal_of_le ho, State.accepts_of_run hp rfl, rfl⟩

theorem tableCommand_fset {s : State} {o : Order} (sym : SymField) (c : Word) (hp : s.phase = .run)
    (ho : -1 ≤ o.toInt) :
    TableCommand (.fset o sym c) s o sym fun t s =>
      withWritable (.fset o sym c) t s fun p s => assignCount p sym.toNat c.toNat s :=
  ⟨order_legal_of_le ho, State.accepts_of_run hp rfl, rfl⟩

theorem withWritable_context_done {i : Instr} {p : Path} {s u : State} {k : Path → State → Res Unit}
    (hk : k p s = .done () u) : withWritable i (.context p) s k = .done (.okNat 0) u := by
  rw [withWritable, hk, Res.done_andThen]

theorem withWritable_context_stop {i : Instr} {p : Path} {s u : State} {k : Path → State → Res Unit} {w : Stop}
    (hk : k p s = .stop w u) : withWritable i (.context p) s k = .stop w u := by
  rw [withWritable, hk, Res.stop_andThen]

/-- Settles O27: designator -1 resolves to the flat table. -/
theorem flatTableCannotBeWritten : Obligations.FlatTableCannotBeWritten := by
  intro s sym c hp hs
  have ho : -1 ≤ (BitVec.ofInt 8 (-1)).toInt := by decide
  have ht : s.resolve (BitVec.ofInt 8 (-1)).toInt = some .flat := if_pos (by decide)
  exact ⟨(tableCommand_finc sym hp ho).raised hs ht rfl, (tableCommand_fset sym c hp ho).raised hs ht rfl⟩

/-- Settles O25: below TOTAL_MAX, `Increment` writes the count grown by 1. -/
theorem fincAddsOne : Obligations.FincAddsOne := by
  intro s o sym hp ho hw
  have hf := tableCommand_finc sym hp ho
  refine ⟨hf.symbol_ge, hf.absent, fun hs ht => hf.raised hs ht rfl, fun p hs hctx => ⟨fun hmax => ?_, fun hmax => ?_⟩⟩
  · exact hf.raised hs hctx (withWritable_context_stop (if_pos hmax))
  · have ht := Memory.wf_table s.ctx p hw
    refine ⟨(s.setCount p sym.toNat (s.get (.context p) sym.toNat + 1)).ctx,
      hf.done hs hctx (withWritable_context_done (if_neg hmax)),
      (s.setCount_updates p _ _).wf hw, fun q => s.lookup_setCount _ _, s.has_setCount p _ _, ?_⟩
    rw [s.table_setCount]
    exact ⟨fun j => Table.get_incr _ j ht, Table.total_incr ht hs, fun j => Table.cumLow_incr _ j ht,
      fun j => Table.cumHigh_incr _ j ht⟩

/-- Settles O26: where the new total is in range, the count is written. -/
theorem fsetReplacesTheCount : Obligations.FsetReplacesTheCount := by
  intro s o sym c hp ho hw
  have hf := tableCommand_fset sym c hp ho
  refine ⟨hf.symbol_ge, hf.absent, fun hs ht => hf.raised hs ht rfl,
    fun p hs hctx => ⟨fun hout => ?_, fun hpos hmax => ?_⟩⟩
  · exact hf.raised hs hctx (withWritable_context_stop (if_pos hout))
  · have ht := Memory.wf_table s.ctx p hw
    refine ⟨(s.setCount p sym.toNat c.toNat).ctx,
      hf.done hs hctx (withWritable_context_done (if_neg (not_or.mpr ⟨hpos, Nat.not_lt.mpr hmax⟩))),
      (s.setCount_updates p _ _).wf hw, fun q => s.lookup_setCount _ _, s.has_setCount p _ _, ?_⟩
    rw [s.table_setCount]
    exact ⟨fun j => Table.get_set _ _ _ j ht, Table.total_set _ ht hs⟩

end Sys2Proof.Machine
end

section
/-! The context tree and the history (42_context_tree.md): the traversal and its two read-back commands, the history
update, and where the statistics update completes or stops along its path. -/

namespace Sys2Proof.Machine

/-! ### The traversal and `CWALK` (R141, R143) -/

/-- The traversal for the designator of a context (R141). -/
theorem State.resolve_natCast (s : State) (n : Nat) :
    s.resolve n =
      if s.hlen < n then none
      else if Memory.has s.ctx (s.hist.take n) then some (.context (s.hist.take n)) else none := by
  have hflat : (n : Int) ≠ -1 := by omega
  rw [State.resolve, if_neg hflat, Int.toNat_natCast]

/-- `CWALK` answers whether its designator resolves, and changes nothing (R143). -/
theorem exec_cwalk {s : State} {o : Order} (hp : s.hasRun) (ho : -1 ≤ o.toInt) :
    exec (.cwalk o) s = .next (s.respond (if s.resolve o.toInt = none then .absent else .okNat 0)) := by
  refine exec_done (order_legal_of_le ho) (State.accepts_of_hasRun hp rfl) ?_
  cases ht : s.resolve o.toInt with
  | none => exact withTable_none ht
  | some t => exact withTable_some ht

theorem State.respond_injective (s : State) : Function.Injective s.respond := fun _ _ h =>
  List.singleton_injective (List.append_cancel_left (congrArg State.responses h))

theorem Response.absent_ne_okNat (n : Nat) : Response.absent ≠ .okNat n := fun h =>
  ResponseKind.noConfusion (congrArg Response.kind h)

theorem exec_cwalk_ok_iff {s : State} {o : Order} (hp : s.hasRun) (ho : -1 ≤ o.toInt) :
    exec (.cwalk o) s = .next (s.okNat 0) ↔ s.resolve o.toInt ≠ none := by
  rw [exec_cwalk hp ho, Host.Outcome.next.injEq, State.okNat, s.respond_injective.eq_iff]
  by_cases ht : s.resolve o.toInt = none
  · simp [ht, Response.absent_ne_okNat]
  · simp [ht]

theorem exec_cwalk_absent_iff {s : State} {o : Order} (hp : s.hasRun) (ho : -1 ≤ o.toInt) :
    exec (.cwalk o) s = .next (s.respond .absent) ↔ s.resolve o.toInt = none := by
  rw [exec_cwalk hp ho, Host.Outcome.next.injEq, s.respond_injective.eq_iff]
  by_cases ht : s.resolve o.toInt = none
  · simp [ht]
  · simp [ht, (Response.absent_ne_okNat 0).symm]

/-- At rest the traversal finds the root exactly where there is a model (R140, R141). -/
theorem State.TreeAtRest.resolve_root {s : State} (h : s.TreeAtRest) (hK : -1 ≤ s.K) :
    s.resolve 0 = none ↔ s.K = -1 := by
  have hroot := s.resolve_natCast 0
  rw [if_neg (Nat.not_lt_zero _), List.take_zero, Nat.cast_zero] at hroot
  rw [hroot]
  by_cases hn : s.K = -1
  · have habs : Memory.has s.ctx [] = false := by rw [h.noModel hn]; rfl
    simp [hn, habs]
  · simp [hn, h.root (by omega)]

/-- Settles O28, by the cases of the traversal. -/
theorem cwalkTellsWhetherAContextExists : Obligations.CwalkTellsWhetherAContextExists := by
  intro s o hp ho
  refine ⟨fun hflat => if_pos hflat, fun n hn hlen hhas => ?_, fun n hn habs => ?_,
    (exec_cwalk_ok_iff hp ho).mpr, (exec_cwalk_absent_iff hp ho).mpr, fun ht hK => ?_⟩
  · rw [hn, s.resolve_natCast, if_neg (Nat.not_lt.mpr hlen), if_pos hhas]
  · rw [hn, s.resolve_natCast]
    obtain hlen | hhas := habs
    · rw [if_pos hlen]
    · rw [hhas, if_neg Bool.false_ne_true, ite_self]
  · have h0 : (0 : Order).toInt = 0 := rfl
    have hroot := ht.resolve_root hK
    rw [exec_cwalk_ok_iff hp (by decide), exec_cwalk_absent_iff hp (by decide), h0, Ne, hroot]
    exact ⟨by omega, Iff.rfl⟩

/-! ### The history's commands (R146, R148) -/

theorem body_hpush (sym : SymField) (s : State) :
    body (.hpush sym) s = withSymbol sym s fun s => .done (.okNat 0) (s.pushHistory sym.toNat) := rfl

/-- Settles O32, by the two cases of the history update. -/
theorem hpushShiftsTheHistory : Obligations.HpushShiftsTheHistory := by
  intro s sym hp
  have ha : s.accepts (Instr.hpush sym).opcode = true := State.accepts_of_run hp rfl
  have pushed : sym.toNat < s.SL → exec (.hpush sym) s = .next ((s.pushHistory sym.toNat).okNat 0) := fun hs =>
    exec_done rfl ha (by rw [body_hpush, withSymbol_lt hs])
  refine ⟨fun hs => exec_raised rfl ha (by rw [body_hpush, withSymbol_ge hs]), fun hs hK => ?_, fun k hs hK => ?_⟩
  · rw [pushed hs, State.pushHistory, if_pos hK]
  · have hpos : ¬ s.K ≤ 0 := by omega
    have hk : s.K.toNat - 1 = k := by omega
    rw [pushed hs, s.pushHistory_eq, s.pushHistory_hist, if_neg hpos, hk]

/-- Settles O33: the index is listed in the history, or lies beyond it. -/
theorem hrdReadsTheHistory : Obligations.HrdReadsTheHistory := by
  intro s idx hp
  have ha : s.accepts (Instr.hrd idx).opcode = true := State.accepts_of_hasRun hp rfl
  refine ⟨fun hlen => exec_done rfl ha ?_, fun hlen => exec_done rfl ha ?_⟩
  · simp only [body, List.getElem?_eq_none hlen]
  · simp only [body, List.getElem?_eq_getElem hlen]

/-! ### `CINC` is the statistics update (R144) -/

theorem body_cinc (sym : SymField) (s : State) :
    body (.cinc sym) s =
      withSymbol sym s fun s => (updateContexts sym.toNat s).andThen fun _ s => .done (.okNat 0) s := rfl

theorem exec_cinc_symbol {s : State} {sym : SymField} (hp : s.phase = .run) (hs : s.SL ≤ sym.toNat) :
    exec (.cinc sym) s = .next (s.raise .symbol sym.toNat) :=
  exec_raised rfl (State.accepts_of_run hp rfl) (by rw [body_cinc, withSymbol_ge hs])

theorem exec_cinc_done {s u : State} {sym : SymField} (hp : s.phase = .run) (hs : sym.toNat < s.SL)
    (h : updateContexts sym.toNat s = .done () u) : exec (.cinc sym) s = .next (u.okNat 0) :=
  exec_done rfl (State.accepts_of_run hp rfl) (by rw [body_cinc, withSymbol_lt hs, h, Res.done_andThen])

/-- A fault raised on the way loses what the update did before it (R240), so it is the fault raised at once. -/
theorem exec_cinc_raised {s u : State} {sym : SymField} {c : Cause} {n : Nat} (hp : s.phase = .run)
    (hs : sym.toNat < s.SL) (h : updateContexts sym.toNat s = .stop (.raised c n) u) :
    exec (.cinc sym) s = .next (s.raise c n) := by
  have hup := updateContexts_updates sym.toNat s
  rw [h, Res.final_stop] at hup
  rw [← hup.raise c n]
  exact exec_raised rfl (State.accepts_of_run hp rfl) (by rw [body_cinc, withSymbol_lt hs, h, Res.stop_andThen])

theorem updateContexts_off {s : State} (sym : Nat) (hK : s.K = -1) : updateContexts sym s = .done () s :=
  if_pos hK

theorem updateContexts_on_path {s : State} (sym : Nat) (hK : 0 ≤ s.K) :
    updateContexts sym s = visitAll sym s.updatePaths s :=
  if_neg (by omega)

/-! ### Where the update stops (R127, R142, R144) -/

/-- The contexts of the update path before the one of the `k` most recent symbols. -/
def State.pathsBefore (s : State) (k : Nat) : List Path := (List.range k).map fun n => s.hist.take n

theorem State.length_updatePaths (s : State) : s.updatePaths.length = min s.hlen s.K.toNat + 1 := by
  rw [State.updatePaths, List.length_map, List.length_range]

theorem State.getElem_updatePaths (s : State) {k : Nat} (hk : k < s.updatePaths.length) :
    s.updatePaths[k] = s.hist.take k := by
  simp only [State.updatePaths, List.getElem_map, List.getElem_range]

theorem State.take_updatePaths (s : State) {k : Nat} (hk : k ≤ min s.hlen s.K.toNat) :
    s.updatePaths.take k = s.pathsBefore k := by
  rw [State.updatePaths, ← List.map_take, List.take_range, Nat.min_eq_left (Nat.le_succ_of_le hk), State.pathsBefore]

/-- A missing context before the `k`-th of a list is counted among those before it. -/
theorem State.missing_take_lt {s : State} {l : List Path} {i k : Nat} (hi : i < l.length) (hik : i < k)
    (h : Memory.has s.ctx l[i] = false) : s.missing (l.take i) < s.missing (l.take k) := by
  have hsucc : s.missing (l.take (i + 1)) = s.missing (l.take i) + 1 := by
    simp only [State.missing, List.take_add_one, List.getElem?_eq_getElem hi, Option.toList_some, List.filter_append,
      List.length_append, List.filter_cons, h, Bool.not_false, if_true, List.filter_nil, List.length_singleton]
  have hle : s.missing (l.take (i + 1)) ≤ s.missing (l.take k) :=
    ((List.take_sublist_take_left hik).filter _).length_le
  omega

/-- The update stops at the context of the `k` most recent symbols if the ones before it can be visited and it can be
neither created (R142) nor incremented (R127). -/
theorem updateContexts_stop {s : State} (sym : Nat) {k : Nat} (hK : 0 ≤ s.K) (hk : k ≤ min s.hlen s.K.toNat)
    (hroom : ∀ p ∈ s.pathsBefore k, Memory.has s.ctx p = true → s.total (.context p) ≠ Config.totalMax)
    (hcap : ∀ n, s.params.nodeMax = some n → s.nctx + s.missing (s.pathsBefore k) ≤ n) :
    (Memory.has s.ctx (s.hist.take k) = false → s.params.nodeMax = some (s.nctx + s.missing (s.pathsBefore k)) →
      ∃ u, updateContexts sym s = .stop (.raised .nodes (s.nctx + s.missing (s.pathsBefore k))) u) ∧
    (Memory.has s.ctx (s.hist.take k) = true → s.total (.context (s.hist.take k)) = Config.totalMax →
      ∃ u, updateContexts sym s = .stop (.raised .count sym) u) := by
  have hlen : k < s.updatePaths.length := by rw [s.length_updatePaths]; omega
  rw [updateContexts_on_path sym hK]
  rw [← s.take_updatePaths hk] at hroom hcap ⊢
  rw [← s.getElem_updatePaths hlen]
  obtain ⟨hnodes, hcount⟩ := visitAll_stop sym s.updatePaths s k s.updatePaths_nodup hlen hroom
    fun i hi hik hmiss hfull => by
      have hle := hcap _ hfull
      have hlt := s.missing_take_lt hi hik hmiss
      omega
  exact ⟨fun hmiss hfull => (hnodes hmiss hfull).imp fun _ h => h.1,
    fun hhas hfull => (hcount hhas hfull).imp fun _ h => h.1⟩

/-- Settles O31: the update stops where there is no room, and the room lasts up to there. -/
theorem cincWithoutRoomRaisesNodes : Obligations.CincWithoutRoomRaisesNodes := by
  intro s sym hp hs hK _ k hk before made hroom hmiss hfull
  have hcap : ∀ n, s.params.nodeMax = some n → s.nctx + made ≤ n := fun n hn =>
    (Option.some.inj (hfull.symm.trans hn)).le
  obtain ⟨u, hu⟩ := (updateContexts_stop sym.toNat hK hk hroom hcap).1 hmiss hfull
  exact exec_cinc_raised hp hs hu

/-! ### Where the update completes (R144) -/

/-- The counts a visit starts from: those of the existing table, or those of a new one (R142). -/
theorem State.get_tableOrFresh (s : State) (p : Path) (j : Nat) :
    Table.get (s.tableOrFresh p) j =
      if Memory.has s.ctx p then s.get (.context p) j else if j = s.ESC then 1 else 0 := by
  rw [State.tableOrFresh, apply_ite (Table.get · j), Table.get_fresh]
  rfl

/-- With no total of the path at TOTAL_MAX and room for its missing contexts, the update changes tree and NCTX alone, as
visiting every context of the path does (R144). -/
theorem updateContexts_visited {s : State} (sym : Nat) (hK : 0 ≤ s.K)
    (hroom : ∀ p ∈ s.updatePaths, Memory.has s.ctx p = true → s.total (.context p) ≠ Config.totalMax)
    (hcap : ∀ n, s.params.nodeMax = some n → s.nctx + s.missing s.updatePaths ≤ n) :
    ∃ m, let u := { s with ctx := m, nctx := s.nctx + s.missing s.updatePaths }
      updateContexts sym s = .done () u ∧ Visited s sym s.updatePaths u := by
  obtain ⟨u, hu⟩ := visitAll_total sym _ s s.updatePaths_nodup hroom hcap
  have hv := visitAll_done sym _ s u s.updatePaths_nodup hu
  have heq : u = { s with ctx := u.ctx, nctx := s.nctx + s.missing s.updatePaths } := by
    rw [State.eq_of_sansModel hv.updates.same, hv.nctx, hv.updates.hist]
  rw [heq] at hu hv
  exact ⟨u.ctx, (updateContexts_on_path sym hK).trans hu, hv⟩

/-- Settles O29: with K = -1 nothing is visited; else the path is visited to its end, or to its first full table. -/
theorem cincUpdatesThePath : Obligations.CincUpdatesThePath := by
  intro s sym hp hs hw
  refine ⟨fun hK => exec_cinc_done hp hs (updateContexts_off _ hK), ?_, ?_⟩
  · intro hK _ paths missing hroom hcap
    obtain ⟨m, hu, hv⟩ := updateContexts_visited sym.toNat hK hroom hcap
    refine ⟨m, exec_cinc_done hp hs hu, hv.updates.wf hw, hv.others, fun q hq => ⟨hv.has q hq, fun j => ?_⟩⟩
    rw [hv.get hw q hq j, s.get_tableOrFresh]
  · intro hK _ k hk before made hroom hcap hhas hfull
    obtain ⟨u, hu⟩ := (updateContexts_stop sym.toNat hK hk hroom hcap).2 hhas hfull
    exact exec_cinc_raised hp hs hu

/-! ### The lockstep of the update (R145) -/

/-- Two states agree on all that a visit of contexts looks at (R145). -/
structure SameTree (s u : State) : Prop where
  ctx    : u.ctx = s.ctx
  nctx   : u.nctx = s.nctx
  params : u.params = s.params
  crEsc  : u.crEsc = s.crEsc
  crSl   : u.crSl = s.crSl

/-- Visiting contexts changes two states that agree alike: they agree afterwards (R145). -/
theorem SameTree.updates {s u v : State} (h : SameTree s u) (hv : Updates s v) :
    SameTree v { u with ctx := v.ctx, nctx := v.nctx } where
  ctx    := rfl
  nctx   := rfl
  params := h.params.trans (congrArg State.params hv.same :)
  crEsc  := h.crEsc.trans (congrArg State.crEsc hv.same :)
  crSl   := h.crSl.trans (congrArg State.crSl hv.same :)

/-- A visit that stops raises a fault, and raises it in every state that agrees (R142, R127, R145). -/
theorem SameTree.visitContext_stop {s u v : State} {sym : Nat} {p : Path} {w : Stop} (h : SameTree s u)
    (hs : visitContext sym p s = .stop w v) :
    ∃ c n, w = .raised c n ∧ visitContext sym p u = .stop w u := by
  have htotal : u.total (.context p) = s.total (.context p) :=
    State.total_of_ctx _ h.ctx (congrArg BitVec.toNat h.crSl)
  rw [visitContext_eq] at hs ⊢
  rw [h.ctx, htotal, h.params, h.nctx]
  split at hs
  · next hhas =>
    split at hs <;> cases hs
    next hfull => exact ⟨.count, sym, rfl, by rw [if_pos hhas, if_pos hfull]⟩
  · next hmiss =>
    split at hs <;> cases hs
    next hfull => exact ⟨.nodes, s.nctx, rfl, by rw [if_neg hmiss, if_pos hfull]⟩

/-- A list of visits that stops raises a fault, and raises it in every state that agrees (R145). -/
theorem SameTree.visitAll_stop {sym : Nat} {w : Stop} : ∀ {l : List Path} {s u v : State}, SameTree s u →
    visitAll sym l s = .stop w v → ∃ c n u', w = .raised c n ∧ visitAll sym l u = .stop w u'
  | [], _, _, _, _, hs => by cases hs
  | p :: l, s, u, v, h, hs => by
    rw [visitAll] at hs ⊢
    have hup := visitContext_updates sym p s
    cases hp : visitContext sym p s with
    | stop w' v' =>
      rw [hp] at hs
      cases hs
      obtain ⟨c, n, hw, hu⟩ := h.visitContext_stop hp
      exact ⟨c, n, u, hw, by rw [hu, Res.stop_andThen]⟩
    | done _ v' =>
      rw [hp] at hs hup
      rw [visitContext_on sym p h.ctx h.nctx h.params h.crEsc h.crSl hp]
      exact (h.updates hup).visitAll_stop hs

/-- An update that stops raises a fault, and raises it in every state with the same model (R145). -/
theorem SameTree.updateContexts_stop {s u v : State} {sym : Nat} {w : Stop} (h : SameTree s u) (hK : u.K = s.K)
    (hh : u.hist = s.hist) (hs : updateContexts sym s = .stop w v) :
    ∃ c n u', w = .raised c n ∧ updateContexts sym u = .stop w u' := by
  have hpaths : u.updatePaths = s.updatePaths := by simp only [State.updatePaths, State.hlen, hK, hh]
  unfold updateContexts at hs ⊢
  rw [hK, hpaths]
  split at hs
  · cases hs
  · next hoff =>
    rw [if_neg hoff]
    exact h.visitAll_stop hs

/-- Settles O30: the update completes in both states alike, or raises the same fault in both. -/
theorem cincDependsOnTheModelAlone : Obligations.CincDependsOnTheModelAlone := by
  intro s u sym hps hpu hK hSL hESC hparams hhist hctx hnctx
  have h : SameTree s u := ⟨hctx.symm, hnctx.symm, hparams.symm, hESC.symm, hSL.symm⟩
  have hK' : u.K = s.K := congrArg BitVec.toInt hK.symm
  have hSL' : u.SL = s.SL := congrArg BitVec.toNat hSL.symm
  by_cases hs : sym.toNat < s.SL
  · have hu : sym.toNat < u.SL := hSL' ▸ hs
    cases hv : updateContexts sym.toNat s with
    | done _ v =>
      have onSelf := updateContexts_on rfl rfl rfl rfl rfl rfl rfl hv
      have onOther := updateContexts_on h.ctx h.nctx h.params h.crEsc h.crSl hK' hhist.symm hv
      exact .inl ⟨v.ctx, v.nctx, exec_cinc_done hps hs onSelf, exec_cinc_done hpu hu onOther⟩
    | stop w v =>
      obtain ⟨c, n, v', rfl, hv'⟩ := h.updateContexts_stop hK' hhist.symm hv
      exact .inr ⟨c, n, s, u, exec_cinc_raised hps hs hv, exec_cinc_raised hpu hu hv'⟩
  · have hge : s.SL ≤ sym.toNat := Nat.not_lt.mp hs
    exact .inr ⟨.symbol, sym.toNat, s, u, exec_cinc_symbol hps hge, exec_cinc_symbol hpu (hSL' ▸ hge)⟩

end Sys2Proof.Machine
end

section
/-! The range coder (43_range_coder.md): the arithmetic of narrowing and of the E3 step, the tail bits, `FINISH` and
`RCRD`. -/

namespace Sys2Proof.Machine

/-! ### Narrowing and the symbol search (R163, R164, R173 to R175) -/

/-- Settles O34: the range at rest exceeds every usable total, and lies within 2^P. -/
theorem narrowingStaysInside : Obligations.NarrowingStaysInside := by
  intro P low high total cl ch hP hr hc hch ht
  obtain ⟨hmin, hmax, hle, -⟩ := restInterval_range hP hr
  have hprod : ch * (high - low + 1) ≤ 2 ^ (2 * P - 2) :=
    calc ch * (high - low + 1) ≤ 2 ^ (P - 2) * 2 ^ P := Nat.mul_le_mul (hch.trans ht) hmax
      _ = 2 ^ (2 * P - 2) := by rw [← pow_add]; congr 1; omega
  exact ⟨hmin, Nat.mul_le_mul_right _ hc.le, hprod, narrow_inside hle (by omega) hc hch⟩

/-- Settles O35: the search finds an interval that holds the value, and no two symbols' intervals meet. -/
theorem findSymbolIsTheUniqueOne : Obligations.FindSymbolIsTheUniqueOne := by
  intro s t value hw hv
  have hfound := s.findSymbol_spec t hw hv
  exact ⟨hfound, fun _ _ hlow hhigh => s.interval_unique t hw ⟨hlow, hhigh⟩ hfound.2⟩

/-- Settles O36: that `code` lies in the interval and the total is positive is enough. -/
theorem decodedValueKeepsCodeInside : Obligations.DecodedValueKeepsCodeInside := by
  intro _ _ _ _ _ _ _ _ _ hlow hhigh ht _
  exact ⟨decodeValue_lt hlow hhigh ht, narrow_holds_code hlow hhigh ht⟩

/-! ### The encoder's E3 step (R166, R169) -/

theorem xor_two_pow_of_lt {k r : Nat} (h : r < 2 ^ k) : r ^^^ 2 ^ k = 2 ^ k + r := by
  rw [← Nat.div_add_mod (r ^^^ 2 ^ k) (2 ^ k), Nat.xor_div_two_pow, Nat.xor_mod_two_pow, Nat.div_eq_of_lt h,
    Nat.mod_eq_of_lt h, Nat.div_self (Nat.two_pow_pos k), Nat.mod_self, Nat.zero_xor, Nat.xor_zero, Nat.mul_one]

theorem two_pow_add_xor_of_lt {k r : Nat} (h : r < 2 ^ k) : (2 ^ k + r) ^^^ 2 ^ k = r := by
  rw [← xor_two_pow_of_lt h, Nat.xor_xor_cancel_right]

theorem or_two_pow_of_lt {k r : Nat} (h : r < 2 ^ k) : r ||| 2 ^ k = 2 ^ k + r := by
  rw [Nat.or_comm, ← Nat.mul_one (2 ^ k), ← Nat.two_pow_add_eq_or_of_lt h]

/-- The bitwise form of the E3 shift of `low`, which begins 01 (R169). -/
theorem shiftE3_low_bits {P x : Nat} (hP : 2 ≤ P) (h1 : 2 ^ (P - 2) ≤ x) (h2 : x < 2 ^ (P - 1)) :
    (x * 2 % 2 ^ P) ^^^ 2 ^ (P - 1) = shiftE3 P x false := by
  obtain ⟨k, rfl⟩ : ∃ k, P = k + 1 := ⟨P - 1, by omega⟩
  have hhalf : 2 ^ k = 2 * 2 ^ (k - 1) := by rw [← pow_succ']; congr 1; omega
  obtain ⟨r, rfl⟩ := Nat.exists_eq_add_of_le h1
  simp only [Nat.add_sub_cancel, show k + 1 - 2 = k - 1 by omega] at *
  have hx : (2 ^ (k - 1) + r) * 2 % 2 ^ (k + 1) = 2 ^ k + 2 * r := by
    rw [Nat.mod_eq_of_lt (by rw [pow_succ]; omega)]
    omega
  rw [hx, two_pow_add_xor_of_lt (by omega), shiftE3, Nat.add_sub_cancel, Bool.toNat_false]
  omega

/-- The bitwise form of the E3 shift of `high`, which begins 10 (R169). -/
theorem shiftE3_high_bits {P x : Nat} (hP : 2 ≤ P) (h1 : 2 ^ (P - 1) ≤ x) (h2 : x < 3 * 2 ^ (P - 2)) :
    ((x ^^^ 2 ^ (P - 1)) * 2 % 2 ^ P) ||| 2 ^ (P - 1) ||| 1 = shiftE3 P x true := by
  obtain ⟨k, rfl⟩ : ∃ k, P = k + 1 := ⟨P - 1, by omega⟩
  have hhalf : 2 ^ k = 2 * 2 ^ (k - 1) := by rw [← pow_succ']; congr 1; omega
  obtain ⟨r, rfl⟩ := Nat.exists_eq_add_of_le h1
  simp only [Nat.add_sub_cancel, show k + 1 - 2 = k - 1 by omega] at *
  have heven : 2 ^ k + r * 2 = 2 ^ 1 * (2 ^ (k - 1) + r) := by omega
  rw [two_pow_add_xor_of_lt (by omega), Nat.mod_eq_of_lt (by rw [pow_succ]; omega), or_two_pow_of_lt (by omega), heven,
    ← Nat.two_pow_add_eq_or_of_lt (by decide), shiftE3, Nat.add_sub_cancel, Bool.toNat_true]
  omega

theorem stepE3_enc_full {s : State} (hm : s.mode = .enc) (hp : s.pending.toNat = Config.pendMax) :
    stepE3 s = .stop (.raised .pending 0) s := by
  simp only [stepE3, hm, deferBit, if_pos hp, Res.stop_andThen]

theorem stepE3_enc_room {s : State} (hm : s.mode = .enc) (hp : s.pending.toNat ≠ Config.pendMax) :
    stepE3 s = .done () ({ s with pending := s.pending + 1 } : State).shiftInterval3 := by
  simp only [stepE3, hm, deferBit, if_neg hp, Res.done_andThen]

/-- Settles O37, by the room in `pending`. -/
theorem underflowStepOfTheEncoder : Obligations.UnderflowStepOfTheEncoder := by
  intro s hm hP _
  refine ⟨stepE3_enc_full hm, fun hp hl1 hl2 hh1 hh2 => ?_⟩
  rw [stepE3_enc_room hm hp, shiftE3_low_bits hP hl1 hl2, shiftE3_high_bits hP hh1 hh2]
  rfl

/-! ### Tail bits (R167) -/

/-- Settles O38: past the end there is no bit to read, and the tail bit is counted. -/
theorem tailBitsAreZerosAndCounted : Obligations.TailBitsAreZerosAndCounted := by
  intro s h0 he
  have hread : readCodeBit s = .done false s.countTailbit := by
    rw [readCodeBit, readBit_ended h0 he, Res.done_andThen]
  refine ⟨fun hroom => ?_, fun hfull => ?_⟩
  · rw [hread, State.countTailbit, if_pos hroom]
  · rw [hread, State.countTailbit, if_neg (by omega)]

/-! ### The acceptance of the coder's commands (30_encoding.md R90) -/

theorem State.accepts_of_enc {s : State} {op : Opcode} (hp : s.phase = .run) (hm : s.mode = .enc)
    (h : acceptsEnc op = true) : s.accepts op = true := by
  simp only [State.accepts, hp, hm, h, Bool.or_true]

theorem State.accepts_of_dec {s : State} {op : Opcode} (hp : s.phase = .run) (hm : s.mode = .dec)
    (h : acceptsDec s.codeValid op = true) : s.accepts op = true := by
  simp only [State.accepts, hp, hm, h, Bool.or_true]

/-! ### `FINISH` (R171) -/

/-- `FINISH` is `BWR 1` in an encoder run. -/
theorem exec_finish {s : State} (hp : s.phase = .run) (hm : s.mode = .enc) :
    exec .finish s = exec (.bwr true) s := by
  rw [exec_accepted (i := .finish) rfl (State.accepts_of_enc hp hm rfl),
    exec_accepted (i := .bwr true) rfl (State.accepts_of_enc hp hm rfl)]
  rfl

/-- Settles O41, from the answers of `BWR 1`. -/
theorem finishWritesOneBit : Obligations.FinishWritesOneBit := by
  intro s hp hm
  rw [exec_finish hp hm]
  exact bwrWritesOneBit s true hp hm

/-! ### `RCRD` (R176) -/

theorem exec_rcrd {s : State} {r : SymField} (hp : s.hasRun) (hr : coderIndexLegal r = true) :
    exec (.rcrd r) s = .next (s.respond (.ok ((s.coderReg r).zeroExtend 64))) :=
  exec_done hr (State.accepts_of_hasRun hp rfl) rfl

theorem phase_ne_fault_of_hasRun {s : State} (hp : s.hasRun) : s.phase ≠ .fault := by
  obtain hrun | hclosed := hp
  · rw [hrun]; decide
  · rw [hclosed]; decide

/-- Settles O44, by the index. -/
theorem rcrdReadsTheCoder : Obligations.RcrdReadsTheCoder := by
  intro s r hp
  refine ⟨exec_rcrd hp rfl, exec_rcrd hp rfl, exec_rcrd hp rfl, exec_rcrd hp rfl, fun hr => ?_, fun hc hm => ?_,
    fun hc hm => ?_⟩
  · have hill : (Instr.rcrd r).wellFormed = false := decide_eq_false (Nat.not_le.mpr hr)
    rw [exec_eq, runCommand_illegal (phase_ne_fault_of_hasRun hp) hill]
    rfl
  · have hcode : s.coderReg 2 = 0 := (hc.1 hm).1
    rw [exec_rcrd hp rfl, hcode]
    rfl
  · have hpending : s.coderReg 3 = 0 := hc.2.2 hm
    rw [exec_rcrd hp rfl, hpending]
    rfl

end Sys2Proof.Machine
end

section
/-! The commands that code a symbol (43_range_coder.md R160, R170, R173; 44_symbol_driver.md R191, R195): the checks
before their first coding step, and `NARROW` wherever it ends. -/

namespace Sys2Proof.Machine

/-! ### The commands around their coding steps (R170, R172, R173; 44_symbol_driver.md R191, R195) -/

/-- `NARROW` on a table (R170). -/
def narrowOn (sym : SymField) (t : TableRef) (s : State) : Res Response :=
  (codeStep t sym.toNat s).andThen fun _ u => .done (.okNat 0) u

theorem tableCommand_narrow {s : State} {o : Order} (sym : SymField) (hp : s.phase = .run) (hm : s.mode = .enc)
    (ho : -1 ≤ o.toInt) : TableCommand (.narrow o sym) s o sym (narrowOn sym) :=
  ⟨order_legal_of_le ho, State.accepts_of_enc hp hm rfl, rfl⟩

section

variable {s u : State} {o : Order} {sym : SymField} {t : TableRef} {w : Stop} (hp : s.phase = .run)
  (hm : s.mode = .enc) (ho : -1 ≤ o.toInt) (hs : sym.toNat < s.SL) (ht : s.resolve o.toInt = some t)

include hp hm ho hs ht

theorem exec_narrow : exec (.narrow o sym) s = .next (finishCommand (narrowOn sym t s)) := by
  have hn := tableCommand_narrow sym hp hm ho
  rw [exec_accepted hn.legal hn.accepted, hn.body_resolved hs ht]

theorem exec_narrow_done (h : codeStep t sym.toNat s = .done () u) :
    exec (.narrow o sym) s = .next (u.okNat 0) := by
  rw [exec_narrow hp hm ho hs ht, narrowOn, h]
  rfl

theorem exec_narrow_stop (h : codeStep t sym.toNat s = .stop w u) :
    exec (.narrow o sym) s = .next (finishCommand (.stop w u)) := by
  rw [exec_narrow hp hm ho hs ht, narrowOn, h, Res.stop_andThen]

end

/-- `DECODE` on a table (R173). -/
def decodeOn (t : TableRef) (s : State) : Res Response :=
  (decodeWith t s).andThen fun sym u => .done (.okNat sym) u

section

variable {s u : State} {o : Order} {t : TableRef} {sym : Nat} {w : Stop} (hp : s.phase = .run) (hm : s.mode = .dec)
  (hv : s.codeValid = true) (ho : -1 ≤ o.toInt)

include hp hm hv ho

theorem exec_decode_table : exec (.decode o) s = .next (finishCommand (withTable o s decodeOn)) :=
  exec_accepted (order_legal_of_le ho) (State.accepts_of_dec hp hm hv)

theorem exec_decode_absent (ht : s.resolve o.toInt = none) : exec (.decode o) s = .next (s.respond .absent) := by
  rw [exec_decode_table hp hm hv ho, withTable_none ht]
  rfl

theorem exec_decode_done (ht : s.resolve o.toInt = some t) (h : decodeWith t s = .done sym u) :
    exec (.decode o) s = .next (u.okNat sym) := by
  rw [exec_decode_table hp hm hv ho, withTable_some ht, decodeOn, h]
  rfl

theorem exec_decode_stop (ht : s.resolve o.toInt = some t) (h : decodeWith t s = .stop w u) :
    exec (.decode o) s = .next (finishCommand (.stop w u)) := by
  rw [exec_decode_table hp hm hv ho, withTable_some ht, decodeOn, h, Res.stop_andThen]

end

theorem body_encsym (sym : SymField) (s : State) :
    body (.encsym sym) s = withSymbol sym s fun s =>
      (encodeSearch sym.toNat (s.hlen + 1) s).andThen fun _ s =>
        (updateModel sym.toNat s).andThen fun _ s => .done (.okNat 0) s := rfl

theorem exec_encsym_stop {s u : State} {sym : SymField} {w : Stop} (hp : s.phase = .run) (hm : s.mode = .enc)
    (hs : sym.toNat < s.SL) (h : encodeSearch sym.toNat (s.hlen + 1) s = .stop w u) :
    exec (.encsym sym) s = .next (finishCommand (.stop w u)) := by
  rw [exec_accepted (i := .encsym sym) rfl (State.accepts_of_enc hp hm rfl), body_encsym, withSymbol_lt hs, h,
    Res.stop_andThen]

theorem body_decsym (s : State) :
    body .decsym s = (decodeSearch (s.hlen + 1) s).andThen fun sym s =>
      (updateModel sym s).andThen fun _ s => .done (.okNat sym) s := rfl

theorem exec_decsym_stop {s u : State} {w : Stop} (hp : s.phase = .run) (hm : s.mode = .dec) (hv : s.codeValid = true)
    (h : decodeSearch (s.hlen + 1) s = .stop w u) : exec .decsym s = .next (finishCommand (.stop w u)) := by
  rw [exec_accepted (i := .decsym) rfl (State.accepts_of_dec hp hm hv), body_decsym, h, Res.stop_andThen]

/-! ### The checks of a coding step (R162, R164, R173; 60_exceptions.md R238) -/

theorem codeStep_large {t : TableRef} {s : State} (sym : Nat) (h : s.quarter < s.total t) :
    codeStep t sym s = .stop (.raised .total (s.total t)) s :=
  if_pos h

theorem codeStep_zeroFreq {t : TableRef} {sym : Nat} {s : State} (ht : s.total t ≤ s.quarter) (h : s.get t sym = 0) :
    codeStep t sym s = .stop (.raised .zeroFreq sym) s := by
  have hempty : s.cumLow t sym = s.cumHigh t sym := by rw [s.cumHigh_eq, h, Nat.add_zero]
  unfold codeStep
  simp only
  rw [if_neg (Nat.not_lt.mpr ht), if_pos hempty]

theorem State.truncated_of_le {s : State} {n : Nat} (hn : s.params.truncLimit = some n) (h : n ≤ s.tailbits.toNat) :
    s.truncated = true := by
  rw [State.truncated, hn]
  exact decide_eq_true h

theorem State.not_truncated {s : State} (h : ∀ n, s.params.truncLimit = some n → s.tailbits.toNat < n) :
    s.truncated = false := by
  unfold State.truncated
  cases hl : s.params.truncLimit with
  | none => rfl
  | some n => exact decide_eq_false (Nat.not_le.mpr (h n hl))

theorem decodeWith_truncated {s : State} (t : TableRef) (h : s.truncated = true) :
    decodeWith t s = .stop (.raised .truncated (min s.tailbits.toNat (2 ^ 32 - 1))) s :=
  if_pos h

theorem decodeWith_large {t : TableRef} {s : State} (htr : s.truncated = false) (h : s.quarter < s.total t) :
    decodeWith t s = .stop (.raised .total (s.total t)) s := by
  unfold decodeWith
  simp only [htr, Bool.false_eq_true, if_false]
  rw [if_pos h]

/-! ### The first coding step of the composite commands (44_symbol_driver.md R191, R193, R195) -/

/-- The encoder's search passes over the orders that have no context. -/
theorem encodeSearch_skip {sym n : Nat} {s : State} : ∀ {k : Nat}, n < k →
    (∀ m : Nat, n < m → m < k → s.resolve m = none) → encodeSearch sym k s = encodeSearch sym (n + 1) s
  | 0, hk, _ => absurd hk (Nat.not_lt_zero n)
  | k + 1, hk, h => by
    obtain rfl | hlt := Nat.eq_or_lt_of_le (Nat.le_of_lt_succ hk)
    · rfl
    · have hstep : encodeSearch sym (k + 1) s = encodeSearch sym k s := by
        rw [encodeSearch, h k hlt (Nat.lt_succ_self k)]
      exact hstep.trans (encodeSearch_skip hlt fun m hm hmk => h m hm (Nat.lt_succ_of_lt hmk))

/-- The decoder's search passes over the orders that have no context. -/
theorem decodeSearch_skip {n : Nat} {s : State} : ∀ {k : Nat}, n < k →
    (∀ m : Nat, n < m → m < k → s.resolve m = none) → decodeSearch k s = decodeSearch (n + 1) s
  | 0, hk, _ => absurd hk (Nat.not_lt_zero n)
  | k + 1, hk, h => by
    obtain rfl | hlt := Nat.eq_or_lt_of_le (Nat.le_of_lt_succ hk)
    · rfl
    · have hstep : decodeSearch (k + 1) s = decodeSearch k s := by
        rw [decodeSearch, h k hlt (Nat.lt_succ_self k)]
      exact hstep.trans (decodeSearch_skip hlt fun m hm hmk => h m hm (Nat.lt_succ_of_lt hmk))

/-- In a context whose total is too large, the encoder's search raises E_TOTAL, whichever symbol it codes. -/
theorem encodeSearch_large {sym n : Nat} {t : TableRef} {s : State} (ht : s.resolve n = some t)
    (h : s.quarter < s.total t) : encodeSearch sym (n + 1) s = .stop (.raised .total (s.total t)) s := by
  rw [encodeSearch, ht]
  simp only [codeStep_large _ h, Res.stop_andThen, ite_self]

/-- Where the encoder's search must escape and ESC has count 0, it raises E_ZEROFREQ. -/
theorem encodeSearch_zeroFreq {sym n : Nat} {t : TableRef} {s : State} (ht : s.resolve n = some t)
    (hq : s.total t ≤ s.quarter) (hesc : sym = s.ESC ∨ s.get t sym = 0) (h : s.get t s.ESC = 0) :
    encodeSearch sym (n + 1) s = .stop (.raised .zeroFreq s.ESC) s := by
  have hescapes : ¬ (sym ≠ s.ESC ∧ 0 < s.get t sym) := by omega
  rw [encodeSearch, ht]
  simp only [if_neg hescapes, codeStep_zeroFreq hq h, Res.stop_andThen]

theorem decodeSearch_large {n : Nat} {t : TableRef} {s : State} (ht : s.resolve n = some t)
    (htr : s.truncated = false) (h : s.quarter < s.total t) :
    decodeSearch (n + 1) s = .stop (.raised .total (s.total t)) s := by
  rw [decodeSearch, ht]
  simp only [decodeWith_large htr h, Res.stop_andThen]

/-- Past the truncation limit the first decoding step raises E_TRUNCATED, whatever table it would use. -/
theorem decodeSearch_truncated {s : State} (h : s.truncated = true) : ∀ k,
    decodeSearch k s = .stop (.raised .truncated (min s.tailbits.toNat (2 ^ 32 - 1))) s
  | 0 => decodeWith_truncated .flat h
  | k + 1 => by
    rw [decodeSearch]
    cases s.resolve k with
    | none => exact decodeSearch_truncated h k
    | some t => simp only [decodeWith_truncated t h, Res.stop_andThen]

/-- Settles O40, check by check, in the order of R235. -/
theorem codingStepChecks : Obligations.CodingStepChecks := by
  intro s hp
  refine ⟨fun o ho habs => ⟨fun sym hm hs => ?_, fun hm hv => ?_⟩, fun o t ho ht => ⟨fun sym hm hs => ⟨fun hq => ?_,
    fun hq h0 => ?_⟩, fun hm hv => ⟨fun n hn hle => ?_, fun hlim hq => ?_⟩⟩, fun n t hn ht hdeep => ?_,
    fun n hm hv hn hle => ?_⟩
  · exact (tableCommand_narrow sym hp hm ho).absent hs habs
  · exact exec_decode_absent hp hm hv ho habs
  · exact exec_narrow_stop hp hm ho hs ht (codeStep_large _ hq)
  · exact exec_narrow_stop hp hm ho hs ht (codeStep_zeroFreq hq h0)
  · exact exec_decode_stop hp hm hv ho ht (decodeWith_truncated t (State.truncated_of_le hn hle))
  · exact exec_decode_stop hp hm hv ho ht (decodeWith_large (State.not_truncated hlim) hq)
  · have hlt : n < s.hlen + 1 := Nat.lt_succ_of_le hn
    have hskip : ∀ m : Nat, n < m → m < s.hlen + 1 → s.resolve m = none := fun m hm hmk =>
      hdeep m hm (Nat.le_of_lt_succ hmk)
    refine ⟨fun sym hm hs => ⟨fun hq => ?_, fun hq hesc h0 => ?_⟩, fun hm hv hlim hq => ?_⟩
    · exact exec_encsym_stop hp hm hs ((encodeSearch_skip hlt hskip).trans (encodeSearch_large ht hq))
    · exact exec_encsym_stop hp hm hs ((encodeSearch_skip hlt hskip).trans (encodeSearch_zeroFreq ht hq hesc h0))
    · exact exec_decsym_stop hp hm hv
        ((decodeSearch_skip hlt hskip).trans (decodeSearch_large ht (State.not_truncated hlim) hq))
  · exact exec_decsym_stop hp hm hv (decodeSearch_truncated (State.truncated_of_le hn hle) _)

/-! ### `NARROW` (R160, R161, R165, R168 to R170) -/

theorem Word.eq_ofNat {w : Word} {n : Nat} (h : w.toNat = n) : w = BitVec.ofNat 32 n := by
  rw [← h, BitVec.ofNat_toNat, BitVec.setWidth_eq]

/-- The state that the encoder's steps leave, from the bounds a coding step narrowed to (R165, R168, R169). -/
theorem EncAt.eq {s u : State} {t : TableRef} {sym a b : Nat}
    (n : Narrowed s t sym (s.narrowTo (s.total t) (s.cumLow t sym) (s.cumHigh t sym)))
    (h : EncAt (s.narrowTo (s.total t) (s.cumLow t sym) (s.cumHigh t sym)) a b u) :
    u = { s with
      low := BitVec.ofNat 32 (shifted s.P a b (narrowLow s.low.toNat s.high.toNat (s.total t) (s.cumLow t sym)) false)
      high := BitVec.ofNat 32 (shifted s.P a b (narrowHigh s.low.toNat s.high.toNat (s.total t) (s.cumHigh t sym)) true)
      pending := BitVec.ofNat 32 ((if a = 0 then s.pending.toNat else 0) + b)
      wbuf := u.wbuf, wcnt := u.wcnt, sink := u.sink, calls := u.calls } := by
  have hl := h.norm.hL
  have hh := h.norm.hH
  rw [n.low, State.narrowTo_P] at hl
  rw [n.high, State.narrowTo_P] at hh
  have hp : u.pending.toNat = (if a = 0 then s.pending.toNat else 0) + b := h.pending
  rw [← Word.eq_ofNat hl, ← Word.eq_ofNat hh, ← Word.eq_ofNat hp]
  exact State.eq_of_sansWriter h.wrote.same

/-- The writer that the encoder's steps leave (R101, R168). -/
theorem EncAt.writer {s u : State} {t : TableRef} {sym a b : Nat}
    (n : Narrowed s t sym (s.narrowTo (s.total t) (s.cumLow t sym) (s.cumHigh t sym)))
    (h : EncAt (s.narrowTo (s.total t) (s.cumLow t sym) (s.cumHigh t sym)) a b u) :
    WriterAfter s
      (emitted s.P a (narrowLow s.low.toNat s.high.toNat (s.total t) (s.cumLow t sym)) s.pending.toNat) u := by
  have hw := h.wrote.after
  rw [n.low] at hw
  exact ⟨hw.stream, hw.wcnt, hw.wbuf, hw.calls, hw.sink⟩

/-- What the sink has been handed of the bytes due, and what it has left, after the `k`-th answer. -/
structure AfterHanding (s u : State) (due : List Byte) (k : Nat) : Prop where
  sink  : u.sink = s.sink.drop (k + 1)
  calls : u.calls = s.calls ++ taken (due.take k) ++ [.outByte (due.getD k 0) (s.sink.getD k .ok)]

/-- The state once the sink has answered for the `k`-th of the bytes due, having taken those before it. -/
def State.handedUpTo (s : State) (due : List Byte) (k : Nat) : State :=
  { s with
    sink := s.sink.drop (k + 1)
    calls := s.calls ++ taken (due.take k) ++ [.outByte (due.getD k 0) (s.sink.getD k .ok)] }

/-- A sink that fails ends the command in E_IO_WRITE; what was encoded is lost (60_exceptions.md R240). -/
theorem AfterHanding.raised {s u : State} {due : List Byte} {k : Nat} (h : AfterHanding s u due k)
    (he : Encodes s u) : finishCommand (.stop OutAnswer.err.stop u) = (s.handedUpTo due k).raise .ioWrite 0 := by
  rw [OutAnswer.stop, finishCommand, he.raise, h.sink, h.calls]
  rfl

/-- A sink that does not answer leaves the command waiting. -/
theorem AfterHanding.waits {s u : State} {due : List Byte} {k : Nat} (h : AfterHanding s u due k)
    (he : Encodes s u) : finishCommand (.stop OutAnswer.never.stop u) = { s.handedUpTo due k with
      busy := some .output, low := u.low, high := u.high, pending := u.pending, wbuf := u.wbuf, wcnt := u.wcnt } := by
  have heq := State.eq_of_sansEnc he.same
  rw [h.sink, h.calls] at heq
  exact congrArg (fun v : State => { v with busy := some .output }) heq

/-- Settles O39: the coding step completes, or stops at a byte of the sink, or at PEND_MAX. -/
theorem narrowEncodesTheSymbol : Obligations.NarrowEncodesTheSymbol := by
  intro s o sym t hp hm ho hs hlegal hr hw ht hq hg l h
  obtain ⟨hP, hP', -⟩ := hlegal
  have hcum := s.cumHigh_eq t sym.toNat
  have hn := s.narrowed hP hP' hr hw hs hq (by omega)
  have henc := codeStep_encodes t sym.toNat hm
  obtain ⟨a, b, hsteps, hdone, hsink, hpending⟩ := codeStep_enc_outcome hP hP' hm hr hw hs hq hg
  refine ⟨a, b, hsteps, fun htakes hroom => ?_, fun k hk htakes => ?_, fun ha hmax => ?_⟩
  · obtain ⟨u, hu, hat⟩ := hdone htakes hroom
    have hwriter := hat.writer hn
    exact ⟨u.okNat 0, exec_narrow_done hp hm ho hs ht hu, congrArg (State.okNat · 0) (hat.eq hn),
      ⟨hwriter.stream, hwriter.wcnt, hwriter.wbuf, hwriter.calls, hwriter.sink⟩⟩
  · have hstop : ∀ x, x ≠ .ok → s.sink.getD k .ok = x → ∃ u,
        exec (.narrow o sym) s = .next (finishCommand (.stop x.stop u)) ∧ Encodes s u ∧
          AfterHanding s u (s.bytesDue (emitted s.P a l s.pending.toNat)) k := fun x hx ha => by
      obtain ⟨u, hu, hus, huc⟩ := hsink k htakes hk (ha ▸ hx)
      rw [hu] at henc
      rw [ha] at hu
      exact ⟨u, exec_narrow_stop hp hm ho hs ht hu, henc, hus, huc⟩
    refine ⟨fun herr => ?_, fun hnever => ?_⟩
    · obtain ⟨u, hu, hsame, hafter⟩ := hstop .err nofun herr
      rw [hu, hafter.raised hsame]
      rfl
    · obtain ⟨u, hu, hsame, hafter⟩ := hstop .never nofun hnever
      exact ⟨_, hu, hafter.waits hsame⟩
  · obtain ⟨u, hu, hus, huc⟩ := hpending ha hmax
    rw [hu, Res.final_stop] at henc
    rw [exec_narrow_stop hp hm ho hs ht hu, finishCommand, henc.raise, hus, huc]

end Sys2Proof.Machine
end

section
/-! The decoder's commands of the range coder (43_range_coder.md R172 to R175): `DINIT` and `DECODE` wherever they end,
and that `DECODE` answers what `NARROW` coded. -/

namespace Sys2Proof.Machine

/-! ### Where the source is asked and does not answer (R167; 20_memory.md R67) -/

/-- The state once the source has answered `k + 1` requests. -/
def State.askedUpTo (s : State) (k : Nat) : State :=
  { s with input := s.input.drop (k + 1), calls := s.calls ++ (s.input.take (k + 1)).map .inByte }

/-- A source that fails ends the command in E_IO_READ; what was read and decoded is lost (60_exceptions.md R240). -/
theorem AfterAsking.raised {s u : State} {k : Nat} (h : AfterAsking s u k) (hd : Decodes s u) :
    finishCommand (.stop InAnswer.err.stop u) = (s.askedUpTo k).raise .ioRead 0 := by
  rw [InAnswer.stop, finishCommand, hd.raise, h.input, h.calls]
  rfl

/-- A source that does not answer leaves the command waiting. -/
theorem AfterAsking.waits {s u : State} {k : Nat} (h : AfterAsking s u k) (hd : Decodes s u) :
    finishCommand (.stop InAnswer.never.stop u) = { s.askedUpTo k with
      busy := some .input, low := u.low, high := u.high, code := u.code, rbuf := u.rbuf, rcnt := u.rcnt } := by
  have heq := State.eq_of_sansDec hd.same
  rw [h.eos, h.tailbits, h.input, h.calls] at heq
  exact congrArg (fun v : State => { v with busy := some .input }) heq

/-! ### `DINIT` (R172) -/

theorem body_dinit (s : State) :
    body .dinit s =
      (loadCode s.P (s.setCode 0)).andThen fun _ u => .done (.okNat 0) { u with codeValid := true } := rfl

theorem State.accepts_dinit {s : State} (hp : s.phase = .run) (hm : s.mode = .dec) (hv : s.codeValid = false) :
    s.accepts (Instr.dinit).opcode = true :=
  State.accepts_of_dec hp hm (by rw [hv]; rfl)

/-- Clearing `code` first changes nothing that decoding leaves alone. -/
theorem Decodes.of_setCode {s u : State} {c : Nat} (h : Decodes (s.setCode c) u) : Decodes s u := ⟨h.same, h.calls⟩

theorem exec_dinit_sequence {s : State} (hp : s.phase = .run) (hm : s.mode = .dec) (hv : s.codeValid = true) :
    exec .dinit s = .next (s.raise .sequence 0x42) := by
  have hrej : s.accepts (Instr.dinit).opcode = false := by
    simp [State.accepts, hp, hm, hv, Instr.opcode, acceptsRun, acceptsDec]
  rw [exec_eq, runCommand_sequence (by rw [hp]; decide) rfl hrej]
  rfl

/-- Settles O42: loading the P bits completes, or stops at a request that the source does not answer. -/
theorem dinitLoadsTheCode : Obligations.DinitLoadsTheCode := by
  intro s hp hm hP
  refine ⟨exec_dinit_sequence hp hm, fun hv k hasks => ?_, fun hv hsource => ?_⟩
  · have hstop : ∀ x, x = .err ∨ x = .never → s.input[k]? = some x → ∃ u,
        exec .dinit s = .next (finishCommand (.stop x.stop u)) ∧ Decodes s u ∧ AfterAsking s u k ∧
          u.low = s.low ∧ u.high = s.high := fun x hx ha => by
      have hask : AsksFor s k x s.P := ⟨hasks, ha, hx⟩
      have hdec := loadCode_decodes s.P (s.setCode 0)
      have hbounds := loadCode_bounds s.P (s.setCode 0)
      obtain ⟨u, hu, hafter⟩ := loadCode_asks s.P (hask.congr (u := s.setCode 0) rfl rfl rfl)
      rw [hu] at hdec hbounds
      refine ⟨u, ?_, hdec.of_setCode, ⟨hafter.input, hafter.calls, hafter.eos, hafter.tailbits⟩, hbounds⟩
      rw [exec_accepted rfl (State.accepts_dinit hp hm hv), body_dinit, hu, Res.stop_andThen]
    refine ⟨fun herr => ?_, fun hnever => ?_⟩
    · obtain ⟨u, hu, hdec, hafter, -⟩ := hstop .err (.inl rfl) herr
      rw [hu, hafter.raised hdec]
      rfl
    · obtain ⟨u, hu, hdec, hafter, hlow, hhigh⟩ := hstop .never (.inr rfl) hnever
      have hwaits := hafter.waits hdec
      rw [hlow, hhigh] at hwaits
      exact ⟨_, hu, hwaits⟩
  · obtain ⟨u, hu⟩ := loadCode_answers s.P (s.setCode 0) (hsource.congr rfl rfl rfl)
    obtain ⟨hcode, htook⟩ := loadCode_done s.P (s.setCode 0) u hu hP (by simp)
    have hzero : (s.setCode 0).code.toNat = 0 := rfl
    rw [hzero, Nat.zero_mul, Nat.zero_add] at hcode
    have heq := State.eq_of_sansReader htook.reads.same
    rw [Word.eq_ofNat hcode] at heq
    refine ⟨({ u with codeValid := true } : State).okNat 0, exec_done rfl (State.accepts_dinit hp hm hv) ?_,
      congrArg (fun v : State => ({ v with codeValid := true } : State).okNat 0) heq,
      ⟨htook.reader.rbuf, htook.reader.rcnt, htook.reader.eos, htook.reader.input, htook.reader.calls⟩,
      htook.left, htook.tail⟩
    rw [body_dinit, hu, Res.done_andThen]

/-! ### `DECODE` (R173 to R175, R165 to R169) -/

/-- The state that the decoder's steps leave, from the bounds a coding step narrowed to (R165, R168, R169). -/
theorem DecAt.eq {s u : State} {t : TableRef} {sym a b : Nat}
    (n : Narrowed s t sym (s.narrowTo (s.total t) (s.cumLow t sym) (s.cumHigh t sym)))
    (h : DecAt (s.narrowTo (s.total t) (s.cumLow t sym) (s.cumHigh t sym)) a b u) :
    u = { s with
      low := BitVec.ofNat 32 (shifted s.P a b (narrowLow s.low.toNat s.high.toNat (s.total t) (s.cumLow t sym)) false)
      high := BitVec.ofNat 32 (shifted s.P a b (narrowHigh s.low.toNat s.high.toNat (s.total t) (s.cumHigh t sym)) true)
      code := BitVec.ofNat 32
        (((s.code.toNat * 2 ^ a) % 2 ^ s.P + numOfBits ((s.codeBits (a + b)).take a)) * 2 ^ b -
          2 ^ (s.P - 1) * (2 ^ b - 1) + numOfBits ((s.codeBits (a + b)).drop a))
      eos := u.eos, tailbits := u.tailbits, rbuf := u.rbuf, rcnt := u.rcnt, input := u.input, calls := u.calls } := by
  have hl := h.norm.hL
  have hh := h.norm.hH
  rw [n.low, State.narrowTo_P] at hl
  rw [n.high, State.narrowTo_P] at hh
  have hc : u.code.toNat = ((s.code.toNat * 2 ^ a) % 2 ^ s.P + numOfBits ((s.codeBits (a + b)).take a)) * 2 ^ b -
      2 ^ (s.P - 1) * (2 ^ b - 1) + numOfBits ((s.codeBits (a + b)).drop a) := h.code
  rw [← Word.eq_ofNat hl, ← Word.eq_ofNat hh, ← Word.eq_ofNat hc]
  exact State.eq_of_sansReader h.took.reads.same

/-- Settles O43: the decoding step completes, or stops at a request that the source does not answer. -/
theorem decodeFindsTheSymbol : Obligations.DecodeFindsTheSymbol := by
  intro s o t hp hm hv ho hlegal hr hin hw ht ht1 hq hlim
  obtain ⟨hP, hP', -, -, hSL, -⟩ := hlegal
  obtain ⟨h1, h2⟩ := hin.2.1 hm hv
  obtain ⟨hsym, hlow, hhigh, -⟩ := s.findSymbol_inside hw h1 h2 ht1
  have hn := s.narrowed hP hP' hr hw hsym hq (Nat.lt_of_le_of_lt hlow hhigh)
  have hdec := decodeWith_decodes t hm
  obtain ⟨a, b, hsteps, hdone, hbad⟩ := decodeWith_asks hP hP' hm hr hw h1 h2 ht1 hq (State.not_truncated hlim)
  refine ⟨_, a, b, hsym, hlow, hhigh, hsteps, fun hsource => ?_, fun k hasks => ?_⟩
  · obtain ⟨u, hu, hat⟩ := hdone hsource
    obtain ⟨-, hrest, hcode⟩ := decodeWith_rest hP hP' hm hr hw hSL h1 h2 hu
    have hread := hat.took.reader
    exact ⟨u.okNat _, exec_decode_done hp hm hv ho ht hu, congrArg (State.okNat · _) (hat.eq hn), hrest, hcode.1,
      hcode.2, ⟨hread.rbuf, hread.rcnt, hread.eos, hread.input, hread.calls⟩, hat.took.left, hat.took.tail⟩
  · have hstop : ∀ x, x = .err ∨ x = .never → s.input[k]? = some x → ∃ u,
        exec (.decode o) s = .next (finishCommand (.stop x.stop u)) ∧ Decodes s u ∧ AfterAsking s u k :=
      fun x hx ha => by
        obtain ⟨u, hu, hafter⟩ := hbad k x ⟨hasks, ha, hx⟩
        rw [hu] at hdec
        exact ⟨u, exec_decode_stop hp hm hv ho ht hu, hdec, hafter⟩
    refine ⟨fun herr => ?_, fun hnever => ?_⟩
    · obtain ⟨u, hu, hsame, hafter⟩ := hstop .err (.inl rfl) herr
      rw [hu, hafter.raised hsame]
      rfl
    · obtain ⟨u, hu, hsame, hafter⟩ := hstop .never (.inr rfl) hnever
      exact ⟨_, hu, hafter.waits hsame⟩

/-! ### `DECODE` follows `NARROW` (R175) -/

theorem State.cumLow_of_ctx {s u : State} (t : TableRef) (sym : Nat) (h : u.ctx = s.ctx) :
    u.cumLow t sym = s.cumLow t sym := by
  cases t <;> simp only [State.cumLow, h]

theorem State.cumHigh_of_ctx {s u : State} (t : TableRef) (sym : Nat) (h : u.ctx = s.ctx) :
    u.cumHigh t sym = s.cumHigh t sym := by
  rw [u.cumHigh_eq, s.cumHigh_eq, State.cumLow_of_ctx t sym h, State.get_of_ctx t sym h]

/-- The bounds that a coding step leaves depend on the bounds it narrowed to, in either mode (R175). -/
theorem codeStep_bounds {t : TableRef} {sym : Nat} {s u : State} (h : codeStep t sym s = .done () u) :
    (u.low, u.high) = boundsLoop s.P (2 * s.P)
      (BitVec.ofNat 32 (narrowLow s.low.toNat s.high.toNat (s.total t) (s.cumLow t sym)))
      (BitVec.ofNat 32 (narrowHigh s.low.toNat s.high.toNat (s.total t) (s.cumHigh t sym))) := by
  obtain ⟨ht, hc⟩ := codeStep_checks h
  rw [codeStep_eq ht hc.ne] at h
  exact normalizeLoop_bounds h

/-- `NARROW` that completes made the coding step of its symbol (R170). -/
theorem exec_narrow_ran {s u : State} {o : Order} {sym : SymField} {t : TableRef} (ht : s.resolve o.toInt = some t)
    (h : exec (.narrow o sym) s = .next u) (hp : u.phase = .run) (hb : u.busy = none) :
    sym.toNat < s.SL ∧ ∃ v, codeStep t sym.toNat s = .done () v ∧ u = v.okNat 0 := by
  obtain ⟨-, -, r, v, hbody, rfl⟩ := exec_ran h (by rw [hp]; decide) hb
  obtain ⟨hs, hbody⟩ := withSymbol_done (k := fun s => withTable o s (narrowOn sym)) hbody
  rw [withTable_some ht] at hbody
  obtain ⟨_, w, hw, hbody⟩ := Res.andThen_eq_done hbody
  cases hbody
  exact ⟨hs, v, hw, rfl⟩

/-- The symbol that the decoder finds is the one whose narrowed interval holds `code` (R174, R175). -/
theorem State.findSymbol_eq_of_code {s : State} {t : TableRef} {sym : Nat} (hP : 2 ≤ s.P) (hr : s.IntervalAtRest)
    (hw : Memory.wf s.ctx = true) (hs : sym < s.SL) (hq : s.total t ≤ s.quarter) (h1 : s.low.toNat ≤ s.code.toNat)
    (hc : s.cumLow t sym < s.cumHigh t sym)
    (hlow : narrowLow s.low.toNat s.high.toNat (s.total t) (s.cumLow t sym) ≤ s.code.toNat)
    (hhigh : s.code.toNat ≤ narrowHigh s.low.toNat s.high.toNat (s.total t) (s.cumHigh t sym)) :
    s.findSymbol t (decodeValue s.low.toNat s.high.toNat s.code.toNat (s.total t)) = sym := by
  have hle := s.cumHigh_le_total t hw hs
  have hrange := (restInterval_range hP hr).1
  simp only [State.quarter] at hq
  have hval := value_of_code_inside h1 (by omega : 1 ≤ s.total t) (by omega) (by omega) hlow hhigh
  exact s.interval_unique t hw (s.findSymbol_spec t hw (Nat.lt_of_lt_of_le hval.2 hle)).2 hval

/-- With `code` in the interval that a symbol narrows to, the decoding step completes with that symbol (R175). -/
theorem decodeWith_of_code_inside {s : State} {t : TableRef} {sym : Nat} (hP : 2 ≤ s.P) (hP' : s.P ≤ 32)
    (hm : s.mode = .dec) (hr : s.IntervalAtRest) (hw : Memory.wf s.ctx = true) (hs : sym < s.SL)
    (hq : s.total t ≤ s.quarter) (hc : s.cumLow t sym < s.cumHigh t sym) (htr : s.truncated = false)
    (hlow : narrowLow s.low.toNat s.high.toNat (s.total t) (s.cumLow t sym) ≤ s.code.toNat)
    (hhigh : s.code.toNat ≤ narrowHigh s.low.toNat s.high.toNat (s.total t) (s.cumHigh t sym))
    (hsource : ∀ a b, NormSteps s.P (narrowLow s.low.toNat s.high.toNat (s.total t) (s.cumLow t sym))
      (narrowHigh s.low.toNat s.high.toNat (s.total t) (s.cumHigh t sym)) a b → s.sourceAnswers (a + b)) :
    ∃ u, decodeWith t s = .done sym u := by
  have hle := s.cumHigh_le_total t hw hs
  have n := s.narrowed hP hP' hr hw hs hq hc
  have h1 : s.low.toNat ≤ s.code.toNat := (n.low ▸ n.inL).trans hlow
  have h2 : s.code.toNat ≤ s.high.toNat := hhigh.trans (n.high ▸ n.inH)
  have hfound := State.findSymbol_eq_of_code hP hr hw hs hq h1 hc hlow hhigh
  obtain ⟨a, b, hsteps, hdone, -⟩ := decodeWith_asks hP hP' hm hr hw h1 h2 (by omega) hq htr
  rw [hfound] at hsteps hdone
  obtain ⟨u, hu, -⟩ := hdone (hsource a b hsteps)
  exact ⟨u, hu⟩

/-- Settles O45: `code` in the narrowed interval picks the same symbol, and both sides normalise alike. -/
theorem decodeMirrorsNarrow : Obligations.DecodeMirrorsNarrow := by
  intro e d te o sym t _ _ hp hm hv ho hcrP _ hcrSl _ elow ehigh ehist ectx hlegal hr hw ht hexec htp htb _ l h
    hlow hhigh hlim hsource
  obtain ⟨hs, v, hstep, rfl⟩ := exec_narrow_ran ht hexec htp htb
  have hbounds := codeStep_bounds hstep
  obtain ⟨hq, hc⟩ := codeStep_checks hstep
  obtain ⟨hP, hP', -⟩ := hlegal
  -- all that the coding step looked at, the decoder has as well
  have eP : e.P = d.P := congrArg BitVec.toNat hcrP
  have eSL : e.SL = d.SL := congrArg BitVec.toNat hcrSl
  have equarter : e.quarter = d.quarter := by rw [State.quarter, eP, State.quarter]
  have etotal := State.total_of_ctx t ectx eSL
  have ecumLow := State.cumLow_of_ctx t sym.toNat ectx
  have ecumHigh := State.cumHigh_of_ctx t sym.toNat ectx
  rw [State.IntervalAtRest, eP, elow, ehigh] at hr
  rw [State.resolve_congr ehist ectx] at ht
  rw [ectx] at hw
  simp only [l, h, eP, eSL, equarter, etotal, ecumLow, ecumHigh, elow, ehigh]
    at hP hP' hs hq hc hlow hhigh hsource hbounds
  obtain ⟨u, hu⟩ :=
    decodeWith_of_code_inside hP hP' hm hr hw hs hq hc (State.not_truncated hlim) hlow hhigh hsource
  have hdec := decodeWith_decodes t hm
  rw [hu] at hdec
  obtain ⟨-, -, -, hcoded⟩ := decodeWith_done hu
  have hsame := (codeStep_bounds hcoded).trans hbounds.symm
  exact ⟨u.okNat sym.toNat, exec_decode_done hp hm hv ho ht hu, hdec.phase.trans hp, hdec.busy,
    congrArg (· ++ [Response.okNat sym.toNat]) hdec.responses, congrArg Prod.fst hsame, congrArg Prod.snd hsame⟩

end Sys2Proof.Machine
end

section
/-! Sequences of the host's commands beside operations inside a command (44_symbol_driver.md R199): where an operation
leaves the block, and that commands leave it there too, but for the responses on the way. -/

namespace Sys2Proof.Machine

/-! ### Where an operation leaves the block -/

/-- The state an operation leaves: the one it reached, or the fault (60_exceptions.md R240) or the wait (R249) that it
ends its command in. -/
def Res.ended {α : Type} : Res α → State
  | .done _ s => s
  | .stop w s => finishCommand (.stop w s)

@[simp] theorem Res.ended_done {α : Type} (a : α) (s : State) : (Res.done a s).ended = s := rfl

@[simp] theorem State.okNat_silent (s : State) (n : Nat) : (s.okNat n).silent = s.silent := rfl

@[simp] theorem State.setResponses_silent (s : State) (l : List Response) : (s.setResponses l).silent = s.silent := rfl

theorem finishCommand_silent (r : Res Response) : (finishCommand r).silent = r.ended.silent := by
  cases r <;> rfl

/-- Answering a completed operation changes the responses alone. -/
theorem Res.ended_answer {α β : Type} (r : Res α) (f : α → β) :
    (r.andThen fun a u => .done (f a) u).ended = r.ended := by
  cases r <;> rfl

theorem finishCommand_stop_setResponses (w : Stop) (u : State) (l : List Response) :
    (finishCommand (.stop w (u.setResponses l))).silent = (finishCommand (.stop w u)).silent := by
  cases w <;> rfl

theorem Res.ended_setResponses {α : Type} (r : Res α) (l : List Response) :
    (r.setResponses l).ended.silent = r.ended.silent := by
  cases r with
  | done a u => rfl
  | stop w u => exact finishCommand_stop_setResponses w u l

theorem Blind.ended {α : Type} {f : State → Res α} (h : Blind f) (l : List Response) (s : State) :
    (f (s.setResponses l)).ended.silent = (f s).ended.silent := by
  rw [h, Res.ended_setResponses]

theorem State.eq_setResponses {t u : State} (h : t.silent = u.silent) : t = u.setResponses t.responses :=
  (congrArg (State.setResponses · t.responses) h :)

/-! ### Sequences of the host's commands (60_exceptions.md R241, R249) -/

theorem runCommands_waiting {s : State} (h : s.busy ≠ none) : ∀ l, runCommands l s = s
  | [] => rfl
  | _ :: _ => if_neg h

theorem runCommands_append (m : List Instr) : ∀ (l : List Instr) (s : State),
    runCommands (l ++ m) s = runCommands m (runCommands l s)
  | [], _ => rfl
  | i :: l, s => by
    by_cases hb : s.busy = none
    · rw [List.cons_append, runCommands_cons hb (exec_eq i s), runCommands_cons hb (exec_eq i s),
        runCommands_append m l]
    · rw [runCommands_waiting hb, runCommands_waiting hb, runCommands_waiting hb]

/-- Phase FAULT refuses the host's further commands (R241). -/
theorem runCommands_fault : ∀ {l : List Instr} {s : State}, s.phase = .fault → (∀ i ∈ l, i.opcode ≠ .crr) →
    (runCommands l s).silent = s.silent
  | [], _, _, _ => rfl
  | i :: l, s, hp, hl => by
    by_cases hb : s.busy = none
    · rw [runCommands_cons hb (exec_eq i s), runCommand_refused hp (.inl (hl i List.mem_cons_self))]
      exact runCommands_fault (s := s.refuse) hp fun j hj => hl j (List.mem_cons_of_mem i hj)
    · rw [runCommands_waiting hb]

/-- Where an operation stopped, the host's further commands do nothing. -/
theorem runCommands_stopped {l : List Instr} {w : Stop} {u t : State}
    (ht : t.silent = (finishCommand (.stop w u)).silent) (hl : ∀ i ∈ l, i.opcode ≠ .crr) :
    (runCommands l t).silent = t.silent := by
  cases w with
  | raised c n => exact runCommands_fault (congrArg State.phase ht :) hl
  | waiting p =>
    have hb : t.busy = some p := (congrArg State.busy ht :)
    rw [runCommands_waiting (by simp [hb])]

/-- After an operation `r`, the host's commands `l` have the effect of going on with `f`, if they have it wherever `r`
completes: where `r` stopped, neither does anything. -/
theorem runCommands_andThen {α β : Type} {r : Res α} {f : α → State → Res β} {l : List Instr} {t : State}
    (ht : t.silent = r.ended.silent) (hl : ∀ i ∈ l, i.opcode ≠ .crr)
    (h : ∀ a u, r = .done a u → ∀ rs, (runCommands l (u.setResponses rs)).silent = (f a u).ended.silent) :
    (runCommands l t).silent = (r.andThen f).ended.silent := by
  cases r with
  | done a u =>
    rw [State.eq_setResponses ht]
    exact h a u rfl _
  | stop w u => exact (runCommands_stopped ht hl).trans ht

/-! ### The model update is `CINC` and `HPUSH` (44_symbol_driver.md R196) -/

theorem Updates.phase {s u : State} (h : Updates s u) : u.phase = s.phase := (congrArg State.phase h.same).symm
theorem Updates.busy {s u : State} (h : Updates s u) : u.busy = s.busy := (congrArg State.busy h.same).symm
theorem Updates.SL {s u : State} (h : Updates s u) : u.SL = s.SL := (congrArg State.SL h.same).symm

theorem updateContexts_done {s u : State} {sym : Nat} (h : updateContexts sym s = .done () u) : Updates s u :=
  final_done h ▸ updateContexts_updates sym s

theorem State.pushHistory_setResponses (s : State) (sym : Nat) (l : List Response) :
    (s.setResponses l).pushHistory sym = (s.pushHistory sym).setResponses l := by
  have hK : (s.setResponses l).K = s.K := rfl
  rw [State.pushHistory, State.pushHistory, hK]
  split <;> rfl

theorem exec_cinc {s : State} {sym : SymField} (hp : s.phase = .run) (hs : sym.toNat < s.SL) :
    exec (.cinc sym) s =
      .next (finishCommand ((updateContexts sym.toNat s).andThen fun _ u => .done (.okNat 0) u)) := by
  rw [exec_accepted rfl (State.accepts_of_run hp rfl), body_cinc, withSymbol_lt hs]

theorem exec_hpush {s : State} {sym : SymField} (hp : s.phase = .run) (hs : sym.toNat < s.SL) :
    exec (.hpush sym) s = .next ((s.pushHistory sym.toNat).okNat 0) :=
  exec_done rfl (State.accepts_of_run hp rfl) (by rw [body_hpush, withSymbol_lt hs])

theorem update_ne_crr (sym : SymField) : ∀ i ∈ [Instr.cinc sym, .hpush sym], i.opcode ≠ .crr := by
  simp [Instr.opcode]

/-- The host's `CINC` and `HPUSH` leave the block where the model update does, wherever that ends. -/
theorem runCommands_updateModel {s : State} {sym : SymField} (hp : s.phase = .run) (hb : s.busy = none)
    (hs : sym.toNat < s.SL) (l : List Response) :
    (runCommands [.cinc sym, .hpush sym] (s.setResponses l)).silent = (updateModel sym.toNat s).ended.silent := by
  rw [runCommands_cons (s := s.setResponses l) hb (exec_cinc hp hs)]
  refine runCommands_andThen ?_ (by simp [Instr.opcode]) fun _ u hu rs => ?_
  · rw [finishCommand_silent, Res.ended_answer, (updateContexts_blind _).ended]
  · have hup := updateContexts_done hu
    rw [runCommands_singleton (s := u.setResponses rs) (hup.busy.trans hb)
      (exec_hpush (hup.phase.trans hp) (hs.trans_eq hup.SL.symm)),
      State.pushHistory_setResponses, State.okNat_silent, State.setResponses_silent, Res.ended_done]

/-! ### Runs of one mode -/

/-- An open run of the mode `m` with a legal configuration, in which no command waits. -/
structure State.InRun (s : State) (m : Mode) : Prop where
  phase : s.phase = .run
  mode  : s.mode = m
  busy  : s.busy = none
  legal : s.LegalConfig

theorem Encodes.inRun {s u : State} (he : Encodes s u) (h : s.InRun .enc) : u.InRun .enc :=
  ⟨he.phase.trans h.phase, he.mode.trans h.mode, he.busy.trans h.busy, he.LegalConfig ▸ h.legal⟩

theorem Decodes.inRun {s u : State} (hd : Decodes s u) (h : s.InRun .dec) : u.InRun .dec :=
  ⟨hd.phase.trans h.phase, hd.mode.trans h.mode, hd.busy.trans h.busy, hd.LegalConfig ▸ h.legal⟩

/-- The designator of the context of the `n` most recent symbols (30_encoding.md R80). -/
theorem toInt_designator {n : Nat} (h : n ≤ 127) : (BitVec.ofNat 8 n : Order).toInt = n := by
  have hn : (BitVec.ofNat 8 n).toNat = n := by rw [BitVec.toNat_ofNat, Nat.mod_eq_of_lt (by omega)]
  rw [BitVec.toInt_eq_toNat_of_lt (by omega), hn]

theorem toInt_flatDesignator : (BitVec.ofInt 8 (-1) : Order).toInt = -1 := by decide

theorem State.resolve_flat (s : State) : s.resolve (BitVec.ofInt 8 (-1) : Order).toInt = some .flat :=
  if_pos toInt_flatDesignator

theorem State.LegalConfig.SL_pos {s : State} (h : s.LegalConfig) : 1 ≤ s.SL := by
  obtain ⟨-, -, -, -, hSL, -⟩ := h
  exact hSL

theorem State.LegalConfig.SL_le {s : State} (h : s.LegalConfig) : s.SL ≤ 2 ^ 16 := by
  obtain ⟨-, -, -, -, -, hSL, -⟩ := h
  exact hSL

theorem State.LegalConfig.ESC_lt {s : State} (h : s.LegalConfig) : s.ESC < s.SL := by
  obtain ⟨-, -, -, -, -, -, -, hESC⟩ := h
  exact hESC

/-- A symbol of a legal configuration fits the symbol operand of a command. -/
theorem State.LegalConfig.toNat_symField {s : State} (h : s.LegalConfig) {sym : Nat} (hs : sym < s.SL) :
    (BitVec.ofNat 16 sym : SymField).toNat = sym := by
  rw [BitVec.toNat_ofNat, Nat.mod_eq_of_lt (hs.trans_le h.SL_le)]

end Sys2Proof.Machine
end

section
/-! `ENCSYM` is the host's own sequence of `FGET`, `NARROW`, `CINC` and `HPUSH`, wherever it ends (44_symbol_driver.md
R191, R193, R199). -/

namespace Sys2Proof.Machine

section

variable {s : State} {sym : SymField} {n : Nat} {t : TableRef}

theorem encodeScript_absent (ht : s.resolve n = none) :
    encodeScript s sym (n + 1) = .fget (BitVec.ofNat 8 n) sym :: encodeScript s sym n := by
  rw [encodeScript, ht]

theorem encodeScript_coded (ht : s.resolve n = some t) (hc : sym.toNat ≠ s.ESC ∧ 0 < s.get t sym.toNat) :
    encodeScript s sym (n + 1) = [.fget (BitVec.ofNat 8 n) sym, .narrow (BitVec.ofNat 8 n) sym] := by
  rw [encodeScript, ht]
  simp only [if_pos hc]

theorem encodeScript_escape (ht : s.resolve n = some t) (hc : ¬ (sym.toNat ≠ s.ESC ∧ 0 < s.get t sym.toNat)) :
    encodeScript s sym (n + 1) =
      .fget (BitVec.ofNat 8 n) sym :: .narrow (BitVec.ofNat 8 n) (BitVec.ofNat 16 s.ESC) :: encodeScript s sym n := by
  rw [encodeScript, ht]
  simp only [if_neg hc]

theorem encodeSearch_absent {x : Nat} (ht : s.resolve n = none) : encodeSearch x (n + 1) s = encodeSearch x n s := by
  rw [encodeSearch, ht]

theorem encodeSearch_coded {x : Nat} (ht : s.resolve n = some t) (hc : x ≠ s.ESC ∧ 0 < s.get t x) :
    encodeSearch x (n + 1) s = codeStep t x s := by
  rw [encodeSearch, ht]
  simp only [if_pos hc]

theorem encodeSearch_escape {x : Nat} (ht : s.resolve n = some t) (hc : ¬ (x ≠ s.ESC ∧ 0 < s.get t x)) :
    encodeSearch x (n + 1) s = (codeStep t s.ESC s).andThen fun _ u => encodeSearch x n u := by
  rw [encodeSearch, ht]
  simp only [if_neg hc]

end

theorem encodeScript_ne_crr (s : State) (sym : SymField) : ∀ n, ∀ i ∈ encodeScript s sym n, i.opcode ≠ .crr
  | 0 => by simp [encodeScript, Instr.opcode]
  | n + 1 => by
    have ih := encodeScript_ne_crr s sym n
    cases ht : s.resolve n with
    | none => simpa [encodeScript_absent ht, Instr.opcode] using ih
    | some t =>
      by_cases hc : sym.toNat ≠ s.ESC ∧ 0 < s.get t sym.toNat
      · simp [encodeScript_coded ht hc, Instr.opcode]
      · simpa [encodeScript_escape ht hc, Instr.opcode] using ih

/-- The host's search is read off the tree and the history, which coding leaves alone. -/
theorem Encodes.encodeScript_eq {s u : State} (h : Encodes s u) (sym : SymField) : ∀ n,
    encodeScript u sym n = encodeScript s sym n
  | 0 => rfl
  | n + 1 => by
    rw [encodeScript, encodeScript, State.resolve_congr h.hist h.ctx, h.encodeScript_eq sym n, h.ESC]
    cases s.resolve n with
    | none => rfl
    | some t => simp only [State.get_of_ctx t _ h.ctx]

theorem tableCommand_fget {s : State} {o : Order} (sym : SymField) (hp : s.phase = .run) (ho : -1 ≤ o.toInt) :
    TableCommand (.fget o sym) s o sym (answerValue State.get sym) :=
  ⟨order_legal_of_le ho, State.accepts_of_run hp rfl, rfl⟩

theorem runCommands_fget {s : State} {o : Order} {sym : SymField} (hp : s.phase = .run) (hb : s.busy = none)
    (ho : -1 ≤ o.toInt) (hs : sym.toNat < s.SL) (l : List Response) (rest : List Instr) :
    ∃ rs, runCommands (.fget o sym :: rest) (s.setResponses l) = runCommands rest (s.setResponses rs) := by
  have hget := tableCommand_fget (s := s.setResponses l) sym hp ho
  cases ht : s.resolve o.toInt with
  | none => exact ⟨_, runCommands_cons hb (hget.absent hs ht)⟩
  | some t => exact ⟨_, runCommands_cons hb (hget.done (u := s.setResponses l) hs ht rfl)⟩

theorem runCommands_narrow {s : State} {o : Order} {sym : SymField} {t : TableRef} (h : s.InRun .enc)
    (ho : -1 ≤ o.toInt) (hs : sym.toNat < s.SL) (ht : s.resolve o.toInt = some t) (l : List Response) :
    (runCommands [.narrow o sym] (s.setResponses l)).silent = (codeStep t sym.toNat s).ended.silent := by
  rw [runCommands_singleton (s := s.setResponses l) h.busy (exec_narrow h.phase h.mode ho hs ht),
    finishCommand_silent, narrowOn, Res.ended_answer, (codeStep_blind _ _).ended]

/-- The host's search leaves the block where the encoder's search does, wherever that ends (R191, R199). -/
theorem runCommands_encodeScript {sym : SymField} : ∀ {n : Nat} {s : State}, n ≤ 128 → s.InRun .enc →
    sym.toNat < s.SL → ∀ l,
    (runCommands (encodeScript s sym n) (s.setResponses l)).silent = (encodeSearch sym.toNat n s).ended.silent
  | 0, s, _, h, hs, l => runCommands_narrow h (by decide) hs s.resolve_flat l
  | n + 1, s, hn, h, hs, l => by
    have hint := toInt_designator (Nat.le_of_lt_succ hn)
    have ho : -1 ≤ (BitVec.ofNat 8 n : Order).toInt := by omega
    have hget := runCommands_fget h.phase h.busy ho hs l
    cases ht : s.resolve n with
    | none =>
      obtain ⟨rs, hget⟩ := hget (encodeScript s sym n)
      rw [encodeScript_absent ht, hget, encodeSearch_absent ht]
      exact runCommands_encodeScript (Nat.le_of_succ_le hn) h hs rs
    | some t =>
      have ht' : s.resolve (BitVec.ofNat 8 n : Order).toInt = some t := by rw [hint, ht]
      by_cases hc : sym.toNat ≠ s.ESC ∧ 0 < s.get t sym.toNat
      · obtain ⟨rs, hget⟩ := hget [.narrow (BitVec.ofNat 8 n) sym]
        rw [encodeScript_coded ht hc, hget, encodeSearch_coded ht hc]
        exact runCommands_narrow h ho hs ht' rs
      · have hE := h.legal.toNat_symField h.legal.ESC_lt
        obtain ⟨rs, hget⟩ := hget (.narrow (BitVec.ofNat 8 n) (BitVec.ofNat 16 s.ESC) :: encodeScript s sym n)
        have hstep := runCommands_narrow h ho (hE.trans_lt h.legal.ESC_lt) ht' rs
        rw [hE] at hstep
        rw [encodeScript_escape ht hc, hget, encodeSearch_escape ht hc, ← List.singleton_append, runCommands_append]
        refine runCommands_andThen hstep (encodeScript_ne_crr s sym n) fun _ u hu rs' => ?_
        have he : Encodes s u := final_done hu ▸ codeStep_encodes t s.ESC h.mode
        rw [← he.encodeScript_eq]
        exact runCommands_encodeScript (Nat.le_of_succ_le hn) (he.inRun h) (hs.trans_eq he.SL.symm) rs'

/-- `ENCSYM` of a symbol in range is the search and the model update (R191). -/
theorem exec_encsym_silent {s u : State} {sym : SymField} (h : s.InRun .enc) (hs : sym.toNat < s.SL)
    (hu : exec (.encsym sym) s = .next u) :
    u.silent = ((encodeSearch sym.toNat (s.hlen + 1) s).andThen fun _ v => updateModel sym.toNat v).ended.silent := by
  rw [exec_accepted rfl (State.accepts_of_enc h.phase h.mode rfl), body_encsym, withSymbol_lt hs,
    ← Res.andThen_assoc] at hu
  injection hu with hu
  rw [← hu, finishCommand_silent, Res.ended_answer]

/-- Settles O48: command by command, the host's sequence does what `ENCSYM` does, and stops where it stops. -/
theorem encsymIsItsPrimitives : Obligations.EncsymIsItsPrimitives := by
  intro s u sym hlegal hlen hp hm hb hexec
  have h : s.InRun .enc := ⟨hp, hm, hb, hlegal⟩
  by_cases hs : sym.toNat < s.SL
  · rw [exec_encsym_silent h hs hexec, runCommands_append]
    have hsearch := runCommands_encodeScript (Nat.succ_le_succ hlen) h hs s.responses
    refine runCommands_andThen hsearch (update_ne_crr sym) fun _ v hv rs => ?_
    have he : Encodes s v := final_done hv ▸ encodeSearch_encodes sym.toNat (s.hlen + 1) hm
    exact runCommands_updateModel (he.phase.trans hp) (he.busy.trans hb) (hs.trans_eq he.SL.symm) rs
  · have hge : s.SL ≤ sym.toNat := Nat.not_lt.mp hs
    have hraised : exec (.encsym sym) s = .next (s.raise .symbol sym.toNat) :=
      exec_raised rfl (State.accepts_of_enc hp hm rfl) (by rw [body_encsym, withSymbol_ge hge])
    have ho : -1 ≤ (BitVec.ofNat 8 s.hlen : Order).toInt := by rw [toInt_designator hlen]; omega
    obtain ⟨rest, hrest⟩ : ∃ rest, encodeScript s sym (s.hlen + 1) = .fget (BitVec.ofNat 8 s.hlen) sym :: rest :=
      ⟨_, rfl⟩
    have hne := List.forall_mem_append.mpr ⟨encodeScript_ne_crr s sym (s.hlen + 1), update_ne_crr sym⟩
    rw [hexec, Host.Outcome.next.injEq] at hraised
    rw [hrest, List.cons_append] at hne ⊢
    rw [runCommands_cons hb ((tableCommand_fget sym hp ho).symbol_ge hge), hraised]
    exact runCommands_fault rfl fun i hi => hne i (List.mem_cons_of_mem _ hi)

end Sys2Proof.Machine
end

section
/-! `DECSYM` is the host's own sequence of `DECODE`, `CINC` and `HPUSH`, wherever it ends (44_symbol_driver.md R195,
R199). -/

namespace Sys2Proof.Machine

section

variable {s : State} {n : Nat} {t : TableRef}

theorem decodeSearch_absent (ht : s.resolve n = none) : decodeSearch (n + 1) s = decodeSearch n s := by
  rw [decodeSearch, ht]

theorem decodeSearch_resolved (ht : s.resolve n = some t) :
    decodeSearch (n + 1) s = (decodeWith t s).andThen fun y u => if y ≠ u.ESC then .done y u else decodeSearch n u := by
  rw [decodeSearch, ht]

end

/-- The responses to `DECODE` after which the host tries the next order: ABSENT, and the symbol ESC (R195, R199). -/
def Response.TryNext (r : Response) (esc : Nat) : Prop := r.kind = .absent ∨ (r.kind = .ok ∧ r.value.toNat = esc)

section

variable {s t : State} {n : Nat} (h : runCommands [.decode (BitVec.ofNat 8 n)] s = t)

include h

theorem decodeByHost_next {r : Response} (hb : t.busy = none) (hr : t.responses.getLast? = some r)
    (hnext : r.TryNext s.ESC) : decodeByHost (n + 1) s = decodeByHost n t := by
  simp only [decodeByHost, h, hb, hr]
  exact if_pos hnext

/-- After any other answer, or none, the host's search is over. -/
theorem decodeByHost_over (hlast : t.busy = none → ∀ r, t.responses.getLast? = some r → ¬ r.TryNext s.ESC) :
    decodeByHost (n + 1) s = t := by
  simp only [decodeByHost, h]
  split
  · next r hb hr => exact if_neg (hlast hb r hr)
  · rfl

end

theorem Response.toNat_okNat {y : Nat} (hy : y < 2 ^ 16) : (Response.okNat y).value.toNat = y := by
  rw [Response.okNat, Response.ok, BitVec.toNat_ofNat, Nat.mod_eq_of_lt (by omega)]

/-- `v` is where the host's search stands when the decoder's search ends in `r`: the block is where that leaves it, and
the last response holds the symbol found. -/
structure HostFound (r : Res Nat) (v : State) : Prop where
  ended  : v.silent = r.ended.silent
  answer : ∀ y u, r = .done y u → v.responses.getLast? = some (.okNat y)

theorem HostFound.done (y : Nat) (u : State) (l : List Response) :
    HostFound (.done y u) (u.setResponses (l ++ [.okNat y])) :=
  ⟨rfl, fun _ _ h => by cases h; exact List.getLast?_concat⟩

theorem HostFound.stop (w : Stop) (u : State) (l : List Response) :
    HostFound (.stop w u) (finishCommand (.stop w (u.setResponses l))) :=
  ⟨finishCommand_stop_setResponses w u l, fun _ _ h => by cases h⟩

theorem HostFound.lastSymbol {y : Nat} {u v : State} (h : HostFound (.done y u) v) (hy : y < 2 ^ 16) :
    v.lastSymbol.toNat = y := by
  simp only [State.lastSymbol, h.answer y u rfl]
  rw [BitVec.toNat_setWidth, Response.toNat_okNat hy, Nat.mod_eq_of_lt hy]

section

variable {s u : State} {o : Order} {t : TableRef} {y : Nat} {w : Stop} (h : s.InRun .dec) (hv : s.codeValid = true)
  (ho : -1 ≤ o.toInt) (l : List Response)

include h hv ho

theorem runCommands_decode_absent (ht : s.resolve o.toInt = none) :
    runCommands [.decode o] (s.setResponses l) = s.setResponses (l ++ [.absent]) :=
  runCommands_singleton h.busy (exec_decode_absent (s := s.setResponses l) h.phase h.mode hv ho ht)

theorem runCommands_decode_done (ht : s.resolve o.toInt = some t) (hd : decodeWith t s = .done y u) :
    runCommands [.decode o] (s.setResponses l) = u.setResponses (l ++ [.okNat y]) :=
  runCommands_singleton h.busy (exec_decode_done (u := u.setResponses l) h.phase h.mode hv ho ht
    (by rw [decodeWith_blind, hd]; rfl))

theorem runCommands_decode_stop (ht : s.resolve o.toInt = some t) (hd : decodeWith t s = .stop w u) :
    runCommands [.decode o] (s.setResponses l) = finishCommand (.stop w (u.setResponses l)) :=
  runCommands_singleton h.busy (exec_decode_stop (u := u.setResponses l) h.phase h.mode hv ho ht
    (by rw [decodeWith_blind, hd]; rfl))

end

/-- A command that stopped waits, or its response is FAULT. -/
theorem not_tryNext_of_stop {w : Stop} {u : State} {esc : Nat} (hb : (finishCommand (.stop w u)).busy = none)
    (r : Response) (hr : (finishCommand (.stop w u)).responses.getLast? = some r) : ¬ r.TryNext esc := by
  cases w with
  | raised c n =>
    rw [finishCommand, State.raise_responses, List.getLast?_concat, Option.some.injEq] at hr
    subst hr
    exact nofun
  | waiting p => cases hb

theorem decodeWith_lt {s u : State} {t : TableRef} {y : Nat} (hS : 1 ≤ s.SL) (h : decodeWith t s = .done y u) :
    y < s.SL := by
  rw [(decodeWith_done h).2.2.1]
  exact s.findSymbol_lt t _ hS

/-- The host's search leaves the block where the decoder's search does, wherever that ends (R195, R199). -/
theorem hostFound_decodeByHost : ∀ {n : Nat} {s : State}, n ≤ 128 → s.InRun .dec → s.codeValid = true → ∀ l,
    HostFound (decodeSearch n s) (decodeByHost n (s.setResponses l))
  | 0, s, _, h, hv, l => by
    rw [decodeSearch, decodeByHost]
    cases hd : decodeWith .flat s with
    | done y u =>
      rw [runCommands_decode_done h hv (by decide) l s.resolve_flat hd]
      exact .done y u l
    | stop w u =>
      rw [runCommands_decode_stop h hv (by decide) l s.resolve_flat hd]
      exact .stop w u l
  | n + 1, s, hn, h, hv, l => by
    have hint := toInt_designator (Nat.le_of_lt_succ hn)
    have ho : -1 ≤ (BitVec.ofNat 8 n : Order).toInt := by omega
    cases ht : s.resolve n with
    | none =>
      have hrun := runCommands_decode_absent h hv ho l (by rw [hint, ht])
      rw [decodeSearch_absent ht, decodeByHost_next hrun h.busy List.getLast?_concat (.inl rfl)]
      exact hostFound_decodeByHost (Nat.le_of_succ_le hn) h hv _
    | some t =>
      have ht' : s.resolve (BitVec.ofNat 8 n : Order).toInt = some t := by rw [hint, ht]
      rw [decodeSearch_resolved ht]
      cases hd : decodeWith t s with
      | done y u =>
        have hrun := runCommands_decode_done h hv ho l ht' hd
        have hdec : Decodes s u := final_done hd ▸ decodeWith_decodes t h.mode
        have hy := Response.toNat_okNat ((decodeWith_lt h.legal.SL_pos hd).trans_le h.legal.SL_le)
        rw [Res.done_andThen, hdec.ESC]
        by_cases hesc : y = s.ESC
        · rw [if_neg (not_not.mpr hesc), decodeByHost_next hrun (hdec.inRun h).busy List.getLast?_concat
            (.inr ⟨rfl, hy.trans hesc⟩)]
          exact hostFound_decodeByHost (Nat.le_of_succ_le hn) (hdec.inRun h) (hdec.codeValid.trans hv) _
        · rw [if_pos hesc, decodeByHost_over hrun]
          · exact .done y u l
          · intro _ r hr
            rw [← Option.some.inj (List.getLast?_concat.symm.trans hr)]
            rintro (habsent | ⟨-, hfound⟩)
            · cases habsent
            · exact hesc (hy.symm.trans hfound)
      | stop w u =>
        rw [Res.stop_andThen, decodeByHost_over (runCommands_decode_stop h hv ho l ht' hd) not_tryNext_of_stop]
        exact .stop w u l

/-- `DECSYM` is the search and the model update (R195). -/
theorem exec_decsym_silent {s u : State} (h : s.InRun .dec) (hv : s.codeValid = true)
    (hu : exec .decsym s = .next u) :
    u.silent = ((decodeSearch (s.hlen + 1) s).andThen fun y v => updateModel y v).ended.silent := by
  rw [exec_accepted (i := .decsym) rfl (State.accepts_of_dec h.phase h.mode hv), body_decsym] at hu
  injection hu with hu
  rw [← hu, finishCommand_silent]
  cases decodeSearch (s.hlen + 1) s with
  | done y v => rw [Res.done_andThen, Res.done_andThen, Res.ended_answer]
  | stop w v => rfl

/-- `DECSYM` that completes answers the symbol that its search found. -/
theorem decsym_answers {s u : State} (hu : exec .decsym s = .next u) (hp : u.phase = .run)
    (hb : u.busy = none) :
    ∃ y v, decodeSearch (s.hlen + 1) s = .done y v ∧ u.responses = s.responses ++ [.okNat y] := by
  obtain ⟨-, ha, r, x, hbody, rfl⟩ := exec_ran hu (by rw [hp]; decide) hb
  have hframe := body_frame ha
  rw [hbody] at hframe
  rw [body_decsym] at hbody
  obtain ⟨y, v, hv, hbody⟩ := Res.andThen_eq_done hbody
  obtain ⟨_, v', -, hbody⟩ := Res.andThen_eq_done hbody
  cases hbody
  exact ⟨y, v, hv, congrArg (· ++ [Response.okNat y]) hframe.responses⟩

/-- Settles O49: `DECODE` by `DECODE`, the host's sequence does what `DECSYM` does, and stops where it stops. -/
theorem decsymIsItsPrimitives : Obligations.DecsymIsItsPrimitives := by
  intro s u hlegal hlen hp hm hv hb hexec
  have h : s.InRun .dec := ⟨hp, hm, hb, hlegal⟩
  have hfound := hostFound_decodeByHost (show s.hlen + 1 ≤ 128 by omega) h hv s.responses
  have hlt : ∀ {y v}, decodeSearch (s.hlen + 1) s = .done y v → y < s.SL := decodeSearch_lt hm hlegal.SL_pos
  have hsym : ∀ {y v}, decodeSearch (s.hlen + 1) s = .done y v →
      (decodeByHost (s.hlen + 1) s).lastSymbol.toNat = y := fun hd =>
    (hd ▸ hfound).lastSymbol ((hlt hd).trans_le hlegal.SL_le)
  refine ⟨?_, fun hup hub => ?_⟩
  · rw [exec_decsym_silent h hv hexec]
    refine runCommands_andThen hfound.ended (update_ne_crr _) fun y v hd rs => ?_
    have hdec : Decodes s v := final_done hd ▸ decodeSearch_decodes (s.hlen + 1) hm
    have hin : (decodeByHost (s.hlen + 1) s).lastSymbol.toNat < v.SL := by
      rw [hsym hd, hdec.SL]
      exact hlt hd
    rw [← hsym hd]
    exact runCommands_updateModel (hdec.phase.trans hp) (hdec.busy.trans hb) hin rs
  · obtain ⟨y, v, hd, hresp⟩ := decsym_answers hexec hup hub
    rw [hresp, hsym hd]

end Sys2Proof.Machine
end

section
/-! `ENCSYM` and `DECSYM` where nothing stands in their way (44_symbol_driver.md R191, R195 to R197). -/

namespace Sys2Proof.Machine

/-! ### The model update after a search (R196, R197) -/

theorem Encodes.sameTree {s u : State} (h : Encodes s u) : SameTree s u :=
  ⟨h.ctx, h.nctx, h.params, (congrArg State.crEsc h.same :).symm, (congrArg State.crSl h.same :).symm⟩

theorem Decodes.sameTree {s u : State} (h : Decodes s u) : SameTree s u :=
  ⟨h.ctx, h.nctx, h.params, (congrArg State.crEsc h.same :).symm, (congrArg State.crSl h.same :).symm⟩

/-- After a search, which leaves the model alone, the model update does what `CINC` and `HPUSH` would have done before
it. -/
theorem SameTree.updateModel_done {s w c : State} {sym : Nat} (h : SameTree s w) (hK : w.K = s.K) (hh : w.hist = s.hist)
    (hc : updateContexts sym s = .done () c) :
    updateModel sym w = .done () { w with
      ctx := c.ctx, nctx := c.nctx, hist := (s.pushHistory sym).hist } := by
  have hlen : w.hlen = s.hlen := congrArg List.length hh
  rw [updateModel, updateContexts_on h.ctx h.nctx h.params h.crEsc h.crSl hK hh hc, Res.done_andThen,
    State.pushHistory_eq, State.pushHistory_hist, State.pushHistory_hist, ← hK, ← hh, ← hlen]
  rfl

theorem exec_encsym_done {s v w : State} {sym : SymField} (hp : s.phase = .run) (hm : s.mode = .enc)
    (hs : sym.toNat < s.SL) (hv : encodeSearch sym.toNat (s.hlen + 1) s = .done () v)
    (hw : updateModel sym.toNat v = .done () w) : exec (.encsym sym) s = .next (w.okNat 0) :=
  exec_done rfl (State.accepts_of_enc hp hm rfl) (by
    rw [body_encsym, withSymbol_lt hs, hv, Res.done_andThen, hw, Res.done_andThen])

theorem exec_decsym_done {s v w : State} {y : Nat} (hp : s.phase = .run) (hm : s.mode = .dec)
    (hc : s.codeValid = true) (hv : decodeSearch (s.hlen + 1) s = .done y v) (hw : updateModel y v = .done () w) :
    exec .decsym s = .next (w.okNat y) :=
  exec_done (i := .decsym) rfl (State.accepts_of_dec hp hm hc) (by
    rw [body_decsym, hv, Res.done_andThen, hw, Res.done_andThen])

/-! ### What rest gives the searches (10_state.md R21, R22, R47, R48) -/

theorem State.TreeAtRest.hlen_le {s : State} (ht : s.TreeAtRest) (hc : s.LegalConfig) : s.hlen ≤ 127 := by
  obtain ⟨-, -, -, hK, -⟩ := hc
  have := ht.histLen
  omega

/-- A table that a designator names has a count (R48). -/
theorem State.TreeAtRest.total_pos {s : State} (ht : s.TreeAtRest) (hS : 1 ≤ s.SL) {o : Int} {t : TableRef}
    (hr : s.resolve o = some t) : 1 ≤ s.total t := by
  cases t with
  | flat => exact hS
  | context p =>
    obtain ⟨tab, htab⟩ := Option.isSome_iff_exists.mp (State.resolve_has hr)
    obtain ⟨-, hpos, -⟩ := ht.tables (p, tab) (mem_of_lookup _ htab)
    rwa [State.total, Memory.table_of_some htab]

/-- Settles O46: the search completes and leaves the model alone, so the update completes after it as `CINC` does
before it, and the coder is where the host's own search leaves it. -/
theorem encsymCodesAndUpdates : Obligations.EncsymCodesAndUpdates := by
  intro s sym hp hm hb hs hcoder htree hsink htabs hpend hroom
  have hrest : s.atRest := ⟨.inl hp, hb⟩
  have hlegal := hcoder.config hrest.1
  have htr := htree.tree hrest
  have h : s.InRun .enc := ⟨hp, hm, hb, hlegal⟩
  obtain ⟨w, hw⟩ := encodeSearch_total (n := s.hlen + 1)
    ⟨hm, hlegal, hcoder.interval hrest, hcoder.canonical, hsink, htabs, hpend⟩ hs
  obtain ⟨c, hc⟩ := updateContexts_total sym.toNat hlegal htr (fun n t ht => (htabs n t ht).1) hroom
  have henc : Encodes s w := final_done hw ▸ encodeSearch_encodes sym.toNat (s.hlen + 1) hm
  have hhost := runCommands_encodeScript (Nat.succ_le_succ (htr.hlen_le hlegal)) h hs s.responses
  rw [hw, Res.ended_done] at hhost
  obtain ⟨rs, hv⟩ : ∃ rs, runCommands (encodeScript s sym (s.hlen + 1)) s = w.setResponses rs :=
    ⟨_, State.eq_setResponses hhost⟩
  refine ⟨_, c.okNat 0, exec_encsym_done hp hm hs hw (henc.sameTree.updateModel_done henc.K henc.hist hc),
    exec_cinc_done hp hs hc, (updateContexts_done hc).phase.trans hp, ?_,
    (encodeSearch_rest hm hlegal (hcoder.interval hrest) hcoder.canonical hs hw : w.IntervalAtRest)⟩
  rw [hv, ← s.pushHistory_hist]
  exact ⟨henc.phase.trans hp, henc.busy.trans hb, congrArg (fun x : State => ({ x with
    ctx := c.ctx, nctx := c.nctx, hist := (s.pushHistory sym.toNat).hist } : State).okNat 0)
    (State.eq_of_sansEnc henc.same)⟩

/-- Settles O47: the search completes with a symbol and leaves the model alone, so the update completes after it as
`CINC` of that symbol does before it, and the coder is where the host's own search leaves it. -/
theorem decsymDecodesAndUpdates : Obligations.DecsymDecodesAndUpdates := by
  intro s hp hm hv hb hcoder htree hsource htabs hlimit hroom
  have hrest : s.atRest := ⟨.inl hp, hb⟩
  have hlegal := hcoder.config hrest.1
  have htr := htree.tree hrest
  have hinterval := hcoder.interval hrest
  obtain ⟨-, hcode, -⟩ := hcoder.code hrest
  obtain ⟨hlow, hhigh⟩ := hcode hm hv
  have h : s.InRun .dec := ⟨hp, hm, hb, hlegal⟩
  have hready : DecReady s (s.hlen + 1) := ⟨hm, hlegal, hinterval, ⟨hlow, hhigh⟩, hcoder.canonical, hsource,
    fun n t ht => ⟨htr.total_pos hlegal.SL_pos ht, htabs n t ht⟩, fun n hn => by
      have hsteps : (s.hlen + 1) * s.P ≤ (s.hlen + 1) * (2 * s.P) := Nat.mul_le_mul_left _ (by omega)
      have := hlimit n hn
      omega⟩
  obtain ⟨y, w, hw⟩ := decodeSearch_total hready
  obtain ⟨hy, hwrest, hwlow, hwhigh⟩ := decodeSearch_rest hm hlegal hinterval hcoder.canonical hlow hhigh hw
  have hdec : Decodes s w := final_done hw ▸ decodeSearch_decodes (s.hlen + 1) hm
  have hhost := hostFound_decodeByHost (Nat.succ_le_succ (htr.hlen_le hlegal)) h hv s.responses
  rw [hw] at hhost
  obtain ⟨rs, hrs⟩ : ∃ rs, decodeByHost (s.hlen + 1) s = w.setResponses rs :=
    ⟨_, State.eq_setResponses hhost.ended⟩
  obtain ⟨c, hc⟩ := updateContexts_total y hlegal htr htabs hroom
  have hsym : (decodeByHost (s.hlen + 1) s).lastSymbol.toNat = y := hhost.lastSymbol (hy.trans_le hlegal.SL_le)
  have hys := hsym.trans_lt hy
  refine ⟨?_, ?_, hys, _, c.okNat 0,
    exec_decsym_done hp hm hv hw (hdec.sameTree.updateModel_done hdec.K hdec.hist hc),
    exec_cinc_done hp hys (hsym ▸ hc), (updateContexts_done hc).phase.trans hp, ?_, (hwrest : w.IntervalAtRest),
    hwlow, hwhigh⟩
  · rw [hrs]
    exact hdec.phase.trans hp
  · rw [hrs]
    exact hdec.busy.trans hb
  · rw [hsym, hrs, ← s.pushHistory_hist]
    exact congrArg (fun x : State => ({ x with
      ctx := c.ctx, nctx := c.nctx, hist := (s.pushHistory y).hist } : State).okNat y)
      (State.eq_of_sansDec hdec.same)

end Sys2Proof.Machine
end

section
/-! The system and control commands (45_system_control.md): `CRW` (R210), `CRR` (R212) and `START` (R214). -/

namespace Sys2Proof.Machine

/-! ### The checks before the body (60_exceptions.md R235) -/

theorem exec_illegal {i : Instr} {s : State} (hp : s.phase ≠ .fault) (hi : i.wellFormed = false) :
    exec i s = .next (s.raise .illegal (Instr.info i)) := by
  rw [exec_eq, runCommand_illegal hp hi]

/-- Phase UNCONF accepts its commands in both modes (30_encoding.md R90). -/
theorem State.accepts_of_unconf {s : State} {op : Opcode} (hp : s.phase = .unconf) (h : acceptsUnconf op = true) :
    s.accepts op = true := by
  simpa only [State.accepts, hp] using h

/-- A legal command that only phase UNCONF accepts raises E_SEQUENCE in a run (30_encoding.md R90). -/
theorem exec_sequence_of_hasRun {i : Instr} {s : State} (hp : s.hasRun) (hi : i.wellFormed = true)
    (honly : s.accepts i.opcode = true → s.phase = .unconf) :
    exec i s = .next (s.raise .sequence (Instr.info i)) := by
  have hrej : s.accepts i.opcode = false :=
    Bool.eq_false_iff.mpr fun ha => not_hasRun_of_unconf (honly ha) hp
  rw [exec_eq, runCommand_sequence (phase_ne_fault_of_hasRun hp) hi hrej]

/-! ### `CRW` (R210) -/

theorem exec_crw {s : State} {r : SymField} {v : Word} (hp : s.phase = .unconf) (hr : configIndexLegal r = true) :
    exec (.crw r v) s = .next ((s.setConfig r v).okNat 0) :=
  exec_done hr (State.accepts_of_unconf hp rfl) rfl

/-- Settles O13: the check that fails first decides in the other phases; in UNCONF each index names its register. -/
theorem crwStoresTheValue : Obligations.CrwStoresTheValue := by
  intro s r v
  refine ⟨fun hp => ?_, fun hp hr => ?_, fun hp hr => ?_⟩
  · exact ⟨exec_crw hp rfl, exec_crw hp rfl, exec_crw hp rfl, exec_crw hp rfl⟩
  · exact exec_illegal hp (decide_eq_false (Nat.not_le.mpr hr))
  · exact exec_sequence_of_hasRun hp (decide_eq_true hr) State.accepts_crw

/-! ### `CRR` (R212) -/

/-- A register that a fault leaves alone, or any register outside phase FAULT, reads its value. -/
theorem exec_crr {s : State} {r : SymField} (hr : controlIndexLegal r = true)
    (hkept : s.phase = .fault → lostRegister r = false) :
    exec (.crr r) s = .next (s.respond (.ok (s.controlReg r))) :=
  exec_done hr s.accepts_crr (if_neg fun h => Bool.eq_false_iff.mp (hkept h.1) h.2)

/-- In phase FAULT a register that the fault has lost reads some value (60_exceptions.md R240). -/
theorem exec_crr_lost {s : State} {r : SymField} (hp : s.phase = .fault) (hr : controlIndexLegal r = true)
    (hlost : lostRegister r = true) :
    exec (.crr r) s = .next ({ s with freeCount := s.freeCount + 1 }.respond (.ok (s.lostReg r))) :=
  exec_done hr s.accepts_crr (if_pos ⟨hp, hlost⟩)

/-- NCTX reads as the number it is while it fits register 12 (R212). -/
theorem State.controlReg_nctx {s : State} (h : s.nctx < 2 ^ 32) : s.controlReg 12 = BitVec.ofNat 64 s.nctx := by
  have hread : s.controlReg 12 = (BitVec.ofNat 32 s.nctx).zeroExtend 64 := rfl
  rw [hread, BitVec.zeroExtend_eq_setWidth]
  exact BitVec.setWidth_ofNat_of_le_of_lt (by decide) h

theorem controlIndexLegal_eq_false {r : SymField} (h : r.toNat ∉ [0, 1, 2, 3, 8, 9, 10, 11, 12]) :
    controlIndexLegal r = false := by
  refine decide_eq_false fun hr => h ?_
  simp only [List.mem_cons, List.not_mem_nil, or_false]
  omega

/-- Settles O14: each assigned register reads its value or, where a fault has lost it, a free one; an unassigned one
fails the first check of its phase. -/
theorem crrReadsTheRegisters : Obligations.CrrReadsTheRegisters := by
  intro s r
  refine ⟨exec_crr rfl fun _ => rfl, exec_crr rfl fun _ => rfl, exec_crr rfl fun _ => rfl, exec_crr rfl fun _ => rfl,
    exec_crr rfl fun _ => rfl, exec_crr rfl fun _ => rfl, fun hp => ?live, fun hp => ?fault, fun hr => ?unassigned⟩
  case live =>
    refine ⟨crrStatus_live hp, exec_crr rfl (absurd · hp), fun hn => ?_⟩
    rw [exec_crr rfl (absurd · hp), State.controlReg_nctx hn]
    rfl
  case fault => exact ⟨crrStatus_fault hp, ⟨_, _, exec_crr_lost hp rfl rfl⟩, ⟨_, _, exec_crr_lost hp rfl rfl⟩⟩
  case unassigned =>
    have hill : (Instr.crr r).wellFormed = false := controlIndexLegal_eq_false hr
    refine ⟨fun hp => exec_illegal hp hill, fun hp => ?_⟩
    rw [exec_eq, runCommand_refused hp (.inr hill)]
    rfl

/-! ### `START` (R214) -/

theorem State.configError_of_legalConfig {s : State} (h : s.LegalConfig) : s.configError = none := by
  obtain ⟨hPlow, hPhigh, hKlow, hKhigh, hSLlow, hSLhigh, hSLquarter, hESC⟩ := h
  rw [State.quarter] at hSLquarter
  rw [State.configError, if_neg (by omega), if_neg (by omega), if_neg (by omega), if_neg (by omega)]

theorem body_start_legal {s : State} (m : Mode) (h : s.configError = none) :
    body (.start m) s = .done (.okNat 0) (s.openRun m) := by
  simp only [body, h]

theorem body_start_illegal {s : State} (m : Mode) {r : Nat} (h : s.configError = some r) :
    body (.start m) s = .stop (.raised .config r) s := by
  simp only [body, h]

/-- A legal configuration opens the run. -/
theorem exec_start {s : State} (m : Mode) (hp : s.phase = .unconf) (h : s.LegalConfig) :
    exec (.start m) s = .next ((s.openRun m).okNat 0) :=
  exec_done rfl (State.accepts_of_unconf hp rfl) (body_start_legal m (State.configError_of_legalConfig h))

/-- The first register that fails its check decides FAULT_INFO. -/
theorem exec_start_config {s : State} (m : Mode) {r : Nat} (hp : s.phase = .unconf) (h : s.configError = some r) :
    exec (.start m) s = .next (s.raise .config r) :=
  exec_raised rfl (State.accepts_of_unconf hp rfl) (body_start_illegal m h)

/-- Settles O16: the checks of the configuration pass in order up to the first that fails, or all pass. -/
theorem startOpensTheRun : Obligations.StartOpensTheRun := by
  intro s m
  refine ⟨exec_start m, fun hp hP => ?_, fun hp hPlow hPhigh hK => ?_,
    fun hp hPlow hPhigh hKlow hKhigh hSL => ?_, fun hp hPlow hPhigh hKlow hKhigh hSLlow hSLhigh hSLquarter hESC => ?_,
    fun hp => exec_sequence_of_hasRun hp rfl State.accepts_start⟩ <;> refine exec_start_config m hp ?_
  · exact if_pos hP
  · rw [State.configError, if_neg (by omega), if_pos hK]
  · rw [State.configError, if_neg (by omega), if_neg (by omega), if_pos hSL]
  · rw [State.configError, if_neg (by omega), if_neg (by omega), if_neg (by omega), if_pos hESC]

end Sys2Proof.Machine
end

section
/-! The fault (60_exceptions.md): how it is entered (R240), what the block answers in phase FAULT (R241), and the order
in which a command's checks come (R235). -/

namespace Sys2Proof.Machine

/-! ### Fault entry (R231, R240) -/

/-- Settles O8: fault entry writes the record and loses the run, and R231 numbers the causes. -/
theorem faultEntryRecordsTheFault : Obligations.FaultEntryRecordsTheFault :=
  ⟨fun _ _ _ => ⟨rfl, decide_eq_true rfl, rfl, rfl, rfl, rfl, rfl, rfl, rfl, rfl, rfl, rfl, rfl, rfl⟩, rfl⟩

/-! ### Phase FAULT (R241) -/

theorem Instr.eq_crr_of_opcode {i : Instr} (h : i.opcode = .crr) : ∃ r, i = .crr r := by
  cases i <;> cases h
  exact ⟨_, rfl⟩

/-- Legal or not, a word other than a legal `CRR` is refused in phase FAULT. -/
theorem execWord_refused {w : Command} {s : State} (hp : s.phase = .fault) (hw : ∀ r, decode w ≠ .ok (.crr r)) :
    execWord w s = .next s.refuse := by
  cases hd : decode w with
  | error e => simp only [execWord, hd, illegalWord, if_pos hp]
  | ok i =>
    have hi : i.opcode ≠ .crr := fun h => by
      obtain ⟨r, rfl⟩ := Instr.eq_crr_of_opcode h
      exact hw r hd
    rw [execWord_ok hd, exec_eq, runCommand_refused hp (.inl hi)]

/-- A legal `CRR` answers OK and changes at most the free-value counter (log 6), in every phase. -/
theorem exec_crr_answers {r : SymField} (hr : controlIndexLegal r = true) (s : State) :
    ∃ v n, exec (.crr r) s = .next ({ s with freeCount := n }.respond (.ok v)) := by
  obtain ⟨v, n, hb⟩ := body_crr r s
  exact ⟨v, n, exec_done hr s.accepts_crr hb⟩

/-- Settles O9: the block takes the word, and it is refused or is a legal `CRR`. -/
theorem faultPhaseRefusesAllButCrr : Obligations.FaultPhaseRefusesAllButCrr := by
  intro s w rest hp hh hb
  have htaken := step_command hh hb
  refine ⟨fun hw => htaken.trans (execWord_refused (s := { s with host := rest }) hp hw), fun r hd => ?_⟩
  have hstep : step s = exec (.crr r) { s with host := rest } := htaken.trans (execWord_ok hd _)
  obtain ⟨v, n, he⟩ := exec_crr_answers (decodedWordIsItsEncoding w _ hd).2 { s with host := rest }
  exact ⟨hstep, v, n, hstep.trans he⟩

/-! ### The order of the checks (R235) -/

theorem exec_sequence {i : Instr} {s : State} (hp : s.phase ≠ .fault) (hi : i.wellFormed = true)
    (ha : s.accepts i.opcode = false) : exec i s = .next (s.raise .sequence (Instr.info i)) := by
  rw [exec_eq, runCommand_sequence hp hi ha]

/-- What neither phase UNCONF nor phase CLOSED accepts, only phase RUN does (30_encoding.md R90). -/
theorem State.phase_run_of_accepts {s : State} {op : Opcode} (ha : s.accepts op = true)
    (hunconf : acceptsUnconf op = false) (hclosed : acceptsClosed op = false) : s.phase = .run := by
  cases hp : s.phase with
  | run => rfl
  | unconf => simp [State.accepts, hp, hunconf] at ha
  | closed => simp [State.accepts, hp, hclosed] at ha
  | fault =>
    obtain rfl := State.accepts_fault hp ha
    cases hclosed

/-- `i` is one of the two commands that write a count, `FINC` and `FSET`, of the symbol `sym` in the table `o` names. -/
def CountWrite (i : Instr) (o : Order) (sym : SymField) : Prop := i = .finc o sym ∨ ∃ c, i = .fset o sym c

section

variable {i : Instr} {s : State} {o : Order} {sym : SymField}

theorem CountWrite.wellFormed_eq (h : CountWrite i o sym) : i.wellFormed = Order.legal o := by
  obtain rfl | ⟨c, rfl⟩ := h <;> rfl

theorem CountWrite.accepts_eq_false (h : CountWrite i o sym) (hp : s.phase ≠ .run) : s.accepts i.opcode = false := by
  refine Bool.eq_false_iff.mpr fun ha => hp ?_
  obtain rfl | ⟨c, rfl⟩ := h <;> exact State.phase_run_of_accepts ha rfl rfl

/-- In phase RUN what is left of the command is the symbol, the designator and the write. -/
theorem CountWrite.tableCommand (h : CountWrite i o sym) (hp : s.phase = .run) (ho : -1 ≤ o.toInt) :
    ∃ k, TableCommand i s o sym fun t s => withWritable i t s k := by
  obtain rfl | ⟨c, rfl⟩ := h
  · exact ⟨_, tableCommand_finc sym hp ho⟩
  · exact ⟨_, tableCommand_fset sym c hp ho⟩

end

/-- Settles O11: each check is reached when those before it pass. -/
theorem checksComeInOrder : Obligations.ChecksComeInOrder := by
  intro s o sym c hp i hi
  have hw : CountWrite i o sym := hi.imp_right fun h => ⟨c, h⟩
  refine ⟨fun ho => ?illegal, fun ho hr => ?sequence, fun ho hr hs => ?symbol, fun ho hr hs ht => ?absent,
    fun ho hr hs ht => ?flat⟩
  case illegal => exact exec_illegal hp (hw.wellFormed_eq.trans (decide_eq_false (not_le.mpr ho)))
  case sequence => exact exec_sequence hp (hw.wellFormed_eq.trans (order_legal_of_le ho)) (hw.accepts_eq_false hr)
  all_goals obtain ⟨k, hk⟩ := hw.tableCommand hr ho
  case symbol => exact hk.symbol_ge hs
  case absent => exact hk.absent hs ht
  case flat => exact hk.raised hs ht rfl

end Sys2Proof.Machine
end

section
/-! Reset (70_reset_and_hazards.md R260): between two commands, and during a command, of which only the byte-port calls
already made remain. -/

namespace Sys2Proof.Machine

/-- Reset between two commands: the host's queue moves on (20_memory.md R70). -/
theorem step_reset {s : State} {input : List InAnswer} {sink : List OutAnswer} {rest : List HostAction}
    (hh : s.host = .reset input sink :: rest) :
    step s = .next ({ s with host := rest }.resetBlock input sink) := by
  simp only [step, hh]

/-- Reset during a command cuts short what the command would have done. -/
theorem step_resetDuring {s u : State} {w : Command} {k : Nat} {input : List InAnswer} {sink : List OutAnswer}
    {rest : List HostAction} (hh : s.host = .resetDuring w k input sink :: rest) (hb : s.busy = none)
    (hu : execWord w { s with host := rest } = .next u) :
    step s = .next (cutShort { s with host := rest } u k input sink) := by
  simp only [hb] at hu
  simp only [step, hh, hb, hu]

/-- An illegal word calls no byte port. -/
theorem illegalWord_calls (w : Command) (s : State) : (illegalWord w s).calls = s.calls := by
  obtain h | ⟨n, h⟩ := illegalWord_cases w s <;> rw [h] <;> rfl

/-- A word taken while no command waits gives a next state, and calls its mode's port alone. -/
theorem execWord_portCalls {s : State} (w : Command) (hb : s.busy = none) :
    ∃ u, execWord w s = .next u ∧ PortCalls s u := by
  cases hd : decode w with
  | ok i =>
    obtain ⟨u, he, -, hcalls⟩ := exec_answersOnce i hb
    exact ⟨u, (execWord_ok hd s).trans he, hcalls⟩
  | error e => exact ⟨illegalWord w s, by simp only [execWord, hd], .of_calls_eq (illegalWord_calls w s)⟩

/-- Of the calls `l` that the command would have made, a reset after `k` of them leaves those `k`. -/
theorem cutShort_calls {s u : State} {l : List PortCall} (h : u.calls = s.calls ++ l) (k : Nat)
    (input : List InAnswer) (sink : List OutAnswer) :
    (cutShort s u k input sink).calls = s.calls ++ l.take k := by
  simp only [cutShort, h, List.drop_left]

/-- Settles O7: either way the block is reset, and the two resets differ only in the calls that stand and in the
counter of free values. -/
theorem resetFromAnyState : Obligations.ResetFromAnyState := by
  intro s input sink rest Fresh
  have hfresh : ∀ l n, Fresh { { s with host := rest }.resetBlock input sink with calls := l, freeCount := n } :=
    fun _ _ => by simp [Fresh, State.reset, State.hlen]
  refine ⟨fun hh => ⟨_, step_reset hh, hfresh _ _, rfl⟩, fun w k hh hb => ?_⟩
  obtain ⟨u, hu, l, hl, -⟩ := execWord_portCalls (s := { s with host := rest }) w hb
  exact ⟨_, u, step_resetDuring hh hb hu, hu, hfresh _ _, l, hl, cutShort_calls hl k input sink⟩

end Sys2Proof.Machine
end
